-- ==== Sys2Proof/Word.lean ====
section
/-! DEFINITION. The number types of the WG-412 and its fixed-length tables. -/

namespace Sys2Proof

/-- An 8-bit byte of a link. -/
abbrev Byte := BitVec 8

/-- A node identity is a 12-bit number (00_scope, Node identity). -/
abbrev NodeId := BitVec 12

/-- Ports 0 to 11: line degrees 0 to 7 and drop groups 8 to 11 (00_scope, Ports). -/
abbrev PortNo := Fin 12

/-- Line degrees 0 to 7. -/
abbrev DegreeNo := Fin 8

/-- Add groups 0 to 3, which have no link and no map. -/
abbrev AddGroup := Fin 4

/-- Context indices 0 to 63 (R21). -/
abbrev CtxIdx := Fin 64

/-- A table of `n` like things, indexed by number. -/
abbrev Table (n : Nat) (α : Type) := Vector α n

/-- Entry `i` of a table. -/
def Table.read {n : Nat} {α : Type} (t : Table n α) (i : Fin n) : α := t[i.val]'i.isLt

/-- The table with entry `i` replaced. -/
def Table.write {n : Nat} {α : Type} (t : Table n α) (i : Fin n) (x : α) : Table n α :=
  t.set i.val x i.isLt

/-- The table with `f` applied to entry `i`. -/
def Table.modify {n : Nat} {α : Type} (t : Table n α) (i : Fin n) (f : α → α) : Table n α :=
  Table.write t i (f (Table.read t i))

/-- A table with every entry `x`. -/
def Table.all {n : Nat} {α : Type} (x : α) : Table n α := Vector.replicate n x

/-- The line degree that a port number names, if it names one. -/
def degreeOf (p : PortNo) : Option DegreeNo :=
  if h : p.val < 8 then some ⟨p.val, h⟩ else none

/-- The port of a line degree. -/
def portOf (d : DegreeNo) : PortNo := ⟨d.val, Nat.lt_trans d.isLt (by decide)⟩

end Sys2Proof
end

