-- ==== Sys2Proof/Syntax.lean ====
section
/-! DEFINITION. The commands of the WG-412: one constructor for each row of the opcode table. -/

namespace Sys2Proof

/-- The steps of the part. A management command, a peer message or a report is taken from the head
of its own queue, so its fields stand in that queue (log 1). -/
inductive Instr where
  -- management commands, taken from the head of the command queue (R172)
  | commission
  | release
  | retrim
  | adopt
  | sync
  | block
  | unblock
  | profile
  | swap
  | thaw
  | portclear
  | setparam
  | getparam
  | readctx
  | readmap
  | readport
  | readnbr
  | readrpt
  | identq
  | settime
  /-- `straps`: the levels of the strap pins, read when the reset ends (R181); bit 12 is parity. -/
  | reset (straps : BitVec 13)
  -- frames arriving on a link (R184); `bytes` are what the link receives
  | commandArrival (bytes : List Byte)
  | peerFrameArrival (link : PortNo) (bytes : List Byte)
  | controllerFrameArrival (link : PortNo) (bytes : List Byte)
  -- peer messages, taken from the head of a degree's receive queue (R41)
  | offer (d : DegreeNo)
  | accept (d : DegreeNo)
  | decline (d : DegreeNo)
  | light (d : DegreeNo)
  | lit (d : DegreeNo)
  | releaseFromUpstream (d : DegreeNo)
  | abortFromDownstream (d : DegreeNo)
  | abortFromUpstream (d : DegreeNo)
  | hello (d : DegreeNo)
  | identQuery (d : DegreeNo)
  | identReply (d : DegreeNo)
  -- controller reports, taken from the head of a port's receive queue (R83)
  | actuated (p : PortNo)
  | power (p : PortNo)
  | settled (p : PortNo)
  | pendingUnits (p : PortNo)
  | continueUnit (p : PortNo)
  | gain (p : PortNo)
  | lineUp (p : PortNo)
  | lineDown (p : PortNo)
  -- expiries
  | offerTimeout (i : CtxIdx)
  | lightTimeout (i : CtxIdx)
  | openTimeout (i : CtxIdx)
  | measureTimeout (i : CtxIdx)
  | litTimeout (i : CtxIdx)
  | closeTimeout (i : CtxIdx)
  | actuationWindowExpiry (p : PortNo)
  | observationWindowExpiry (p : PortNo)
  | helloTimerExpiry (d : DegreeNo)
  | deadTimerExpiry (d : DegreeNo)
  | recoveryTimerExpiry (d : DegreeNo)
  | identTimerExpiry (d : DegreeNo)
  | lampFastHoldExpiry (d : DegreeNo)
  -- the clock and the reset pin
  | timeBaseTick
  | resetPinAssert
  | resetPinRelease (straps : BitVec 13)
  -- frames and commands of unknown kind
  | unknownPeerKindTaken (d : DegreeNo)
  | unknownCommandKind
deriving DecidableEq, Repr

end Sys2Proof
end

