-- ==== Sys2Proof/Decode.lean ====
section
/-! DEFINITION. The command that a word of the opcode table spells. The table gives none of its 61
rows any bits (98_reader: `n_rows_with_fixed` 0), so no word spells a command. -/

namespace Sys2Proof

/-- No row of spec/opcode_table.json has bits, so every word is refused. -/
def decodeTableWord (_nbits _w : Nat) : Option Instr := none

end Sys2Proof
end

