-- ==== Sys2Proof/Config.lean ====
section
/-! DEFINITION. The constants of the part that the manual fixes, and the one value it leaves open. -/

namespace Sys2Proof.Config

/-- Cells of the band, 0 to 399 (00_scope, Cells and ranges). -/
abbrev nCells : Nat := 400

/-- Dark: the attenuation 25.00 dB (00_scope, Terms). -/
abbrev dark : Nat := 2500

/-- Part code of the WG-412 (11, section 11.3, object 1). -/
abbrev partCode : Nat := 0x0C5D

/-- Grid code of the 400-cell, 12 GHz grid (11, section 11.3, object 2). -/
abbrev gridCode : Nat := 1

/-- Capacities (R21, R40, R83, R172, R176). -/
abbrev tableCapacity : Nat := 64
abbrev peerQueueCapacity : Nat := 16
abbrev controllerQueueCapacity : Nat := 8
abbrev commandQueueCapacity : Nat := 4
abbrev ringCapacity : Nat := 64

/-- Largest value of the saturating 16-bit counts (R25, R114). -/
abbrev countMax : Nat := 65535

/-- The lamp stays FAST this long after the last return to IDLE, in milliseconds (R180). -/
abbrev lampHold : Nat := 250

/-- FREE VALUE (log 9): the kind or sequence byte echoed to a command body too short to hold it. -/
opaque missingEcho : Nat → Byte

end Sys2Proof.Config
end

