-- ==== Sys2Proof/Machine/State.lean ====
section
/-! DEFINITION. The state of the WG-412 as plain data, what a step can end in, and the state after
reset. Each type cites the rule of spec/ that gives it. -/

namespace Sys2Proof.Machine

open Sys2Proof

/-! ### Spectrum (chapter 1) -/

/-- A map entry: cell state with its owner, present exactly for Held, Reserved and Open (R1). -/
inductive Cell where
  | free
  | blocked
  | held (owner : CtxIdx)
  | reserved (owner : CtxIdx)
  | opened (owner : CtxIdx)
deriving DecidableEq, Repr

/-- A port map: 400 entries indexed by cell number (R1). -/
abbrev PortMap := Table Config.nCells Cell

/-- A profile bank: 400 target power densities in 0.01 dBm (R17). -/
abbrev Profile := Table Config.nCells Int

/-- The two banks of a port (R17). -/
inductive Bank where
  | a
  | b
deriving DecidableEq, Repr

/-! ### Paths and contexts (chapter 2) -/

/-- A path identity: head node identity and serial (00_scope). -/
structure PathId where
  head : NodeId
  serial : BitVec 16
deriving DecidableEq, Repr

/-- Role of a node on a path (R22). -/
inductive Role where
  | head
  | transit
  | tail
deriving DecidableEq, Repr

/-- Class of a context (R22). -/
inductive PathClass where
  | normal
  | restore
deriving DecidableEq, Repr

/-- Tie direction (R22, R62). -/
inductive Tie where
  | low
  | high
deriving DecidableEq, Repr

/-- Where a context's channel enters: an add group at a head, a line degree elsewhere (R22). -/
inductive InPort where
  | addGroup (g : AddGroup)
  | degree (d : DegreeNo)
deriving DecidableEq, Repr

/-- The states of a non-FREE context (R27). -/
inductive CtxState where
  | offered
  | awaitLight
  | preparing
  | ramping
  | litWait
  | inService
  | trimming
  | retreating
  | closing
deriving DecidableEq, Repr

/-- Kind of ramp (R25). -/
inductive RampKind where
  | ramp
  | trim
  | retreat
deriving DecidableEq, Repr

/-- The four controller requests (R84). -/
inductive ReqKind where
  | openBand
  | measure
  | set
  | close
deriving DecidableEq, Repr

/-- Reasons of DECLINE, ABORT and path-end records (section 11.6). -/
inductive Reason where
  | noSpectrum
  | offerTimeout
  | routeError
  | routeLoop
  | noAdjacency
  | neighbourBusy
  | notSynced
  | gridMismatch
  | tableFull
  | unknownPath
  | protocolError
  | actuateFailed
  | actuateTimeout
  | noInputPower
  | noGain
  | inputTooHigh
  | disturbanceAbort
  | settleTimeout
  | lightTimeout
  | litTimeout
  | releasedByManager
  | adjacencyLost
  | lineDown
  | portCleared
deriving DecidableEq, Repr

/-- First cause of a teardown (R153). -/
inductive Cause where
  | managementRelease
  | localAbort
  | abortFromDownstream
  | abortFromUpstream
  | releaseFromUpstream
  | outPortLineDown
  | inPortLineDown
  | outPortAdjacencyLost
  | inPortAdjacencyLost
  | portClear
deriving DecidableEq, Repr

/-- Going-dark way (R153). -/
inductive Way where
  | none
  | retreat
  | darkJump
deriving DecidableEq, Repr

/-- Downstream notice (R153). -/
inductive Notice where
  | none
  | abort
  | release
deriving DecidableEq, Repr

/-- The three items teardown records in a context (R153). -/
structure Teardown where
  cause : Cause
  way : Way
  notice : Notice
deriving DecidableEq, Repr

/-- The five flags of a context (R26). -/
structure CtxFlags where
  shortPower : Bool
  trimHalted : Bool
  trimDue : Bool
  closeForced : Bool
  closeUnconfirmed : Bool
deriving DecidableEq, Repr

/-- All five flags clear, as at creation (R26). -/
def CtxFlags.clear : CtxFlags := ⟨false, false, false, false, false⟩

/-- A candidate: first cell and accumulated cost (R23). -/
structure Candidate where
  s : Nat
  cost : Nat
deriving DecidableEq, Repr

/-- The fields of a non-FREE context, other than its index and its request tag (R22 to R27, R153). -/
structure Context where
  path : PathId
  role : Role
  cls : PathClass
  inPort : InPort
  outPort : PortNo
  width : Nat
  tie : Option Tie
  hop : Option Nat
  remaining : Option Nat
  state : CtxState
  candidates : Option (List Candidate)
  chosen : Option Nat
  totalCost : Option Nat
  att : Option Nat
  target : Option Nat
  power : Option Int
  base : Option Nat
  stepSize : Option Nat
  clean : Nat
  steps : Nat
  backoffs : Nat
  kind : Option RampKind
  flags : CtxFlags
  attempts : Nat
  outstanding : Option ReqKind
  /-- The armed expiry in elapsed milliseconds, or disarmed (R32). -/
  timer : Option Nat
  startTag : BitVec 32
  serviceTag : Option (BitVec 32)
  slowest : Nat
  abortReason : Option Reason
  origin : Option NodeId
  teardown : Option Teardown
deriving DecidableEq, Repr

/-- A record of the context table: its request tag, and its context or FREE (R21, R30). -/
structure Record where
  tag : Byte
  ctx : Option Context
deriving DecidableEq, Repr

/-! ### Peer messages (chapter 3, section 11.3) -/

/-- Adjacency state of a degree (R43). -/
inductive AdjState where
  | down
  | probing
  | up
  | recovery
deriving DecidableEq, Repr

/-- Verification of a degree's neighbour (R43). -/
inductive Verif where
  | none
  | pending
  | verified
  | mismatched
  | unverified
deriving DecidableEq, Repr

/-- An object of an IDENT-REPLY: its object number and contents (section 11.3). -/
structure IdentObject where
  number : Byte
  contents : List Byte
deriving DecidableEq, Repr

/-- A route entry: node identity and out-port (R64). -/
structure RouteEntry where
  node : NodeId
  port : PortNo
deriving DecidableEq, Repr

/-- The body of an OFFER after its path identity (R64). -/
structure OfferFields where
  cls : PathClass
  width : Nat
  tie : Tie
  hop : Nat
  route : List RouteEntry
  candidates : List Candidate
deriving DecidableEq, Repr

/-- The ten kinds of peer message with their fields (section 11.3). -/
inductive PeerMsg where
  | offer (path : PathId) (fields : OfferFields)
  | accept (path : PathId) (s cost : Nat)
  | decline (path : PathId) (reason : Reason) (origin : NodeId)
  | light (path : PathId)
  | lit (path : PathId)
  | release (path : PathId)
  | abort (path : PathId) (reason : Reason) (origin : NodeId)
  | hello (sender : AdjState) (full : Bool) (unsynced : List Nat)
  | identQuery
  | identReply (ack : Bool) (objects : List IdentObject)
deriving DecidableEq, Repr

/-- A peer message with its header (section 11.3). -/
structure PeerFrame where
  dest : NodeId
  src : NodeId
  srcDegree : DegreeNo
  msg : PeerMsg
deriving DecidableEq, Repr

/-! ### Controller stream (chapter 5, section 11.4) -/

/-- A controller request (R84): kind, context index, tag, range, and the attenuation of a SET. -/
structure Request where
  kind : ReqKind
  idx : CtxIdx
  tag : Byte
  s : Nat
  n : Nat
  att : Nat
deriving DecidableEq, Repr

/-- A controller report whose body has passed its check on arrival (R185). -/
inductive Report where
  | actuated (idx : CtxIdx) (tag : Byte) (done : Bool) (applied : Int)
  | power (idx : CtxIdx) (tag : Byte) (p : Int)
  | settled (idx : CtxIdx) (tag : Byte) (dp : Nat)
  | pending (idx : CtxIdx) (tag : Byte) (k : Nat)
  | continue_ (idx : CtxIdx) (tag : Byte)
  | gain (g : Int)
  | lineUp
  | lineDown
deriving DecidableEq, Repr

/-- What the part forms for a port link (R186). -/
inductive OutFrame where
  | peer (f : PeerFrame)
  | request (r : Request)
deriving DecidableEq, Repr

/-! ### Steps (chapter 7) -/

/-- Step phase (R114). -/
inductive Phase where
  | idle
  | actuating
  | observing
deriving DecidableEq, Repr

/-- The settings latched for the step in flight (R114, R118). -/
structure StepSettings where
  actuation : Nat
  observation : Nat
  extensionUnit : Nat
  extensionCap : Nat
deriving DecidableEq, Repr

/-- The three queues of a step arbiter, by rank (R115). -/
inductive QueueSel where
  | retreat
  | restore
  | normal
deriving DecidableEq, Repr

/-- Per-port parameters: guard (R7), calculator (R113) and step machine (R134). -/
structure PortParams where
  sparseCode : Nat
  denseCode : Nat
  sparseThreshold : Nat
  gOk : Nat
  gAbort : Nat
  actuationWindow : Nat
  observationWindow : Nat
  extensionUnit : Nat
  extensionCap : Nat
  burstCode : Nat
  haltOnDisturbance : Bool
  guard : Nat
deriving DecidableEq, Repr

/-- Defaults of the per-port parameters (R7, R113, R134). -/
def PortParams.default : PortParams :=
  { sparseCode := 2, denseCode := 8, sparseThreshold := 8, gOk := 30, gAbort := 100,
    actuationWindow := 50, observationWindow := 200, extensionUnit := 100, extensionCap := 8,
    burstCode := 3, haltOnDisturbance := false, guard := 1 }

/-- Everything the part holds for one port: map and profiles (R1, R14, R17), controller exchange
(R82), step arbiter and step timer (R114), parameters, and the two sides of the port link. -/
structure PortState where
  map : PortMap
  synced : Bool
  bankA : Profile
  bankB : Profile
  active : Bank
  swapPending : Bool
  gain : Option Nat
  lineIsUp : Bool
  reports : List Report
  overflow : Bool
  retreatQ : List CtxIdx
  restoreQ : List CtxIdx
  normalQ : List CtxIdx
  holder : Option CtxIdx
  tenure : Nat
  frozen : Bool
  phase : Phase
  expiry : Option Nat
  requested : Option Nat
  settings : Option StepSettings
  unitsUsed : Nat
  confirmMark : Option Nat
  retreatDue : Bool
  slowest : Nat
  params : PortParams
  /-- Bytes the link's receiver has not yet judged (R184). -/
  rx : List Byte
  /-- Frames formed for the link, in order (R186). -/
  out : List OutFrame
deriving DecidableEq, Repr

/-- A port after a reset of the part (R1, R14, R17, R82, R114, R182). -/
def PortState.reset : PortState :=
  { map := Table.all .free, synced := false,
    bankA := Table.all (-300), bankB := Table.all (-300), active := .a, swapPending := false,
    gain := none, lineIsUp := false, reports := [], overflow := false,
    retreatQ := [], restoreQ := [], normalQ := [], holder := none, tenure := 0, frozen := false,
    phase := .idle, expiry := none, requested := none, settings := none, unitsUsed := 0,
    confirmMark := none, retreatDue := false, slowest := 0, params := .default, rx := [], out := [] }

/-! ### Degrees (chapter 3) -/

/-- Lamp modes (R174). -/
inductive LampMode where
  | auto
  | off
  | on
  | slow
  | fast
deriving DecidableEq, Repr

/-- Everything the part holds for one line degree: adjacency monitor (R43), peer receive queue
(R40) and lamp (R180). -/
structure DegreeState where
  adj : AdjState
  nbrId : Option NodeId
  nbrDegree : Option DegreeNo
  nbrFull : Bool
  nbrUnsynced : List PortNo
  seenUp : Bool
  verif : Verif
  objects : List IdentObject
  queryAttempts : Nat
  helloTimer : Option Nat
  deadTimer : Option Nat
  recoveryTimer : Option Nat
  identTimer : Option Nat
  /-- Bodies of accepted peer frames, oldest first (R40). -/
  peerQueue : List (List Byte)
  overflow : Bool
  lampMode : LampMode
  /-- Running out of the 250 ms after the last return to IDLE, while they run (R180). -/
  lampHold : Option Nat
deriving DecidableEq, Repr

/-- A degree after a reset of the part (R40, R43, R180). -/
def DegreeState.reset : DegreeState :=
  { adj := .down, nbrId := none, nbrDegree := none, nbrFull := false, nbrUnsynced := [],
    seenUp := false, verif := .none, objects := [], queryAttempts := 0, helloTimer := none,
    deadTimer := none, recoveryTimer := none, identTimer := none, peerQueue := [],
    overflow := false, lampMode := .auto, lampHold := none }

/-! ### Management (chapter 10) -/

/-- Part-wide parameters (R174). -/
structure PartParams where
  helloInterval : Nat
  deadTime : Nat
  recoveryHold : Nat
  identTimeout : Nat
  identAttempts : Nat
  offerHop : Nat
  litHop : Nat
  measureTimeout : Nat
  measureAttempts : Nat
  acceptAll : Bool
  groupAccept : Bool
  groupId : Nat
deriving DecidableEq, Repr

/-- Defaults of the part-wide parameters (R174). -/
def PartParams.default : PartParams :=
  { helloInterval := 100, deadTime := 400, recoveryHold := 1000, identTimeout := 500,
    identAttempts := 3, offerHop := 250, litHop := 10000, measureTimeout := 100,
    measureAttempts := 3, acceptAll := true, groupAccept := false, groupId := 1 }

/-- PathEnd outcomes (R34). -/
inductive PathOutcome where
  | released
  | aborted
  | declined
deriving DecidableEq, Repr

/-- Events of a Port record (R176). -/
inductive PortEvent where
  | frozen
  | swapDone
  | closeUnconfirmed
deriving DecidableEq, Repr

/-- The fields of a PathEnd record (R34). -/
structure PathEnd where
  path : PathId
  role : Role
  outcome : PathOutcome
  reason : Option Reason
  origin : Option NodeId
  startTag : BitVec 32
  endTag : BitVec 32
  steps : Nat
  backoffs : Nat
  slowest : Nat
  flags : CtxFlags
deriving DecidableEq, Repr

/-- Records of the report ring (R176). -/
inductive RingRecord where
  | pathEnd (r : PathEnd)
  | inService (path : PathId) (role : Role) (tag : BitVec 32) (att : Nat) (flags : CtxFlags)
  /-- With the flags that R26 says it carries; its layout has no byte for them (log 36). -/
  | trim (path : PathId) (done : Bool) (att : Nat) (flags : CtxFlags)
  | port (p : PortNo) (event : PortEvent)
  | adjacency (d : DegreeNo) (state : AdjState) (neighbour : Option NodeId) (verif : Verif)
deriving DecidableEq, Repr

/-- Result codes (R173). -/
inductive ResultCode where
  | ok
  | malformed
  | badPort
  | badRange
  | badRoute
  | noIdentity
  | tableFull
  | notSynced
  | noAdjacency
  | neighbourBusy
  | noSpectrum
  | duplicate
  | unknownPath
  | wrongState
  | wrongRole
  | wrongBank
  | conflict
deriving DecidableEq, Repr

/-- A run of a READMAP response: first cell, count and the common entry (R15). -/
structure MapRun where
  first : Nat
  count : Nat
  cell : Cell
deriving DecidableEq, Repr

/-- The items of a READPORT response (R175). -/
structure PortView where
  synced : Bool
  active : Bank
  swapPending : Bool
  gain : Option Nat
  lineIsUp : Bool
  overflow : Bool
  frozen : Bool
  phase : Phase
  holder : Option CtxIdx
  tenure : Nat
  retreatQ : List CtxIdx
  restoreQ : List CtxIdx
  normalQ : List CtxIdx
  slowest : Nat
deriving DecidableEq, Repr

/-- The items of a READNBR response (R57). -/
structure NbrView where
  adj : AdjState
  nbrId : Option NodeId
  nbrDegree : Option DegreeNo
  nbrFull : Bool
  nbrUnsynced : List PortNo
  seenUp : Bool
  verif : Verif
  queryAttempts : Nat
  objects : List IdentObject
  overflow : Bool
deriving DecidableEq, Repr

/-- Response fields of a command answered OK (section 11.5). -/
inductive RespBody where
  | none
  | path (i : CtxIdx) (path : PathId)
  | index (i : CtxIdx)
  | value (v : Int)
  | runs (rs : List MapRun)
  | ring (lost : Bool) (left : Nat) (records : List RingRecord)
  | context (i : CtxIdx) (r : Record) (remaining : Option Nat)
  | portItems (v : PortView)
  | nbrItems (v : NbrView)
deriving DecidableEq, Repr

/-- A management response (R172): echoed kind and sequence number, result code, Clamped flag, time
base, and the response fields. -/
structure Response where
  kind : Byte
  seqHi : Byte
  seqLo : Byte
  code : ResultCode
  clamped : Bool
  time : BitVec 32
  body : RespBody
deriving DecidableEq, Repr

/-! ### The machine -/

/-- The whole state of the part. -/
structure State where
  records : Table 64 Record
  ports : Table 12 PortState
  degrees : Table 8 DegreeState
  part : PartParams
  ring : List RingRecord
  lost : Bool
  timeBase : BitVec 32
  /-- Milliseconds of elapsed time, which no command sets and every timer is measured by (R32). -/
  elapsed : Nat
  /-- The strap pins as read at the last reset: bits 0 to 11 the identity, bit 12 parity (R181). -/
  straps : BitVec 13
  /-- The reset pin is asserted (R182). -/
  inReset : Bool
  /-- Bodies of the commands that wait, oldest first (R172). -/
  commands : List (List Byte)
  /-- Bytes the management link's receiver has not yet judged (R184). -/
  mgmtRx : List Byte
  /-- Responses sent on the management link, in order (R172). -/
  responses : List Response
  /-- The model's own: index of the next free value (log 9). -/
  freeNext : Nat
  /-- The model's own: the commands that wait to be run, first in first out. -/
  pending : List Instr
deriving DecidableEq, Repr

/-- No command stops the part: the manual gives every event an effect, so there is no fault. -/
inductive Fault where
deriving DecidableEq, Repr

/-- Why a command has no meaning. -/
inductive Refusal where
  /-- Raised by exec's arm for a command whose meaning is not written; safe. No arm raises it. -/
  | notModelled (mnemonic : String)
deriving DecidableEq, Repr

/-- The part after a reset whose straps were read as `straps` (R182). -/
def State.resetWith (straps : BitVec 13) : State :=
  { records := Table.all ⟨0, none⟩, ports := Table.all .reset, degrees := Table.all .reset,
    part := .default, ring := [], lost := false, timeBase := 0, elapsed := 0, straps := straps,
    inReset := false, commands := [], mgmtRx := [], responses := [], freeNext := 0, pending := [] }

/-- The part right after a reset, every strap pin low (DESIGN CHOICE, log 4). -/
def State.reset : State := State.resetWith 0

end Sys2Proof.Machine
end

