-- ==== Sys2Proof/Machine/Frames.lean ====
section
/-! DEFINITION. Byte order, the check code and the outer frame of every link (chapter 11, R184). -/

namespace Sys2Proof.Machine

open Sys2Proof

/-! ### Fields of more than one byte: most significant byte first -/

/-- A two-byte field. -/
def be2 (hi lo : Byte) : Nat := hi.toNat * 256 + lo.toNat

/-- A four-byte field. -/
def be4 (a b c d : Byte) : Nat := be2 a b * 65536 + be2 c d

/-- A field of `bits` bits read as two's complement. -/
def signedOf (bits : Nat) (x : Nat) : Int :=
  if x < 2 ^ (bits - 1) then (x : Int) else (x : Int) - (2 ^ bits : Nat)

/-- One byte of a number. -/
def byteOf (x : Nat) : Byte := BitVec.ofNat 8 x

/-- A number as a two-byte field. -/
def put2 (x : Nat) : List Byte := [byteOf (x / 256), byteOf x]

/-- A number as a four-byte field. -/
def put4 (x : Nat) : List Byte := put2 (x / 65536) ++ put2 x

/-- An integer as a signed two-byte field. -/
def putSigned2 (x : Int) : List Byte := put2 (x % 65536).toNat

/-- An integer as a signed four-byte field. -/
def putSigned4 (x : Int) : List Byte := put4 (x % 4294967296).toNat

/-- A flag as a byte: 1 set, 0 clear (section 11.5). -/
def putFlag (b : Bool) : Byte := if b then 1 else 0

/-! ### The check (R184) -/

/-- The check register after one bit: the top bit leaves, and folds back x¹² + x⁵ + 1. -/
def crcBit (r : BitVec 16) : BitVec 16 :=
  if r.getLsbD 15 then (r <<< 1) ^^^ 0x1021#16 else r <<< 1

/-- The check register after `k` bits. -/
def crcBits : Nat → BitVec 16 → BitVec 16
  | 0, r => r
  | k + 1, r => crcBits k (crcBit r)

/-- The check register after one byte, most significant bit first. -/
def crcByte (r : BitVec 16) (b : Byte) : BitVec 16 :=
  crcBits 8 (r ^^^ (b.zeroExtend 16 <<< 8))

/-- The check over a list of bytes, from all ones and not inverted (R184). -/
def crc (bytes : List Byte) : BitVec 16 := bytes.foldl crcByte 0xFFFF#16

/-! ### Frames -/

/-- The two bytes of the start marker. -/
abbrev marker1 : Byte := 0xA5
abbrev marker2 : Byte := 0x5A

/-- A frame the part forms: marker, length, stream flag, body and check (R186). -/
def frameBytes (flag : Byte) (body : List Byte) : List Byte :=
  let covered := put2 (body.length + 1) ++ flag :: body
  marker1 :: marker2 :: covered ++ put2 (crc covered).toNat

/-- Stream flags (section 11.1). -/
abbrev flagController : Byte := 1
abbrev flagPeer : Byte := 2
abbrev flagManagement : Byte := 3

/-- What a link accepts: the largest length, the stream flags it carries (R184), and the bodies of a
stream that it judges on arrival (R185). -/
structure LinkRule where
  maxLength : Nat
  flags : List Byte
  bodyPasses : Byte → List Byte → Bool

/-- A good frame: its stream flag and its body. -/
structure GoodFrame where
  flag : Byte
  body : List Byte
deriving DecidableEq, Repr

/-- The bytes from the first start marker on, or those that may still begin one. -/
def seekMarker : List Byte → List Byte
  | [] => []
  | [b] => if b = marker1 then [b] else []
  | a :: b :: rest => if a = marker1 ∧ b = marker2 then a :: b :: rest else seekMarker (b :: rest)

/-- The judgement of a whole frame (R184, R185): `content` is the length field's bytes after offset 4. -/
def judgeFrame (rule : LinkRule) (hi lo : Byte) (content : List Byte) (check : List Byte) :
    Option GoodFrame :=
  match content, check with
  | flag :: body, [c1, c0] =>
    if 1 ≤ be2 hi lo ∧ be2 hi lo ≤ rule.maxLength
        ∧ crc (hi :: lo :: content) = BitVec.ofNat 16 (be2 c1 c0)
        ∧ flag ∈ rule.flags ∧ rule.bodyPasses flag body = true then
      some ⟨flag, body⟩
    else none
  | _, _ => none

/-- The receiver of a link over the bytes it holds: the good frames in order, and the bytes of a
frame not yet whole. A bad frame is discarded and the search goes on at the byte after its start
marker; a good frame is consumed by its length (R184). Each round consumes at least the marker, so
`fuel` rounds suffice for that many bytes. -/
def receive (rule : LinkRule) : Nat → List Byte → List GoodFrame × List Byte
  | 0, bytes => ([], bytes)
  | fuel + 1, bytes =>
    match seekMarker bytes with
    | m1 :: m2 :: hi :: lo :: rest =>
      let len := be2 hi lo
      if rest.length < len + 2 then ([], m1 :: m2 :: hi :: lo :: rest)
      else
        match judgeFrame rule hi lo (rest.take len) ((rest.drop len).take 2) with
        | some f =>
          let (fs, left) := receive rule fuel (rest.drop (len + 2))
          (f :: fs, left)
        | none => receive rule fuel (hi :: lo :: rest)
    | short => ([], short)

/-- The receiver run over the bytes it held and those that have arrived. -/
def receiveAll (rule : LinkRule) (held arrived : List Byte) : List GoodFrame × List Byte :=
  receive rule ((held ++ arrived).length + 1) (held ++ arrived)

end Sys2Proof.Machine
end

