-- ==== Sys2Proof/Machine/Operands.lean ====
section
/-! DEFINITION. The operand forms: how the bodies of management commands, peer messages and
controller reports are read (sections 11.3 to 11.5, R173, R185). Each reader answers none where the
body fails its check. -/

namespace Sys2Proof.Machine

open Sys2Proof

/-! ### Fields that several layouts share -/

/-- A node identity field: two bytes with the upper four bits zero (chapter 11, log 10). -/
def readNode (hi lo : Byte) : Option NodeId :=
  if be2 hi lo < 4096 then some (BitVec.ofNat 12 (be2 hi lo)) else none

/-- A valid node identity, 1 to 4094 (00_scope, Node identity). -/
def nodeInRange (x : Nat) : Bool := decide (1 ≤ x) && decide (x ≤ 4094)

/-- A path identity whose head lies from 1 to 4094 (R173, R185). In a management command R173 names only
the heads 0 and 4095; that a head of 4096 or more does not decode either is the model's choice (log 10). -/
def readPath (a b c d : Byte) : Option PathId :=
  if nodeInRange (be2 a b) then
    some ⟨BitVec.ofNat 12 (be2 a b), BitVec.ofNat 16 (be2 c d)⟩
  else none

/-- A line degree field, 0 to 7. -/
def readDegree (b : Byte) : Option DegreeNo :=
  if h : b.toNat < 8 then some ⟨b.toNat, h⟩ else none

/-- A port field, 0 to 11. -/
def readPort (b : Byte) : Option PortNo :=
  if h : b.toNat < 12 then some ⟨b.toNat, h⟩ else none

/-- A context index field, 0 to 63. -/
def readIndex (b : Byte) : Option CtxIdx :=
  if h : b.toNat < 64 then some ⟨b.toNat, h⟩ else none

/-- Class codes (section 11.3). -/
def readClass (b : Byte) : Option PathClass :=
  if b = 1 then some .normal else if b = 2 then some .restore else none

/-- Tie direction codes (section 11.3). -/
def readTie (b : Byte) : Option Tie :=
  if b = 1 then some .low else if b = 2 then some .high else none

/-- Role codes (section 11.5). -/
def readRole (b : Byte) : Option Role :=
  if b = 1 then some .head else if b = 2 then some .transit else if b = 3 then some .tail
  else none

/-- The reasons in the order of their codes 1 to 24 (section 11.6). -/
def reasons : List Reason :=
  [.noSpectrum, .offerTimeout, .routeError, .routeLoop, .noAdjacency, .neighbourBusy,
   .notSynced, .gridMismatch, .tableFull, .unknownPath, .protocolError, .actuateFailed,
   .actuateTimeout, .noInputPower, .noGain, .inputTooHigh, .disturbanceAbort, .settleTimeout,
   .lightTimeout, .litTimeout, .releasedByManager, .adjacencyLost, .lineDown, .portCleared]

/-- Reason codes 1 to 24 (section 11.6). -/
def readReason (b : Byte) : Option Reason :=
  if b = 0 then none else reasons[b.toNat - 1]?

/-- `e` triples of a two-byte and a one-byte field, and the bytes after them. -/
def readTriples : Nat → List Byte → Option (List (Nat × Nat) × List Byte)
  | 0, bytes => some ([], bytes)
  | e + 1, a :: b :: c :: rest =>
    (readTriples e rest).map fun r => ((be2 a b, c.toNat) :: r.1, r.2)
  | _ + 1, _ => none

/-- All of a list's entries read, or none. -/
def readAll {α β : Type} (f : α → Option β) : List α → Option (List β)
  | [] => some []
  | x :: xs =>
    match f x, readAll f xs with
    | some y, some ys => some (y :: ys)
    | _, _ => none

/-! ### Peer messages (section 11.3, R41 check 1, R185) -/

/-- A route entry of an OFFER: node identity 0 to 4095 and port 0 to 11 (R64). -/
def readRouteEntry (x : Nat × Nat) : Option RouteEntry :=
  if h : x.1 < 4096 ∧ x.2 < 12 then some ⟨BitVec.ofNat 12 x.1, ⟨x.2, h.2⟩⟩ else none

/-- A candidate of an OFFER of width `n`: s from 0 to 400 − n, cost 0 to 32 (R64). -/
def readCandidate (n : Nat) (x : Nat × Nat) : Option Candidate :=
  if x.1 + n ≤ Config.nCells ∧ x.2 ≤ 32 then some ⟨x.1, x.2⟩ else none

/-- The OFFER's fields after its path identity (R64). -/
def readOffer (path : PathId) : List Byte → Option PeerMsg
  | cls :: n :: tie :: hop :: e :: c :: rest =>
    match readClass cls, readTie tie, readTriples e.toNat rest with
    | some cl, some ti, some (route, rest2) =>
      match readTriples c.toNat rest2 with
      | some (cands, []) =>
        match readAll readRouteEntry route, readAll (readCandidate n.toNat) cands with
        | some rs, some cs =>
          if 1 ≤ n.toNat ∧ n.toNat ≤ 16 ∧ 2 ≤ hop.toNat ∧ hop.toNat ≤ 16
              ∧ 1 ≤ e.toNat ∧ e.toNat ≤ 15 ∧ 1 ≤ c.toNat ∧ c.toNat ≤ 8
              ∧ (cs.map (·.s)).Nodup then
            some (.offer path ⟨cl, n.toNat, ti, hop.toNat, rs, cs⟩)
          else none
        | _, _ => none
      | _ => none
    | _, _, _ => none
  | _ => none

/-- The objects of an IDENT-REPLY: `k` of them and no bytes left over. Each keeps its whole contents,
the extra bytes of one longer than its layout too (log 38). -/
def readObjects : Nat → List Byte → Option (List IdentObject)
  | 0, [] => some []
  | 0, _ :: _ => none
  | k + 1, num :: len :: rest =>
    if rest.length < len.toNat then none
    else (readObjects k (rest.drop len.toNat)).map
      fun os => ⟨num, rest.take len.toNat⟩ :: os
  | _ + 1, _ => none

/-- The objects have the lengths the format asks: the first two at least their layouts (R185), the
fifth and sixth at most 32 bytes (section 11.3, log 12). -/
def objectsLongEnough (os : List IdentObject) : Bool :=
  (os[0]?.all fun o => decide (4 ≤ o.contents.length)) &&
  (os[1]?.all fun o => decide (3 ≤ o.contents.length)) &&
  (os.drop 4).all fun o => decide (o.contents.length ≤ 32)

/-- The fields of an IDENT-REPLY (section 11.3). -/
def readIdentReply : List Byte → Option PeerMsg
  | kind :: count :: rest =>
    match readObjects count.toNat rest with
    | some os =>
      if kind = 2 ∧ count = 0 then some (.identReply false [])
      else if kind = 1 ∧ count.toNat ≤ 6 ∧ objectsLongEnough os then some (.identReply true os)
      else none
    | none => none
  | _ => none

/-- The fields of a HELLO (section 11.3). -/
def readHello : List Byte → Option PeerMsg
  | sender :: full :: u :: ports =>
    if u.toNat ≤ 12 ∧ ports.length = u.toNat ∧ (full = 0 ∨ full = 1) then
      if sender = 2 then some (.hello .probing (full = 1) (ports.map (·.toNat)))
      else if sender = 3 then some (.hello .up (full = 1) (ports.map (·.toNat)))
      else none
    else none
  | _ => none

/-- A message of kinds 1 to 7 after its header, from its path identity on (section 11.3). -/
def readPathMessage (kind : Nat) : List Byte → Option PeerMsg
  | a :: b :: c :: d :: fields =>
    match readPath a b c d with
    | none => none
    | some path =>
      match kind, fields with
      | 1, fs => readOffer path fs
      | 2, [s1, s0, cost] => some (.accept path (be2 s1 s0) cost.toNat)
      | 3, [r, o1, o0] =>
        match readReason r, readNode o1 o0 with
        | some reason, some origin => some (.decline path reason origin)
        | _, _ => none
      | 4, [] => some (.light path)
      | 5, [] => some (.lit path)
      | 6, [] => some (.release path)
      | 7, [r, o1, o0] =>
        match readReason r, readNode o1 o0 with
        | some reason, some origin => some (.abort path reason origin)
        | _, _ => none
      | _, _ => none
  | _ => none

/-- The message after its header, by its kind byte. -/
def readMessage (kind : Nat) (fields : List Byte) : Option PeerMsg :=
  if kind ≤ 7 then readPathMessage kind fields
  else if kind = 8 then readHello fields
  else if kind = 9 then (if fields = [] then some .identQuery else none)
  else if kind = 10 then readIdentReply fields
  else none

/-- The message kind byte of a queued peer body, at offset 5; absent in a shorter body. -/
def peerKind (body : List Byte) : Option Nat := (body[5]?).map (·.toNat)

/-- The destination of a peer body, read on arrival; absent in a body under two bytes (R185). -/
def peerDest : List Byte → Option Nat
  | d1 :: d0 :: _ => some (be2 d1 d0)
  | _ => none

/-- Check 1 of R41: a peer body with a known kind and fields in their ranges. -/
def readPeerFrame : List Byte → Option PeerFrame
  | d1 :: d0 :: s1 :: s0 :: deg :: kind :: fields =>
    match readNode d1 d0, readNode s1 s0, readDegree deg, readMessage kind.toNat fields with
    | some dest, some src, some degree, some msg => some ⟨dest, src, degree, msg⟩
    | _, _, _, _ => none
  | _ => none

/-! ### Controller reports (section 11.4, R185) -/

/-- A controller body that passes the check on arrival. GAIN and LINE carry index and tag 0
(log 11). -/
def readReport : List Byte → Option Report
  | kind :: idx :: tag :: fields =>
    match readIndex idx with
    | none => none
    | some i =>
      if kind = 16 then
        match fields with
        | [o, a1, a0] =>
          if o = 1 then some (.actuated i tag true (signedOf 16 (be2 a1 a0)))
          else if o = 2 then some (.actuated i tag false (signedOf 16 (be2 a1 a0)))
          else none
        | _ => none
      else if kind = 17 then
        match fields with
        | [p1, p0] => some (.power i tag (signedOf 16 (be2 p1 p0)))
        | _ => none
      else if kind = 18 then
        match fields with
        | [k, v1, v0] =>
          if k = 1 then some (.settled i tag (be2 v1 v0))
          else if k = 2 then
            if 1 ≤ be2 v1 v0 ∧ be2 v1 v0 ≤ 3 then some (.pending i tag (be2 v1 v0)) else none
          else if k = 3 then (if be2 v1 v0 = 0 then some (.continue_ i tag) else none)
          else none
        | _ => none
      else if kind = 19 then
        match fields with
        | [g1, g0] => if idx = 0 ∧ tag = 0 then some (.gain (signedOf 16 (be2 g1 g0))) else none
        | _ => none
      else if kind = 20 then
        match fields with
        | [l] =>
          if idx = 0 ∧ tag = 0 then
            if l = 1 then some .lineUp else if l = 2 then some .lineDown else none
          else none
        | _ => none
      else none
  | _ => none

/-! ### Management commands (section 11.5, R173 check 1)

A reader is given the command's fields, after the kind and the sequence number. -/

/-- A window, width and route as COMMISSION carries them, before the checks of R59. -/
structure CommissionFields where
  serial : BitVec 16
  cls : PathClass
  group : AddGroup
  width : Nat
  tie : Tie
  lo : Nat
  hi : Nat
  route : List (Nat × Nat)
deriving DecidableEq, Repr

/-- COMMISSION: check 1 of R59. -/
def readCommission : List Byte → Option CommissionFields
  | s1 :: s0 :: cls :: port :: n :: tie :: l1 :: l0 :: h1 :: h0 :: e :: entries =>
    match readClass cls, readTie tie, readTriples e.toNat entries with
    | some cl, some ti, some (route, []) =>
      if h : port.toNat < 4 then
        some ⟨BitVec.ofNat 16 (be2 s1 s0), cl, ⟨port.toNat, h⟩, n.toNat, ti,
          be2 l1 l0, be2 h1 h0, route⟩
      else none
    | _, _, _ => none
  | _ => none

/-- RELEASE, RETRIM: a path identity. -/
def readPathField : List Byte → Option PathId
  | [a, b, c, d] => readPath a b c d
  | _ => none

/-- The fields of ADOPT as carried (R36). -/
structure AdoptFields where
  path : PathId
  role : Role
  inPort : Nat
  outPort : Nat
  s : Nat
  n : Nat
  att : Int
deriving DecidableEq, Repr

/-- ADOPT: check 1 of R36. -/
def readAdopt : List Byte → Option AdoptFields
  | [a, b, c, d, role, ip, op, s1, s0, n, a1, a0] =>
    match readPath a b c d, readRole role with
    | some path, some r =>
      some ⟨path, r, ip.toNat, op.toNat, be2 s1 s0, n.toNat, signedOf 16 (be2 a1 a0)⟩
    | _, _ => none
  | _ => none

/-- Commands that carry a port and nothing else. -/
def readPortField : List Byte → Option Byte
  | [p] => some p
  | _ => none

/-- BLOCK, UNBLOCK: port, first cell, count. -/
def readRangeFields : List Byte → Option (Byte × Nat × Nat)
  | [p, f1, f0, c1, c0] => some (p, be2 f1 f0, be2 c1 c0)
  | _ => none

/-- `k` signed two-byte densities and no bytes left over. -/
def readDensities : Nat → List Byte → Option (List Int)
  | 0, [] => some []
  | 0, _ :: _ => none
  | k + 1, d1 :: d0 :: rest => (readDensities k rest).map (signedOf 16 (be2 d1 d0) :: ·)
  | _ + 1, _ => none

/-- Bank codes (section 11.5). -/
def readBank (b : Byte) : Option Bank :=
  if b = 1 then some .a else if b = 2 then some .b else none

/-- PROFILE: port, bank, first cell and 1 to 40 densities. -/
def readProfile : List Byte → Option (Byte × Bank × Nat × List Int)
  | p :: bank :: f1 :: f0 :: count :: rest =>
    match readBank bank, readDensities count.toNat rest with
    | some bk, some ds =>
      if 1 ≤ count.toNat ∧ count.toNat ≤ 40 then some (p, bk, be2 f1 f0, ds) else none
    | _, _ => none
  | _ => none

/-- SETPARAM: parameter number, port byte and signed value. -/
def readSetparam : List Byte → Option (Nat × Byte × Int)
  | [k, p, a, b, c, d] => some (k.toNat, p, signedOf 32 (be4 a b c d))
  | _ => none

/-- GETPARAM: parameter number and port byte. -/
def readGetparam : List Byte → Option (Nat × Byte)
  | [k, p] => some (k.toNat, p)
  | _ => none

/-- READCTX: an index byte or a path identity. -/
def readReadctx : List Byte → Option (Byte ⊕ PathId)
  | sel :: rest =>
    if sel = 1 then
      match rest with
      | [i] => some (.inl i)
      | _ => none
    else if sel = 2 then (readPathField rest).map .inr
    else none
  | _ => none

/-- READRPT: a largest count from 1 to 8. -/
def readReadrpt : List Byte → Option Nat
  | [k] => if 1 ≤ k.toNat ∧ k.toNat ≤ 8 then some k.toNat else none
  | _ => none

/-- SETTIME: a value of 32 bits. -/
def readSettime : List Byte → Option (BitVec 32)
  | [a, b, c, d] => some (BitVec.ofNat 32 (be4 a b c d))
  | _ => none

end Sys2Proof.Machine
end

