-- ==== Sys2Proof/Machine/Formats.lean ====
section
/-! DEFINITION. How the part forms what it sends: peer messages, controller requests, management
responses and records (sections 11.3 to 11.6, R186). -/

namespace Sys2Proof.Machine

open Sys2Proof

/-! ### Codes -/

def Reason.code (r : Reason) : Nat := reasons.idxOf r + 1

def PathClass.code : PathClass → Nat
  | .normal => 1
  | .restore => 2

def Tie.code : Tie → Nat
  | .low => 1
  | .high => 2

def Role.code : Role → Nat
  | .head => 1
  | .transit => 2
  | .tail => 3

def AdjState.code : AdjState → Nat
  | .down => 1
  | .probing => 2
  | .up => 3
  | .recovery => 4

def Verif.code : Verif → Nat
  | .none => 0
  | .pending => 1
  | .verified => 2
  | .mismatched => 3
  | .unverified => 4

def CtxState.code : CtxState → Nat
  | .offered => 1
  | .awaitLight => 2
  | .preparing => 3
  | .ramping => 4
  | .litWait => 5
  | .inService => 6
  | .trimming => 7
  | .retreating => 8
  | .closing => 9

def Phase.code : Phase → Nat
  | .idle => 0
  | .actuating => 1
  | .observing => 2

def RampKind.code : RampKind → Nat
  | .ramp => 1
  | .trim => 2
  | .retreat => 3

/-- Kinds of controller request (section 11.4). -/
def ReqKind.code : ReqKind → Nat
  | .openBand => 1
  | .set => 2
  | .close => 3
  | .measure => 4

def Cause.code : Cause → Nat
  | .managementRelease => 1
  | .localAbort => 2
  | .abortFromDownstream => 3
  | .abortFromUpstream => 4
  | .releaseFromUpstream => 5
  | .outPortLineDown => 6
  | .inPortLineDown => 7
  | .outPortAdjacencyLost => 8
  | .inPortAdjacencyLost => 9
  | .portClear => 10

def Way.code : Way → Nat
  | .none => 1
  | .retreat => 2
  | .darkJump => 3

def Notice.code : Notice → Nat
  | .none => 1
  | .abort => 2
  | .release => 3

def PathOutcome.code : PathOutcome → Nat
  | .released => 1
  | .aborted => 2
  | .declined => 3

def PortEvent.code : PortEvent → Nat
  | .frozen => 1
  | .swapDone => 2
  | .closeUnconfirmed => 3

def Bank.code : Bank → Nat
  | .a => 1
  | .b => 2

def LampMode.code : LampMode → Nat
  | .auto => 1
  | .off => 2
  | .on => 3
  | .slow => 4
  | .fast => 5

/-- Result codes 0 to 16 (section 11.5). -/
def ResultCode.code : ResultCode → Nat
  | .ok => 0
  | .malformed => 1
  | .badPort => 2
  | .badRange => 3
  | .badRoute => 4
  | .noIdentity => 5
  | .tableFull => 6
  | .notSynced => 7
  | .noAdjacency => 8
  | .neighbourBusy => 9
  | .noSpectrum => 10
  | .duplicate => 11
  | .unknownPath => 12
  | .wrongState => 13
  | .wrongRole => 14
  | .wrongBank => 15
  | .conflict => 16

/-! ### Shared fields -/

def putPath (p : PathId) : List Byte := put2 p.head.toNat ++ put2 p.serial.toNat

/-- A count and its entries. -/
def putList {α : Type} (xs : List α) (f : α → List Byte) : List Byte :=
  byteOf xs.length :: xs.flatMap f

/-- A field that may be absent: presence byte, then the field's bytes or zeros (R186). -/
def putOpt {α : Type} (size : Nat) (x : Option α) (f : α → List Byte) : List Byte :=
  match x with
  | some v => 1 :: f v
  | none => 0 :: List.replicate size 0

/-- An absent node identity or reason is sent as 0 (R186). -/
def putNodeOpt (x : Option NodeId) : List Byte := put2 (x.elim 0 (·.toNat))

def reasonByte (x : Option Reason) : Byte := byteOf (x.elim 0 Reason.code)

/-- The context flags byte (section 11.5). -/
def CtxFlags.byte (f : CtxFlags) : Byte :=
  byteOf (f.shortPower.toNat + 2 * f.trimHalted.toNat + 4 * f.trimDue.toNat +
    8 * f.closeForced.toNat + 16 * f.closeUnconfirmed.toNat)

/-! ### Peer messages (section 11.3) -/

def PeerMsg.kindCode : PeerMsg → Nat
  | .offer .. => 1
  | .accept .. => 2
  | .decline .. => 3
  | .light .. => 4
  | .lit .. => 5
  | .release .. => 6
  | .abort .. => 7
  | .hello .. => 8
  | .identQuery => 9
  | .identReply .. => 10

def putRouteEntry (e : RouteEntry) : List Byte := put2 e.node.toNat ++ [byteOf e.port.val]

def putCandidate (c : Candidate) : List Byte := put2 c.s ++ [byteOf c.cost]

def putObject (o : IdentObject) : List Byte :=
  o.number :: byteOf o.contents.length :: o.contents

/-- What follows the header, the path identity of kinds 1 to 7 included. -/
def PeerMsg.fieldBytes : PeerMsg → List Byte
  | .offer path f =>
    putPath path ++ [byteOf f.cls.code, byteOf f.width, byteOf f.tie.code, byteOf f.hop,
      byteOf f.route.length, byteOf f.candidates.length] ++
      f.route.flatMap putRouteEntry ++ f.candidates.flatMap putCandidate
  | .accept path s cost => putPath path ++ put2 s ++ [byteOf cost]
  | .decline path r o => putPath path ++ byteOf r.code :: put2 o.toNat
  | .light path => putPath path
  | .lit path => putPath path
  | .release path => putPath path
  | .abort path r o => putPath path ++ byteOf r.code :: put2 o.toNat
  | .hello st full us => byteOf st.code :: putFlag full :: putList us (fun p => [byteOf p])
  | .identQuery => []
  | .identReply ack os => (if ack then 1 else 2) :: putList os putObject

/-- The body of a peer frame. -/
def PeerFrame.body (f : PeerFrame) : List Byte :=
  put2 f.dest.toNat ++ put2 f.src.toNat ++ byteOf f.srcDegree.val :: byteOf f.msg.kindCode ::
    f.msg.fieldBytes

/-! ### Controller requests (section 11.4) -/

/-- The body of a controller request; a SET carries its attenuation. -/
def Request.body (r : Request) : List Byte :=
  byteOf r.kind.code :: byteOf r.idx.val :: r.tag :: put2 r.s ++ byteOf r.n ::
    (if r.kind = .set then put2 r.att else [])

/-- The whole frame that leaves on a port link (R186). -/
def OutFrame.bytes : OutFrame → List Byte
  | .peer f => frameBytes flagPeer f.body
  | .request r => frameBytes flagController r.body

/-! ### Records (section 11.5) -/

def RingRecord.bytes : RingRecord → List Byte
  | .pathEnd r =>
    1 :: putPath r.path ++ [byteOf r.role.code, byteOf r.outcome.code, reasonByte r.reason] ++
      putNodeOpt r.origin ++ put4 r.startTag.toNat ++ put4 r.endTag.toNat ++ put2 r.steps ++
      put2 r.backoffs ++ put2 r.slowest ++ [r.flags.byte]
  | .inService path role tag att flags =>
    2 :: putPath path ++ byteOf role.code :: put4 tag.toNat ++ put2 att ++ [flags.byte]
  | .trim path done att _ => 3 :: putPath path ++ (if done then 1 else 2) :: put2 att
  | .port p e => [4, byteOf p.val, byteOf e.code]
  | .adjacency d st n v =>
    5 :: byteOf d.val :: byteOf st.code :: putNodeOpt n ++ [byteOf v.code]

/-! ### Management responses (section 11.5) -/

/-- A run of READMAP: first cell, count, state, and owner as a presence byte and an index. -/
def MapRun.bytes (r : MapRun) : List Byte :=
  put2 r.first ++ put2 r.count ++
    match r.cell with
    | .free => [0, 0, 0]
    | .blocked => [1, 0, 0]
    | .held c => [2, 1, byteOf c.val]
    | .reserved c => [3, 1, byteOf c.val]
    | .opened c => [4, 1, byteOf c.val]

/-- The in-port byte: the add group at a head, the degree elsewhere. -/
def InPort.number : InPort → Nat
  | .addGroup g => g.val
  | .degree d => d.val

/-- Items 3 to 36 of READCTX. -/
def Context.items (i : CtxIdx) (c : Context) (remaining : Option Nat) : List Byte :=
  byteOf i.val :: putPath c.path ++
    [byteOf c.role.code, byteOf c.cls.code, byteOf c.inPort.number, byteOf c.outPort.val,
      byteOf c.width] ++
    putOpt 1 c.tie (fun t => [byteOf t.code]) ++
    putOpt 1 c.hop (fun h => [byteOf h]) ++
    putOpt 1 c.remaining (fun r => [byteOf r]) ++
    putOpt 1 c.candidates (fun cs => putList cs putCandidate) ++
    putOpt 2 c.chosen put2 ++
    putOpt 1 c.totalCost (fun x => [byteOf x]) ++
    putOpt 2 c.att put2 ++ putOpt 2 c.target put2 ++ putOpt 2 c.power putSigned2 ++
    putOpt 2 c.base put2 ++ putOpt 2 c.stepSize put2 ++
    byteOf c.clean :: put2 c.steps ++ put2 c.backoffs ++
    putOpt 1 c.kind (fun k => [byteOf k.code]) ++
    [c.flags.byte, byteOf c.attempts, byteOf (c.outstanding.elim 0 ReqKind.code)] ++
    putOpt 4 remaining put4 ++ put4 c.startTag.toNat ++
    putOpt 4 c.serviceTag (fun t => put4 t.toNat) ++ put2 c.slowest ++
    reasonByte c.abortReason :: putNodeOpt c.origin ++
    putOpt 1 (c.teardown.map (·.cause)) (fun x => [byteOf x.code]) ++
    putOpt 1 (c.teardown.map (·.way)) (fun x => [byteOf x.code]) ++
    putOpt 1 (c.teardown.map (·.notice)) (fun x => [byteOf x.code])

/-- READCTX: a FREE record sends its state and tag only (R35). -/
def Record.items (i : CtxIdx) (r : Record) (remaining : Option Nat) : List Byte :=
  match r.ctx with
  | none => [0, r.tag]
  | some c => byteOf c.state.code :: r.tag :: c.items i remaining

def putQueue (q : List CtxIdx) : List Byte := putList q (fun i => [byteOf i.val])

/-- READPORT's items in order. -/
def PortView.items (v : PortView) : List Byte :=
  [putFlag v.synced, byteOf v.active.code, putFlag v.swapPending] ++
    putOpt 2 v.gain put2 ++
    [if v.lineIsUp then 1 else 2, putFlag v.overflow, putFlag v.frozen, byteOf v.phase.code] ++
    putOpt 1 v.holder (fun i => [byteOf i.val]) ++ put2 v.tenure ++ putQueue v.retreatQ ++
    putQueue v.restoreQ ++ putQueue v.normalQ ++ put2 v.slowest

/-- READNBR's items in order. -/
def NbrView.items (v : NbrView) : List Byte :=
  byteOf v.adj.code :: putNodeOpt v.nbrId ++ putOpt 1 v.nbrDegree (fun d => [byteOf d.val]) ++
    putFlag v.nbrFull :: putList v.nbrUnsynced (fun p => [byteOf p.val]) ++
    [putFlag v.seenUp, byteOf v.verif.code, byteOf v.queryAttempts] ++
    putList v.objects putObject ++ [putFlag v.overflow]

/-- The response fields of section 11.5. -/
def RespBody.bytes : RespBody → List Byte
  | .none => []
  | .path i p => byteOf i.val :: putPath p
  | .index i => [byteOf i.val]
  | .value v => putSigned4 v
  | .runs rs => put2 rs.length ++ rs.flatMap MapRun.bytes
  | .ring lost left rs =>
    putFlag lost :: byteOf left :: putList rs fun r => byteOf r.bytes.length :: r.bytes
  | .context i r remaining => r.items i remaining
  | .portItems v => v.items
  | .nbrItems v => v.items

/-- The body of a response: response fields stand only with OK (R172). -/
def Response.bodyBytes (r : Response) : List Byte :=
  [r.kind, r.seqHi, r.seqLo, byteOf r.code.code, putFlag r.clamped] ++ put4 r.time.toNat ++
    (if r.code = .ok then r.body.bytes else [])

/-- The whole frame that leaves on the management link (R186). -/
def Response.bytes (r : Response) : List Byte := frameBytes flagManagement r.bodyBytes

end Sys2Proof.Machine
end

