-- ==== Sys2Proof/Machine/Ops.lean ====
section
/-! DEFINITION. The named operations over the state: reading and changing one context, port or
degree, the report ring, sending on the links, timers, and the way every command ends. -/

namespace Sys2Proof.Machine

open Sys2Proof

/-! ### All of a kind, in ascending order -/

def allContexts : List CtxIdx := List.finRange 64

def allPorts : List PortNo := List.finRange 12

/-! ### Contexts -/

/-- Record `i` of the context table (R21). -/
def State.record (s : State) (i : CtxIdx) : Record := Table.read s.records i

/-- The context in record `i`, none while it is FREE. -/
def State.ctx (s : State) (i : CtxIdx) : Option Context := (s.record i).ctx

def State.onRecord (s : State) (i : CtxIdx) (f : Record → Record) : State :=
  { s with records := Table.modify s.records i f }

/-- Changes the context in record `i`; a FREE record stays FREE. -/
def State.onCtx (s : State) (i : CtxIdx) (f : Context → Context) : State :=
  s.onRecord i fun r => { r with ctx := r.ctx.map f }

/-- Puts a new context into record `i`; the request tag keeps its value (R28). -/
def State.putCtx (s : State) (i : CtxIdx) (c : Context) : State :=
  s.onRecord i fun r => { r with ctx := some c }

/-- Work on the context in record `i`; nothing to do while it is FREE. -/
def State.withCtx (s : State) (i : CtxIdx) (f : Context → State) : State :=
  match s.ctx i with
  | some c => f c
  | none => s

/-- The request tag advances by one, from 255 to 0 (R30). -/
def State.advanceTag (s : State) (i : CtxIdx) : State :=
  s.onRecord i fun r => { r with tag := r.tag + 1 }

/-- The one non-FREE record that holds a path identity, or none (R29). -/
def State.lookup (s : State) (path : PathId) : Option CtxIdx :=
  allContexts.find? fun i => (s.ctx i).any fun c => decide (c.path = path)

/-- The FREE record with the lowest index, or none (R28). -/
def State.lowestFree (s : State) : Option CtxIdx :=
  allContexts.find? fun i => (s.ctx i).isNone

/-- How many contexts are not FREE (R55, object 3). -/
def State.contextsInUse (s : State) : Nat :=
  (allContexts.filter fun i => (s.ctx i).isSome).length

/-! ### Ports and degrees -/

def State.port (s : State) (p : PortNo) : PortState := Table.read s.ports p

def State.onPort (s : State) (p : PortNo) (f : PortState → PortState) : State :=
  { s with ports := Table.modify s.ports p f }

def State.degree (s : State) (d : DegreeNo) : DegreeState := Table.read s.degrees d

def State.onDegree (s : State) (d : DegreeNo) (f : DegreeState → DegreeState) : State :=
  { s with degrees := Table.modify s.degrees d f }

/-! ### Node identity (R181) -/

/-- The twelve identity pins as read at the last reset. -/
def State.nodeId (s : State) : NodeId := s.straps.extractLsb' 0 12

/-- How many of the thirteen pins are high. -/
def pinsHigh (straps : BitVec 13) : Nat :=
  ((List.range 13).filter fun k => straps.getLsbD k).length

/-- The identity is valid: an odd number of pins high and a number from 1 to 4094 (R181). -/
def State.identityValid (s : State) : Bool :=
  decide (pinsHigh s.straps % 2 = 1) && decide (1 ≤ s.nodeId.toNat) &&
    decide (s.nodeId.toNat ≤ 4094)

/-! ### The report ring (R176) -/

/-- A record joins the ring's tail; on a full ring the oldest leaves and Lost is set. -/
def State.report (s : State) (r : RingRecord) : State :=
  if s.ring.length < Config.ringCapacity then { s with ring := s.ring ++ [r] }
  else { s with ring := s.ring.drop 1 ++ [r], lost := true }

/-! ### Time (R32, R43) -/

/-- The expiry of a timer armed now for `ms` milliseconds. -/
def State.after (s : State) (ms : Nat) : Option Nat := some (s.elapsed + ms)

/-- A timer has run out: it is armed and its expiry has been reached (log 3). -/
def State.due (s : State) (timer : Option Nat) : Bool :=
  timer.any fun t => decide (t ≤ s.elapsed)

/-- Milliseconds that remain of an armed timer, or absent (R32). -/
def State.remaining (s : State) (timer : Option Nat) : Option Nat :=
  timer.map fun t => t - s.elapsed

/-- Arms the context timer of record `i` (R32). -/
def State.armCtx (s : State) (i : CtxIdx) (ms : Nat) : State :=
  s.onCtx i fun c => { c with timer := s.after ms }

/-- A count raised by one, saturating (R25, R114). -/
def saturate (x : Nat) : Nat := min x Config.countMax

/-! ### Sending (R42, R84, R186) -/

/-- A frame is formed for a port link, after those formed before it (R186). -/
def State.emit (s : State) (p : PortNo) (f : OutFrame) : State :=
  s.onPort p fun ps => { ps with out := ps.out ++ [f] }

/-- A peer message leaves on a degree with this part's identity and that degree in its header; only
a part with a valid identity sends (R38, R42). -/
def State.sendTo (s : State) (d : DegreeNo) (dest : NodeId) (m : PeerMsg) : State :=
  if s.identityValid then s.emit (portOf d) (.peer ⟨dest, s.nodeId, d, m⟩) else s

/-- A message to the recorded neighbour of a degree that is UP; not sent otherwise (R42). -/
def State.sendPath (s : State) (d : DegreeNo) (m : PeerMsg) : State :=
  match (s.degree d).adj, (s.degree d).nbrId with
  | .up, some n => s.sendTo d n m
  | _, _ => s

/-- Toward the head, on the in-port; a head's in-port has no link (R156). -/
def State.sendUpstream (s : State) (c : Context) (m : PeerMsg) : State :=
  match c.inPort with
  | .degree d => s.sendPath d m
  | .addGroup _ => s

/-- Toward the tail, on the out-port; a drop group carries no peer stream (R156). -/
def State.sendDownstream (s : State) (c : Context) (m : PeerMsg) : State :=
  match degreeOf c.outPort with
  | some d => s.sendPath d m
  | none => s

/-- A controller request for a context: the tag advances and is carried, and the request becomes the
outstanding one (R30, R31, R84). Nothing is sent for a context without a range (log 22). -/
def State.sendRequest (s : State) (i : CtxIdx) (k : ReqKind) (att : Nat) : State :=
  s.withCtx i fun c =>
    match c.chosen with
    | none => s
    | some first =>
      let s := (s.advanceTag i).onCtx i fun c => { c with outstanding := some k }
      s.emit c.outPort (.request ⟨k, i, (s.record i).tag, first, c.width, att⟩)

/-! ### How a command ends -/

/-- Every command ends in a next state; while the reset pin is asserted it changes nothing (R182,
log 5). -/
def whileRunning (s : State) (work : State → State) : Host.Outcome State Fault Refusal :=
  .next (if s.inReset then s else work s)

end Sys2Proof.Machine
end

