-- ==== Sys2Proof/Machine/Spectrum.lean ====
section
/-! DEFINITION. The spectrum map: eligibility, side cost, the queries, the writes and the live count
(chapter 1, R1 to R16). -/

namespace Sys2Proof.Machine

open Sys2Proof

/-! ### Reading a map -/

/-- The owner of a cell, present for Held, Reserved and Open (R1). -/
def Cell.owner : Cell → Option CtxIdx
  | .free => none
  | .blocked => none
  | .held c => some c
  | .reserved c => some c
  | .opened c => some c

/-- The entry of a cell number; none outside the band. -/
def cellAt (m : PortMap) (k : Nat) : Option Cell :=
  if h : k < Config.nCells then some (Table.read m ⟨k, h⟩) else none

/-- The cells of a range (s, n). -/
def cellsOf (first n : Nat) : List Nat := (List.range n).map (first + ·)

/-- Cell `k` lies in the range (s, n). -/
def inRange (first n k : Nat) : Bool := decide (first ≤ k) && decide (k < first + n)

/-- Every cell of a range lies in the band and its entry passes a test. -/
def rangeAll (m : PortMap) (first n : Nat) (test : Cell → Bool) : Bool :=
  (cellsOf first n).all fun k => (cellAt m k).any test

/-! ### Changing a map -/

/-- The list with `f` applied to every entry and its number, counted from `k`. -/
def mapFrom {α : Type} (f : Nat → α → α) : Nat → List α → List α
  | _, [] => []
  | k, x :: xs => f k x :: mapFrom f (k + 1) xs

theorem mapFrom_length {α : Type} (f : Nat → α → α) (k : Nat) (xs : List α) :
    (mapFrom f k xs).length = xs.length := by
  induction xs generalizing k with
  | nil => rfl
  | cons x xs ih => simp [mapFrom, ih]

/-- The table with `f` applied to every entry and its number. -/
def mapEntries {n : Nat} {α : Type} (t : Table n α) (f : Nat → α → α) : Table n α :=
  ⟨(mapFrom f 0 t.toList).toArray, by simp [mapFrom_length]⟩

/-- The map with the cells of a range that pass a test given a new entry. -/
def writeRange (m : PortMap) (first n : Nat) (test : Cell → Bool) (new : Cell) : PortMap :=
  mapEntries m fun k x => if inRange first n k && test x then new else x

/-! ### Eligibility and side cost (R8, R9) -/

/-- A guard cell is no obstacle: outside the band, Free or Blocked (R8). -/
def guardClear : Option Cell → Bool
  | none => true
  | some .free => true
  | some .blocked => true
  | some (.held _) => false
  | some (.reserved _) => false
  | some (.opened _) => false

/-- The entry of the cell `back` cells below `first`; none outside the band. -/
def cellBelow (m : PortMap) (first back : Nat) : Option Cell :=
  if first < back then none else cellAt m (first - back)

/-- A placement (s, n) is eligible under a guard (R8). -/
def eligible (m : PortMap) (guard first n : Nat) : Bool :=
  rangeAll m first n (fun x => decide (x = .free)) &&
    (decide (guard = 0) ||
      (guardClear (cellBelow m first 1) && guardClear (cellAt m (first + n))))

/-- A probe cell scores 1 when it is Free, and 0 otherwise (R9). -/
def probeScore (x : Option Cell) : Nat := if x = some .free then 1 else 0

/-- The side cost of a placement under a guard: the probe cells are s − (g + 1) and s + n + g (R9). -/
def sideCost (m : PortMap) (guard first n : Nat) : Nat :=
  probeScore (cellBelow m first (guard + 1)) + probeScore (cellAt m (first + n + guard))

/-! ### Queries (R10) -/

/-- The window query: the eligible placements inside lo to hi with their costs, s ascending. -/
def windowQuery (m : PortMap) (guard n lo hi : Nat) : List Candidate :=
  ((List.range (hi + 2 - (lo + n))).map (lo + ·)).filterMap fun first =>
    if eligible m guard first n then some ⟨first, sideCost m guard first n⟩ else none

/-- The candidate query with its trimming: the eligible candidates in their order, each with this
node's side cost added (R10, R68). A received cost of 31 or 32 may rise past 32; the sum is kept and
sent on as it is (log 33). -/
def trimCandidates (m : PortMap) (guard n : Nat) (cands : List Candidate) : List Candidate :=
  cands.filterMap fun c =>
    if eligible m guard c.s n then some ⟨c.s, c.cost + sideCost m guard c.s n⟩ else none

/-- The head's order: cost lowest first, then s ascending for LOW and descending for HIGH, and the
first eight of them (R62). A side cost is 0, 1 or 2 (R9). -/
def chooseCandidates (tie : Tie) (found : List Candidate) : List Candidate :=
  let leaning := match tie with
    | .low => found
    | .high => found.reverse
  ([0, 1, 2].flatMap fun k => leaning.filter fun c => decide (c.cost = k)).take 8

/-- Survivor `a` is preferred to `b` at the tail: lower cost, then lower s for LOW and higher s for
HIGH (R70). -/
def preferred (tie : Tie) (a b : Candidate) : Bool :=
  decide (a.cost < b.cost) ||
    (decide (a.cost = b.cost) &&
      match tie with
      | .low => decide (a.s ≤ b.s)
      | .high => decide (b.s ≤ a.s))

/-- The tail's choice among its survivors, none when there are none (R70). -/
def tailChoice (tie : Tie) : List Candidate → Option Candidate
  | [] => none
  | c :: cs =>
    match tailChoice tie cs with
    | none => some c
    | some best => if preferred tie c best then some c else some best

/-! ### Writes (R3 to R6, R11 to R13) -/

/-- One placement of a hold: accepted when each cell is Free or already Held by `c` (R3). -/
def holdPlacement (m : PortMap) (c : CtxIdx) (first n : Nat) : PortMap × Bool :=
  if rangeAll m first n (fun x => decide (x = .free) || decide (x = .held c)) then
    (writeRange m first n (fun x => decide (x = .free)) (.held c), true)
  else (m, false)

/-- A hold's placements, taken in list order, with the first cells of those accepted (R3). -/
def holdPlacements (m : PortMap) (c : CtxIdx) (n : Nat) : List Nat → PortMap × List Nat
  | [] => (m, [])
  | first :: rest =>
    let (m1, ok) := holdPlacement m c first n
    let (m2, accepted) := holdPlacements m1 c n rest
    (m2, if ok then first :: accepted else accepted)

/-- A claim for context `i` on its out-port is open to it: the record is not FREE (R2). A claim is
made on the context's own out-port only, so the port is read from the context. -/
def State.claim (s : State) (i : CtxIdx) (write : Context → PortMap → Option PortMap) : State :=
  s.withCtx i fun c =>
    match write c (s.port c.outPort).map with
    | some m => s.onPort c.outPort fun p => { p with map := m }
    | none => s

/-- The hold of a list of first cells; refused as a whole on an UNSYNCED port (R3, R14). -/
def State.mapHold (s : State) (i : CtxIdx) (firsts : List Nat) : State :=
  s.claim i fun c m =>
    if (s.port c.outPort).synced then some (holdPlacements m i c.width firsts).1 else none

/-- Reserve from hold: the range must be Held by `i`; its other Held cells become Free (R4). -/
def State.mapReserveFromHold (s : State) (i : CtxIdx) (first : Nat) : State :=
  s.claim i fun c m =>
    if rangeAll m first c.width (fun x => decide (x = .held i)) then
      some (mapEntries m fun k x =>
        if x = .held i then (if inRange first c.width k then .reserved i else .free) else x)
    else none

/-- Reserve direct, at the tail: the range must be Free and the port SYNCED (R4). -/
def State.mapReserveDirect (s : State) (i : CtxIdx) (first : Nat) : State :=
  s.claim i fun c m =>
    if (s.port c.outPort).synced && rangeAll m first c.width (fun x => decide (x = .free)) then
      some (writeRange m first c.width (fun _ => true) (.reserved i))
    else none

/-- The open write: every cell of the range must be Reserved by `i` (R5). -/
def State.mapOpen (s : State) (i : CtxIdx) (first : Nat) : State :=
  s.claim i fun c m =>
    if rangeAll m first c.width (fun x => decide (x = .reserved i)) then
      some (writeRange m first c.width (fun _ => true) (.opened i))
    else none

/-- The adopt write: every cell of the range must be Free; guard and sync state are not examined
(R5). -/
def State.mapAdopt (s : State) (i : CtxIdx) (first : Nat) : State :=
  s.claim i fun c m =>
    if rangeAll m first c.width (fun x => decide (x = .free)) then
      some (writeRange m first c.width (fun _ => true) (.opened i))
    else none

/-- The map without the cells `i` owns (R6). -/
def freeOwned (m : PortMap) (i : CtxIdx) : PortMap :=
  mapEntries m fun _ x => if x.owner = some i then .free else x

/-- The free write of record `i` on a port; it never fails (R6). -/
def State.mapFree (s : State) (i : CtxIdx) (p : PortNo) : State :=
  s.onPort p fun ps => { ps with map := freeOwned ps.map i }

/-- The block write: every cell of the range that is Open by `i` becomes Blocked, and `i` is left
owning no cells (R11, R2). -/
def State.mapBlock (s : State) (i : CtxIdx) (p : PortNo) (first n : Nat) : State :=
  s.onPort p fun ps =>
    let blocked := writeRange ps.map first n (fun x => decide (x = .opened i)) .blocked
    { ps with map := freeOwned blocked i }

/-! ### READMAP and the live count -/

/-- The runs of equal entries of a list of cells that starts at cell `k` (R15). -/
def runsFrom : Nat → List Cell → List MapRun
  | _, [] => []
  | k, x :: xs =>
    match runsFrom (k + 1) xs with
    | r :: rs => if r.cell = x then ⟨k, r.count + 1, x⟩ :: rs else ⟨k, 1, x⟩ :: r :: rs
    | [] => [⟨k, 1, x⟩]

/-- The runs of a map, in ascending cell order (R15). -/
def mapRuns (m : PortMap) : List MapRun := runsFrom 0 m.toList

/-- The owner of an Open cell. -/
def Cell.openOwner : Cell → Option CtxIdx
  | .opened c => some c
  | .free => none
  | .blocked => none
  | .held _ => none
  | .reserved _ => none

/-- The distinct owners of Open cells. -/
def openOwners (m : PortMap) : List CtxIdx := (m.toList.filterMap Cell.openOwner).dedup

/-- The live count of a port for context `i`: distinct owners of Open cells, `i` left out (R16). -/
def liveCount (m : PortMap) (i : CtxIdx) : Nat :=
  ((openOwners m).filter fun c => decide (c ≠ i)).length

end Sys2Proof.Machine
end

