-- ==== Sys2Proof/Machine/Power.lean ====
section
/-! DEFINITION. The target calculator: average density, width allowance, target attenuation, base
step, step size and the judgement of a settled step (chapter 6, R98 to R112). -/

namespace Sys2Proof.Machine

open Sys2Proof

/-! ### Target attenuation (R99 to R101) -/

/-- The active bank of a port (R17). -/
def PortState.profile (p : PortState) : Profile :=
  match p.active with
  | .a => p.bankA
  | .b => p.bankB

/-- The density of a cell; 0 outside the band, which no range reaches. -/
def densityAt (b : Profile) (k : Nat) : Int :=
  if h : k < Config.nCells then Table.read b ⟨k, h⟩ else 0

/-- The average density of a range: the sum and half of n, divided toward negative infinity (R99). -/
def averageDensity (b : Profile) (first n : Nat) : Int :=
  (((cellsOf first n).map (densityAt b)).sum + (n / 2 : Nat)) / (n : Int)

/-- The width allowance W(n), n from 1 to 16 (R100). -/
def widthAllowance (n : Nat) : Int :=
  ([0, 301, 477, 602, 699, 778, 845, 903, 954, 1000, 1041, 1079, 1114, 1146, 1176, 1204][n - 1]?).getD 0

/-- The channel's target power P_tgt (R100). -/
def channelTarget (b : Profile) (first n : Nat) : Int :=
  averageDensity b first n + widthAllowance n

/-- What a target computation gives (R101). -/
inductive TargetResult where
  | noGain
  | inputTooHigh
  | reached (t : Nat) (short : Bool)
deriving DecidableEq, Repr

/-- T is P + G − P_tgt, judged in the order of R101. -/
def targetOf (power : Int) (gain : Option Nat) (ptgt : Int) : TargetResult :=
  match gain with
  | none => .noGain
  | some g =>
    let t := power + g - ptgt
    if t > 2500 then .inputTooHigh
    else if t < 0 then .reached 0 true
    else .reached t.toNat false

/-! ### Base step (R104) -/

/-- The step code that a live count selects (R104). -/
def stepCode (q : PortParams) (live : Nat) : Nat :=
  if live ≤ q.sparseThreshold then q.sparseCode else q.denseCode

/-- The base step of a code: 25 for each unit, and code 0 a single step only on a port with no other
open channel (R104). -/
def baseOfCode (code live : Nat) : Nat :=
  if code = 0 then (if live = 0 then 2500 else 25) else code * 25

/-- The base step for context `i` on its out-port, as the port stands (R104). -/
def State.baseStep (s : State) (i : CtxIdx) (p : PortNo) : Nat :=
  let ps := s.port p
  let live := liveCount ps.map i
  baseOfCode (stepCode ps.params live) live

/-- B and S set together, the clean count 0 (R102, R104). -/
def Context.withBase (c : Context) (b : Nat) : Context :=
  { c with base := some b, stepSize := some b, clean := 0 }

/-- The base step chosen where it is absent, as a retreat is decided (R106). -/
def State.chooseBase (s : State) (i : CtxIdx) : State :=
  s.withCtx i fun c =>
    if c.base.isNone then s.onCtx i fun x => x.withBase (s.baseStep i c.outPort) else s

/-- The target computation for the context in record `i` (R98). It is asked only for a context with a
valid P and a chosen range; without either there is no gain to add (log 22). -/
def State.targetFor (s : State) (c : Context) : TargetResult :=
  let ps := s.port c.outPort
  match c.power, c.chosen with
  | some p, some first => targetOf p ps.gain (channelTarget ps.profile first c.width)
  | _, _ => .noGain

/-- T, ShortPower, B, S and the clean count as a computation in reach writes them (R101, R102). -/
def State.writeTarget (s : State) (i : CtxIdx) (t : Nat) (short : Bool) : State :=
  s.withCtx i fun c =>
    let b := s.baseStep i c.outPort
    s.onCtx i fun x =>
      { x with target := some t, flags := { x.flags with shortPower := short } }.withBase b

/-! ### Step size (R107) -/

/-- A_next from A, its goal T, S and the kind of ramp (R107). -/
def nextAttenuation (kind : RampKind) (a t size : Nat) : Nat :=
  match kind with
  | .ramp => max (a - size) t
  | .retreat => min (a + size) Config.dark
  | .trim => if t < a then max (a - size) t else min (a + size) t

/-- A_next of a context; none while one of the fields it reads is absent (log 22). A retreat reads no
target (R107). -/
def Context.next (c : Context) : Option Nat :=
  match c.kind, c.att, c.stepSize with
  | some .retreat, some a, some size => some (nextAttenuation .retreat a 0 size)
  | some k, some a, some size => c.target.map fun t => nextAttenuation k a t size
  | _, _, _ => none

/-- The distance of a new target from A lies within the trim band (R107). -/
def inTrimBand (a t : Nat) : Bool := decide (a - t < 5) && decide (t - a < 5)

/-! ### Judging a settled step (R109 to R112) -/

/-- Result of a settle evaluation (R109). -/
inductive Verdict where
  | clean
  | backoff
  | disturbance
deriving DecidableEq, Repr

/-- ΔP against G_ok and G_abort, a G_ok above G_abort taken as equal to it (R109). -/
def judge (gOk gAbort dp : Nat) : Verdict :=
  if dp ≤ min gOk gAbort then .clean
  else if dp ≤ gAbort then .backoff
  else .disturbance

/-- The clean count and S after a clean result (R110). -/
def Context.afterClean (c : Context) : Context :=
  let k := min (c.clean + 1) 2
  match c.stepSize, c.base with
  | some size, some b =>
    if k = 2 ∧ size < b then { c with stepSize := some (min (2 * size) b), clean := 0 }
    else { c with clean := k }
  | _, _ => { c with clean := k }

/-- S, the clean count and the backoff count after a backoff (R111). -/
def Context.afterBackoff (c : Context) : Context :=
  { c with stepSize := c.stepSize.map (fun size => max (size / 2) 5), clean := 0,
           backoffs := saturate (c.backoffs + 1) }

/-- What a result changes in the context, by its kind: a disturbance changes nothing in a ramp or a
trim and is a backoff in a retreat (R112). -/
def Context.afterVerdict (c : Context) (v : Verdict) : Context :=
  match v with
  | .clean => c.afterClean
  | .backoff => c.afterBackoff
  | .disturbance => if c.kind = some .retreat then c.afterBackoff else c

end Sys2Proof.Machine
end

