-- ==== Sys2Proof/Machine/Arbiter.lean ====
section
/-! DEFINITION. The step arbiter: queues, grants and the sending of a step (sections 7.1 and 7.2,
R114 to R118, R131). -/

namespace Sys2Proof.Machine

open Sys2Proof

/-! ### Queues (R115) -/

def PortState.queue (p : PortState) : QueueSel → List CtxIdx
  | .retreat => p.retreatQ
  | .restore => p.restoreQ
  | .normal => p.normalQ

def PortState.setQueue (p : PortState) (q : QueueSel) (xs : List CtxIdx) : PortState :=
  match q with
  | .retreat => { p with retreatQ := xs }
  | .restore => { p with restoreQ := xs }
  | .normal => { p with normalQ := xs }

/-- The queue of a class (R115). -/
def classQueue : PathClass → QueueSel
  | .normal => .normal
  | .restore => .restore

/-- The queue a context waits in: RETREAT for a retreat, whatever its class (R115). -/
def Context.queueSel (c : Context) : QueueSel :=
  match c.kind with
  | some .retreat => .retreat
  | some .ramp => classQueue c.cls
  | some .trim => classQueue c.cls
  | none => classQueue c.cls

/-- Context `i` waits in one of the port's queues. -/
def PortState.waits (p : PortState) (i : CtxIdx) : Bool :=
  p.retreatQ.contains i || p.restoreQ.contains i || p.normalQ.contains i

/-- The port without `i` in its queues; the others keep their order (R131). -/
def PortState.without (p : PortState) (i : CtxIdx) : PortState :=
  { p with retreatQ := p.retreatQ.filter (fun j => decide (j ≠ i)),
           restoreQ := p.restoreQ.filter (fun j => decide (j ≠ i)),
           normalQ := p.normalQ.filter (fun j => decide (j ≠ i)) }

/-- The arbiter may serve a queue: RETREAT always, the others while the port is not frozen (R117). -/
def PortState.serves (p : PortState) (q : QueueSel) : Bool :=
  match q with
  | .retreat => true
  | .restore => !p.frozen
  | .normal => !p.frozen

/-- The highest-ranked queue the arbiter may serve that is not empty (R117). -/
def PortState.nextQueue (p : PortState) : Option QueueSel :=
  [QueueSel.retreat, .restore, .normal].find? fun q => p.serves q && !(p.queue q).isEmpty

/-! ### A step (R118) -/

/-- The step settings latched from the port's parameters (R118). -/
def PortParams.latch (q : PortParams) : StepSettings :=
  ⟨q.actuationWindow, q.observationWindow, q.extensionUnit, q.extensionCap⟩

/-- The holder of the slot takes a step: A_next requested, settings latched, SET sent, phase
ACTUATING (R118). -/
def State.takeStep (s : State) (p : PortNo) : State :=
  match (s.port p).holder with
  | none => s
  | some i =>
    s.withCtx i fun c =>
      match c.next with
      | none => s
      | some a =>
        let set := (s.port p).params.latch
        let s := s.onPort p fun ps =>
          { ps with requested := some a, settings := some set, unitsUsed := 0 }
        let s := s.sendRequest i .set a
        let s := s.onPort p fun ps =>
          { ps with phase := .actuating, expiry := s.after set.actuation,
                    tenure := saturate (ps.tenure + 1) }
        s.onCtx i fun c => { c with steps := saturate (c.steps + 1) }

/-- The slot given to the head of a queue, tenure 0, and its first step taken at once (R117). -/
def State.grantTo (s : State) (p : PortNo) (q : QueueSel) : State :=
  match (s.port p).queue q with
  | [] => s
  | i :: rest =>
    (s.onPort p fun ps => { ps.setQueue q rest with holder := some i, tenure := 0 }).takeStep p

/-- The arbiter considers a grant: slot free, phase IDLE and a queue it may serve (R117). -/
def State.considerGrant (s : State) (p : PortNo) : State :=
  let ps := s.port p
  if ps.holder.isNone && decide (ps.phase = .idle) then
    match ps.nextQueue with
    | some q => s.grantTo p q
    | none => s
  else s

/-! ### Joining and leaving (R116, R119, R131) -/

/-- Context `i` joins the tail of its queue on port `p`; the arbiter considers a grant after the join,
but for a join inside the end of a step, whose grant follows (R116, R119, log 14). -/
def State.join (s : State) (p : PortNo) (q : QueueSel) (i : CtxIdx) (grant : Bool) : State :=
  let s := s.onPort p fun ps => ps.setQueue q (ps.queue q ++ [i])
  if grant then s.considerGrant p else s

/-- Context `i` taken out of the queues of port `p` (R131). -/
def State.leaveQueues (s : State) (p : PortNo) (i : CtxIdx) : State :=
  s.onPort p fun ps => ps.without i

/-- The port with its step state cleared (R119, R130). -/
def PortState.clearedStep (p : PortState) : PortState :=
  { p with phase := .idle, expiry := none, requested := none, settings := none, unitsUsed := 0,
           confirmMark := none }

/-- The step state cleared: the phase returns to IDLE, which starts the lamp's 250 ms on a line
degree (R119, R180). -/
def State.clearStep (s : State) (p : PortNo) : State :=
  let s := s.onPort p PortState.clearedStep
  match degreeOf p with
  | some d => s.onDegree d fun x => { x with lampHold := s.after Config.lampHold }
  | none => s

/-- The slot is free again, tenure 0 (R119). -/
def State.freeSlot (s : State) (p : PortNo) : State :=
  s.onPort p fun ps => { ps with holder := none, tenure := 0 }

/-- The burst limit of a burst code; none is unlimited (R120). -/
def burstLimit (code : Nat) : Option Nat :=
  match code with
  | 0 => none
  | 1 => some 1
  | 2 => some 2
  | 3 => some 4
  | 4 => some 8
  | _ => some 16

/-- A queue that ranks above `q`, may be served and is not empty (R119, test 4). -/
def PortState.higherWaits (p : PortState) (q : QueueSel) : Bool :=
  match q with
  | .retreat => false
  | .restore => !p.retreatQ.isEmpty
  | .normal => !p.retreatQ.isEmpty || (p.serves .restore && !p.restoreQ.isEmpty)

/-- The burst is spent and the holder's own queue is not empty (R119, test 5). -/
def PortState.burstSpent (p : PortState) (q : QueueSel) : Bool :=
  (burstLimit p.params.burstCode).any (fun limit => decide (limit ≤ p.tenure)) &&
    !(p.queue q).isEmpty

/-- A step is in flight for context `i` on port `p`: it holds the slot and the phase is not IDLE. -/
def State.stepInFlight (s : State) (p : PortNo) (i : CtxIdx) : Bool :=
  decide ((s.port p).holder = some i) && decide ((s.port p).phase ≠ .idle)

end Sys2Proof.Machine
end

