-- ==== Sys2Proof/Machine/Lighting.lean ====
section
/-! DEFINITION. The lighting logic and the bank swap: opening, measuring, targets, completion of a
ramp, service and trim (chapter 8; R19, R20). -/

namespace Sys2Proof.Machine

open Sys2Proof

/-! ### Requests of the lighting logic and of teardown -/

/-- Entry to PREPARING: attempts 0, OPEN sent, timer for the actuation window (R135). -/
def State.enterPreparing (s : State) (i : CtxIdx) : State :=
  s.withCtx i fun c =>
    let s := s.onCtx i fun c => { c with state := .preparing, attempts := 0 }
    let s := s.sendRequest i .openBand Config.dark
    s.armCtx i (s.port c.outPort).params.actuationWindow

/-- A MEASURE is sent as attempt `k` of its measurement, watched by the measure timeout (R88, R93). -/
def State.sendMeasure (s : State) (i : CtxIdx) (k : Nat) : State :=
  let s := s.sendRequest i .measure 0
  let s := s.onCtx i fun c => { c with attempts := k }
  s.armCtx i s.part.measureTimeout

/-- CLOSE is sent and the context enters CLOSING (R160). Total cost, T, P, B and S stay as they were
until the context is FREE, though R27 lists none of them for CLOSING (log 31). -/
def State.sendClose (s : State) (i : CtxIdx) : State :=
  s.withCtx i fun c =>
    let s := s.sendRequest i .close Config.dark
    let s := s.onCtx i fun c => { c with state := .closing, kind := none }
    s.armCtx i (s.port c.outPort).params.actuationWindow

/-! ### Service and trim -/

/-- Entry to TRIMMING: TrimDue cleared and the first MEASURE sent (R148). -/
def State.enterTrimming (s : State) (i : CtxIdx) : State :=
  let s := s.onCtx i fun c =>
    { c with state := .trimming, kind := none, flags := { c.flags with trimDue := false } }
  s.sendMeasure i 1

/-- A TrimDue context in IN_SERVICE enters TRIMMING while its out-port's swap-pending flag is clear
(R147). -/
def State.trimIfDue (s : State) (i : CtxIdx) : State :=
  s.withCtx i fun c =>
    if decide (c.state = .inService) && c.flags.trimDue && !(s.port c.outPort).swapPending then
      s.enterTrimming i
    else s

/-- First entry to IN_SERVICE: in-service tag, InService record, then a trim that is due (R145). -/
def State.enterInService (s : State) (i : CtxIdx) : State :=
  s.withCtx i fun c =>
    let s := s.onCtx i fun c =>
      { c with state := .inService, timer := none, serviceTag := some s.timeBase }
    let s := s.report (.inService c.path c.role s.timeBase (c.att.getD 0) c.flags)
    s.trimIfDue i

/-- A trim halts: TrimHalted set, back to IN_SERVICE at its A, Trim record Halted with the flags as
they now stand (R150, R26). -/
def State.haltTrim (s : State) (i : CtxIdx) : State :=
  s.withCtx i fun c =>
    let s := s.onCtx i fun c =>
      { c with state := .inService, kind := none, timer := none, outstanding := none,
               flags := { c.flags with trimHalted := true } }
    let s := s.report (.trim c.path false (c.att.getD 0) { c.flags with trimHalted := true })
    s.trimIfDue i

/-- A trim is done: TrimHalted cleared, back to IN_SERVICE, Trim record Done with the flags as they now
stand (R121, R150, R26). -/
def State.finishTrim (s : State) (i : CtxIdx) : State :=
  s.withCtx i fun c =>
    let s := s.onCtx i fun c =>
      { c with state := .inService, kind := none, flags := { c.flags with trimHalted := false } }
    let s := s.report (.trim c.path true (c.att.getD 0) { c.flags with trimHalted := false })
    s.trimIfDue i

/-- A ramp is complete: LIT_WAIT and LIGHT at a head or transit, IN_SERVICE and LIT at a tail
(R142). -/
def State.completeRamp (s : State) (i : CtxIdx) : State :=
  s.withCtx i fun c =>
    let s := s.onCtx i fun c => { c with kind := none }
    match c.role with
    | .tail => (s.enterInService i).sendUpstream c (.lit c.path)
    | .head | .transit =>
      let s := s.onCtx i fun c => { c with state := .litWait }
      let s := s.armCtx i (s.part.litHop * c.remaining.getD 0)
      s.sendDownstream c (.light c.path)

/-! ### The record of a teardown (R153, R156) -/

/-- What a cause decides: the items it records, whether it means the input is lost, and whether an
upstream message is owed. -/
structure TeardownOrder where
  cause : Cause
  reason : Option Reason
  origin : NodeId
  notice : Notice
  inputLost : Bool
  sendUp : Bool
deriving DecidableEq, Repr

/-- An abort the part decides itself, with this node as origin (R166). -/
def State.localAbort (s : State) (reason : Reason) : TeardownOrder :=
  ⟨.localAbort, some reason, s.nodeId, .abort, false, true⟩

/-- The range of the context is Open (R155). -/
def Context.rangeOpen (c : Context) : Bool :=
  match c.state with
  | .offered => false
  | .awaitLight => false
  | .preparing => c.att.isSome
  | .ramping | .litWait | .inService | .trimming | .retreating | .closing => true

/-- The going-dark way of a decision (R154, R155). -/
def State.wayFor (s : State) (c : Context) (o : TeardownOrder) : Way :=
  if !c.rangeOpen then .none
  else if o.inputLost || !(s.port c.outPort).lineIsUp then .darkJump
  else .retreat

/-- Teardown records its items and sends the upstream message: DECLINE in OFFERED, ABORT in every
later state (R153, R156). -/
def State.recordTeardown (s : State) (i : CtxIdx) (c : Context) (o : TeardownOrder) (w : Way) :
    State :=
  let s := s.onCtx i fun c =>
    { c with abortReason := o.reason, origin := some o.origin,
             teardown := some ⟨o.cause, w, o.notice⟩ }
  match o.sendUp, o.reason with
  | true, some r =>
    if c.state = .offered then s.sendUpstream c (.decline c.path r o.origin)
    else s.sendUpstream c (.abort c.path r o.origin)
  | _, _ => s

/-- An abort decided in PREPARING with the range Open at dark and no request outstanding: a retreat
chooses its base step and needs no step, a dark jump steps not at all; both close at once (R103,
R106, R157, R158). -/
def State.abortPreparing (s : State) (i : CtxIdx) (reason : Reason) : State :=
  s.withCtx i fun c =>
    let o := s.localAbort reason
    let w := s.wayFor c o
    let s := s.recordTeardown i c o w
    let s := if w = .retreat then s.chooseBase i else s
    s.sendClose i

/-! ### Targets -/

/-- The target computation of a context in PREPARING and what follows it (R141). -/
def State.prepareTarget (s : State) (i : CtxIdx) (grant : Bool) : State :=
  s.withCtx i fun c =>
    match s.targetFor c with
    | .noGain => s.abortPreparing i .noGain
    | .inputTooHigh => s.abortPreparing i .inputTooHigh
    | .reached t short =>
      let s := s.writeTarget i t short
      if t = Config.dark then s.completeRamp i
      else
        let s := s.onCtx i fun c => { c with state := .ramping, kind := some .ramp }
        s.join c.outPort (classQueue c.cls) i grant

/-! ### The bank swap (R19, R20) -/

/-- The port is quiet: no context with that out-port is RAMPING or TRIMMING, and its step phase is
IDLE (R19). -/
def State.quiet (s : State) (p : PortNo) : Bool :=
  decide ((s.port p).phase = .idle) &&
    !(allContexts.any fun i => (s.ctx i).any fun c =>
      decide (c.outPort = p) && (decide (c.state = .ramping) || decide (c.state = .trimming)))

/-- A context waits in PREPARING on the swap: measured, nothing outstanding, no teardown (R140). -/
def Context.waitsOnSwap (c : Context) : Bool :=
  decide (c.state = .preparing) && c.outstanding.isNone && c.att.isSome && c.power.isSome &&
    c.teardown.isNone

/-- A waiting context on port `p` computes its target from the new bank (R20). -/
def State.resumeWaiting (grant : Bool) (p : PortNo) (s : State) (i : CtxIdx) : State :=
  s.withCtx i fun c =>
    if decide (c.outPort = p) && c.waitsOnSwap then s.prepareTarget i grant else s

/-- A context on port `p` in IN_SERVICE or LIT_WAIT is marked TrimDue, and trims at once in
IN_SERVICE (R20, R147). -/
def State.markTrimDue (p : PortNo) (s : State) (i : CtxIdx) : State :=
  s.withCtx i fun c =>
    if decide (c.outPort = p) && (decide (c.state = .inService) || decide (c.state = .litWait)) then
      (s.onCtx i fun c => { c with flags := { c.flags with trimDue := true } }).trimIfDue i
    else s

/-- The other bank. -/
def Bank.other : Bank → Bank
  | .a => .b
  | .b => .a

/-- The swap: the selector flips, the flag clears, waiting contexts compute and join in ascending
order, IN_SERVICE and LIT_WAIT contexts are marked, and SwapDone is written (R20). -/
def State.swapNow (s : State) (p : PortNo) (grant : Bool) : State :=
  let s := s.onPort p fun ps => { ps with active := ps.active.other, swapPending := false }
  let s := allContexts.foldl (State.resumeWaiting grant p) s
  let s := allContexts.foldl (State.markTrimDue p) s
  s.report (.port p .swapDone)

/-- The profile store looks for quiet on a port whose swap is pending (R19). -/
def State.lookForQuiet (s : State) (p : PortNo) (grant : Bool) : State :=
  if (s.port p).swapPending && s.quiet p then s.swapNow p grant else s

/-- The look made when a context that was `c` has left its state: only leaving RAMPING or TRIMMING
calls for one (R19). Where it falls among an event's effects is the model's choice (log 16). -/
def State.lookAfter (s : State) (c : Context) : State :=
  if decide (c.state = .ramping) || decide (c.state = .trimming) then
    s.lookForQuiet c.outPort true
  else s

/-! ### Trim targets -/

/-- The target computation of a TRIMMING context and what follows it (R149). -/
def State.trimTarget (s : State) (i : CtxIdx) : State :=
  s.withCtx i fun c =>
    match s.targetFor c with
    | .noGain => (s.haltTrim i).lookAfter c
    | .inputTooHigh => (s.haltTrim i).lookAfter c
    | .reached t short =>
      let s := s.writeTarget i t short
      if inTrimBand (c.att.getD 0) t then
        let s := s.onCtx i fun c => { c with state := .inService }
        (s.trimIfDue i).lookAfter c
      else
        let s := s.onCtx i fun c => { c with kind := some .trim }
        s.join c.outPort (classQueue c.cls) i true

/-- A valid P in PREPARING: the target at once, or a wait on the swap; in TRIMMING the target at once
(R139, R140, R148). -/
def State.useMeasurement (s : State) (i : CtxIdx) : State :=
  s.withCtx i fun c =>
    if c.state = .preparing then
      if (s.port c.outPort).swapPending then s else s.prepareTarget i true
    else if c.state = .trimming then s.trimTarget i
    else s

/-- A measurement attempt is spent with no teardown decided: another MEASURE, or the measurement
fails (R93, R139, R148). -/
def State.spendAttempt (s : State) (i : CtxIdx) : State :=
  s.withCtx i fun c =>
    if c.attempts < s.part.measureAttempts then s.sendMeasure i (c.attempts + 1)
    else
      let s := s.onCtx i fun c => { c with outstanding := none, timer := none }
      if c.state = .preparing then s.abortPreparing i .noInputPower
      else if c.state = .trimming then (s.haltTrim i).lookAfter c
      else s

end Sys2Proof.Machine
end

