-- ==== Sys2Proof/Machine/Teardown.lean ====
section
/-! DEFINITION. Teardown and abort: ending a context, retreat, dark jump, first and second causes
(chapter 9; R33, R34, R130, R131). -/

namespace Sys2Proof.Machine

open Sys2Proof

/-! ### Ending a context (R33, R34) -/

/-- Outcome, reason and origin of a PathEnd record; none where the ending writes no record (R34). -/
def Context.pathOutcome (c : Context) : Option (PathOutcome × Option Reason × Option NodeId) :=
  if c.state = .offered ∧ c.role = .transit then none
  else if c.state = .offered ∧ c.role = .head then
    if c.teardown.map Teardown.cause = some .managementRelease then
      some (.released, c.abortReason, c.origin)
    else some (.declined, c.abortReason, c.origin)
  else if c.teardown.map Teardown.cause = some .managementRelease
      ∨ c.teardown.map Teardown.cause = some .releaseFromUpstream then
    some (.released, none, some c.path.head)
  else some (.aborted, c.abortReason, c.origin)

/-- The PathEnd record of an ending context (R34). -/
def State.writePathEnd (s : State) (c : Context) : State :=
  match c.pathOutcome with
  | none => s
  | some (outcome, reason, origin) =>
    s.report (.pathEnd
      { path := c.path, role := c.role, outcome := outcome, reason := reason, origin := origin,
        startTag := c.startTag, endTag := s.timeBase, steps := c.steps, backoffs := c.backoffs,
        slowest := c.slowest, flags := c.flags })

/-- The downstream notice a context owes (R156). A RELEASE taken in OFFERED is forwarded as ABORT with
reason ReleasedByManager, since no reason is recorded (R165). -/
def State.sendNotice (s : State) (c : Context) : State :=
  match c.teardown.map Teardown.notice with
  | some .abort =>
    s.sendDownstream c (.abort c.path (c.abortReason.getD .releasedByManager)
      (c.origin.getD c.path.head))
  | some .release => s.sendDownstream c (.release c.path)
  | some .none => s
  | none => s

/-- The record becomes FREE: its tag advances and every other field goes (R33, steps 3 and 5). -/
def State.freeRecord (s : State) (i : CtxIdx) : State :=
  s.onRecord i fun r => ⟨r.tag + 1, none⟩

/-- The slot released by a context that ends while it holds it (R33, step 2). -/
def State.releaseSlot (s : State) (p : PortNo) (i : CtxIdx) : State :=
  if (s.port p).holder = some i then
    let s := if (s.port p).phase = .idle then s else s.clearStep p
    (s.freeSlot p).onPort p fun ps => { ps with retreatDue := false }
  else s

/-- The steps of R33 after the cells have left the map: the notice owed, the arbiter, the timer and
the tag, the PathEnd record, and the record FREE. -/
def State.finishEnding (s : State) (i : CtxIdx) (c : Context) : State :=
  let s := s.sendNotice c
  let s := (s.leaveQueues c.outPort i).releaseSlot c.outPort i
  let s := s.writePathEnd c
  s.freeRecord i

/-- What leaving the arbiter by an ending sets going: a look for quiet and a grant (R33, R131). `b` is
the out-port as it stood before the ending. -/
def State.afterEnding (s : State) (i : CtxIdx) (c : Context) (b : PortState) : State :=
  let held := decide (b.holder = some i)
  let s := if held then s.lookForQuiet c.outPort true else s.lookAfter c
  if held || b.waits i then s.considerGrant c.outPort else s

/-- A context ends with its cells freed (R6, R33). -/
def State.endFreed (s : State) (i : CtxIdx) : State :=
  s.withCtx i fun c =>
    ((s.mapFree i c.outPort).finishEnding i c).afterEnding i c (s.port c.outPort)

/-- A context ends with its close unconfirmed: the flag, the block write, and the Port record after
its PathEnd (R11, R162). -/
def State.endBlocked (s : State) (i : CtxIdx) : State :=
  s.withCtx i fun c =>
    let c := { c with flags := { c.flags with closeUnconfirmed := true } }
    let t := s.mapBlock i c.outPort (c.chosen.getD 0) (if c.chosen.isSome then c.width else 0)
    let t := (t.finishEnding i c).report (.port c.outPort .closeUnconfirmed)
    t.afterEnding i c (s.port c.outPort)

/-! ### Retreat (R157) and dark jump (R158) -/

/-- The context leaves its queue and becomes RETREATING with its base step chosen, or has its CLOSE
sent at once when A is already dark (R116, R105, R106). It has not yet joined the RETREAT queue. -/
def State.beginRetreat (s : State) (i : CtxIdx) : State :=
  s.withCtx i fun c =>
    let s := (s.leaveQueues c.outPort i).chooseBase i
    if c.att = some Config.dark then s.sendClose i
    else s.onCtx i fun c => { c with state := .retreating, kind := some .retreat, timer := none }

/-- A context that has become RETREATING joins the RETREAT queue (R116). -/
def State.joinRetreat (s : State) (i : CtxIdx) (grant : Bool) : State :=
  s.withCtx i fun c =>
    if c.state = .retreating then s.join c.outPort .retreat i grant else s

/-- A retreat carried out from where the context stands: it waits for a MEASURE (R159) or for the end
of its step in flight (R122), or begins. The wait for a MEASURE stands against R171, by which a cause
after the OPEN's ACTUATED sends its CLOSE at once (log 34). A context that waits has its base step chosen
as the retreat is decided, in PREPARING and in TRIMMING (R106). A context that leaves RAMPING or TRIMMING
here is looked after before it joins the RETREAT queue: a swap, and the grants it sets going, come first
(log 16). -/
def State.startRetreat (s : State) (i : CtxIdx) : State :=
  s.withCtx i fun c =>
    if c.outstanding = some .measure then s.chooseBase i
    else if s.stepInFlight c.outPort i then
      s.onPort c.outPort fun ps => { ps with retreatDue := true }
    else
      let waited := (s.port c.outPort).waits i
      let s := ((s.beginRetreat i).lookAfter c).joinRetreat i true
      if waited then s.considerGrant c.outPort else s

/-- A step in flight is abandoned and CLOSE follows (R130). -/
def State.abandonStep (s : State) (i : CtxIdx) (c : Context) : State :=
  let p := c.outPort
  let s := (s.clearStep p).onPort p fun ps => { ps with retreatDue := false }
  let s := s.lookForQuiet p true
  let s := (s.advanceTag i).onCtx i fun c => { c with outstanding := none }
  let s := (s.freeSlot p).onCtx i fun c => { c with kind := none }
  let s := (s.sendClose i).lookAfter c
  s.considerGrant p

/-- A dark jump carried out from where the context stands: it waits for a MEASURE (R159, against R171:
log 34), abandons a step in flight (R130), or closes at once. -/
def State.startDarkJump (s : State) (i : CtxIdx) : State :=
  s.withCtx i fun c =>
    if c.outstanding = some .measure then s
    else if s.stepInFlight c.outPort i then s.abandonStep i c
    else
      let waited := (s.port c.outPort).waits i
      let s := ((s.leaveQueues c.outPort i).sendClose i).lookAfter c
      if waited then s.considerGrant c.outPort else s

/-- The going-dark way carried out (R154, R157, R158). -/
def State.goDark (s : State) (i : CtxIdx) (w : Way) : State :=
  match w with
  | .none => s.endFreed i
  | .retreat => s.startRetreat i
  | .darkJump => s.startDarkJump i

/-- The first cause of a teardown: record, upstream message, and going dark (R153 to R156). -/
def State.decideTeardown (s : State) (i : CtxIdx) (o : TeardownOrder) : State :=
  s.withCtx i fun c =>
    let w := s.wayFor c o
    (s.recordTeardown i c o w).goDark i w

/-- A cause that would decide a dark jump (R170). -/
def TeardownOrder.darkCause (o : TeardownOrder) : Bool :=
  o.inputLost || decide (o.cause = .outPortLineDown)

/-- A second cause turns a retreat into a dark jump, or changes nothing (R170). -/
def State.secondCause (s : State) (i : CtxIdx) (o : TeardownOrder) : State :=
  s.withCtx i fun c =>
    match c.teardown with
    | some t =>
      if t.way = .retreat ∧ o.darkCause = true ∧ c.state ≠ .closing then
        (s.onCtx i fun c => { c with teardown := some { t with way := .darkJump } }).startDarkJump i
      else s
    | none => s

/-- Teardown has been decided for the context, or its state is already on the way to dark. -/
def Context.tornDown (c : Context) : Bool :=
  c.teardown.isSome || decide (c.state = .retreating) || decide (c.state = .closing)

/-- A cause reaches a context: its first cause decides, a later one is a second cause (R170). -/
def State.causeReaches (s : State) (i : CtxIdx) (o : TeardownOrder) : State :=
  s.withCtx i fun c =>
    if c.tornDown then s.secondCause i o else s.decideTeardown i o

/-- The recorded way carried out when the MEASURE that teardown waited for has ended (R159). -/
def State.afterMeasure (s : State) (i : CtxIdx) : State :=
  s.withCtx i fun c =>
    match c.teardown.map Teardown.way with
    | some .retreat => s.startRetreat i
    | some .darkJump => s.startDarkJump i
    | some .none => s
    | none => s

/-! ### Causes that reach every context on a port -/

/-- The contexts whose out-port is `p` take a cause, in ascending order (R97). -/
def State.causeOnOutPort (s : State) (p : PortNo) (o : TeardownOrder) : State :=
  allContexts.foldl (fun s i => s.withCtx i fun c =>
    if c.outPort = p then s.causeReaches i o else s) s

/-- The contexts whose in-port is degree `d` take a cause, in ascending order (R97). -/
def State.causeOnInPort (s : State) (d : DegreeNo) (o : TeardownOrder) : State :=
  allContexts.foldl (fun s i => s.withCtx i fun c =>
    if c.inPort = .degree d then s.causeReaches i o else s) s

/-- Out-port line down (R167). -/
def State.outLineDown (s : State) : TeardownOrder :=
  ⟨.outPortLineDown, some .lineDown, s.nodeId, .none, false, true⟩

/-- In-port line down (R167). -/
def State.inLineDown (s : State) : TeardownOrder :=
  ⟨.inPortLineDown, some .lineDown, s.nodeId, .abort, true, false⟩

/-- Out-port adjacency lost (R168). -/
def State.outAdjLost (s : State) : TeardownOrder :=
  ⟨.outPortAdjacencyLost, some .adjacencyLost, s.nodeId, .none, false, true⟩

/-- In-port adjacency lost (R168). -/
def State.inAdjLost (s : State) : TeardownOrder :=
  ⟨.inPortAdjacencyLost, some .adjacencyLost, s.nodeId, .abort, true, false⟩

/-- The adjacency-lost event for a degree: each context on it, in ascending order of index, takes the
event of its own port (R50 step 5, R168). -/
def State.adjacencyLost (s : State) (d : DegreeNo) : State :=
  allContexts.foldl (fun s i => s.withCtx i fun c =>
    if c.outPort = portOf d then s.causeReaches i s.outAdjLost
    else if c.inPort = .degree d then s.causeReaches i s.inAdjLost
    else s) s

/-- PORTCLEAR on a context of the port whose teardown is not decided: a local abort PortCleared, with
first cause PORTCLEAR (R169, log 13). -/
def State.clearContext (p : PortNo) (s : State) (i : CtxIdx) : State :=
  s.withCtx i fun c =>
    if (decide (c.outPort = p) || (degreeOf p).any fun d => decide (c.inPort = .degree d))
        && !c.tornDown then
      s.decideTeardown i { s.localAbort .portCleared with cause := .portClear }
    else s

end Sys2Proof.Machine
end

