-- ==== Sys2Proof/Machine/Adjacency.lean ====
section
/-! DEFINITION. The adjacency monitor: states, HELLO, and the identity query (sections 3.2 to 3.4,
R43 to R56). -/

namespace Sys2Proof.Machine

open Sys2Proof

/-- The Adjacency record of a degree, as it stands after the change (R52). -/
def State.adjacencyRecord (s : State) (d : DegreeNo) : State :=
  let x := s.degree d
  s.report (.adjacency d x.adj x.nbrId x.verif)

/-- The ports that are UNSYNCED, in ascending order (R14). -/
def State.unsyncedPorts (s : State) : List PortNo :=
  allPorts.filter fun p => !(s.port p).synced

/-- A HELLO of the degree's state: to all neighbours in PROBING, to the recorded neighbour in UP
(R42, R44). -/
def State.sendHello (s : State) (d : DegreeNo) : State :=
  let x := s.degree d
  let msg := PeerMsg.hello x.adj s.lowestFree.isNone (s.unsyncedPorts.map (·.val))
  match x.adj, x.nbrId with
  | .probing, _ => s.sendTo d 0 msg
  | .up, some n => s.sendTo d n msg
  | _, _ => s

/-- The hello timer armed anew (R44). -/
def State.armHello (s : State) (d : DegreeNo) : State :=
  s.onDegree d fun x => { x with helloTimer := s.after s.part.helloInterval }

/-- Entry to PROBING (R46). -/
def State.enterProbing (s : State) (d : DegreeNo) : State :=
  let s := s.onDegree d fun x =>
    { x with adj := .probing, seenUp := false, verif := .none, recoveryTimer := none }
  ((s.sendHello d).armHello d).adjacencyRecord d

/-- The neighbour values that leaving UP or PROBING clears; identity, degree and objects stay (R50,
R51). The query attempts used keep their count (log 32). -/
def DegreeState.forgotten (x : DegreeState) : DegreeState :=
  { x with helloTimer := none, deadTimer := none, identTimer := none, recoveryTimer := none,
           verif := .none, seenUp := false, nbrFull := false, nbrUnsynced := [] }

/-- Entry to RECOVERY from UP, then the adjacency-lost events (R50). -/
def State.enterRecovery (s : State) (d : DegreeNo) : State :=
  let s := s.onDegree d fun x =>
    { x.forgotten with adj := .recovery, recoveryTimer := s.after s.part.recoveryHold }
  (s.adjacencyRecord d).adjacencyLost d

/-- Entry to DOWN; nothing when the degree is already DOWN (R51). -/
def State.enterDown (s : State) (d : DegreeNo) : State :=
  if (s.degree d).adj = .down then s
  else (s.onDegree d fun x => { x.forgotten with adj := .down }).adjacencyRecord d

/-! ### Identity query (R53 to R55) -/

/-- One IDENT-QUERY to the recorded neighbour, as attempt `k`, with the ident timer armed (R53). -/
def State.sendQuery (s : State) (d : DegreeNo) (k : Nat) : State :=
  let s := s.sendPath d .identQuery
  s.onDegree d fun x =>
    { x with queryAttempts := k, identTimer := s.after s.part.identTimeout }

/-- An identity query starts (R53). -/
def State.startQuery (s : State) (d : DegreeNo) : State :=
  (s.onDegree d fun x => { x with verif := .pending }).sendQuery d 1

/-- The query ends in a verdict: ident timer disarmed, Adjacency record (R52, R54). The query attempts
used keep their last count (log 32). -/
def State.endQuery (s : State) (d : DegreeNo) (v : Verif) : State :=
  (s.onDegree d fun x => { x with verif := v, identTimer := none }).adjacencyRecord d

/-- A query attempt is spent: another IDENT-QUERY, or verdict Unverified (R53). -/
def State.spendQuery (s : State) (d : DegreeNo) : State :=
  let k := (s.degree d).queryAttempts
  if k < s.part.identAttempts then s.sendQuery d (k + 1) else s.endQuery d .unverified

/-- A two-byte field of an object's contents. -/
def IdentObject.field2 (o : IdentObject) (at_ : Nat) : Nat :=
  be2 (o.contents[at_]?.getD 0) (o.contents[at_ + 1]?.getD 0)

/-- A one-byte field of an object's contents. -/
def IdentObject.field1 (o : IdentObject) (at_ : Nat) : Nat := (o.contents[at_]?.getD 0).toNat

/-- The four comparisons of R54: node identity, replying degree, grid code and guard. -/
def DegreeState.objectsMatch (x : DegreeState) (guard : Nat) (o1 o2 : IdentObject) : Bool :=
  decide (some (o1.field2 0) = x.nbrId.map (·.toNat)) &&
    decide (some (o2.field1 0) = x.nbrDegree.map (·.val)) &&
    decide (o2.field1 1 = Config.gridCode) && decide (o2.field1 2 = guard)

/-- An ACK taken while the query is Pending (R54). The objects are held with their whole contents
(log 38). -/
def State.takeAck (s : State) (d : DegreeNo) (objects : List IdentObject) : State :=
  match objects with
  | o1 :: o2 :: _ =>
    let ok := (s.degree d).objectsMatch (s.port (portOf d)).params.guard o1 o2
    (s.onDegree d fun x => { x with objects := objects.take 6 }).endQuery d
      (if ok then .verified else .mismatched)
  | _ => s.endQuery d .unverified

/-- The four objects of an ACK (R55). -/
def State.ackObjects (s : State) (d : DegreeNo) : List IdentObject :=
  [⟨1, put2 s.nodeId.toNat ++ put2 Config.partCode⟩,
   ⟨2, [byteOf d.val, byteOf Config.gridCode, byteOf (s.port (portOf d)).params.guard]⟩,
   ⟨3, [byteOf s.contextsInUse, byteOf Config.tableCapacity]⟩,
   -- object 4 names the state UP with its code of section 11.5, and the recorded neighbour
   ⟨4, 3 :: put2 ((s.degree d).nbrId.elim 0 (·.toNat))⟩]

/-- The answer to an IDENT-QUERY: ACK in UP, NAK in any other state (R55). -/
def State.answerQuery (s : State) (d : DegreeNo) (src : NodeId) : State :=
  if (s.degree d).adj = .up then s.sendTo d src (.identReply true (s.ackObjects d))
  else s.sendTo d src (.identReply false [])

/-! ### HELLO taken (R45, R47, R48) -/

/-- A HELLO is valid: source from 1 to 4094 and not this part's own identity, and every unsynced
port from 0 to 11, once (R45). The sender state is PROBING or UP by its decoding. -/
def State.helloValid (s : State) (src : NodeId) (unsynced : List Nat) : Bool :=
  nodeInRange src.toNat && decide (src ≠ s.nodeId) &&
    unsynced.all (fun p => decide (p < 12)) && decide unsynced.Nodup

/-- A set of port numbers as the record keeps it: ascending, each once (R43). -/
def portSet (ports : List Nat) : List PortNo := allPorts.filter fun p => ports.contains p.val

/-- The Full flag and unsynced set of a HELLO recorded, the dead timer armed (R47, R48). -/
def State.refreshNeighbour (s : State) (d : DegreeNo) (full : Bool) (unsynced : List Nat) : State :=
  s.onDegree d fun x =>
    { x with nbrFull := full, nbrUnsynced := portSet unsynced,
             deadTimer := s.after s.part.deadTime }

/-- A valid HELLO in PROBING brings the adjacency UP (R47). -/
def State.bringUp (s : State) (d : DegreeNo) (src : NodeId) (srcDegree : DegreeNo)
    (sender : AdjState) (full : Bool) (unsynced : List Nat) : State :=
  let s := s.onDegree d fun x =>
    { x with adj := .up, nbrId := some src, nbrDegree := some srcDegree,
             seenUp := decide (sender = .up), objects := [] }
  ((s.refreshNeighbour d full unsynced).startQuery d).adjacencyRecord d

/-- A valid HELLO in UP: a different neighbour or a restarted one sends the degree to RECOVERY, and
any other is recorded (R48). -/
def State.hearNeighbour (s : State) (d : DegreeNo) (src : NodeId) (srcDegree : DegreeNo)
    (sender : AdjState) (full : Bool) (unsynced : List Nat) : State :=
  let x := s.degree d
  if x.nbrId ≠ some src ∨ x.nbrDegree ≠ some srcDegree then s.enterRecovery d
  else if x.seenUp = true ∧ sender = .probing then s.enterRecovery d
  else (s.refreshNeighbour d full unsynced).onDegree d fun x =>
    { x with seenUp := x.seenUp || decide (sender = .up) }

/-- A HELLO taken by the degree's monitor (R45, R47, R48). -/
def State.takeHello (s : State) (d : DegreeNo) (src : NodeId) (srcDegree : DegreeNo)
    (sender : AdjState) (full : Bool) (unsynced : List Nat) : State :=
  if s.helloValid src unsynced then
    match (s.degree d).adj with
    | .probing => s.bringUp d src srcDegree sender full unsynced
    | .up => s.hearNeighbour d src srcDegree sender full unsynced
    | .down => s
    | .recovery => s
  else s

end Sys2Proof.Machine
end

