-- ==== Sys2Proof/Machine/Reservation.lean ====
section
/-! DEFINITION. The reservation engine: COMMISSION's checks and work, OFFER, ACCEPT, DECLINE and the
offer's end (chapter 4, R58 to R81). -/

namespace Sys2Proof.Machine

open Sys2Proof

/-! ### Creating a context (R28) -/

/-- A context at its creation: the fields of R22 given, everything else at its starting value (R28). -/
def newContext (path : PathId) (role : Role) (cls : PathClass) (inPort : InPort) (outPort : PortNo)
    (width : Nat) (state : CtxState) (now : BitVec 32) : Context :=
  { path := path, role := role, cls := cls, inPort := inPort, outPort := outPort, width := width,
    tie := none, hop := none, remaining := none, state := state, candidates := none,
    chosen := none, totalCost := none, att := none, target := none, power := none, base := none,
    stepSize := none, clean := 0, steps := 0, backoffs := 0, kind := none, flags := .clear,
    attempts := 0, outstanding := none, timer := none, startTag := now, serviceTag := none,
    slowest := 0, abortReason := none, origin := none, teardown := none }

/-! ### COMMISSION (R58 to R63) -/

/-- All entries but the last, and the last. -/
def splitLast {α : Type} : List α → Option (List α × α)
  | [] => none
  | [x] => some ([], x)
  | x :: y :: rest => (splitLast (y :: rest)).map fun r => (x :: r.1, r.2)

/-- The entries' ports: line degrees and then one drop group (R60, R66). -/
def portsFitRoute (ports : List Nat) : Bool :=
  match splitLast ports with
  | some (inner, last) =>
    inner.all (fun p => decide (p < 8)) && decide (8 ≤ last) && decide (last ≤ 11)
  | none => false

/-- A COMMISSION route is well formed (R60). -/
def State.routeWellFormed (s : State) (route : List (Nat × Nat)) : Bool :=
  decide (2 ≤ route.length) && decide (route.length ≤ 16) &&
    route.all (fun e => nodeInRange e.1) && decide (route.map Prod.fst).Nodup &&
    decide (route.head?.map Prod.fst = some s.nodeId.toNat) && portsFitRoute (route.map Prod.snd)

/-- Check 3 of R59: width and window. -/
def windowInRange (n lo hi : Nat) : Bool :=
  decide (1 ≤ n) && decide (n ≤ 16) && decide (lo ≤ 399) && decide (hi ≤ 399) && decide (lo ≤ hi) &&
    decide (n ≤ hi - lo + 1)

/-- Check 8 of R59 and check 7 of R66: UP, with the next node as recorded neighbour. -/
def State.neighbourIs (s : State) (d : DegreeNo) (next : NodeId) : Bool :=
  decide ((s.degree d).adj = .up) && decide ((s.degree d).nbrId = some next)

/-- The degree's neighbour is Verified (R57). -/
def State.verified (s : State) (d : DegreeNo) : Bool := decide ((s.degree d).verif = .verified)

/-- Check 9 of R59 and of R66: not Full, and synced on the next out-port. -/
def State.neighbourFree (s : State) (d : DegreeNo) (nextPort : PortNo) : Bool :=
  !(s.degree d).nbrFull && !(s.degree d).nbrUnsynced.contains nextPort

/-- The work of a COMMISSION whose checks have passed: context, hold, timer and OFFER (R63). -/
def State.offerPath (s : State) (i : CtxIdx) (f : CommissionFields) (path : PathId) (d : DegreeNo)
    (onward : List RouteEntry) (cands : List Candidate) : State :=
  let c := { newContext path .head f.cls (.addGroup f.group) (portOf d) f.width .offered s.timeBase
    with tie := some f.tie, hop := some 1, remaining := some onward.length,
         candidates := some cands }
  let s := (s.putCtx i c).mapHold i (cands.map (·.s))
  let s := s.armCtx i (s.part.offerHop * onward.length)
  s.sendPath d (.offer path ⟨f.cls, f.width, f.tie, 2, onward, cands⟩)

/-- Checks 5 to 10 of R59 and the work of R63. `entries` is the route, which R60 found well formed. -/
def State.commissionOn (s : State) (f : CommissionFields) (entries : List RouteEntry) :
    State × Except ResultCode (CtxIdx × PathId) :=
  let path : PathId := ⟨s.nodeId, f.serial⟩
  match entries with
  | first :: next :: more =>
    match degreeOf first.port with
    | none => (s, .error .badRoute)
    | some d =>
      if (s.lookup path).isSome then (s, .error .duplicate)
      else match s.lowestFree with
        | none => (s, .error .tableFull)
        | some i =>
          if !(s.port first.port).synced then (s, .error .notSynced)
          else if !(s.neighbourIs d next.node && s.verified d) then (s, .error .noAdjacency)
          else if !s.neighbourFree d next.port then (s, .error .neighbourBusy)
          else
            let ps := s.port first.port
            match chooseCandidates f.tie
                (windowQuery ps.map ps.params.guard f.width f.lo f.hi) with
            | [] => (s, .error .noSpectrum)
            | cand :: cands =>
              (s.offerPath i f path d (next :: more) (cand :: cands), .ok (i, path))
  | _ => (s, .error .badRoute)

/-- Checks 2 to 10 of R59 and the work of R63. -/
def State.commissionPath (s : State) (f : CommissionFields) :
    State × Except ResultCode (CtxIdx × PathId) :=
  if !s.identityValid then (s, .error .noIdentity)
  else if !windowInRange f.width f.lo f.hi then (s, .error .badRange)
  else if !s.routeWellFormed f.route then (s, .error .badRoute)
  else
    match readAll readRouteEntry f.route with
    | some entries => s.commissionOn f entries
    | none => (s, .error .badRoute)

/-! ### OFFER at transit and tail (R65 to R70) -/

/-- Check 1 of R66. -/
def State.routeFits (s : State) (d : DegreeNo) (f : OfferFields) : Bool :=
  decide (f.route.head?.map RouteEntry.node = some s.nodeId) &&
    decide (f.hop + f.route.length - 1 ≤ 16) &&
    decide (f.route.head?.map RouteEntry.port ≠ some (portOf d)) &&
    portsFitRoute (f.route.map fun e => e.port.val)

/-- A transit's context, hold, timer and onward OFFER (R69). -/
def State.offerOnward (s : State) (i : CtxIdx) (d out : DegreeNo) (path : PathId) (f : OfferFields)
    (onward : List RouteEntry) (cands : List Candidate) : State :=
  let c := { newContext path .transit f.cls (.degree d) (portOf out) f.width .offered s.timeBase
    with tie := some f.tie, hop := some f.hop, remaining := some onward.length,
         candidates := some cands }
  let s := (s.putCtx i c).mapHold i (cands.map (·.s))
  let s := s.armCtx i (s.part.offerHop * onward.length)
  s.sendPath out (.offer path ⟨f.cls, f.width, f.tie, f.hop + 1, onward, cands⟩)

/-- A tail's context, direct reservation, timer and ACCEPT (R70). -/
def State.acceptAtTail (s : State) (i : CtxIdx) (d : DegreeNo) (out : PortNo) (path : PathId)
    (f : OfferFields) (best : Candidate) : State :=
  let c := { newContext path .tail f.cls (.degree d) out f.width .awaitLight s.timeBase
    with tie := some f.tie, hop := some f.hop, remaining := some 0, chosen := some best.s,
         totalCost := some best.cost }
  let s := (s.putCtx i c).mapReserveDirect i best.s
  let s := s.armCtx i (s.part.litHop * (f.hop - 1))
  s.sendPath d (.accept path best.s best.cost)

/-- Checks 7 to 9 of R66, at a transit. -/
def State.onwardRefusal (s : State) (out : DegreeNo) (next : RouteEntry) : Option Reason :=
  if !s.neighbourIs out next.node then some .noAdjacency
  else if !s.verified out then some .gridMismatch
  else if !s.neighbourFree out next.port then some .neighbourBusy
  else none

/-- An OFFER taken on degree `d`: the checks of R66 in order, then the transit or tail; the reason of
the first check that fails otherwise. -/
def State.judgeOffer (s : State) (d : DegreeNo) (path : PathId) (f : OfferFields) :
    Except Reason State :=
  match f.route with
  | [] => .error .routeError
  | mine :: onward =>
    if !s.routeFits d f then .error .routeError
    else if onward.any fun e => decide (e.node = s.nodeId) then .error .routeLoop
    else if (s.lookup path).isSome then .error .routeLoop
    else if !s.verified d then .error .gridMismatch
    else match s.lowestFree with
      | none => .error .tableFull
      | some i =>
        let ps := s.port mine.port
        if !ps.synced then .error .notSynced
        else
          let cands := trimCandidates ps.map ps.params.guard f.width f.candidates
          match onward, degreeOf mine.port with
          | next :: _, some out =>
            match s.onwardRefusal out next with
            | some r => .error r
            | none =>
              if cands = [] then .error .noSpectrum
              else .ok (s.offerOnward i d out path f onward cands)
          | _, _ =>
            match tailChoice f.tie cands with
            | none => .error .noSpectrum
            | some best => .ok (s.acceptAtTail i d mine.port path f best)

/-- An OFFER taken: a context, or the DECLINE of R67. -/
def State.takeOffer (s : State) (d : DegreeNo) (path : PathId) (f : OfferFields) : State :=
  match s.judgeOffer d path f with
  | .ok t => t
  | .error r => s.sendPath d (.decline path r s.nodeId)

/-! ### Path messages for a context (R71 to R79) -/

/-- The message arrived on the context's out-port, that is from downstream (R79). -/
def Context.fromDownstream (c : Context) (d : DegreeNo) : Bool := decide (c.outPort = portOf d)

/-- The message arrived on the context's in-port, that is from upstream (R79). -/
def Context.fromUpstream (c : Context) (d : DegreeNo) : Bool := decide (c.inPort = .degree d)

/-- ABORT UnknownPath sent back on the degree (R78). -/
def State.unknownPath (s : State) (d : DegreeNo) (path : PathId) : State :=
  s.sendPath d (.abort path .unknownPath s.nodeId)

/-- The offer ends at this node with a reason of its own: holds freed, DECLINE up, ABORT down, FREE
(R73, R76). -/
def State.endOffer (s : State) (i : CtxIdx) (r : Reason) : State :=
  s.withCtx i fun c =>
    let s := s.onCtx i fun c => { c with abortReason := some r, origin := some s.nodeId }
    let s := s.sendUpstream c (.decline c.path r s.nodeId)
    let s := s.sendDownstream c (.abort c.path r s.nodeId)
    s.endFreed i

/-- A good ACCEPT: the chosen range Reserved, the other holds freed, and the context moves on to
AWAIT_LIGHT at a transit and PREPARING at a head (R71, R72). -/
def State.acceptRange (s : State) (i : CtxIdx) (first cost : Nat) : State :=
  s.withCtx i fun c =>
    let s := s.mapReserveFromHold i first
    let s := s.onCtx i fun c =>
      { c with candidates := none, chosen := some first, totalCost := some cost, timer := none }
    match c.role with
    | .head => s.enterPreparing i
    | .transit | .tail =>
      let s := s.onCtx i fun c => { c with state := .awaitLight }
      let s := s.armCtx i (s.part.litHop * (c.hop.getD 1 - 1))
      s.sendUpstream c (.accept c.path first cost)

/-- An ACCEPT taken on degree `d` (R71 to R73, R78, R79). -/
def State.takeAccept (s : State) (d : DegreeNo) (path : PathId) (first cost : Nat) : State :=
  match s.lookup path with
  | none => s.unknownPath d path
  | some i =>
    s.withCtx i fun c =>
      if c.fromDownstream d && decide (c.state = .offered) then
        if (c.candidates.getD []).any fun x => decide (x.s = first) then s.acceptRange i first cost
        else s.endOffer i .protocolError
      else s

/-- A DECLINE taken on degree `d` (R74, R78, R79). -/
def State.takeDecline (s : State) (d : DegreeNo) (path : PathId) (r : Reason) (origin : NodeId) :
    State :=
  match s.lookup path with
  | none => s
  | some i =>
    s.withCtx i fun c =>
      if c.fromDownstream d && decide (c.state = .offered) then
        let s := s.onCtx i fun c => { c with abortReason := some r, origin := some origin }
        let s := s.endFreed i
        s.sendUpstream c (.decline c.path r origin)
      else s

/-- A LIGHT taken on degree `d` (R136, R78). -/
def State.takeLight (s : State) (d : DegreeNo) (path : PathId) : State :=
  match s.lookup path with
  | none => s.unknownPath d path
  | some i =>
    s.withCtx i fun c =>
      if c.fromUpstream d && decide (c.state = .awaitLight) then s.enterPreparing i else s

/-- A LIT taken on degree `d` (R144, R78). -/
def State.takeLit (s : State) (d : DegreeNo) (path : PathId) : State :=
  match s.lookup path with
  | none => s
  | some i =>
    s.withCtx i fun c =>
      if c.fromDownstream d && decide (c.state = .litWait) then
        (s.enterInService i).sendUpstream c (.lit path)
      else s

/-- A RELEASE taken on degree `d`, from upstream (R165). -/
def State.takeRelease (s : State) (d : DegreeNo) (path : PathId) : State :=
  match s.lookup path with
  | none => s
  | some i =>
    s.withCtx i fun c =>
      if c.fromUpstream d then
        s.causeReaches i ⟨.releaseFromUpstream, none, path.head,
          if c.state = .offered then .abort else .release, true, false⟩
      else s

/-- An ABORT taken on the out-port, from downstream (R164). -/
def State.abortFromBelow (s : State) (i : CtxIdx) (r : Reason) (origin : NodeId) : State :=
  s.causeReaches i ⟨.abortFromDownstream, some r, origin, .none, false, true⟩

/-- An ABORT taken on the in-port, from upstream (R165). -/
def State.abortFromAbove (s : State) (i : CtxIdx) (r : Reason) (origin : NodeId) : State :=
  s.causeReaches i ⟨.abortFromUpstream, some r, origin, .abort, true, false⟩

end Sys2Proof.Machine
end

