-- ==== Sys2Proof/Machine/Management.lean ====
section
/-! DEFINITION. The management interface: taking commands, answering them, parameters, and the
meaning of every management command (chapter 10). -/

namespace Sys2Proof.Machine

open Sys2Proof

/-! ### Taking and answering (R172, R173) -/

/-- What a command is answered with, besides what is echoed (R172). -/
structure Reply where
  code : ResultCode
  clamped : Bool
  body : RespBody
deriving DecidableEq, Repr

/-- OK with response fields. -/
def Reply.ok (b : RespBody) : Reply := ⟨.ok, false, b⟩

/-- OK with response fields and the Clamped flag as given (R173). -/
def Reply.okClamped (b : RespBody) (clamped : Bool) : Reply := ⟨.ok, clamped, b⟩

/-- A refusal: no body, Clamped clear (R173). -/
def Reply.err (c : ResultCode) : Reply := ⟨c, false, .none⟩

/-- The byte of a command at an offset, as echoed: the byte received, or a free value where the
command is too short to hold it (R172, log 9). -/
def State.echo (s : State) (cmd : List Byte) (at_ : Nat) : Byte :=
  (cmd[at_]?).getD (Config.missingEcho (s.freeNext + at_))

/-- The response to a command is sent, with the time base as it stands (R172). -/
def State.respond (s : State) (cmd : List Byte) (r : Reply) : State :=
  let s := { s with responses := s.responses ++
    [⟨s.echo cmd 0, s.echo cmd 1, s.echo cmd 2, r.code, r.clamped, s.timeBase, r.body⟩] }
  if cmd.length < 3 then { s with freeNext := s.freeNext + 3 } else s

/-- The kind byte of a queued command; absent in an empty body. -/
def commandKind (cmd : List Byte) : Option Nat := cmd.head?.map (·.toNat)

/-- The command at the head of the queue, when its kind is `k`: taken, carried out by `work` on its
fields and answered, as one operation. A body too short for the header is answered MALFORMED (R172,
R173). With another command at the head, or none, the row does not arise (log 1). -/
def State.runCommand (s : State) (k : Nat) (work : List Byte → State → State × Reply) : State :=
  match s.commands with
  | cmd :: rest =>
    if commandKind cmd = some k then
      let s := { s with commands := rest }
      if cmd.length < 3 then s.respond cmd (.err .malformed)
      else
        let r := work (cmd.drop 3) s
        r.1.respond cmd r.2
    else s
  | [] => s

/-- A meaning of a management command. -/
def onCommand (s : State) (k : Nat) (work : List Byte → State → State × Reply) :
    Host.Outcome State Fault Refusal :=
  whileRunning s fun s => s.runCommand k work

/-- Fields read by check 1, or MALFORMED (R173). -/
def decoded {α : Type} (x : Option α) (s : State) (work : α → State × Reply) : State × Reply :=
  match x with
  | some a => work a
  | none => (s, .err .malformed)

/-- A port field from 0 to 11, or BADPORT (R173, check 2). -/
def withPort (b : Byte) (s : State) (work : PortNo → State × Reply) : State × Reply :=
  match readPort b with
  | some p => work p
  | none => (s, .err .badPort)

/-- A line degree field from 0 to 7, or BADPORT (R173, check 2). -/
def withDegree (b : Byte) (s : State) (work : DegreeNo → State × Reply) : State × Reply :=
  match readDegree b with
  | some d => work d
  | none => (s, .err .badPort)

/-- A command of one port from 0 to 11. -/
def onPortCommand (fields : List Byte) (s : State) (work : PortNo → State × Reply) :
    State × Reply :=
  decoded (readPortField fields) s fun b => withPort b s work

/-- The context that a path identity names, or UNKNOWNPATH. -/
def withPath (path : PathId) (s : State) (work : CtxIdx → Context → State × Reply) :
    State × Reply :=
  match s.lookup path with
  | some i =>
    match s.ctx i with
    | some c => work i c
    | none => (s, .err .unknownPath)
  | none => (s, .err .unknownPath)

/-! ### Paths: COMMISSION, RELEASE, RETRIM, ADOPT -/

/-- COMMISSION (R58 to R63). -/
def commissionWork (fields : List Byte) (s : State) : State × Reply :=
  decoded (readCommission fields) s fun f =>
    match s.commissionPath f with
    | (t, .ok (i, path)) => (t, .ok (.path i path))
    | (t, .error e) => (t, .err e)

def execCommission (s : State) : Host.Outcome State Fault Refusal := onCommand s 1 commissionWork

/-- What a management RELEASE decides (R163). -/
def State.releaseOrder (s : State) (c : Context) : TeardownOrder :=
  if c.state = .offered then
    ⟨.managementRelease, some .releasedByManager, s.nodeId, .abort, false, false⟩
  else ⟨.managementRelease, none, c.path.head, .release, false, false⟩

/-- RELEASE (R163). -/
def releaseWork (fields : List Byte) (s : State) : State × Reply :=
  decoded (readPathField fields) s fun path => withPath path s fun i c =>
    if c.role ≠ .head then (s, .err .wrongRole)
    else if c.tornDown then (s, .err .wrongState)
    else (s.decideTeardown i (s.releaseOrder c), .ok .none)

def execRelease (s : State) : Host.Outcome State Fault Refusal := onCommand s 2 releaseWork

/-- RETRIM (R147, R153). With no swap pending the trim starts at once, and a SWAP taken after it waits
for its end (R148), against the row of R152 that makes the swap first (log 37). -/
def retrimWork (fields : List Byte) (s : State) : State × Reply :=
  decoded (readPathField fields) s fun path => withPath path s fun i c =>
    if c.state = .inService ∧ c.tornDown = false then
      ((s.onCtx i fun c => { c with flags := { c.flags with trimDue := true } }).trimIfDue i,
        .ok .none)
    else (s, .err .wrongState)

def execRetrim (s : State) : Host.Outcome State Fault Refusal := onCommand s 3 retrimWork

/-- Check 3 of R36: the ports that fit the role. -/
def adoptPorts (f : AdoptFields) : Option (InPort × PortNo) :=
  match f.role with
  | .head =>
    if h : f.inPort < 4 ∧ f.outPort < 8 then
      some (.addGroup ⟨f.inPort, h.1⟩, portOf ⟨f.outPort, h.2⟩)
    else none
  | .transit =>
    if h : f.inPort < 8 ∧ f.outPort < 8 ∧ f.inPort ≠ f.outPort then
      some (.degree ⟨f.inPort, h.1⟩, portOf ⟨f.outPort, h.2.1⟩)
    else none
  | .tail =>
    if h : f.inPort < 8 ∧ 8 ≤ f.outPort ∧ f.outPort < 12 then
      some (.degree ⟨f.inPort, h.1⟩, ⟨f.outPort, h.2.2⟩)
    else none

/-- Check 4 of R36: the role against the node identity; an invalid identity takes TRANSIT and TAIL
adoptions. That it takes them also where the path's head equals the bits of the invalid identity is the
model's choice (log 39). -/
def State.adoptRoleFits (s : State) (f : AdoptFields) : Bool :=
  match f.role with
  | .head => s.identityValid && decide (f.path.head = s.nodeId)
  | .transit | .tail => !s.identityValid || decide (f.path.head ≠ s.nodeId)

/-- An attenuation taken at the nearer bound of 0 to 2500. -/
def clampAtt (x : Int) : Nat := min x.toNat Config.dark

/-- The adopted context (R37). -/
def adoptedContext (f : AdoptFields) (inPort : InPort) (outPort : PortNo) (now : BitVec 32) :
    Context :=
  { newContext f.path f.role .normal inPort outPort f.n .inService now with
      chosen := some f.s, att := some (clampAtt f.att), serviceTag := some now }

/-- ADOPT (R36, R37). -/
def adoptWork (fields : List Byte) (s : State) : State × Reply :=
  decoded (readAdopt fields) s fun f =>
    if ¬(1 ≤ f.n ∧ f.n ≤ 16 ∧ f.s + f.n ≤ Config.nCells) then (s, .err .badRange)
    else match adoptPorts f with
      | none => (s, .err .badPort)
      | some (inPort, outPort) =>
        if !s.adoptRoleFits f then (s, .err .wrongRole)
        else if (s.lookup f.path).isSome then (s, .err .duplicate)
        else match s.lowestFree with
          | none => (s, .err .tableFull)
          | some i =>
            if !rangeAll (s.port outPort).map f.s f.n (fun x => decide (x = .free)) then
              (s, .err .conflict)
            else
              ((s.putCtx i (adoptedContext f inPort outPort s.timeBase)).mapAdopt i f.s,
                .okClamped (.index i) (decide (f.att < 0) || decide (2500 < f.att)))

def execAdopt (s : State) : Host.Outcome State Fault Refusal := onCommand s 4 adoptWork

/-! ### Ports: SYNC, BLOCK, UNBLOCK, PROFILE, SWAP, THAW, PORTCLEAR -/

/-- SYNC (R14). -/
def syncWork (fields : List Byte) (s : State) : State × Reply :=
  onPortCommand fields s fun p => (s.onPort p fun ps => { ps with synced := true }, .ok .none)

def execSync (s : State) : Host.Outcome State Fault Refusal := onCommand s 5 syncWork

/-- The range of BLOCK and UNBLOCK lies in the band (R173, check 3). -/
def countInRange (first count : Nat) : Bool :=
  decide (1 ≤ count) && decide (count ≤ 400) && decide (first + count ≤ Config.nCells)

/-- BLOCK: all cells of the range Free, or CONFLICT (R12). -/
def blockWork (fields : List Byte) (s : State) : State × Reply :=
  decoded (readRangeFields fields) s fun f => withPort f.1 s fun p =>
    if !countInRange f.2.1 f.2.2 then (s, .err .badRange)
    else if rangeAll (s.port p).map f.2.1 f.2.2 (fun x => decide (x = .free)) then
      (s.onPort p fun ps =>
        { ps with map := writeRange ps.map f.2.1 f.2.2 (fun _ => true) .blocked }, .ok .none)
    else (s, .err .conflict)

def execBlock (s : State) : Host.Outcome State Fault Refusal := onCommand s 6 blockWork

/-- UNBLOCK: every Blocked cell of the range becomes Free (R13). -/
def unblockWork (fields : List Byte) (s : State) : State × Reply :=
  decoded (readRangeFields fields) s fun f => withPort f.1 s fun p =>
    if !countInRange f.2.1 f.2.2 then (s, .err .badRange)
    else
      (s.onPort p fun ps =>
        { ps with map := writeRange ps.map f.2.1 f.2.2 (fun x => decide (x = .blocked)) .free },
        .ok .none)

def execUnblock (s : State) : Host.Outcome State Fault Refusal := onCommand s 7 unblockWork

/-- A density at the nearer bound of −2000 to +1000 (R18). -/
def clampDensity (x : Int) : Int := max (-2000) (min x 1000)

/-- A bank with clamped densities written from a first cell on (R18). -/
def writeDensities (b : Profile) (first : Nat) (ds : List Int) : Profile :=
  mapEntries b fun k x =>
    if first ≤ k then ((ds[k - first]?).map clampDensity).getD x else x

/-- A port with densities written to one of its banks. -/
def PortState.writeBank (p : PortState) (bank : Bank) (first : Nat) (ds : List Int) : PortState :=
  match bank with
  | .a => { p with bankA := writeDensities p.bankA first ds }
  | .b => { p with bankB := writeDensities p.bankB first ds }

/-- PROFILE (R18). -/
def profileWork (fields : List Byte) (s : State) : State × Reply :=
  decoded (readProfile fields) s fun (b, bank, first, ds) => withPort b s fun p =>
    if first + ds.length > Config.nCells then (s, .err .badRange)
    else if (s.port p).active = bank then (s, .err .wrongBank)
    else
      (s.onPort p fun ps => ps.writeBank bank first ds,
        .okClamped .none (ds.any fun x => decide (x ≠ clampDensity x)))

def execProfile (s : State) : Host.Outcome State Fault Refusal := onCommand s 8 profileWork

/-- SWAP (R19). -/
def swapWork (fields : List Byte) (s : State) : State × Reply :=
  onPortCommand fields s fun p =>
    ((s.onPort p fun ps => { ps with swapPending := true }).lookForQuiet p true, .ok .none)

def execSwap (s : State) : Host.Outcome State Fault Refusal := onCommand s 9 swapWork

/-- THAW (R133). -/
def thawWork (fields : List Byte) (s : State) : State × Reply :=
  onPortCommand fields s fun p =>
    ((s.onPort p fun ps => { ps with frozen := false }).considerGrant p, .ok .none)

def execThaw (s : State) : Host.Outcome State Fault Refusal := onCommand s 10 thawWork

/-- PORTCLEAR (R169). -/
def portclearWork (fields : List Byte) (s : State) : State × Reply :=
  onPortCommand fields s fun p => (allContexts.foldl (State.clearContext p) s, .ok .none)

def execPortclear (s : State) : Host.Outcome State Fault Refusal := onCommand s 11 portclearWork

/-! ### Parameters (R174) -/

/-- The scope of a parameter number (R174). -/
inductive Scope where
  | part
  | port
  | degree
  | readOnly
deriving DecidableEq, Repr

/-- The scope of each parameter number of section 11.5; none for a number not listed. -/
def paramScope (k : Nat) : Option Scope :=
  if 1 ≤ k ∧ k ≤ 12 then some .port
  else if k = 13 then some .degree
  else if 20 ≤ k ∧ k ≤ 31 then some .part
  else if 40 ≤ k ∧ k ≤ 43 then some .readOnly
  else none

/-- The range of a parameter: of values clamped to, or of codes that stand for names (R7, R113, R134,
R174). -/
inductive ParamRange where
  | clamp (lo hi : Int)
  | codes (lo hi : Int)
deriving DecidableEq, Repr

/-- The range of each parameter number. -/
def paramRange (k : Nat) : ParamRange :=
  match k with
  | 1 => .clamp 0 15
  | 2 => .clamp 0 15
  | 3 => .clamp 0 64
  | 4 => .clamp 5 500
  | 5 => .clamp 5 1000
  | 6 => .clamp 5 500
  | 7 => .clamp 20 2000
  | 8 => .clamp 10 1000
  | 9 => .clamp 0 15
  | 10 => .clamp 0 7
  | 11 => .codes 0 1
  | 12 => .clamp 0 1
  | 13 => .codes 1 5
  | 20 => .clamp 20 1000
  | 21 => .clamp 50 5000
  | 22 => .clamp 100 10000
  | 23 => .clamp 100 5000
  | 24 => .clamp 1 8
  | 25 => .clamp 50 2000
  | 26 => .clamp 1000 60000
  | 27 => .clamp 10 1000
  | 28 => .clamp 1 8
  | 29 => .codes 0 1
  | 30 => .codes 0 1
  | 31 => .clamp 1 4094
  | _ => .codes 1 0

/-- The value written for a value given: the nearer bound of a numeric range, the code itself of an
enumerated one, none for a code outside its set (R174). -/
def ParamRange.fit (r : ParamRange) (v : Int) : Option Nat :=
  match r with
  | .clamp lo hi => some (max lo (min v hi)).toNat
  | .codes lo hi => if lo ≤ v ∧ v ≤ hi then some v.toNat else none

/-- A per-port parameter written. -/
def PortParams.write (q : PortParams) (k v : Nat) : PortParams :=
  match k with
  | 1 => { q with sparseCode := v }
  | 2 => { q with denseCode := v }
  | 3 => { q with sparseThreshold := v }
  | 4 => { q with gOk := v }
  | 5 => { q with gAbort := v }
  | 6 => { q with actuationWindow := v }
  | 7 => { q with observationWindow := v }
  | 8 => { q with extensionUnit := v }
  | 9 => { q with extensionCap := v }
  | 10 => { q with burstCode := v }
  | 11 => { q with haltOnDisturbance := decide (v = 1) }
  | 12 => { q with guard := v }
  | _ => q

/-- A per-port parameter as stored. -/
def PortParams.read (q : PortParams) (k : Nat) : Nat :=
  match k with
  | 1 => q.sparseCode
  | 2 => q.denseCode
  | 3 => q.sparseThreshold
  | 4 => q.gOk
  | 5 => q.gAbort
  | 6 => q.actuationWindow
  | 7 => q.observationWindow
  | 8 => q.extensionUnit
  | 9 => q.extensionCap
  | 10 => q.burstCode
  | 11 => q.haltOnDisturbance.toNat
  | 12 => q.guard
  | _ => 0

/-- A part-wide parameter written. -/
def PartParams.write (q : PartParams) (k v : Nat) : PartParams :=
  match k with
  | 20 => { q with helloInterval := v }
  | 21 => { q with deadTime := v }
  | 22 => { q with recoveryHold := v }
  | 23 => { q with identTimeout := v }
  | 24 => { q with identAttempts := v }
  | 25 => { q with offerHop := v }
  | 26 => { q with litHop := v }
  | 27 => { q with measureTimeout := v }
  | 28 => { q with measureAttempts := v }
  | 29 => { q with acceptAll := decide (v = 1) }
  | 30 => { q with groupAccept := decide (v = 1) }
  | 31 => { q with groupId := v }
  | _ => q

/-- A part-wide parameter as stored. -/
def PartParams.read (q : PartParams) (k : Nat) : Nat :=
  match k with
  | 20 => q.helloInterval
  | 21 => q.deadTime
  | 22 => q.recoveryHold
  | 23 => q.identTimeout
  | 24 => q.identAttempts
  | 25 => q.offerHop
  | 26 => q.litHop
  | 27 => q.measureTimeout
  | 28 => q.measureAttempts
  | 29 => q.acceptAll.toNat
  | 30 => q.groupAccept.toNat
  | 31 => q.groupId
  | _ => 0

/-- Lamp mode codes (section 11.5). -/
def lampModeOf (v : Nat) : LampMode :=
  match v with
  | 2 => .off
  | 3 => .on
  | 4 => .slow
  | 5 => .fast
  | _ => .auto

/-- The read-only items: node identity, its validity, part code and grid code (R174). -/
def State.readOnlyItem (s : State) (k : Nat) : Nat :=
  match k with
  | 40 => s.nodeId.toNat
  | 41 => s.identityValid.toNat
  | 42 => Config.partCode
  | 43 => Config.gridCode
  | _ => 0

/-- SETPARAM (R174). -/
def setparamWork (fields : List Byte) (s : State) : State × Reply :=
  decoded (readSetparam fields) s fun (k, b, v) =>
    decoded ((paramRange k).fit v) s fun x =>
      let reply := Reply.okClamped .none (decide ((x : Int) ≠ v))
      match paramScope k with
      | some .part => ({ s with part := s.part.write k x }, reply)
      | some .port => withPort b s fun p =>
        (s.onPort p fun ps => { ps with params := ps.params.write k x }, reply)
      | some .degree => withDegree b s fun d =>
        (s.onDegree d fun ds => { ds with lampMode := lampModeOf x }, reply)
      | some .readOnly => (s, .err .malformed)
      | none => (s, .err .malformed)

def execSetparam (s : State) : Host.Outcome State Fault Refusal := onCommand s 12 setparamWork

/-- GETPARAM (R174). For the read-only items, as for the part-wide parameters, the port field is not
examined (log 35). -/
def getparamWork (fields : List Byte) (s : State) : State × Reply :=
  decoded (readGetparam fields) s fun (k, b) =>
    match paramScope k with
    | some .part => (s, .ok (.value (s.part.read k)))
    | some .port => withPort b s fun p => (s, .ok (.value ((s.port p).params.read k)))
    | some .degree => withDegree b s fun d => (s, .ok (.value (s.degree d).lampMode.code))
    | some .readOnly => (s, .ok (.value (s.readOnlyItem k)))
    | none => (s, .err .malformed)

def execGetparam (s : State) : Host.Outcome State Fault Refusal := onCommand s 13 getparamWork

/-! ### Reading: READCTX, READMAP, READNBR, READPORT, READRPT -/

/-- The answer for record `i` (R35). -/
def State.contextReply (s : State) (i : CtxIdx) : Reply :=
  .ok (.context i (s.record i) ((s.ctx i).bind fun c => s.remaining c.timer))

/-- READCTX (R35). -/
def readctxWork (fields : List Byte) (s : State) : State × Reply :=
  decoded (readReadctx fields) s fun sel =>
    match sel with
    | .inl b =>
      match readIndex b with
      | some i => (s, s.contextReply i)
      | none => (s, .err .badRange)
    | .inr path => withPath path s fun i _ => (s, s.contextReply i)

def execReadctx (s : State) : Host.Outcome State Fault Refusal := onCommand s 14 readctxWork

/-- READMAP (R15). -/
def readmapWork (fields : List Byte) (s : State) : State × Reply :=
  onPortCommand fields s fun p => (s, .ok (.runs (mapRuns (s.port p).map)))

def execReadmap (s : State) : Host.Outcome State Fault Refusal := onCommand s 15 readmapWork

/-- The items of READNBR as they stand (R57). -/
def DegreeState.view (x : DegreeState) : NbrView :=
  ⟨x.adj, x.nbrId, x.nbrDegree, x.nbrFull, x.nbrUnsynced, x.seenUp, x.verif, x.queryAttempts,
    x.objects, x.overflow⟩

/-- READNBR: the items, and the overflow flag cleared (R57). -/
def readnbrWork (fields : List Byte) (s : State) : State × Reply :=
  decoded (readPortField fields) s fun b => withDegree b s fun d =>
    (s.onDegree d fun x => { x with overflow := false }, .ok (.nbrItems (s.degree d).view))

def execReadnbr (s : State) : Host.Outcome State Fault Refusal := onCommand s 16 readnbrWork

/-- The items of READPORT as they stand (R175). -/
def PortState.view (p : PortState) : PortView :=
  ⟨p.synced, p.active, p.swapPending, p.gain, p.lineIsUp, p.overflow, p.frozen, p.phase, p.holder,
    p.tenure, p.retreatQ, p.restoreQ, p.normalQ, p.slowest⟩

/-- READPORT: the items, and the overflow flag and slowest settle cleared (R175). -/
def readportWork (fields : List Byte) (s : State) : State × Reply :=
  onPortCommand fields s fun p =>
    (s.onPort p fun ps => { ps with overflow := false, slowest := 0 },
      .ok (.portItems (s.port p).view))

def execReadport (s : State) : Host.Outcome State Fault Refusal := onCommand s 17 readportWork

/-- READRPT: the oldest records removed and returned with Lost, which clears (R177). -/
def readrptWork (fields : List Byte) (s : State) : State × Reply :=
  decoded (readReadrpt fields) s fun k =>
    let left := s.ring.drop k
    ({ s with ring := left, lost := false }, .ok (.ring s.lost left.length (s.ring.take k)))

def execReadrpt (s : State) : Host.Outcome State Fault Refusal := onCommand s 18 readrptWork

/-! ### IDENTQ, SETTIME, RESET, unknown kinds -/

/-- IDENTQ (R56). -/
def identqWork (fields : List Byte) (s : State) : State × Reply :=
  decoded (readPortField fields) s fun b => withDegree b s fun d =>
    if (s.degree d).adj = .up then
      let t := s.startQuery d
      (if (s.degree d).verif = .pending then t else t.adjacencyRecord d, .ok .none)
    else (s, .err .wrongState)

def execIdentq (s : State) : Host.Outcome State Fault Refusal := onCommand s 19 identqWork

/-- SETTIME: the response carries the time base after the write (R179). -/
def settimeWork (fields : List Byte) (s : State) : State × Reply :=
  decoded (readSettime fields) s fun v =>
    ({ s with timeBase := v }, .ok (.value (v.toNat : Int)))

def execSettime (s : State) : Host.Outcome State Fault Refusal := onCommand s 20 settimeWork

/-- The part after a reset whose straps were read as `straps`: every item at its reset value. What the
model keeps for itself stays, with the responses already sent (R182, log 6). -/
def State.afterReset (s : State) (straps : BitVec 13) : State :=
  { State.resetWith straps with
      responses := s.responses, freeNext := s.freeNext, pending := s.pending }

/-- RESET is answered OK first, and the part then resets (R182). A body with fields is MALFORMED and
resets nothing (R173). -/
def State.runReset (s : State) (straps : BitVec 13) : State :=
  match s.commands with
  | cmd :: rest =>
    if commandKind cmd = some 21 then
      let s := { s with commands := rest }
      if cmd.length = 3 then (s.respond cmd (.ok .none)).afterReset straps
      else s.respond cmd (.err .malformed)
    else s
  | [] => s

def execReset (straps : BitVec 13) (s : State) : Host.Outcome State Fault Refusal :=
  whileRunning s fun s => s.runReset straps

/-- The kind is one of codes 1 to 21 (R173). -/
def kindKnown (k : Option Nat) : Bool := k.any fun x => decide (1 ≤ x) && decide (x ≤ 21)

/-- A command of unknown kind at the head of the queue is answered MALFORMED with its kind byte echoed
(R173, R185). -/
def State.runUnknown (s : State) : State :=
  match s.commands with
  | cmd :: rest =>
    if kindKnown (commandKind cmd) then s
    else { s with commands := rest }.respond cmd (.err .malformed)
  | [] => s

def execUnknownCommandKind (s : State) : Host.Outcome State Fault Refusal :=
  whileRunning s State.runUnknown

end Sys2Proof.Machine
end

