-- ==== Sys2Proof/Machine/Arrivals.lean ====
section
/-! DEFINITION. Frames arriving on the links, and the reset pin (R38 to R40, R83, R172, R182, R184,
R185). -/

namespace Sys2Proof.Machine

open Sys2Proof

/-! ### The management link (R172, R184) -/

/-- A good management frame joins the command queue; on a full queue it is discarded unanswered
(R172). -/
def State.acceptCommand (s : State) (f : GoodFrame) : State :=
  if s.commands.length < Config.commandQueueCapacity then
    { s with commands := s.commands ++ [f.body] }
  else s

/-- The management link: every body is good, and is judged when its command is taken (R184, R185). -/
def mgmtLinkRule : LinkRule := ⟨4096, [flagManagement], fun _ _ => true⟩

/-- COMMAND_ARRIVAL: bytes arrive on the management link (log 7). -/
def execCommandArrival (bytes : List Byte) (s : State) : Host.Outcome State Fault Refusal :=
  whileRunning s fun s =>
    let r := receiveAll mgmtLinkRule s.mgmtRx bytes
    r.1.foldl State.acceptCommand { s with mgmtRx := r.2 }

/-! ### The port links (R38, R39, R40, R83, R184, R185) -/

/-- The body of a frame on a port link as it is judged on arrival: a controller body by its layout,
while a peer body waits until its frame is taken (R185). -/
def portBodyPasses (flag : Byte) (body : List Byte) : Bool :=
  decide (flag ≠ flagController) || (readReport body).isSome

/-- Links 0 to 7 carry both streams, links 8 to 11 the controller stream (R184). -/
def portLinkRule (p : PortNo) : LinkRule :=
  ⟨256, if p.val < 8 then [flagController, flagPeer] else [flagController], portBodyPasses⟩

/-- The three cases of R39 for a destination. -/
def State.acceptsDest (s : State) (dest : Nat) : Bool :=
  decide (dest = s.nodeId.toNat) || (decide (dest = 0) && s.part.acceptAll) ||
    (s.part.groupAccept && decide (dest = s.part.groupId))

/-- A good peer frame on a line degree link: judged by its destination under a valid identity, and
queued, or lost on a full queue (R38, R39, R40). -/
def State.acceptPeer (s : State) (d : DegreeNo) (body : List Byte) : State :=
  if s.identityValid && (peerDest body).any s.acceptsDest then
    s.onDegree d fun x =>
      if x.peerQueue.length < Config.peerQueueCapacity then
        { x with peerQueue := x.peerQueue ++ [body] }
      else { x with overflow := true }
  else s

/-- A good controller frame: its report joins the port's queue, or is lost on a full queue (R83). A body
that is no report has failed as a bad frame before this (R185). -/
def State.acceptReport (s : State) (p : PortNo) (body : List Byte) : State :=
  match readReport body with
  | some r =>
    s.onPort p fun ps =>
      if ps.reports.length < Config.controllerQueueCapacity then
        { ps with reports := ps.reports ++ [r] }
      else { ps with overflow := true }
  | none => s

/-- A good frame of a port link, passed to its stream (R184). -/
def State.acceptOnLink (p : PortNo) (s : State) (f : GoodFrame) : State :=
  if f.flag = flagController then s.acceptReport p f.body
  else match degreeOf p with
    | some d => s.acceptPeer d f.body
    | none => s

/-- Bytes arrive on a port link, whose two streams share one receiver (R38, R184). -/
def State.receiveOnLink (s : State) (p : PortNo) (bytes : List Byte) : State :=
  let r := receiveAll (portLinkRule p) (s.port p).rx bytes
  r.1.foldl (State.acceptOnLink p) (s.onPort p fun ps => { ps with rx := r.2 })

/-- PEER_FRAME_ARRIVAL: bytes of a peer frame arrive on a port link (log 7). -/
def execPeerFrameArrival (p : PortNo) (bytes : List Byte) (s : State) :
    Host.Outcome State Fault Refusal :=
  whileRunning s fun s => s.receiveOnLink p bytes

/-- CONTROLLER_FRAME_ARRIVAL: bytes of a controller frame arrive on a port link (log 7). -/
def execControllerFrameArrival (p : PortNo) (bytes : List Byte) (s : State) :
    Host.Outcome State Fault Refusal :=
  whileRunning s fun s => s.receiveOnLink p bytes

/-! ### The reset pin (R182) -/

/-- The receivers of all links as they are when the search for a marker begins afresh (R184). -/
def State.clearReceivers (s : State) : State :=
  { s with mgmtRx := [], ports := s.ports.map fun ps => { ps with rx := [] } }

/-- RESET_PIN_ASSERT: frames are discarded from here on, and nothing else changes until the release
(R182, log 5). -/
def execResetPinAssert (s : State) : Host.Outcome State Fault Refusal :=
  .next (if s.inReset then s else { s.clearReceivers with inReset := true })

/-- RESET_PIN_RELEASE: every item takes its reset value and the straps are read (R181, R182). A pin
that is not asserted cannot be released. -/
def execResetPinRelease (straps : BitVec 13) (s : State) : Host.Outcome State Fault Refusal :=
  .next (if s.inReset then s.afterReset straps else s)

end Sys2Proof.Machine
end

