-- ==== Sys2Proof/Machine/Peer.lean ====
section
/-! DEFINITION. The peer interface: taking the frame at the head of a degree's receive queue, the
checks of R41, and the meaning of every peer message row (chapter 3, R41; R47, R54, R55, R65, R71,
R74, R136, R144, R164, R165). -/

namespace Sys2Proof.Machine

open Sys2Proof

/-! ### The checks of R41 -/

/-- HELLO, IDENT-QUERY and IDENT-REPLY, which go to the adjacency monitor in any state (R41). -/
def PeerMsg.ofMonitor : PeerMsg → Bool
  | .hello .. => true
  | .identQuery => true
  | .identReply .. => true
  | .offer .. => false
  | .accept .. => false
  | .decline .. => false
  | .light .. => false
  | .lit .. => false
  | .release .. => false
  | .abort .. => false

/-- Checks 2 and 3 of R41, against the degree as it stands when the frame is taken. -/
def DegreeState.admits (x : DegreeState) (f : PeerFrame) : Bool :=
  f.msg.ofMonitor ||
    (decide (x.adj = .up) && decide (x.nbrId = some f.src) &&
      decide (x.nbrDegree = some f.srcDegree))

/-- The frame that a queued body holds, when it passes the three checks of R41. -/
def State.admitted (s : State) (d : DegreeNo) (body : List Byte) : Option PeerFrame :=
  (readPeerFrame body).filter (s.degree d).admits

/-- The head of a degree's receive queue is removed (R40). -/
def State.popPeer (s : State) (d : DegreeNo) : State :=
  s.onDegree d fun x => { x with peerQueue := x.peerQueue.drop 1 }

/-- The frame at the head of degree `d`, when its kind is `k`: removed, checked, and handed to its
block, or discarded (R41). With a frame of another kind at the head, or none, the row does not arise
(log 1). -/
def State.takePeer (s : State) (d : DegreeNo) (k : Nat) (use : PeerFrame → State → State) : State :=
  match (s.degree d).peerQueue with
  | body :: _ =>
    if peerKind body = some k then
      match s.admitted d body with
      | some f => use f (s.popPeer d)
      | none => s.popPeer d
    else s
  | [] => s

/-- A meaning of a peer message row. -/
def onPeer (s : State) (d : DegreeNo) (k : Nat) (use : PeerFrame → State → State) :
    Host.Outcome State Fault Refusal :=
  whileRunning s fun s => s.takePeer d k use

/-! ### To the reservation engine -/

/-- OFFER (R65 to R70). -/
def offerUse (d : DegreeNo) (f : PeerFrame) (s : State) : State :=
  match f.msg with
  | .offer path fields => s.takeOffer d path fields
  | _ => s

def execOffer (d : DegreeNo) (s : State) : Host.Outcome State Fault Refusal :=
  onPeer s d 1 (offerUse d)

/-- ACCEPT (R71 to R73). -/
def acceptUse (d : DegreeNo) (f : PeerFrame) (s : State) : State :=
  match f.msg with
  | .accept path first cost => s.takeAccept d path first cost
  | _ => s

def execAccept (d : DegreeNo) (s : State) : Host.Outcome State Fault Refusal :=
  onPeer s d 2 (acceptUse d)

/-- DECLINE (R74). -/
def declineUse (d : DegreeNo) (f : PeerFrame) (s : State) : State :=
  match f.msg with
  | .decline path r origin => s.takeDecline d path r origin
  | _ => s

def execDecline (d : DegreeNo) (s : State) : Host.Outcome State Fault Refusal :=
  onPeer s d 3 (declineUse d)

/-! ### To the lighting and teardown logic -/

/-- LIGHT (R136). -/
def lightUse (d : DegreeNo) (f : PeerFrame) (s : State) : State :=
  match f.msg with
  | .light path => s.takeLight d path
  | _ => s

def execLight (d : DegreeNo) (s : State) : Host.Outcome State Fault Refusal :=
  onPeer s d 4 (lightUse d)

/-- LIT (R144). -/
def litUse (d : DegreeNo) (f : PeerFrame) (s : State) : State :=
  match f.msg with
  | .lit path => s.takeLit d path
  | _ => s

def execLit (d : DegreeNo) (s : State) : Host.Outcome State Fault Refusal :=
  onPeer s d 5 (litUse d)

/-- RELEASE from upstream (R165). -/
def releaseUse (d : DegreeNo) (f : PeerFrame) (s : State) : State :=
  match f.msg with
  | .release path => s.takeRelease d path
  | _ => s

def execReleaseFromUpstream (d : DegreeNo) (s : State) : Host.Outcome State Fault Refusal :=
  onPeer s d 6 (releaseUse d)

/-- The side of its context from which an admitted ABORT has come. -/
inductive AbortSide where
  | downstream
  | upstream
  | neither
deriving DecidableEq, Repr

/-- The side of an ABORT at the head of degree `d`: neither for an unknown path and for a degree that
is no port of its context (R78, R79). -/
def State.abortSide (s : State) (d : DegreeNo) (f : PeerFrame) : AbortSide :=
  match f.msg with
  | .abort path _ _ =>
    match (s.lookup path).bind s.ctx with
    | some c =>
      if c.fromDownstream d then .downstream
      else if c.fromUpstream d then .upstream
      else .neither
    | none => .neither
  | _ => .neither

/-- An ABORT row arises for the frame at the head: one of the other side is left for the other row,
and one that is discarded is taken by either (log 24). -/
def State.abortIsFor (s : State) (d : DegreeNo) (side : AbortSide) : Bool :=
  match (s.degree d).peerQueue with
  | body :: _ =>
    match s.admitted d body with
    | some f => decide (s.abortSide d f = side) || decide (s.abortSide d f = .neither)
    | none => true
  | [] => false

/-- ABORT on the context's out-port (R164). -/
def abortDownUse (d : DegreeNo) (f : PeerFrame) (s : State) : State :=
  match f.msg with
  | .abort path r origin =>
    match s.lookup path, s.abortSide d f with
    | some i, .downstream => s.abortFromBelow i r origin
    | _, _ => s
  | _ => s

def execAbortFromDownstream (d : DegreeNo) (s : State) : Host.Outcome State Fault Refusal :=
  whileRunning s fun s =>
    if s.abortIsFor d .downstream then s.takePeer d 7 (abortDownUse d) else s

/-- ABORT on the context's in-port (R165). -/
def abortUpUse (d : DegreeNo) (f : PeerFrame) (s : State) : State :=
  match f.msg with
  | .abort path r origin =>
    match s.lookup path, s.abortSide d f with
    | some i, .upstream => s.abortFromAbove i r origin
    | _, _ => s
  | _ => s

def execAbortFromUpstream (d : DegreeNo) (s : State) : Host.Outcome State Fault Refusal :=
  whileRunning s fun s =>
    if s.abortIsFor d .upstream then s.takePeer d 7 (abortUpUse d) else s

/-! ### To the adjacency monitor -/

/-- HELLO (R45, R47, R48). -/
def helloUse (d : DegreeNo) (f : PeerFrame) (s : State) : State :=
  match f.msg with
  | .hello sender full unsynced => s.takeHello d f.src f.srcDegree sender full unsynced
  | _ => s

def execHello (d : DegreeNo) (s : State) : Host.Outcome State Fault Refusal :=
  onPeer s d 8 (helloUse d)

/-- IDENT-QUERY (R55). -/
def identQueryUse (d : DegreeNo) (f : PeerFrame) (s : State) : State :=
  match f.msg with
  | .identQuery => s.answerQuery d f.src
  | _ => s

def execIdentQuery (d : DegreeNo) (s : State) : Host.Outcome State Fault Refusal :=
  onPeer s d 9 (identQueryUse d)

/-- An IDENT-REPLY taken by the degree's monitor: it answers a Pending query, and is discarded where
none is Pending (R54). -/
def State.takeReply (s : State) (d : DegreeNo) (ack : Bool) (objects : List IdentObject) : State :=
  if (s.degree d).verif = .pending then
    (if ack then s.takeAck d objects else s.spendQuery d)
  else s

/-- IDENT-REPLY (R54). -/
def identReplyUse (d : DegreeNo) (f : PeerFrame) (s : State) : State :=
  match f.msg with
  | .identReply ack objects => s.takeReply d ack objects
  | _ => s

def execIdentReply (d : DegreeNo) (s : State) : Host.Outcome State Fault Refusal :=
  onPeer s d 10 (identReplyUse d)

/-! ### A frame of unknown kind -/

/-- The kind is one of the ten of section 11.3. -/
def peerKindKnown (k : Option Nat) : Bool := k.any fun x => decide (1 ≤ x) && decide (x ≤ 10)

/-- A frame whose kind is none of the ten, or that is too short to hold one, is removed and
discarded (R41 check 1, R185, log 30). -/
def State.dropUnknown (s : State) (d : DegreeNo) : State :=
  match (s.degree d).peerQueue with
  | body :: _ => if peerKindKnown (peerKind body) then s else s.popPeer d
  | [] => s

def execUnknownPeerKindTaken (d : DegreeNo) (s : State) : Host.Outcome State Fault Refusal :=
  whileRunning s fun s => s.dropUnknown d

end Sys2Proof.Machine
end

