-- ==== Sys2Proof/Machine/StepTimer.lean ====
section
/-! DEFINITION. The step timer: how a step ends, the tenure tests, freeze, and the reports and
expiries of a step (sections 7.3 to 7.7, R119 to R132). -/

namespace Sys2Proof.Machine

open Sys2Proof

/-- How a step's outcome bears on the stepping of its context (R119, test 1). -/
inductive StepEnd where
  /-- The stepping goes on, or has reached its end. -/
  | continues
  /-- A ramp aborts with a reason. -/
  | aborts (r : Reason)
  /-- A trim halts. -/
  | halts
  /-- A RETREAT-kind SET failed or timed out: CLOSE at once. -/
  | closes
deriving DecidableEq, Repr

/-- The port freezes: flag set and Port record Frozen, once (R132). -/
def State.freeze (s : State) (p : PortNo) : State :=
  if (s.port p).frozen then s
  else (s.onPort p fun ps => { ps with frozen := true }).report (.port p .frozen)

/-- The outcome of the holder's own step decides a teardown at the end of that step: the retreat
begins, or the CLOSE of a dark jump is sent with the step already ended (R122, R155, log 17). -/
def State.abortAtStepEnd (s : State) (i : CtxIdx) (r : Reason) : State :=
  s.withCtx i fun c =>
    let o := s.localAbort r
    let w := s.wayFor c o
    let s := s.recordTeardown i c o w
    match w with
    | .retreat => (s.beginRetreat i).joinRetreat i false
    | .darkJump => s.sendClose i
    | .none => s

/-- The end of the context's stepping is reached: A equals its goal (R119 test 3, R121). -/
def Context.endReached (c : Context) : Bool :=
  match c.kind with
  | some .retreat => decide (c.att = some Config.dark)
  | some .ramp => c.att.isSome && decide (c.att = c.target)
  | some .trim => c.att.isSome && decide (c.att = c.target)
  | none => false

/-- The completed stepping handed on by its kind (R121). -/
def State.completeStepping (s : State) (i : CtxIdx) : State :=
  s.withCtx i fun c =>
    match c.kind with
    | some .ramp => s.completeRamp i
    | some .trim => s.finishTrim i
    | some .retreat => s.sendClose i
    | none => s

/-- What follows a holder's leaving: the look for quiet at IDLE and then the grant (R119). -/
def State.lookThenGrant (s : State) (p : PortNo) : State :=
  (s.lookForQuiet p false).considerGrant p

/-- Tests 3 to 6 for a holder whose stepping goes on (R119). -/
def State.tenureTests (s : State) (p : PortNo) (i : CtxIdx) : State :=
  s.withCtx i fun c =>
    let q := c.queueSel
    if c.endReached then ((s.freeSlot p).completeStepping i).lookThenGrant p
    else if (s.port p).higherWaits q then
      ((s.freeSlot p).onPort p fun ps => ps.setQueue q (i :: ps.queue q)).lookThenGrant p
    else if (s.port p).burstSpent q then
      ((s.freeSlot p).onPort p fun ps => ps.setQueue q (ps.queue q ++ [i])).lookThenGrant p
    else (s.lookForQuiet p false).takeStep p

/-- A disturbance of a ramp or trim step freezes a port whose parameter asks it (R132). -/
def State.freezeIf (s : State) (p : PortNo) (disturbed : Bool) : State :=
  if disturbed && (s.port p).params.haltOnDisturbance then s.freeze p else s

/-- The end of a step of holder `i` on port `p`, after its outcome has set A and S: step state
cleared, then the first test that holds (R119, R122). `disturbed` says that the step was judged a
disturbance in a RAMP or a TRIM. -/
def State.endStep (s : State) (p : PortNo) (i : CtxIdx) (e : StepEnd) (disturbed : Bool) : State :=
  let due := (s.port p).retreatDue
  let s := s.clearStep p
  match e, due with
  | .closes, _ =>
    let s := (s.freeSlot p).onPort p fun ps => { ps with retreatDue := false }
    let s := s.onCtx i fun c => { c with flags := { c.flags with closeForced := true } }
    (s.sendClose i).lookThenGrant p
  | .aborts r, false =>
    (((s.freeSlot p).abortAtStepEnd i r).freezeIf p disturbed).lookThenGrant p
  | .halts, false =>
    (((s.freeSlot p).haltTrim i).freezeIf p disturbed).lookThenGrant p
  | .continues, false => s.tenureTests p i
  | _, true =>
    let s := (s.freeSlot p).onPort p fun ps => { ps with retreatDue := false }
    let s := s.freezeIf p disturbed
    ((s.beginRetreat i).joinRetreat i false).lookThenGrant p

/-- What a failed SET, or an expiry of a window, ends in for each kind (R126 to R128). -/
def failureEnd (kind : Option RampKind) (r : Reason) : StepEnd :=
  match kind with
  | some .ramp => .aborts r
  | some .trim => .halts
  | some .retreat => .closes
  | none => .continues

/-- The SET is answered or given up: nothing is outstanding for the context (R31). -/
def State.setAnswered (s : State) (i : CtxIdx) : State :=
  s.onCtx i fun c => { c with outstanding := none }

/-- A confirmed ACTUATED for the SET: A takes the requested value, confirm mark, OBSERVING (R123). -/
def State.setConfirmed (s : State) (p : PortNo) (i : CtxIdx) (requested : Nat) : State :=
  let s := s.onCtx i fun c => { c with att := some requested }
  let window := ((s.port p).settings.map StepSettings.observation).getD 0
  s.onPort p fun ps =>
    { ps with confirmMark := some s.elapsed, phase := .observing, expiry := s.after window }

/-- A failed ACTUATED for the SET (R126). -/
def State.setFailed (s : State) (p : PortNo) (i : CtxIdx) : State :=
  s.withCtx i fun c => (s.setAnswered i).endStep p i (failureEnd c.kind .actuateFailed) false

/-- The actuation window expires: the SET is taken as applied (R127). -/
def State.actuationExpired (s : State) (p : PortNo) (i : CtxIdx) : State :=
  s.withCtx i fun c =>
    let a := (s.port p).requested
    let s := s.onCtx i fun c => { c with att := a.or c.att, outstanding := none }
    s.endStep p i (failureEnd c.kind .actuateTimeout) false

/-- The observation window expires: abort, halt, or clean for a retreat (R128). -/
def State.observationExpired (s : State) (p : PortNo) (i : CtxIdx) : State :=
  s.withCtx i fun c =>
    let s := s.setAnswered i
    if c.kind = some .retreat then (s.onCtx i Context.afterClean).endStep p i .continues false
    else s.endStep p i (failureEnd c.kind .settleTimeout) false

/-- A SETTLED with ΔP: settle times, evaluation and what follows (R125). -/
def State.settle (s : State) (p : PortNo) (i : CtxIdx) (dp : Nat) : State :=
  s.withCtx i fun c =>
    let time := saturate (s.elapsed - (s.port p).confirmMark.getD s.elapsed)
    let q := (s.port p).params
    let v := judge q.gOk q.gAbort dp
    let s := s.onPort p fun ps => { ps with slowest := max ps.slowest time }
    let s := s.onCtx i fun c =>
      { c with slowest := max c.slowest time, outstanding := none }.afterVerdict v
    if v = .disturbance then
      match c.kind with
      | some .ramp => s.endStep p i (.aborts .disturbanceAbort) true
      | some .trim => s.endStep p i .halts true
      | some .retreat => s.endStep p i .continues false
      | none => s.endStep p i .continues false
    else s.endStep p i .continues false

/-- A request for `k` extension units: as many as the latched cap leaves (R124). -/
def State.extend (s : State) (p : PortNo) (k : Nat) : State :=
  match (s.port p).settings with
  | none => s
  | some set =>
    s.onPort p fun ps =>
      let granted := min k (set.extensionCap - ps.unitsUsed)
      { ps with expiry := ps.expiry.map (· + granted * set.extensionUnit),
                unitsUsed := ps.unitsUsed + granted }

end Sys2Proof.Machine
end

