-- ==== Sys2Proof/Machine/Reports.lean ====
section
/-! DEFINITION. The controller exchange: taking the report at the head of a port's receive queue, the
matching of R89, and the meaning of every report row (chapter 5, R83, R89 to R97). -/

namespace Sys2Proof.Machine

open Sys2Proof

/-! ### Taking and matching -/

/-- The head of a port's receive queue is removed (R83). -/
def State.popReport (s : State) (p : PortNo) : State :=
  s.onPort p fun ps => { ps with reports := ps.reports.drop 1 }

/-- The report at the head of port `p`'s queue, when the row is for its kind: removed and dealt with.
With a report of another kind at the head, or none, the row does not arise (log 1). -/
def State.takeReport (s : State) (p : PortNo) (row : Report → Option (State → State)) : State :=
  match (s.port p).reports with
  | r :: _ =>
    match row r with
    | some work => work (s.popReport p)
    | none => s
  | [] => s

/-- A meaning of a report row. -/
def onReport (s : State) (p : PortNo) (row : Report → Option (State → State)) :
    Host.Outcome State Fault Refusal :=
  whileRunning s fun s => s.takeReport p row

/-- The outstanding request of a context is `k` (R89, check 4). -/
def Context.awaits (c : Context) (k : ReqKind) : Bool := decide (c.outstanding = some k)

/-- The checks of R89 on a report that names context `i` with a tag and arrived on port `p`: the
context when the report is taken, none when it is stray. `fits` is check 4. -/
def State.matched (s : State) (p : PortNo) (i : CtxIdx) (tag : Byte) (fits : Context → Bool) :
    Option Context :=
  (s.ctx i).filter fun c => decide (c.outPort = p) && decide ((s.record i).tag = tag) && fits c

/-- Work on a matched report; a stray changes nothing (R89). -/
def State.ifMatched (s : State) (p : PortNo) (i : CtxIdx) (tag : Byte) (fits : Context → Bool)
    (work : Context → State) : State :=
  match s.matched p i tag fits with
  | some c => work c
  | none => s

/-! ### ACTUATED (R91) -/

/-- DONE with an applied value within 10 of the requested one (R91). -/
def confirmed (done : Bool) (applied : Int) (requested : Nat) : Bool :=
  done && decide (applied - requested ≤ 10) && decide ((requested : Int) - applied ≤ 10)

/-- ACTUATED fits an OPEN, a CLOSE, and a SET while the phase is ACTUATING (R89). -/
def State.fitsActuated (s : State) (p : PortNo) (c : Context) : Bool :=
  c.awaits .openBand || c.awaits .close ||
    (c.awaits .set && decide ((s.port p).phase = .actuating))

/-- The OPEN is confirmed: range Open, A at dark, and the measurement starts (R138). -/
def State.openConfirmed (s : State) (i : CtxIdx) : State :=
  s.withCtx i fun c =>
    let s := s.mapOpen i (c.chosen.getD 0)
    let s := s.onCtx i fun c =>
      { c with outstanding := none, timer := none, att := some Config.dark }
    s.sendMeasure i 1

/-- The OPEN failed or timed out: a local abort with a reason (R138). -/
def State.openFailed (s : State) (i : CtxIdx) (r : Reason) : State :=
  (s.onCtx i fun c => { c with outstanding := none, timer := none }).decideTeardown i
    (s.localAbort r)

/-- The CLOSE is confirmed: A at dark, and the context ends with its range freed (R161). -/
def State.closeConfirmed (s : State) (i : CtxIdx) : State :=
  (s.onCtx i fun c => { c with att := some Config.dark }).endFreed i

/-- A matched ACTUATED, handed to the block that sent the request (R91). -/
def State.actuatedFor (s : State) (p : PortNo) (i : CtxIdx) (done : Bool) (applied : Int)
    (k : ReqKind) : State :=
  match k with
  | .openBand =>
    if confirmed done applied Config.dark then s.openConfirmed i else s.openFailed i .actuateFailed
  | .close =>
    if confirmed done applied Config.dark then s.closeConfirmed i else s.endBlocked i
  | .set =>
    match (s.port p).requested with
    | some a => if confirmed done applied a then s.setConfirmed p i a else s.setFailed p i
    | none => s
  | .measure => s

/-- ACTUATED taken on port `p`. -/
def State.actuatedOn (s : State) (p : PortNo) (i : CtxIdx) (tag : Byte) (done : Bool)
    (applied : Int) : State :=
  s.ifMatched p i tag (s.fitsActuated p) fun c =>
    match c.outstanding with
    | some k => s.actuatedFor p i done applied k
    | none => s

/-- The ACTUATED row of the report at the head of port `p`'s queue. -/
def actuatedRow (p : PortNo) : Report → Option (State → State)
  | .actuated i tag done applied => some fun s => s.actuatedOn p i tag done applied
  | _ => none

def execActuated (p : PortNo) (s : State) : Host.Outcome State Fault Refusal :=
  onReport s p (actuatedRow p)

/-! ### POWER (R92, R93) -/

/-- P taken at the nearer bound of −4000 to +1000 (R92). -/
def clampPower (x : Int) : Int := max (-4000) (min x 1000)

/-- The attempt in progress ended without a valid P: under a decided teardown the recorded way is
carried out, and otherwise the attempt is spent (R93, R159). -/
def State.attemptEnded (s : State) (i : CtxIdx) : State :=
  s.withCtx i fun c =>
    if c.teardown.isSome then
      (s.onCtx i fun c => { c with outstanding := none, timer := none }).afterMeasure i
    else s.spendAttempt i

/-- A matched POWER (R92, R139, R148, R159). -/
def State.powerFor (s : State) (i : CtxIdx) (x : Int) : State :=
  s.withCtx i fun c =>
    if -3000 ≤ clampPower x then
      let s := s.onCtx i fun c =>
        { c with power := some (clampPower x), outstanding := none, timer := none }
      if c.teardown.isSome then s.afterMeasure i else s.useMeasurement i
    else s.attemptEnded i

/-- The POWER row. -/
def powerRow (p : PortNo) : Report → Option (State → State)
  | .power i tag x => some fun s =>
    s.ifMatched p i tag (fun c => c.awaits .measure) fun _ => s.powerFor i x
  | _ => none

def execPower (p : PortNo) (s : State) : Host.Outcome State Fault Refusal :=
  onReport s p (powerRow p)

/-! ### SETTLE: SETTLED, PENDING, CONTINUE (R94) -/

/-- SETTLE fits a SET while the phase is OBSERVING (R89). -/
def State.fitsSettle (s : State) (p : PortNo) (c : Context) : Bool :=
  c.awaits .set && decide ((s.port p).phase = .observing)

/-- The SETTLED row (R125). -/
def settledRow (p : PortNo) : Report → Option (State → State)
  | .settled i tag dp => some fun s =>
    s.ifMatched p i tag (s.fitsSettle p) fun _ => s.settle p i dp
  | _ => none

def execSettled (p : PortNo) (s : State) : Host.Outcome State Fault Refusal :=
  onReport s p (settledRow p)

/-- The PENDING row: a request for `k` extension units (R124). -/
def pendingRow (p : PortNo) : Report → Option (State → State)
  | .pending i tag k => some fun s =>
    s.ifMatched p i tag (s.fitsSettle p) fun _ => s.extend p k
  | _ => none

def execPendingUnits (p : PortNo) (s : State) : Host.Outcome State Fault Refusal :=
  onReport s p (pendingRow p)

/-- The CONTINUE row: a request for one extension unit (R124). -/
def continueRow (p : PortNo) : Report → Option (State → State)
  | .continue_ i tag => some fun s =>
    s.ifMatched p i tag (s.fitsSettle p) fun _ => s.extend p 1
  | _ => none

def execContinueUnit (p : PortNo) (s : State) : Host.Outcome State Fault Refusal :=
  onReport s p (continueRow p)

/-! ### GAIN (R95) -/

/-- A gain taken at the nearer bound of 0 to 3500 (R95). -/
def clampGain (x : Int) : Nat := min x.toNat 3500

/-- The GAIN row. -/
def gainRow (p : PortNo) : Report → Option (State → State)
  | .gain x => some fun s => s.onPort p fun ps => { ps with gain := some (clampGain x) }
  | _ => none

def execGain (p : PortNo) (s : State) : Host.Outcome State Fault Refusal :=
  onReport s p (gainRow p)

/-! ### LINE (R96, R97) -/

/-- LINE UP: the line state is up, and a degree in DOWN starts PROBING under a valid identity (R96,
R46). -/
def State.lineUpOn (s : State) (p : PortNo) : State :=
  let s := s.onPort p fun ps => { ps with lineIsUp := true }
  match degreeOf p with
  | some d => if (s.degree d).adj = .down ∧ s.identityValid = true then s.enterProbing d else s
  | none => s

/-- The LINE UP row. -/
def lineUpRow (p : PortNo) : Report → Option (State → State)
  | .lineUp => some fun s => s.lineUpOn p
  | _ => none

def execLineUp (p : PortNo) (s : State) : Host.Outcome State Fault Refusal :=
  onReport s p (lineUpRow p)

/-- LINE DOWN: on a line that was up, the adjacency goes DOWN, then the out-port events, then the
in-port events, each in ascending order of index (R96, R97). -/
def State.lineDownOn (s : State) (p : PortNo) : State :=
  if (s.port p).lineIsUp then
    let s := s.onPort p fun ps => { ps with lineIsUp := false }
    match degreeOf p with
    | some d =>
      ((s.enterDown d).causeOnOutPort p s.outLineDown).causeOnInPort d s.inLineDown
    | none => s.causeOnOutPort p s.outLineDown
  else s

/-- The LINE DOWN row. -/
def lineDownRow (p : PortNo) : Report → Option (State → State)
  | .lineDown => some fun s => s.lineDownOn p
  | _ => none

def execLineDown (p : PortNo) (s : State) : Host.Outcome State Fault Refusal :=
  onReport s p (lineDownRow p)

end Sys2Proof.Machine
end

