-- ==== Sys2Proof/Machine/Timers.lean ====
section
/-! DEFINITION. The expiries: context timers, step timers, the timers of an adjacency monitor, the
lamp's hold, and the tick of the time base (R32, R43, R76, R93, R127, R128, R137, R138, R146, R162,
R179, R180). An expiry is taken only when its timer has run out (log 3). -/

namespace Sys2Proof.Machine

open Sys2Proof

/-! ### Context timers (R32) -/

/-- An expiry of the context timer of record `i`, in the situation that the row is for. -/
def State.onContextTimer (s : State) (i : CtxIdx) (here : Context → Bool) (work : State → State) :
    State :=
  s.withCtx i fun c => if s.due c.timer && here c then work s else s

/-- The context's state is `x`. -/
def Context.isIn (c : Context) (x : CtxState) : Bool := decide (c.state = x)

/-- OFFER_TIMEOUT: the offer ends (R76). -/
def execOfferTimeout (i : CtxIdx) (s : State) : Host.Outcome State Fault Refusal :=
  whileRunning s fun s =>
    s.onContextTimer i (fun c => c.isIn .offered) fun s => s.endOffer i .offerTimeout

/-- LIGHT_TIMEOUT: a local abort LightTimeout (R137). -/
def execLightTimeout (i : CtxIdx) (s : State) : Host.Outcome State Fault Refusal :=
  whileRunning s fun s =>
    s.onContextTimer i (fun c => c.isIn .awaitLight) fun s =>
      s.decideTeardown i (s.localAbort .lightTimeout)

/-- OPEN_TIMEOUT: the OPEN is no longer outstanding, and a local abort ActuateTimeout (R138). -/
def execOpenTimeout (i : CtxIdx) (s : State) : Host.Outcome State Fault Refusal :=
  whileRunning s fun s =>
    s.onContextTimer i (fun c => c.awaits .openBand) fun s => s.openFailed i .actuateTimeout

/-- MEASURE_TIMEOUT: the attempt in progress ends (R93, R159). -/
def execMeasureTimeout (i : CtxIdx) (s : State) : Host.Outcome State Fault Refusal :=
  whileRunning s fun s =>
    s.onContextTimer i (fun c => c.awaits .measure) fun s => s.attemptEnded i

/-- LIT_TIMEOUT: a local abort LitTimeout (R146). -/
def execLitTimeout (i : CtxIdx) (s : State) : Host.Outcome State Fault Refusal :=
  whileRunning s fun s =>
    s.onContextTimer i (fun c => c.isIn .litWait) fun s =>
      s.decideTeardown i (s.localAbort .litTimeout)

/-- CLOSE_TIMEOUT: the close is unconfirmed (R162). -/
def execCloseTimeout (i : CtxIdx) (s : State) : Host.Outcome State Fault Refusal :=
  whileRunning s fun s =>
    s.onContextTimer i (fun c => c.isIn .closing) fun s => s.endBlocked i

/-! ### Step timers (R114) -/

/-- An expiry of the step timer of port `p` in a phase, for the holder of the slot. -/
def State.onStepTimer (s : State) (p : PortNo) (phase : Phase) (work : CtxIdx → State) : State :=
  let ps := s.port p
  if decide (ps.phase = phase) && s.due ps.expiry then
    match ps.holder with
    | some i => work i
    | none => s
  else s

/-- ACTUATION_WINDOW_EXPIRY (R127). -/
def execActuationWindowExpiry (p : PortNo) (s : State) : Host.Outcome State Fault Refusal :=
  whileRunning s fun s => s.onStepTimer p .actuating fun i => s.actuationExpired p i

/-- OBSERVATION_WINDOW_EXPIRY (R128). -/
def execObservationWindowExpiry (p : PortNo) (s : State) : Host.Outcome State Fault Refusal :=
  whileRunning s fun s => s.onStepTimer p .observing fun i => s.observationExpired p i

/-! ### The timers of an adjacency monitor (R43) -/

/-- The degree sends HELLO in its state (R44). -/
def AdjState.sendsHello : AdjState → Bool
  | .probing => true
  | .up => true
  | .down => false
  | .recovery => false

/-- HELLO_TIMER_EXPIRY: one HELLO, and the timer armed anew (R44). -/
def execHelloTimerExpiry (d : DegreeNo) (s : State) : Host.Outcome State Fault Refusal :=
  whileRunning s fun s =>
    let x := s.degree d
    if x.adj.sendsHello && s.due x.helloTimer then (s.sendHello d).armHello d else s

/-- DEAD_TIMER_EXPIRY: RECOVERY from UP (R49, R50). -/
def execDeadTimerExpiry (d : DegreeNo) (s : State) : Host.Outcome State Fault Refusal :=
  whileRunning s fun s =>
    let x := s.degree d
    if decide (x.adj = .up) && s.due x.deadTimer then s.enterRecovery d else s

/-- RECOVERY_TIMER_EXPIRY: PROBING from RECOVERY (R50, R46). -/
def execRecoveryTimerExpiry (d : DegreeNo) (s : State) : Host.Outcome State Fault Refusal :=
  whileRunning s fun s =>
    let x := s.degree d
    if decide (x.adj = .recovery) && s.due x.recoveryTimer then s.enterProbing d else s

/-- IDENT_TIMER_EXPIRY: an attempt of the Pending query is spent (R53). -/
def execIdentTimerExpiry (d : DegreeNo) (s : State) : Host.Outcome State Fault Refusal :=
  whileRunning s fun s =>
    let x := s.degree d
    if decide (x.verif = .pending) && s.due x.identTimer then s.spendQuery d else s

/-! ### The lamp and the time base -/

/-- LAMP_FAST_HOLD_EXPIRY: the 250 ms after the last return to IDLE have run out (R180). -/
def execLampFastHoldExpiry (d : DegreeNo) (s : State) : Host.Outcome State Fault Refusal :=
  whileRunning s fun s =>
    if s.due (s.degree d).lampHold then s.onDegree d fun x => { x with lampHold := none } else s

/-- TIME_BASE_TICK: one millisecond passes; the time base wraps at its 32 bits (R179). It counts
while the reset pin is asserted as well (log 27). -/
def execTimeBaseTick (s : State) : Host.Outcome State Fault Refusal :=
  .next { s with timeBase := s.timeBase + 1, elapsed := s.elapsed + 1 }

end Sys2Proof.Machine
end

