-- ==== Sys2Proof/Machine/Dispatch.lean ====
section
/-! DEFINITION. One arm for each command of Instr, each one call of its meaning. -/

namespace Sys2Proof.Machine

open Sys2Proof

def exec (i : Instr) (s : State) : Host.Outcome State Fault Refusal :=
  match i with
  | .commission => Sys2Proof.Machine.execCommission s
  | .release => Sys2Proof.Machine.execRelease s
  | .retrim => Sys2Proof.Machine.execRetrim s
  | .adopt => Sys2Proof.Machine.execAdopt s
  | .sync => Sys2Proof.Machine.execSync s
  | .block => Sys2Proof.Machine.execBlock s
  | .unblock => Sys2Proof.Machine.execUnblock s
  | .profile => Sys2Proof.Machine.execProfile s
  | .swap => Sys2Proof.Machine.execSwap s
  | .thaw => Sys2Proof.Machine.execThaw s
  | .portclear => Sys2Proof.Machine.execPortclear s
  | .setparam => Sys2Proof.Machine.execSetparam s
  | .getparam => Sys2Proof.Machine.execGetparam s
  | .readctx => Sys2Proof.Machine.execReadctx s
  | .readmap => Sys2Proof.Machine.execReadmap s
  | .readport => Sys2Proof.Machine.execReadport s
  | .readnbr => Sys2Proof.Machine.execReadnbr s
  | .readrpt => Sys2Proof.Machine.execReadrpt s
  | .identq => Sys2Proof.Machine.execIdentq s
  | .settime => Sys2Proof.Machine.execSettime s
  | .reset straps => Sys2Proof.Machine.execReset straps s
  | .commandArrival bytes => Sys2Proof.Machine.execCommandArrival bytes s
  | .peerFrameArrival link bytes => Sys2Proof.Machine.execPeerFrameArrival link bytes s
  | .controllerFrameArrival link bytes => Sys2Proof.Machine.execControllerFrameArrival link bytes s
  | .offer d => Sys2Proof.Machine.execOffer d s
  | .accept d => Sys2Proof.Machine.execAccept d s
  | .decline d => Sys2Proof.Machine.execDecline d s
  | .light d => Sys2Proof.Machine.execLight d s
  | .lit d => Sys2Proof.Machine.execLit d s
  | .releaseFromUpstream d => Sys2Proof.Machine.execReleaseFromUpstream d s
  | .abortFromDownstream d => Sys2Proof.Machine.execAbortFromDownstream d s
  | .abortFromUpstream d => Sys2Proof.Machine.execAbortFromUpstream d s
  | .hello d => Sys2Proof.Machine.execHello d s
  | .identQuery d => Sys2Proof.Machine.execIdentQuery d s
  | .identReply d => Sys2Proof.Machine.execIdentReply d s
  | .actuated p => Sys2Proof.Machine.execActuated p s
  | .power p => Sys2Proof.Machine.execPower p s
  | .settled p => Sys2Proof.Machine.execSettled p s
  | .pendingUnits p => Sys2Proof.Machine.execPendingUnits p s
  | .continueUnit p => Sys2Proof.Machine.execContinueUnit p s
  | .gain p => Sys2Proof.Machine.execGain p s
  | .lineUp p => Sys2Proof.Machine.execLineUp p s
  | .lineDown p => Sys2Proof.Machine.execLineDown p s
  | .offerTimeout k => Sys2Proof.Machine.execOfferTimeout k s
  | .lightTimeout k => Sys2Proof.Machine.execLightTimeout k s
  | .openTimeout k => Sys2Proof.Machine.execOpenTimeout k s
  | .measureTimeout k => Sys2Proof.Machine.execMeasureTimeout k s
  | .litTimeout k => Sys2Proof.Machine.execLitTimeout k s
  | .closeTimeout k => Sys2Proof.Machine.execCloseTimeout k s
  | .actuationWindowExpiry p => Sys2Proof.Machine.execActuationWindowExpiry p s
  | .observationWindowExpiry p => Sys2Proof.Machine.execObservationWindowExpiry p s
  | .helloTimerExpiry d => Sys2Proof.Machine.execHelloTimerExpiry d s
  | .deadTimerExpiry d => Sys2Proof.Machine.execDeadTimerExpiry d s
  | .recoveryTimerExpiry d => Sys2Proof.Machine.execRecoveryTimerExpiry d s
  | .identTimerExpiry d => Sys2Proof.Machine.execIdentTimerExpiry d s
  | .lampFastHoldExpiry d => Sys2Proof.Machine.execLampFastHoldExpiry d s
  | .timeBaseTick => Sys2Proof.Machine.execTimeBaseTick s
  | .resetPinAssert => Sys2Proof.Machine.execResetPinAssert s
  | .resetPinRelease straps => Sys2Proof.Machine.execResetPinRelease straps s
  | .unknownPeerKindTaken d => Sys2Proof.Machine.execUnknownPeerKindTaken d s
  | .unknownCommandKind => Sys2Proof.Machine.execUnknownCommandKind s

end Sys2Proof.Machine
end

