-- ==== Sys2Proof/Machine/Flags.lean ====
section
/-! DEFINITION. The status the part shows outside: the attention line and the lamps (R178, R180,
R182). -/

namespace Sys2Proof.Machine

open Sys2Proof

/-- The attention line: asserted while the ring holds a record, and deasserted while the reset pin is
asserted (R178, R182). -/
def State.attention (s : State) : Bool := !s.inReset && !s.ring.isEmpty

/-- What a lamp output does (R180). -/
inductive LampOut where
  | dark
  | steady
  | slow
  | fast
deriving DecidableEq, Repr

/-- A context uses degree `d`: its in-port or its out-port is the degree (R180). -/
def Context.onDegree (c : Context) (d : DegreeNo) : Bool :=
  decide (c.inPort = .degree d) || decide (c.outPort = portOf d)

/-- Some context on degree `d` is in one of the given states. -/
def State.anyOnDegree (s : State) (d : DegreeNo) (states : List CtxState) : Bool :=
  allContexts.any fun i =>
    (s.ctx i).any fun c => c.onDegree d && states.contains c.state

/-- The AUTO output: the first condition of R180 that applies. -/
def State.autoLamp (s : State) (d : DegreeNo) : LampOut :=
  let p := s.port (portOf d)
  if p.frozen || decide (p.phase ≠ .idle) || (s.degree d).lampHold.isSome then .fast
  else if s.anyOnDegree d [.offered, .awaitLight, .preparing, .ramping, .retreating, .closing] then
    .slow
  else if s.anyOnDegree d [.inService, .litWait, .trimming] then .steady
  else .dark

/-- The lamp output of a degree; dark while the reset pin is asserted (R180, R182). -/
def State.lamp (s : State) (d : DegreeNo) : LampOut :=
  if s.inReset then .dark
  else match (s.degree d).lampMode with
    | .auto => s.autoLamp d
    | .off => .dark
    | .on => .steady
    | .slow => .slow
    | .fast => .fast

/-- Whether a lamp is lit `ms` milliseconds into its blinking: SLOW is 1 Hz and FAST 4 Hz, each lit
for the first half of its period (R180). -/
def LampOut.lit (o : LampOut) (ms : Nat) : Bool :=
  match o with
  | .dark => false
  | .steady => true
  | .slow => decide (ms % 1000 < 500)
  | .fast => decide (ms % 250 < 125)

end Sys2Proof.Machine
end

