-- ==== Sys2Proof/Safety.lean ====
section
/-! DEFINITION. What the manual promises of every state of the part: the ranges of the fields, the
bounds of the queues, and the laws of the map, of the context table and of the step machine. The
statements about every step are made in these terms. -/

namespace Sys2Proof.Machine

open Sys2Proof

/-! ### Ranges -/

/-- A node identity that a node can have (00_scope, Node identity). -/
def isNode (n : NodeId) : Prop := 1 ≤ n.toNat ∧ n.toNat ≤ 4094

/-- What says what the path is: the head, the ports that fit the role, the width, and where they are
present the hop index and the nodes remaining (R22). -/
def Context.pathInRange (c : Context) : Prop :=
  isNode c.path.head ∧ (c.role = .head ↔ ∃ g, c.inPort = .addGroup g) ∧
  (c.role = .tail ↔ 8 ≤ c.outPort.val) ∧ (1 ≤ c.width ∧ c.width ≤ 16) ∧
  (∀ h, c.hop = some h → if c.role = .head then h = 1 else 2 ≤ h ∧ h ≤ 16) ∧
  ∀ r, c.remaining = some r → if c.role = .tail then r = 0 else 1 ≤ r ∧ r ≤ 15

/-- The spectrum: one to eight candidates in the band, no first cell twice, and the chosen range in the
band (R23). A cost may stand over the 32 of R23: up to 34 in a candidate (log 33), and up to the 255 of
its byte in the total cost (log 8). -/
def Context.spectrumInRange (c : Context) : Prop :=
  (∀ l, c.candidates = some l → (1 ≤ l.length ∧ l.length ≤ 8) ∧ (l.map Candidate.s).Nodup ∧
    ∀ x ∈ l, x.s + c.width ≤ 400 ∧ x.cost ≤ 34) ∧
  (∀ f, c.chosen = some f → f + c.width ≤ 400) ∧ ∀ y, c.totalCost = some y → y ≤ 255

/-- Power and progress (R24, R25), with S between 5 and B and B at least 25 (R104, R110, R111), the
attempts (R93) and the slowest settle (R28). -/
def Context.powerInRange (c : Context) : Prop :=
  (∀ a, c.att = some a → a ≤ 2500) ∧
  (∀ t, c.target = some t → t ≤ 2500) ∧
  (∀ x, c.power = some x → -3000 ≤ x ∧ x ≤ 1000) ∧
  (∀ b, c.base = some b → 25 ≤ b ∧ b ≤ 2500) ∧
  (∀ z, c.stepSize = some z → ∃ b, c.base = some b ∧ 5 ≤ z ∧ z ≤ b) ∧
  c.clean ≤ 2 ∧ c.steps ≤ 65535 ∧ c.backoffs ≤ 65535 ∧ c.slowest ≤ 65535 ∧ c.attempts ≤ 8

/-- The ranges of a context's fields. -/
def Context.inRange (c : Context) : Prop :=
  c.powerInRange ∧ c.pathInRange ∧ c.spectrumInRange

/-- The ranges of the per-port parameters (R7, R113, R134). -/
def PortParams.inRange (q : PortParams) : Prop :=
  q.sparseCode ≤ 15 ∧ q.denseCode ≤ 15 ∧ q.sparseThreshold ≤ 64 ∧
  (5 ≤ q.gOk ∧ q.gOk ≤ 500) ∧ (5 ≤ q.gAbort ∧ q.gAbort ≤ 1000) ∧
  (5 ≤ q.actuationWindow ∧ q.actuationWindow ≤ 500) ∧
  (20 ≤ q.observationWindow ∧ q.observationWindow ≤ 2000) ∧
  (10 ≤ q.extensionUnit ∧ q.extensionUnit ≤ 1000) ∧
  q.extensionCap ≤ 15 ∧ q.burstCode ≤ 7 ∧ q.guard ≤ 1

/-- The legal range of every density of a bank (R17). -/
def bankInRange (b : Profile) : Prop :=
  ∀ k, -2000 ≤ Table.read b k ∧ Table.read b k ≤ 1000

/-- The ranges of the settings latched for a step, which are those of their parameters (R118, R134). -/
def StepSettings.inRange (x : StepSettings) : Prop :=
  (5 ≤ x.actuation ∧ x.actuation ≤ 500) ∧ (20 ≤ x.observation ∧ x.observation ≤ 2000) ∧
  (10 ≤ x.extensionUnit ∧ x.extensionUnit ≤ 1000) ∧ x.extensionCap ≤ 15

/-- The ranges of a port's items (R17, R82, R114, R113, R134). -/
def PortState.inRange (p : PortState) : Prop :=
  p.params.inRange ∧ bankInRange p.bankA ∧ bankInRange p.bankB ∧
  (∀ g, p.gain = some g → g ≤ 3500) ∧ (∀ a, p.requested = some a → a ≤ 2500) ∧
  p.tenure ≤ 65535 ∧ p.slowest ≤ 65535 ∧ (∀ x, p.settings = some x → x.inRange) ∧ p.unitsUsed ≤ 15

/-- The ranges of a degree's neighbour record: a neighbour that is a node, the unsynced ports ascending
and each once, up to six objects, and up to eight query attempts (R43). -/
def DegreeState.inRange (x : DegreeState) : Prop :=
  (∀ n, x.nbrId = some n → isNode n) ∧ x.nbrUnsynced.Pairwise (· < ·) ∧ x.objects.length ≤ 6 ∧
    x.queryAttempts ≤ 8

/-- The ranges of the part-wide parameters (R174). -/
def PartParams.inRange (q : PartParams) : Prop :=
  (20 ≤ q.helloInterval ∧ q.helloInterval ≤ 1000) ∧ (50 ≤ q.deadTime ∧ q.deadTime ≤ 5000) ∧
  (100 ≤ q.recoveryHold ∧ q.recoveryHold ≤ 10000) ∧
  (100 ≤ q.identTimeout ∧ q.identTimeout ≤ 5000) ∧ (1 ≤ q.identAttempts ∧ q.identAttempts ≤ 8) ∧
  (50 ≤ q.offerHop ∧ q.offerHop ≤ 2000) ∧ (1000 ≤ q.litHop ∧ q.litHop ≤ 60000) ∧
  (10 ≤ q.measureTimeout ∧ q.measureTimeout ≤ 1000) ∧
  (1 ≤ q.measureAttempts ∧ q.measureAttempts ≤ 8) ∧ (1 ≤ q.groupId ∧ q.groupId ≤ 4094)

/-- Every context, every port, every degree and the part's parameters lie in their ranges. -/
def State.inRange (s : State) : Prop :=
  s.part.inRange ∧ (∀ i c, s.ctx i = some c → c.inRange) ∧ (∀ p, (s.port p).inRange) ∧
    ∀ d, (s.degree d).inRange

/-! ### Bounds of the queues -/

/-- No queue holds more than its rule allows (R40, R83, R172, R176). -/
def State.queuesBounded (s : State) : Prop :=
  s.ring.length ≤ 64 ∧ s.commands.length ≤ 4 ∧
  (∀ p, (s.port p).reports.length ≤ 8) ∧ ∀ d, (s.degree d).peerQueue.length ≤ 16

/-! ### Laws of the map and of the context table -/

/-- A port that is UNSYNCED has no Held cells (R14). -/
def State.noHeldUnsynced (s : State) : Prop :=
  ∀ p, (s.port p).synced = false → ∀ k i, cellAt (s.port p).map k ≠ some (.held i)

/-- Every owned cell names a context that is not FREE and whose out-port is that port (R2). -/
def State.ownersLive (s : State) : Prop :=
  ∀ p k x i, cellAt (s.port p).map k = some x → x.owner = some i →
    ∃ c, s.ctx i = some c ∧ c.outPort = p

/-- A path identity appears in at most one non-FREE context (R29). -/
def State.pathsUnique (s : State) : Prop :=
  ∀ i j c c', s.ctx i = some c → s.ctx j = some c' → c.path = c'.path → i = j

/-- Under an invalid node identity every adjacency is DOWN (R38, R46). -/
def State.downWhileInvalid (s : State) : Prop :=
  s.identityValid = false → ∀ d, (s.degree d).adj = .down

/-- The laws of the map and the table that hold in every state a run reaches. -/
def State.Law (s : State) : Prop :=
  s.noHeldUnsynced ∧ s.ownersLive ∧ s.pathsUnique

/-- What context `i`, which is `c`, owns at cell `k` of its out-port: Held cells for its candidates in
OFFERED, and later its chosen range, Reserved until the OPEN is confirmed, which gives it its attenuation,
and Open from then on (R2, R24). -/
def Context.ownsAt (c : Context) (i : CtxIdx) (k : Nat) : Option Cell :=
  if c.state = .offered then
    if ∃ x ∈ c.candidates.getD [], x.s ≤ k ∧ k < x.s + c.width then some (.held i) else none
  else c.chosen.bind fun first =>
    if first ≤ k ∧ k < first + c.width then some (if c.att.isSome then .opened i else .reserved i)
    else none

/-- Every context owns on its out-port exactly the cells its state gives it (R2). -/
def State.cellsFit (s : State) : Prop :=
  ∀ i c, s.ctx i = some c → ∀ k x, x.owner = some i →
    (cellAt (s.port c.outPort).map k = some x ↔ c.ownsAt i k = some x)

/-! ### Laws of the step machine -/

/-- The fields that a context's state calls for, and what may be outstanding in it: the table of R27
(with R22 to R25 for the fields, and R84 for the requests). -/
def Context.fieldsFit (c : Context) : Prop :=
  (c.candidates.isSome ↔ c.state = .offered) ∧ (c.chosen.isSome ↔ c.state ≠ .offered) ∧
  c.base.isSome = c.stepSize.isSome ∧
  match c.state with
  | .offered | .awaitLight => c.att = none ∧ c.kind = none ∧ c.outstanding = none
  | .preparing => c.kind = none ∧ ((c.outstanding = some .openBand ∧ c.att = none) ∨
      (c.outstanding = some .measure ∧ c.att = some 2500) ∨
      (c.outstanding = none ∧ c.att = some 2500 ∧ c.power.isSome))
  | .ramping => c.kind = some .ramp ∧ (c.outstanding = none ∨ c.outstanding = some .set) ∧
      c.power.isSome ∧ c.base.isSome ∧
      ∃ a t, c.att = some a ∧ c.target = some t ∧ t ≤ a
  | .litWait => c.att.isSome ∧ c.target.isSome ∧ c.power.isSome ∧ c.base.isSome ∧ c.kind = none ∧
      c.outstanding = none
  | .inService => c.att.isSome ∧ c.kind = none ∧ c.outstanding = none
  | .trimming => c.att.isSome ∧ ((c.kind = none ∧ c.outstanding = some .measure) ∨
      (c.kind = some .trim ∧ (c.outstanding = none ∨ c.outstanding = some .set) ∧
        c.target.isSome ∧ c.power.isSome ∧ c.base.isSome))
  | .retreating => c.kind = some .retreat ∧ (c.outstanding = none ∨ c.outstanding = some .set) ∧
      c.att.isSome ∧ c.base.isSome ∧ c.teardown.isSome
  | .closing => c.att.isSome ∧ c.kind = none ∧ c.outstanding = some .close ∧ c.teardown.isSome

/-- The step timer's items in each phase, and a slot held exactly while a step is in flight (R114, R118,
R119, R123). -/
def PortState.stepFits (q : PortState) : Prop :=
  match q.phase with
  | .idle => q.holder = none ∧ q.tenure = 0 ∧ q.expiry = none ∧ q.requested = none ∧
      q.settings = none ∧ q.confirmMark = none ∧ q.unitsUsed = 0 ∧ q.retreatDue = false
  | .actuating => q.holder.isSome ∧ q.expiry.isSome ∧ q.requested.isSome ∧ q.settings.isSome ∧
      q.confirmMark = none ∧ q.unitsUsed = 0
  | .observing => q.holder.isSome ∧ q.expiry.isSome ∧ q.requested.isSome ∧ q.settings.isSome ∧
      q.confirmMark.isSome

/-- The contexts of a port's arbiter: the three queues and the holder of the slot (R115). -/
def PortState.members (q : PortState) : List CtxIdx :=
  q.retreatQ ++ q.restoreQ ++ q.normalQ ++ q.holder.toList

/-- Context `i` of port `p` waits in queue `k`: it is the queue of its kind and class, and nothing is
outstanding for it (R115, R118). -/
def State.waitsIn (s : State) (p : PortNo) (k : QueueSel) (i : CtxIdx) : Prop :=
  ∃ c, s.ctx i = some c ∧ c.outPort = p ∧ c.kind.isSome ∧ c.queueSel = k ∧ c.outstanding = none

/-- Context `i` holds the slot of port `p`: its SET is outstanding, and the attenuation requested is its
A_next until the SET is confirmed and its A from then on (R107, R118, R123). A retreat that waits for
the end of the step has been recorded (R122, R153). -/
def State.holdsSlot (s : State) (p : PortNo) (i : CtxIdx) : Prop :=
  ∃ c, s.ctx i = some c ∧ c.outPort = p ∧ c.kind.isSome ∧ c.outstanding = some .set ∧
    ((s.port p).phase = .actuating → (s.port p).requested = c.next) ∧
    ((s.port p).phase = .observing → (s.port p).requested = c.att) ∧
    ((s.port p).retreatDue = true → c.teardown.isSome)

/-- The laws of the step machine: every context has the fields of its state; a context stands at most
once among the queues and the slot of a port, so no queue holds more than 64; whoever stands there
belongs there, and whoever has a kind of ramp stands there; and a SET is outstanding only for the
holder of the slot, so a port has at most one step in flight (R27, R115, R118). -/
def State.stepLaw (s : State) : Prop :=
  (∀ i c, s.ctx i = some c → c.fieldsFit ∧ (∀ td, c.teardown = some td → td.way ≠ .none) ∧
    (c.kind.isSome → i ∈ (s.port c.outPort).members) ∧
    (c.outstanding = some .set → (s.port c.outPort).holder = some i)) ∧
  ∀ p, let q := s.port p
    q.stepFits ∧ q.members.Nodup ∧ q.members.length ≤ 64 ∧
    (∀ i ∈ q.retreatQ, s.waitsIn p .retreat i) ∧ (∀ i ∈ q.restoreQ, s.waitsIn p .restore i) ∧
    (∀ i ∈ q.normalQ, s.waitsIn p .normal i) ∧ ∀ i, q.holder = some i → s.holdsSlot p i

/-- No port whose swap is pending is quiet: a step is in flight on it, or a context with that out-port is
RAMPING or TRIMMING (R19). -/
def State.noQuietSwap (s : State) : Prop :=
  ∀ p, (s.port p).swapPending = true → (s.port p).phase ≠ .idle ∨
    ∃ i c, s.ctx i = some c ∧ c.outPort = p ∧ (c.state = .ramping ∨ c.state = .trimming)

/-! ### What an unchanged part of the state is -/

/-- Two ports differ at most in the frames formed for their links. -/
def samePortButOut (q r : PortState) : Prop := { r with out := q.out } = q

/-- Every port but `p` is the same in both states. -/
def sameOtherPorts (s t : State) (p : PortNo) : Prop := ∀ q, q ≠ p → t.port q = s.port q

/-- Every degree but `d` is the same in both states. -/
def sameOtherDegrees (s t : State) (d : DegreeNo) : Prop := ∀ e, e ≠ d → t.degree e = s.degree e

/-- Every record but `i` is the same in both states. -/
def sameOtherRecords (s t : State) (i : CtxIdx) : Prop := ∀ j, j ≠ i → t.record j = s.record j

/-- The two states agree but for the contexts, the ports, the degrees, the ring and its Lost flag. -/
def sameOutside (s t : State) : Prop :=
  { t with records := s.records, ports := s.ports, degrees := s.degrees, ring := s.ring,
           lost := s.lost } = s

/-! ### A command that waits -/

/-- The part runs, and the command at the head of its queue has kind `k`, sequence bytes `a` and `b`,
and `fields` after them (R172, section 11.5). -/
def State.commandWaits (s : State) (k : Nat) (a b : Byte) (fields : List Byte) (rest : List (List Byte)) :
    Prop :=
  s.inReset = false ∧ s.commands = (byteOf k :: a :: b :: fields) :: rest

/-- The state after a command has been taken and answered and nothing else has changed (R172). -/
def State.answered (s : State) (k : Nat) (a b : Byte) (rest : List (List Byte)) (code : ResultCode)
    (clamped : Bool) (body : RespBody) : State :=
  { s with commands := rest,
           responses := s.responses ++ [⟨byteOf k, a, b, code, clamped, s.timeBase, body⟩] }

/-- The part runs, and the frame at the head of degree `d`'s queue is `f` and passes the checks of
R41. -/
def State.peerWaits (s : State) (d : DegreeNo) (f : PeerFrame) : Prop :=
  s.inReset = false ∧
    ((s.degree d).peerQueue.head?.bind fun body =>
      if peerKind body = some f.msg.kindCode then s.admitted d body else none) = some f

/-- The part runs, and the report at the head of port `p`'s queue is `r`. -/
def State.reportWaits (s : State) (p : PortNo) (r : Report) : Prop :=
  s.inReset = false ∧ (s.port p).reports.head? = some r

/-- The context of record `i` is `c`, its out-port is `p`, its request tag is `tag`, and its
outstanding request is `k` (R89). -/
def State.asked (s : State) (p : PortNo) (i : CtxIdx) (tag : Byte) (c : Context) (k : ReqKind) : Prop :=
  s.ctx i = some c ∧ c.outPort = p ∧ (s.record i).tag = tag ∧ c.outstanding = some k

/-- A degree that serves path messages to neighbour `n`: a valid identity, UP, and `n` recorded
(R42). -/
def State.servesDegree (s : State) (d : DegreeNo) (n : NodeId) : Prop :=
  s.identityValid = true ∧ (s.degree d).adj = .up ∧ (s.degree d).nbrId = some n

/-! ### Frames formed -/

/-- What `t` has formed for link `q` beyond what `s` had: exactly `fs`. -/
def sentOn (s t : State) (q : PortNo) (fs : List OutFrame) : Prop :=
  (t.port q).out = (s.port q).out ++ fs

/-- A bank of a port (R17). -/
def PortState.bankOf (p : PortState) (b : Bank) : Profile :=
  match b with
  | .a => p.bankA
  | .b => p.bankB

/-- A context that uses port `p` as its in-port or its out-port. -/
def Context.usesPort (c : Context) (p : PortNo) : Prop :=
  c.outPort = p ∨ ∃ d, c.inPort = .degree d ∧ portOf d = p

/-- What `t` has formed for link `q` beyond what `s` had begins with the peer frame `m`. -/
def sentFirst (s t : State) (q : PortNo) (m : PeerFrame) : Prop :=
  ∃ fs, (t.port q).out = (s.port q).out ++ .peer m :: fs

/-- What `t` has formed for link `q` beyond what `s` had holds the peer frame `m`. -/
def sentAmong (s t : State) (q : PortNo) (m : PeerFrame) : Prop :=
  ∃ fs gs, (t.port q).out = (s.port q).out ++ fs ++ .peer m :: gs

/-! ### What the arbiter of a port may change -/

/-- A context without what the sending of a step writes in it (R31, R118). -/
def Context.stepless (c : Context) : Context := { c with steps := 0, outstanding := none }

/-- A port without its arbiter, its step timer and the frames formed for its link (R114). -/
def PortState.stepless (q : PortState) : PortState :=
  { q with retreatQ := [], restoreQ := [], normalQ := [], holder := none, tenure := 0,
           phase := .idle, expiry := none, requested := none, settings := none, unitsUsed := 0,
           confirmMark := none, retreatDue := false, out := [] }

/-- Every port but `p` differs at most by frames formed after those it had. -/
def otherPortsSend (s t : State) (p : PortNo) : Prop :=
  (∀ q, q ≠ p → samePortButOut (s.port q) (t.port q)) ∧
    ∀ q, ∃ fs, (t.port q).out = (s.port q).out ++ fs

/-- The contexts that wait in the queues the arbiter may serve, in the order it serves them (R117). -/
def PortState.served (q : PortState) : List CtxIdx :=
  q.retreatQ ++ if q.frozen then [] else q.restoreQ ++ q.normalQ

/-- `t` is `s` after the arbiter of port `p` has considered a grant: with the slot held or a step in
flight nothing happens; otherwise the first context served holds the slot, and nothing changes but
that context's step and the port's arbiter and step timer (R117, R118). -/
def afterGrant (s t : State) (p : PortNo) : Prop :=
  (¬((s.port p).holder = none ∧ (s.port p).phase = .idle) → t = s) ∧
  ((s.port p).holder = none → (s.port p).phase = .idle →
    (t.port p).holder = (s.port p).served.head?) ∧
  (∀ j, (t.port p).holder ≠ some j → t.record j = s.record j) ∧
  (∀ j, (t.ctx j).map Context.stepless = (s.ctx j).map Context.stepless) ∧
  (t.port p).stepless = (s.port p).stepless ∧ otherPortsSend s t p ∧
  { t with records := s.records, ports := s.ports } = s

/-- `t` differs from `s` only in context `i`, in port `p`, its map, its arbiter and its step, in the
steps of other contexts that a grant starts, in frames formed, in a lamp's hold, and in the ring. -/
def onlyAround (s t : State) (p : PortNo) (i : CtxIdx) : Prop :=
  (∀ j, j ≠ i → (t.ctx j).map Context.stepless = (s.ctx j).map Context.stepless) ∧
  { (t.port p).stepless with map := (s.port p).map } = (s.port p).stepless ∧
  otherPortsSend s t p ∧
  (∀ d, { t.degree d with lampHold := (s.degree d).lampHold } = s.degree d) ∧ sameOutside s t

/-! ### Contexts that end or go dark -/

/-- Context `i`, which was `c`, is FREE: its tag has advanced and its cells on its out-port are Free,
every other cell of that port as it was (R6, R33). -/
def contextFreed (s t : State) (i : CtxIdx) (c : Context) : Prop :=
  t.ctx i = none ∧ (t.record i).tag = (s.record i).tag + 1 ∧
    ∀ k, cellAt (t.port c.outPort).map k =
      (cellAt (s.port c.outPort).map k).map fun x => if x.owner = some i then .free else x

/-- Context `i`, which was `c`, carries out the retreat way: it waits for the report to its MEASURE
(R159, log 34), or for the end of its step in flight (R122), or at A dark it closes at once, or it is
RETREATING (R116, R157). Its base step has been chosen, but for the wait on a step (R106). -/
def retreats (s t : State) (i : CtxIdx) (c c' : Context) : Prop :=
  if c.outstanding = some .measure then
    c'.state = c.state ∧ c'.base.isSome
  else if s.stepInFlight c.outPort i then
    c'.state = c.state ∧ (t.port c.outPort).retreatDue = true
  else if c.att = some 2500 then
    c'.state = .closing ∧ (c.chosen.isSome → c'.outstanding = some .close) ∧ c'.base.isSome
  else c'.state = .retreating ∧ c'.kind = some .retreat ∧ c'.timer = none ∧ c'.base.isSome

/-- Context `i`, which was `c`, carries out the dark-jump way: it waits for the report to its MEASURE
(R159, log 34), or it is CLOSING with its CLOSE outstanding (R130, R158). -/
def jumpsDark (c c' : Context) : Prop :=
  if c.outstanding = some .measure then c'.state = c.state
  else c'.state = .closing ∧ c'.kind = none ∧ (c.chosen.isSome → c'.outstanding = some .close)

/-- Teardown has been decided for context `i`, which was `c`: along the way none the context is FREE;
along the others it holds the three items, the reason and the origin, and goes dark (R153, R154). -/
def tornDownBy (s t : State) (i : CtxIdx) (c : Context) (cause : Cause) (way : Way) (notice : Notice)
    (reason : Option Reason) (origin : NodeId) : Prop :=
  match way with
  | .none => contextFreed s t i c
  | .retreat => ∃ c', t.ctx i = some c' ∧ c'.teardown = some ⟨cause, way, notice⟩ ∧
      c'.abortReason = reason ∧ c'.origin = some origin ∧ retreats s t i c c'
  | .darkJump => ∃ c', t.ctx i = some c' ∧ c'.teardown = some ⟨cause, way, notice⟩ ∧
      c'.abortReason = reason ∧ c'.origin = some origin ∧ jumpsDark c c'

/-- The way of a cause that does not mean the input is lost: none where the range is not Open, a dark
jump on a line that is down, and a retreat otherwise (R154, R155). -/
def State.localWay (s : State) (c : Context) : Way :=
  if !c.rangeOpen then .none else if (s.port c.outPort).lineIsUp then .retreat else .darkJump

/-- The way of a cause that means the input is lost (R155). -/
def Context.lostWay (c : Context) : Way := if c.rangeOpen then .darkJump else .none

/-- Context `i` has taken its first cause in `t`: along the way none it has ended, and along another it
holds the cause, the way, the notice, the reason and the origin (R153, R154). -/
def takesCause (t : State) (i : CtxIdx) (cause : Cause) (way : Way) (notice : Notice) (reason : Reason)
    (origin : NodeId) : Prop :=
  if way = .none then t.ctx i = none
  else ∃ c', t.ctx i = some c' ∧ c'.teardown = some ⟨cause, way, notice⟩ ∧
    c'.abortReason = some reason ∧ c'.origin = some origin

/-- The message that a teardown owes upstream: DECLINE from OFFERED and ABORT from every later state
(R156). -/
def Context.upMessage (c : Context) (reason : Reason) (origin : NodeId) : PeerMsg :=
  if c.state = .offered then .decline c.path reason origin else .abort c.path reason origin

/-- Every context that `uses` selects is FREE in `t`, or its teardown is decided. -/
def allGoDark (s t : State) (uses : Context → Prop) : Prop :=
  ∀ i c, s.ctx i = some c → uses c →
    t.ctx i = none ∨ ∃ c', t.ctx i = some c' ∧ c'.tornDown = true

end Sys2Proof.Machine
end

