-- ==== Sys2Proof/Certificates/Slice0/Obligations.lean ====
section
/-! DEFINITION. The statements about the part, one definition each. A rule R<n> is one of spec/; "log
<n>" is notes/assumptions/<n>.md, where a clause rests on a choice of the model. -/

open Sys2Proof Sys2Proof.Machine

/-! ### The step and the reset -/

/-- The step takes the command at the front of the queue, runs it on the state with the queue's rest,
and idles on an empty queue (log 2). -/
def Obligations.StepRunsTheFrontCommand : Prop :=
  (∀ (c : Instr) (s : State) (rest : List Instr), s.pending = c :: rest →
    step s = exec c { s with pending := rest }) ∧
  ∀ s : State, s.pending = [] → step s = .next s

/-- Every command answers a next state, in every state, and leaves the queue of commands as it was:
no event of the manual stops the part (log 28). -/
def Obligations.EveryCommandAnswersANextState : Prop :=
  ∀ (c : Instr) (s : State), ∃ t, exec c s = .next t ∧ t.pending = s.pending

/-- The items after a reset, as R182 gathers them with the rules it names: the parameters at their
defaults (R7, R113, R134, R174), every item of the arbiters and step timers (R114), and every item of the
adjacency monitors, their timers disarmed (R43). -/
def Obligations.ResetValuesOfTheManual : Prop :=
  ∀ straps : BitVec 13,
    let s := State.resetWith straps
    (∀ p k, k < 400 → cellAt (s.port p).map k = some .free) ∧
    (∀ p, (s.port p).synced = false ∧ (s.port p).params.guard = 1) ∧
    (∀ p, (s.port p).params = {
      sparseCode := 2, denseCode := 8, sparseThreshold := 8, gOk := 30, gAbort := 100,
      actuationWindow := 50, observationWindow := 200, extensionUnit := 100, extensionCap := 8,
      burstCode := 3, haltOnDisturbance := false, guard := 1 }) ∧
    s.part = {
      helloInterval := 100, deadTime := 400, recoveryHold := 1000, identTimeout := 500,
      identAttempts := 3, offerHop := 250, litHop := 10000, measureTimeout := 100,
      measureAttempts := 3, acceptAll := true, groupAccept := false, groupId := 1 } ∧
    (∀ p k, Table.read (s.port p).bankA k = -300 ∧ Table.read (s.port p).bankB k = -300) ∧
    (∀ p, (s.port p).active = .a ∧ (s.port p).swapPending = false) ∧
    (∀ i, s.ctx i = none ∧ (s.record i).tag = 0) ∧
    (∀ p, (s.port p).retreatQ = [] ∧ (s.port p).restoreQ = [] ∧ (s.port p).normalQ = [] ∧
      (s.port p).holder = none ∧ (s.port p).frozen = false ∧ (s.port p).phase = .idle) ∧
    (∀ p, (s.port p).tenure = 0 ∧ (s.port p).expiry = none ∧ (s.port p).requested = none ∧
      (s.port p).settings = none ∧ (s.port p).unitsUsed = 0 ∧ (s.port p).confirmMark = none ∧
      (s.port p).retreatDue = false ∧ (s.port p).slowest = 0) ∧
    (∀ p, (s.port p).gain = none ∧ (s.port p).lineIsUp = false) ∧
    (∀ d, (s.degree d).adj = .down ∧ (s.degree d).nbrId = none ∧ (s.degree d).objects = []) ∧
    (∀ d, (s.degree d).nbrDegree = none ∧ (s.degree d).nbrFull = false ∧
      (s.degree d).nbrUnsynced = [] ∧ (s.degree d).seenUp = false ∧ (s.degree d).verif = .none ∧
      (s.degree d).queryAttempts = 0 ∧ (s.degree d).helloTimer = none ∧
      (s.degree d).deadTimer = none ∧ (s.degree d).recoveryTimer = none ∧
      (s.degree d).identTimer = none) ∧
    (∀ d, (s.degree d).peerQueue = [] ∧ (s.degree d).overflow = false) ∧
    (∀ p, (s.port p).reports = [] ∧ (s.port p).overflow = false) ∧
    s.commands = [] ∧ s.ring = [] ∧ s.lost = false ∧
    (∀ d, (s.degree d).lampMode = .auto ∧ s.lamp d = .dark) ∧
    s.timeBase = 0 ∧ s.nodeId = straps.extractLsb' 0 12 ∧ s.attention = false

/-- The reset pin: while it is asserted the attention line and the lamps are dark and every arrival
is discarded, and its release brings every item to its reset value and reads the straps (R182). That
an assertion changes nothing else, and that the responses already sent stay, are the model's choices
(log 5, log 6). RESET is answered OK first and the part then resets; with fields after its header it
is answered MALFORMED and resets nothing (R182, R173). That the responses sent stay is the model's
choice (log 6). -/
def Obligations.ThePinAndTheCommandResetThePart : Prop :=
  ((∀ s : State, s.inReset = false → ∃ t, exec .resetPinAssert s = .next t ∧ t.inReset = true ∧
    t.attention = false ∧ (∀ d, t.lamp d = .dark) ∧ t.mgmtRx = [] ∧
    (∀ p, t.port p = { s.port p with rx := [] }) ∧
    { t with inReset := false, mgmtRx := s.mgmtRx, ports := s.ports } = s) ∧
  (∀ (s : State) (p : PortNo) (bytes : List Byte), s.inReset = true →
    exec (.commandArrival bytes) s = .next s ∧ exec (.peerFrameArrival p bytes) s = .next s ∧
      exec (.controllerFrameArrival p bytes) s = .next s) ∧
  ∀ (s : State) (straps : BitVec 13), s.inReset = true →
    exec (.resetPinRelease straps) s = .next { State.resetWith straps with
      responses := s.responses, freeNext := s.freeNext, pending := s.pending }) ∧
  ∀ (s : State) (straps : BitVec 13) (a b : Byte) (rest : List (List Byte)),
    (s.commandWaits 21 a b [] rest →
      exec (.reset straps) s = .next { State.resetWith straps with
        responses := s.responses ++ [⟨21, a, b, .ok, false, s.timeBase, .none⟩],
        freeNext := s.freeNext, pending := s.pending }) ∧
    ∀ fields, fields ≠ [] → s.commandWaits 21 a b fields rest →
      exec (.reset straps) s = .next (s.answered 21 a b rest .malformed false .none)

/-- The time base rises by one at a tick and wraps from 4294967295 to 0, with elapsed time beside it;
SETTIME writes the time base and moves no timer (R179). Elapsed time is the model's own count (log 3),
and that a tick counts while the reset pin is asserted as well is the model's choice (log 27). -/
def Obligations.TimeBaseTicksAndIsSet : Prop :=
  (∀ s : State, ∃ t, exec .timeBaseTick s = .next t ∧
    t.timeBase.toNat = (if s.timeBase.toNat = 4294967295 then 0 else s.timeBase.toNat + 1) ∧
    t.elapsed = s.elapsed + 1 ∧ { t with timeBase := s.timeBase, elapsed := s.elapsed } = s) ∧
  ∀ (s : State) (a b w x y z : Byte) (rest : List (List Byte)),
    s.commandWaits 20 a b [w, x, y, z] rest →
      ∃ t, exec .settime s = .next t ∧ t.timeBase = w ++ x ++ y ++ z ∧
        t.responses = s.responses ++ [⟨20, a, b, .ok, false, w ++ x ++ y ++ z,
          .value ((w ++ x ++ y ++ z).toNat : Int)⟩] ∧
        t.commands = rest ∧
        { t with timeBase := s.timeBase, responses := s.responses, commands := s.commands } = s

/-! ### Management: refusals by decoding -/

/-- The commands that carry one port, with their kinds and the number of ports they accept. -/
def portCommands : List (Instr × Nat × Nat) :=
  [(.sync, 5, 12), (.swap, 9, 12), (.thaw, 10, 12), (.portclear, 11, 12), (.readmap, 15, 12),
   (.readport, 17, 12), (.readnbr, 16, 8), (.identq, 19, 8)]

/-- Each command with its kind, and whether its fields pass check 1 of R173. -/
def decodings (fields : List Byte) : List (Instr × Nat × Bool) :=
  [(.commission, 1, (readCommission fields).isSome), (.release, 2, (readPathField fields).isSome),
   (.retrim, 3, (readPathField fields).isSome), (.adopt, 4, (readAdopt fields).isSome),
   (.sync, 5, (readPortField fields).isSome), (.block, 6, (readRangeFields fields).isSome),
   (.unblock, 7, (readRangeFields fields).isSome), (.profile, 8, (readProfile fields).isSome),
   (.swap, 9, (readPortField fields).isSome), (.thaw, 10, (readPortField fields).isSome),
   (.portclear, 11, (readPortField fields).isSome), (.setparam, 12, (readSetparam fields).isSome),
   (.getparam, 13, (readGetparam fields).isSome), (.readctx, 14, (readReadctx fields).isSome),
   (.readmap, 15, (readPortField fields).isSome), (.readnbr, 16, (readPortField fields).isSome),
   (.readport, 17, (readPortField fields).isSome), (.readrpt, 18, (readReadrpt fields).isSome),
   (.identq, 19, (readPortField fields).isSome), (.settime, 20, (readSettime fields).isSome)]

/-- A parameter number of section 11.5, or a read-only item. -/
def listedItem (k : Nat) : Prop :=
  (1 ≤ k ∧ k ≤ 13) ∨ (20 ≤ k ∧ k ≤ 31) ∨ (40 ≤ k ∧ k ≤ 43)

/-- A value of SETPARAM outside the set of an enumerated parameter: halt on disturbance, accept
all-neighbours and group accept take 0 and 1, and the lamp mode takes 1 to 5 (R174, section 11.5). -/
def outsideItsSet (k : Nat) (given : Int) : Prop :=
  ((k = 11 ∨ k = 29 ∨ k = 30) ∧ given ≠ 0 ∧ given ≠ 1) ∨ (k = 13 ∧ (given < 1 ∨ 5 < given))

/-- A port byte outside the scope of a parameter: 0 to 11, or 0 to 7 for the lamp mode (R174). -/
def outsideItsScope (k : Nat) (x : Byte) : Prop :=
  (1 ≤ k ∧ k ≤ 12 ∧ 12 ≤ x.toNat) ∨ (k = 13 ∧ 8 ≤ x.toNat)

/-- A port outside those that the command accepts is answered BADPORT and changes no state: of the
commands that carry a port alone, of BLOCK, UNBLOCK and PROFILE, and of SETPARAM and GETPARAM for a
per-port parameter (R173 check 2, R174). Fields that fail check 1 are answered MALFORMED and change no
state, and so are a number not listed, a read-only item in SETPARAM, and a value outside the set of an
enumerated parameter (R173, R174); a kind outside 1 to 21 is answered MALFORMED with the kind byte
echoed (R173, R185). That a path identity with a head of 4096 or more fails check 1 too is the model's
choice (log 10). -/
def Obligations.CommandsThatFailDecodingAreRefused : Prop :=
  ((∀ (s : State) (c : Instr) (k limit : Nat) (a b x : Byte) (rest : List (List Byte)),
    (c, k, limit) ∈ portCommands → limit ≤ x.toNat → s.commandWaits k a b [x] rest →
      exec c s = .next (s.answered k a b rest .badPort false .none)) ∧
  ∀ (s : State) (c : Instr) (k : Nat) (a b x f1 f0 n1 n0 : Byte) (rest : List (List Byte)),
    (c, k) ∈ [(Instr.block, 6), (Instr.unblock, 7)] → 12 ≤ x.toNat →
      s.commandWaits k a b [x, f1, f0, n1, n0] rest →
        exec c s = .next (s.answered k a b rest .badPort false .none)) ∧
  (∀ (s : State) (a b x : Byte) (fields : List Byte) (rest : List (List Byte)) (bank : Bank)
    (first : Nat) (ds : List Int), readProfile fields = some (x, bank, first, ds) → 12 ≤ x.toNat →
      s.commandWaits 8 a b fields rest →
        exec .profile s = .next (s.answered 8 a b rest .badPort false .none)) ∧
  (∀ (s : State) (a b x : Byte) (fields : List Byte) (rest : List (List Byte)) (k : Nat) (given : Int),
    readSetparam fields = some (k, x, given) → s.commandWaits 12 a b fields rest →
      (¬listedItem k ∨ 40 ≤ k ∨ outsideItsSet k given →
        exec .setparam s = .next (s.answered 12 a b rest .malformed false .none)) ∧
      (outsideItsScope k x → ¬outsideItsSet k given →
        exec .setparam s = .next (s.answered 12 a b rest .badPort false .none))) ∧
  (∀ (s : State) (a b k x : Byte) (rest : List (List Byte)), s.commandWaits 13 a b [k, x] rest →
    (¬listedItem k.toNat →
      exec .getparam s = .next (s.answered 13 a b rest .malformed false .none)) ∧
    (outsideItsScope k.toNat x →
      exec .getparam s = .next (s.answered 13 a b rest .badPort false .none))) ∧
  (∀ (s : State) (c : Instr) (k : Nat) (a b : Byte) (fields : List Byte) (rest : List (List Byte)),
    (c, k, false) ∈ decodings fields → s.commandWaits k a b fields rest →
      exec c s = .next (s.answered k a b rest .malformed false .none)) ∧
  ∀ (s : State) (k a b : Byte) (fields : List Byte) (rest : List (List Byte)),
    (k.toNat = 0 ∨ 21 < k.toNat) → s.commandWaits k.toNat a b fields rest →
      exec .unknownCommandKind s = .next (s.answered k.toNat a b rest .malformed false .none)

/-! ### Management: ports, maps and profiles -/

/-- SYNC makes the named port SYNCED, whatever it was, and changes nothing else (R14). -/
def Obligations.SyncMakesThePortSynced : Prop :=
  ∀ (s : State) (a b : Byte) (p : PortNo) (rest : List (List Byte)),
    s.commandWaits 5 a b [byteOf p.val] rest →
      ∃ t, exec .sync s = .next t ∧ t.port p = { s.port p with synced := true } ∧
        sameOtherPorts s t p ∧ { t with ports := s.ports } = s.answered 5 a b rest .ok false .none

/-- The fields of BLOCK and UNBLOCK: port, first cell, count (section 11.5). -/
def rangeBytes (p : PortNo) (first count : Nat) : List Byte :=
  byteOf p.val :: put2 first ++ put2 count

/-- BLOCK: a range all Free becomes Blocked; any other range is refused with CONFLICT and no cell
changes; a range outside the band is refused with BADRANGE (R12, R173). UNBLOCK: every Blocked cell
of the range becomes Free, and every other cell keeps its state and owner; OK whether any changed or
none (R13). -/
def Obligations.BlockAndUnblockTurnCells : Prop :=
  (∀ (s : State) (a b : Byte) (p : PortNo) (first count : Nat) (rest : List (List Byte)),
    first < 65536 → count < 65536 → s.commandWaits 6 a b (rangeBytes p first count) rest →
      (1 ≤ count → first + count ≤ 400 →
        (∀ k, first ≤ k → k < first + count → cellAt (s.port p).map k = some .free) →
          ∃ t, exec .block s = .next t ∧
            (∀ k, cellAt (t.port p).map k =
              if first ≤ k ∧ k < first + count then some .blocked else cellAt (s.port p).map k) ∧
            { t.port p with map := (s.port p).map } = s.port p ∧ sameOtherPorts s t p ∧
            { t with ports := s.ports } = s.answered 6 a b rest .ok false .none) ∧
      (1 ≤ count → first + count ≤ 400 →
        (∃ k, first ≤ k ∧ k < first + count ∧ cellAt (s.port p).map k ≠ some .free) →
          exec .block s = .next (s.answered 6 a b rest .conflict false .none)) ∧
      (¬(1 ≤ count ∧ first + count ≤ 400) →
        exec .block s = .next (s.answered 6 a b rest .badRange false .none))) ∧
  ∀ (s : State) (a b : Byte) (p : PortNo) (first count : Nat) (rest : List (List Byte)),
    first < 65536 → count < 65536 → s.commandWaits 7 a b (rangeBytes p first count) rest →
      (1 ≤ count → first + count ≤ 400 →
        ∃ t, exec .unblock s = .next t ∧
          (∀ k, cellAt (t.port p).map k =
            if (first ≤ k ∧ k < first + count) ∧ cellAt (s.port p).map k = some .blocked
            then some .free else cellAt (s.port p).map k) ∧
          { t.port p with map := (s.port p).map } = s.port p ∧ sameOtherPorts s t p ∧
          { t with ports := s.ports } = s.answered 7 a b rest .ok false .none) ∧
      (¬(1 ≤ count ∧ first + count ≤ 400) →
        exec .unblock s = .next (s.answered 7 a b rest .badRange false .none))

/-- PROFILE: refused on the active bank; otherwise each density is written to its cell of the named
bank at the nearer bound of −2000 to +1000, with the Clamped flag when any was clamped (R18). -/
def Obligations.ProfileWritesTheInactiveBank : Prop :=
  ∀ (s : State) (a b : Byte) (fields : List Byte) (rest : List (List Byte)) (p : PortNo) (bank : Bank)
    (first : Nat) (ds : List Int),
    readProfile fields = some (byteOf p.val, bank, first, ds) → s.commandWaits 8 a b fields rest →
      (400 < first + ds.length →
        exec .profile s = .next (s.answered 8 a b rest .badRange false .none)) ∧
      (first + ds.length ≤ 400 → (s.port p).active = bank →
        exec .profile s = .next (s.answered 8 a b rest .wrongBank false .none)) ∧
      (first + ds.length ≤ 400 → (s.port p).active ≠ bank →
        ∃ t, exec .profile s = .next t ∧
          (∀ (k : Nat) (hk : k < 400), Table.read ((t.port p).bankOf bank) ⟨k, hk⟩ =
            if first ≤ k ∧ k < first + ds.length
            then max (-2000) (min ((ds[k - first]?).getD 0) 1000)
            else Table.read ((s.port p).bankOf bank) ⟨k, hk⟩) ∧
          (t.port p).bankOf bank.other = (s.port p).bankOf bank.other ∧
          { t.port p with bankA := (s.port p).bankA, bankB := (s.port p).bankB } = s.port p ∧
          sameOtherPorts s t p ∧
          { t with ports := s.ports } = s.answered 8 a b rest .ok
            (decide (∃ x ∈ ds, x < -2000 ∨ 1000 < x)) .none)

/-- SWAP: on a port that is not quiet only the swap-pending flag is set. On a quiet port the swap takes
place at once: the other bank is active, the flag is clear, the contexts in LIT_WAIT are marked
TrimDue, those in IN_SERVICE are TRIMMING, those that waited have their target or an abort (R19,
R20), and SwapDone is the last record written. That SwapDone comes last is the model's reading of R20's
order of a swap's effects (log 15). -/
def Obligations.SwapWaitsForQuietOrIsMade : Prop :=
  ∀ (s : State) (a b : Byte) (p : PortNo) (rest : List (List Byte)),
    s.commandWaits 9 a b [byteOf p.val] rest →
      (s.quiet p = false → ∃ t, exec .swap s = .next t ∧
        t.port p = { s.port p with swapPending := true } ∧ sameOtherPorts s t p ∧
        { t with ports := s.ports } = s.answered 9 a b rest .ok false .none) ∧
      (s.quiet p = true → ∃ t, exec .swap s = .next t ∧
        (t.port p).active = (s.port p).active.other ∧ (t.port p).swapPending = false ∧
        (t.port p).bankA = (s.port p).bankA ∧ (t.port p).bankB = (s.port p).bankB ∧
        t.ring.getLast? = some (.port p .swapDone) ∧
        t.responses = s.responses ++ [⟨9, a, b, .ok, false, s.timeBase, .none⟩] ∧
        (∀ i c, s.ctx i = some c → c.outPort = p → c.state = .litWait →
          ∃ c', t.ctx i = some c' ∧ c'.state = .litWait ∧ c'.flags.trimDue = true) ∧
        (∀ i c, s.ctx i = some c → c.outPort = p → c.state = .inService →
          ∃ c', t.ctx i = some c' ∧ c'.state = .trimming ∧ c'.flags.trimDue = false) ∧
        (∀ i c, s.ctx i = some c → c.outPort = p → c.waitsOnSwap = true →
          ∃ c', t.ctx i = some c' ∧ (c'.target.isSome = true ∨ c'.teardown.isSome = true)) ∧
        ∀ i c, s.ctx i = some c → c.outPort ≠ p →
          (t.ctx i).map Context.stepless = some c.stepless)

/-- THAW clears the frozen flag, whether or not it was set, writes no record, and the arbiter then
considers a grant (R133). A context granted takes its first step at once: its A_next is requested, the
settings are latched, SET is sent under the next tag, the phase is ACTUATING for the actuation window,
and the step counts rise (R117, R118). -/
def Obligations.ThawClearsTheFreezeAndGrants : Prop :=
  ∀ (s : State) (a b : Byte) (p : PortNo) (rest : List (List Byte)),
    s.commandWaits 10 a b [byteOf p.val] rest →
      let u := (s.onPort p fun ps => { ps with frozen := false }).answered 10 a b rest .ok false .none
      ∃ t, exec .thaw s = .next t ∧ (t.port p).frozen = false ∧ t.ring = s.ring ∧ afterGrant u t p ∧
        ∀ i c x first, (s.port p).holder = none → (s.port p).phase = .idle →
          (u.port p).served.head? = some i → s.ctx i = some c → c.outPort = p → c.next = some x →
          c.chosen = some first →
            t.ctx i = some { c with outstanding := some .set, steps := min (c.steps + 1) 65535 } ∧
            (t.record i).tag = (s.record i).tag + 1 ∧
            sentOn s t p [.request ⟨.set, i, (s.record i).tag + 1, first, c.width, x⟩] ∧
            (t.port p).phase = .actuating ∧ (t.port p).requested = some x ∧
            (t.port p).expiry = some (s.elapsed + (s.port p).params.actuationWindow) ∧
            (t.port p).settings = some ⟨(s.port p).params.actuationWindow,
              (s.port p).params.observationWindow, (s.port p).params.extensionUnit,
              (s.port p).params.extensionCap⟩ ∧
            (t.port p).unitsUsed = 0 ∧ (t.port p).tenure = 1

/-- PORTCLEAR of a port with no contexts changes nothing; otherwise it is answered OK, and every
context that uses the port has ended or has its teardown decided; the sync state, the profiles, the
freeze and the line state of every port and the adjacencies stay as they are. With no swap pending, each
context on the port whose teardown was not decided takes the cause with reason PortCleared, this node as
origin and the notice ABORT, along the way of its line, with its message upstream; a range that was not
Open is freed and the ABORT goes down at once; and every other context stays as it is but for the steps
a grant starts (R169, R166). That the first cause recorded is PORTCLEAR is the model's choice (log 13). -/
def Obligations.PortclearTearsDownEveryContextOnThePort : Prop :=
  ∀ (s : State) (a b : Byte) (p : PortNo) (rest : List (List Byte)),
    s.commandWaits 11 a b [byteOf p.val] rest →
      ((∀ i c, s.ctx i = some c → ¬c.usesPort p) →
        exec .portclear s = .next (s.answered 11 a b rest .ok false .none)) ∧
      ∃ t, exec .portclear s = .next t ∧
        t.responses = s.responses ++ [⟨11, a, b, .ok, false, s.timeBase, .none⟩] ∧
        (∀ i c, s.ctx i = some c → c.usesPort p →
          t.ctx i = none ∨ ∃ c', t.ctx i = some c' ∧ c'.tornDown = true) ∧
        (∀ q, (t.port q).synced = (s.port q).synced ∧ (t.port q).bankA = (s.port q).bankA ∧
          (t.port q).bankB = (s.port q).bankB ∧ (t.port q).frozen = (s.port q).frozen ∧
          (t.port q).lineIsUp = (s.port q).lineIsUp) ∧
        (∀ d, (t.degree d).adj = (s.degree d).adj) ∧
        ((∀ q, (s.port q).swapPending = false) → ∀ i c, s.ctx i = some c →
          (c.usesPort p → c.tornDown = false →
            takesCause t i .portClear (s.localWay c) .abort .portCleared s.nodeId ∧
            (∀ e m, c.inPort = .degree e → s.servesDegree e m → sentAmong s t (portOf e)
              ⟨m, s.nodeId, e, c.upMessage .portCleared s.nodeId⟩) ∧
            (s.localWay c = .none → ∀ e m, c.outPort = portOf e → s.servesDegree e m →
              sentAmong s t (portOf e) ⟨m, s.nodeId, e, .abort c.path .portCleared s.nodeId⟩)) ∧
          (¬c.usesPort p ∨ c.tornDown = true → (t.ctx i).map Context.stepless = some c.stepless))

/-! ### Management: parameters and reads -/

/-- SETPARAM writes the value, at the nearer bound of a numeric range, to the one parameter named, and
leaves every other parameter: part-wide numbers 20 to 31, per-port numbers 1 to 12 of the port named,
and the lamp mode of a degree (R174). -/
def Obligations.SetparamWritesOneParameter : Prop :=
  ∀ (s : State) (a b x : Byte) (fields : List Byte) (rest : List (List Byte)) (k v : Nat) (given : Int),
    readSetparam fields = some (k, x, given) → (paramRange k).fit given = some v →
    s.commandWaits 12 a b fields rest →
      (20 ≤ k → k ≤ 31 → ∃ t, exec .setparam s = .next t ∧
        (∀ j, 20 ≤ j → j ≤ 31 → t.part.read j = if j = k then v else s.part.read j) ∧
        { t with part := s.part } = s.answered 12 a b rest .ok (decide ((v : Int) ≠ given)) .none) ∧
      (1 ≤ k → k ≤ 12 → ∀ p : PortNo, x = byteOf p.val → ∃ t, exec .setparam s = .next t ∧
        (∀ j, 1 ≤ j → j ≤ 12 → (t.port p).params.read j = if j = k then v else (s.port p).params.read j) ∧
        { t.port p with params := (s.port p).params } = s.port p ∧ sameOtherPorts s t p ∧
        { t with ports := s.ports } = s.answered 12 a b rest .ok (decide ((v : Int) ≠ given)) .none) ∧
      (k = 13 → ∀ d : DegreeNo, x = byteOf d.val → ∃ t, exec .setparam s = .next t ∧
        t.degree d = { s.degree d with lampMode := lampModeOf v } ∧ sameOtherDegrees s t d ∧
        { t with degrees := s.degrees } = s.answered 12 a b rest .ok (decide ((v : Int) ≠ given)) .none)

/-- GETPARAM answers a parameter as stored, and the read-only items; READCTX answers a record by index
or by path, BADRANGE for an index over 63 and UNKNOWNPATH for a path that no context holds. Neither
changes anything (R174, R35, R173). Two clauses are the model's choices: the port field is not examined
for a read-only item (log 35), and a timer that has run out and whose expiry has not been taken is
answered with 0 ms left (log 23). -/
def Obligations.GetparamAndReadctxAnswer : Prop :=
  (∀ (s : State) (a b x : Byte) (k : Nat) (rest : List (List Byte)),
    s.commandWaits 13 a b [byteOf k, x] rest → k < 256 →
      (20 ≤ k → k ≤ 31 →
        exec .getparam s = .next (s.answered 13 a b rest .ok false (.value (s.part.read k)))) ∧
      (1 ≤ k → k ≤ 12 → ∀ p : PortNo, x = byteOf p.val →
        exec .getparam s =
          .next (s.answered 13 a b rest .ok false (.value ((s.port p).params.read k)))) ∧
      (k = 13 → ∀ d : DegreeNo, x = byteOf d.val →
        exec .getparam s =
          .next (s.answered 13 a b rest .ok false (.value (s.degree d).lampMode.code))) ∧
      (k = 40 → exec .getparam s =
        .next (s.answered 13 a b rest .ok false (.value (s.nodeId.toNat : Int)))) ∧
      (k = 41 → exec .getparam s =
        .next (s.answered 13 a b rest .ok false (.value (if s.identityValid then 1 else 0)))) ∧
      (k = 42 → exec .getparam s = .next (s.answered 13 a b rest .ok false (.value 0x0C5D))) ∧
      (k = 43 → exec .getparam s = .next (s.answered 13 a b rest .ok false (.value 1)))) ∧
  (∀ (s : State) (a b x : Byte) (rest : List (List Byte)),
    s.commandWaits 14 a b [1, x] rest →
      (64 ≤ x.toNat → exec .readctx s = .next (s.answered 14 a b rest .badRange false .none)) ∧
      ∀ i : CtxIdx, x = byteOf i.val →
        exec .readctx s = .next (s.answered 14 a b rest .ok false
          (.context i (s.record i) ((s.ctx i).bind fun c => c.timer.map (· - s.elapsed))))) ∧
  ∀ (s : State) (a b h1 h0 n1 n0 : Byte) (rest : List (List Byte)) (path : PathId),
    s.commandWaits 14 a b [2, h1, h0, n1, n0] rest → readPath h1 h0 n1 n0 = some path →
      ((∀ i c, s.ctx i = some c → c.path ≠ path) →
        exec .readctx s = .next (s.answered 14 a b rest .unknownPath false .none)) ∧
      ∀ i c, s.ctx i = some c → c.path = path →
        (∀ j c', s.ctx j = some c' → c'.path = path → j = i) →
        exec .readctx s = .next (s.answered 14 a b rest .ok false
          (.context i (s.record i) (c.timer.map (· - s.elapsed))))

/-- READMAP answers the map as runs in ascending cell order that cover cells 0 to 399 without gap or
overlap: put end to end they are the map, each starts where those before it end, none is empty, and two
that follow one another differ. Nothing changes (R15). -/
def Obligations.ReadmapRunsAreTheMap : Prop :=
  ∀ (s : State) (a b : Byte) (p : PortNo) (rest : List (List Byte)),
    s.commandWaits 15 a b [byteOf p.val] rest →
      ∃ rs, exec .readmap s = .next (s.answered 15 a b rest .ok false (.runs rs)) ∧
        rs.flatMap (fun r => List.replicate r.count r.cell) = (s.port p).map.toList ∧
        (∀ j (hj : j < rs.length), rs[j].first = ((rs.take j).map MapRun.count).sum) ∧
        (∀ r ∈ rs, 1 ≤ r.count) ∧
        (rs.map MapRun.cell).IsChain (· ≠ ·) ∧ 1 ≤ rs.length ∧ rs.length ≤ 400

/-- READPORT returns the port's items as they stand, clears its overflow flag and its slowest settle,
and changes nothing else; READNBR returns the degree's record and clears its overflow flag (R175,
R57). -/
def Obligations.ReadportAndReadnbrClearWhatTheyReturn : Prop :=
  (∀ (s : State) (a b : Byte) (p : PortNo) (rest : List (List Byte)),
    s.commandWaits 17 a b [byteOf p.val] rest →
      ∃ t, exec .readport s = .next t ∧
        t.port p = { s.port p with overflow := false, slowest := 0 } ∧ sameOtherPorts s t p ∧
        { t with ports := s.ports } = s.answered 17 a b rest .ok false (.portItems (s.port p).view)) ∧
  ∀ (s : State) (a b : Byte) (d : DegreeNo) (rest : List (List Byte)),
    s.commandWaits 16 a b [byteOf d.val] rest →
      ∃ t, exec .readnbr s = .next t ∧ t.degree d = { s.degree d with overflow := false } ∧
        sameOtherDegrees s t d ∧
        { t with degrees := s.degrees } = s.answered 16 a b rest .ok false (.nbrItems (s.degree d).view)

/-- READRPT removes the oldest records, up to its count, and answers them oldest first with Lost as it
stood and the number left; Lost clears (R177). The attention line falls exactly when none is left
(R178). -/
def Obligations.ReadrptReturnsTheOldestRecords : Prop :=
  ∀ (s : State) (a b : Byte) (n : Nat) (rest : List (List Byte)), 1 ≤ n → n ≤ 8 →
    s.commandWaits 18 a b [byteOf n] rest →
      ∃ t taken, exec .readrpt s = .next t ∧ s.ring = taken ++ t.ring ∧
        taken.length = min n s.ring.length ∧ t.lost = false ∧
        t.responses = s.responses ++ [⟨18, a, b, .ok, false, s.timeBase,
          .ring s.lost t.ring.length taken⟩] ∧
        t.attention = decide (n < s.ring.length) ∧ t.commands = rest ∧
        { t with ring := s.ring, lost := s.lost, responses := s.responses, commands := s.commands } = s

/-- IDENTQ on a degree that is UP starts a query: Pending, one attempt, the ident timer armed, an
IDENT-QUERY to the recorded neighbour, and an Adjacency record unless the verification was Pending
already. On any other degree it is refused with WRONGSTATE (R56, R53). -/
def Obligations.IdentqStartsAQuery : Prop :=
  ∀ (s : State) (a b : Byte) (d : DegreeNo) (rest : List (List Byte)),
    s.commandWaits 19 a b [byteOf d.val] rest →
      ((s.degree d).adj ≠ .up →
        exec .identq s = .next (s.answered 19 a b rest .wrongState false .none)) ∧
      ∀ n, s.servesDegree d n → ∃ t, exec .identq s = .next t ∧
        t.degree d = { s.degree d with verif := .pending, queryAttempts := 1,
                                       identTimer := some (s.elapsed + s.part.identTimeout) } ∧
        sentOn s t (portOf d) [.peer ⟨n, s.nodeId, d, .identQuery⟩] ∧
        samePortButOut (s.port (portOf d)) (t.port (portOf d)) ∧
        sameOtherPorts s t (portOf d) ∧ sameOtherDegrees s t d ∧
        t.ring = (if (s.degree d).verif = .pending then s
          else s.report (.adjacency d .up (some n) .pending)).ring ∧
        { t with ports := s.ports, degrees := s.degrees, ring := s.ring, lost := s.lost } =
          s.answered 19 a b rest .ok false .none

/-! ### Management: paths -/

/-- The route of a COMMISSION is well formed (R60). -/
def goodRoute (s : State) (route : List (Nat × Nat)) : Prop :=
  (2 ≤ route.length ∧ route.length ≤ 16) ∧ (∀ e ∈ route, 1 ≤ e.1 ∧ e.1 ≤ 4094) ∧
  (route.map Prod.fst).Nodup ∧ route.head?.map Prod.fst = some s.nodeId.toNat ∧
  (∀ e ∈ route.dropLast, e.2 < 8) ∧ ∃ e, route.getLast? = some e ∧ 8 ≤ e.2 ∧ e.2 ≤ 11

/-- A width and a window pass check 3 of R59. -/
def goodWindow (n lo hi : Nat) : Prop := 1 ≤ n ∧ n ≤ 16 ∧ lo ≤ hi ∧ hi ≤ 399 ∧ n ≤ hi - lo + 1

/-- The candidates of a COMMISSION on its out-port, as the map stands (R62). -/
def commissionCandidates (s : State) (f : CommissionFields) (out : PortNo) : List Candidate :=
  chooseCandidates f.tie
    (windowQuery (s.port out).map (s.port out).params.guard f.width f.lo f.hi)

/-- The neighbour of degree `d` is `n`, UP and Verified (R61). -/
def servesOffers (s : State) (d : DegreeNo) (n : NodeId) : Bool :=
  decide ((s.degree d).adj = .up) && decide ((s.degree d).nbrId = some n) &&
    decide ((s.degree d).verif = .verified)

/-- The neighbour of degree `d` is not Full and not UNSYNCED on its out-port `p` (R61). -/
def takesOffers (s : State) (d : DegreeNo) (p : PortNo) : Bool :=
  !(s.degree d).nbrFull && !(s.degree d).nbrUnsynced.contains p

/-- Checks 5 to 10 of R59, in their order, with the code of each. -/
def commissionChecks (s : State) (f : CommissionFields) (d : DegreeNo) (next : RouteEntry) :
    List (Bool × ResultCode) :=
  [((s.lookup ⟨s.nodeId, f.serial⟩).isNone, .duplicate), (s.lowestFree.isSome, .tableFull),
   ((s.port (portOf d)).synced, .notSynced), (servesOffers s d next.node, .noAdjacency),
   (takesOffers s d next.port, .neighbourBusy),
   (!(commissionCandidates s f (portOf d)).isEmpty, .noSpectrum)]

/-- COMMISSION is checked in the order of R59, the first check that fails gives the answer, and a
refusal changes no state. -/
def Obligations.CommissionAnswersTheFirstFailedCheck : Prop :=
  ∀ (s : State) (a b : Byte) (fields : List Byte) (rest : List (List Byte)),
    s.commandWaits 1 a b fields rest →
      let refused := fun code => exec .commission s = .next (s.answered 1 a b rest code false .none)
      (readCommission fields = none → refused .malformed) ∧
      ∀ f, readCommission fields = some f →
        (s.identityValid = false → refused .noIdentity) ∧
        (s.identityValid = true → ¬goodWindow f.width f.lo f.hi → refused .badRange) ∧
        (s.identityValid = true → goodWindow f.width f.lo f.hi → ¬goodRoute s f.route →
          refused .badRoute) ∧
        (s.identityValid = true → goodWindow f.width f.lo f.hi → goodRoute s f.route →
          ∃ first next more d, readAll readRouteEntry f.route = some (first :: next :: more) ∧
            first.port = portOf d ∧
            ∀ code, ((commissionChecks s f d next).find? fun x => !x.1).map Prod.snd = some code →
              refused code)

/-- COMMISSION whose checks pass: the lowest FREE record becomes a context at its starting values in
OFFERED, the union of its candidates' ranges is Held by it, its timer is armed for the offer, one OFFER
leaves with hop index 2 and the onward route, and the answer carries the index and the path (R63). -/
def Obligations.CommissionHoldsItsCandidatesAndOffers : Prop :=
  ∀ (s : State) (a b : Byte) (fields : List Byte) (rest : List (List Byte)) (f : CommissionFields)
    (first next : RouteEntry) (more : List RouteEntry) (d : DegreeNo) (i : CtxIdx),
    s.commandWaits 1 a b fields rest → readCommission fields = some f → s.identityValid = true →
    goodWindow f.width f.lo f.hi → goodRoute s f.route →
    readAll readRouteEntry f.route = some (first :: next :: more) → first.port = portOf d →
    s.lowestFree = some i → (∀ x ∈ commissionChecks s f d next, x.1 = true) →
      let path : PathId := ⟨s.nodeId, f.serial⟩
      let cands := commissionCandidates s f (portOf d)
      ∃ t, exec .commission s = .next t ∧
        t.ctx i = some { newContext path .head f.cls (.addGroup f.group) (portOf d) f.width .offered
            s.timeBase with
          tie := some f.tie, hop := some 1, remaining := some (more.length + 1),
          candidates := some cands,
          timer := some (s.elapsed + s.part.offerHop * (more.length + 1)) } ∧
        (t.record i).tag = (s.record i).tag ∧ sameOtherRecords s t i ∧
        (∀ k, cellAt (t.port (portOf d)).map k =
          if ∃ c ∈ cands, c.s ≤ k ∧ k < c.s + f.width then some (.held i)
          else cellAt (s.port (portOf d)).map k) ∧
        sentOn s t (portOf d) [.peer ⟨next.node, s.nodeId, d,
          .offer path ⟨f.cls, f.width, f.tie, 2, next :: more, cands⟩⟩] ∧
        { t.port (portOf d) with map := (s.port (portOf d)).map, out := (s.port (portOf d)).out } =
          s.port (portOf d) ∧
        sameOtherPorts s t (portOf d) ∧
        { t with records := s.records, ports := s.ports } =
          s.answered 1 a b rest .ok false (.path i path)

/-- A placement is better than another for a tie direction: lower cost, then the lower first cell for
LOW and the higher for HIGH (R62, R70). -/
def better (tie : Tie) (x y : Candidate) : Prop :=
  x.cost < y.cost ∨ (x.cost = y.cost ∧ match tie with | .low => x.s < y.s | .high => y.s < x.s)

/-- A guard cell that bars a placement: one in the band that is Held, Reserved or Open (R8). -/
def barred (m : PortMap) (k : Nat) : Prop := ∃ x i, cellAt m k = some x ∧ x.owner = some i

/-- The probe cell `k` scores 1 when it is Free (R9). -/
def probe (m : PortMap) (k : Int) : Nat :=
  if 0 ≤ k ∧ cellAt m k.toNat = some .free then 1 else 0

/-- The window query answers each placement inside the window whose cells are all Free and whose
guard cells bar nothing, once, with its side cost (R8, R9, R10); the head keeps the best eight of
them, best first (R62). The onward survivors are the candidates still eligible, in their order, each
with this node's side cost added (R68); the tail chooses the survivor that no other is better than, and
none exactly when none survives (R70). That a sum over 32 is kept is the model's choice (log 33). -/
def Obligations.TheBestPlacementsAreOfferedAndChosen : Prop :=
  (∀ (m : PortMap) (g n lo hi : Nat) (tie : Tie), g ≤ 1 → goodWindow n lo hi →
    let found := windowQuery m g n lo hi
    let kept := chooseCandidates tie found
    (∀ x : Candidate, x ∈ found ↔
      (lo ≤ x.s ∧ x.s + n ≤ hi + 1 ∧ (∀ k, x.s ≤ k → k < x.s + n → cellAt m k = some .free) ∧
        (g = 1 → (x.s = 0 ∨ ¬barred m (x.s - 1)) ∧ ¬barred m (x.s + n)) ∧
        x.cost = probe m ((x.s : Int) - (g + 1)) + probe m ((x.s : Int) + n + g))) ∧
    (found.map Candidate.s).Pairwise (· < ·) ∧
    kept.length = min 8 found.length ∧ kept.Pairwise (better tie) ∧ (∀ x ∈ kept, x ∈ found) ∧
    ∀ x ∈ found, x ∉ kept → ∀ y ∈ kept, better tie y x) ∧
  ∀ (m : PortMap) (g n : Nat) (tie : Tie) (cands : List Candidate), g ≤ 1 →
    let survivors := trimCandidates m g n cands
    survivors = (cands.filter fun c => eligible m g c.s n).map
      (fun c => ⟨c.s, c.cost + sideCost m g c.s n⟩) ∧
    (tailChoice tie survivors = none ↔ survivors = []) ∧
    ∀ x, tailChoice tie survivors = some x →
      x ∈ survivors ∧ ∀ y ∈ survivors, ¬better tie y x

/-- RELEASE of a path that no context holds is refused with UNKNOWNPATH, at another role than HEAD with
WRONGROLE, and after teardown has begun with WRONGSTATE. Otherwise it decides a teardown with first
cause management RELEASE: in OFFERED the context ends, with an ABORT downstream of reason
ReleasedByManager; later it goes along the way of its line, with the notice RELEASE, and at the way none
the RELEASE leaves at once (R163). -/
def Obligations.ReleaseTearsDownAtTheHead : Prop :=
  ∀ (s : State) (a b : Byte) (fields : List Byte) (rest : List (List Byte)) (path : PathId),
    readPathField fields = some path → s.commandWaits 2 a b fields rest →
      let u := s.answered 2 a b rest .ok false .none
      ((∀ i c, s.ctx i = some c → c.path ≠ path) →
        exec .release s = .next (s.answered 2 a b rest .unknownPath false .none)) ∧
      ∀ i c, s.lookup path = some i → s.ctx i = some c →
        (c.role ≠ .head → exec .release s = .next (s.answered 2 a b rest .wrongRole false .none)) ∧
        (c.role = .head → c.tornDown = true →
          exec .release s = .next (s.answered 2 a b rest .wrongState false .none)) ∧
        (c.role = .head → c.tornDown = false → c.state = .offered →
          ∃ t, exec .release s = .next t ∧ contextFreed s t i c ∧ t.responses = u.responses ∧
            (∀ d n, degreeOf c.outPort = some d → s.servesDegree d n → sentFirst s t c.outPort
              ⟨n, s.nodeId, d, .abort path .releasedByManager s.nodeId⟩) ∧
            ((s.port c.outPort).swapPending = false → onlyAround u t c.outPort i ∧
              t.ring = (s.report (.pathEnd ⟨path, .head, .released, some .releasedByManager,
                some s.nodeId, c.startTag, s.timeBase, c.steps, c.backoffs, c.slowest,
                c.flags⟩)).ring)) ∧
        (c.role = .head → c.tornDown = false → c.state ≠ .offered →
          ∃ t, exec .release s = .next t ∧ t.responses = u.responses ∧
            tornDownBy s t i c .managementRelease (s.localWay c) .release none path.head ∧
            (s.localWay c = .none → ∀ d n, degreeOf c.outPort = some d → s.servesDegree d n →
              sentFirst s t c.outPort ⟨n, s.nodeId, d, .release path⟩) ∧
            ((s.port c.outPort).swapPending = false → onlyAround u t c.outPort i ∧
              t.ring = (if s.localWay c = .none then s.report (.pathEnd ⟨path, .head, .released, none,
                some path.head, c.startTag, s.timeBase, c.steps, c.backoffs, c.slowest, c.flags⟩)
                else s).ring))

/-- RETRIM in IN_SERVICE with no teardown decided marks the context TrimDue. With no swap pending on
its out-port it enters TRIMMING at once: the mark clears and the first MEASURE is sent (R147, R148).
RETRIM in any other state is refused with WRONGSTATE (R153). That the trim does not wait for a SWAP taken
after it is the model's choice, against a row of R152 (log 37). -/
def Obligations.RetrimMarksAndMeasures : Prop :=
  ∀ (s : State) (a b : Byte) (fields : List Byte) (rest : List (List Byte)) (path : PathId),
    readPathField fields = some path → s.commandWaits 3 a b fields rest →
      ((∀ i c, s.ctx i = some c → c.path ≠ path) →
        exec .retrim s = .next (s.answered 3 a b rest .unknownPath false .none)) ∧
      ∀ i c, s.lookup path = some i → s.ctx i = some c →
        (c.state ≠ .inService ∨ c.teardown.isSome → exec .retrim s =
          .next (s.answered 3 a b rest .wrongState false .none)) ∧
        (c.state = .inService → c.teardown = none → (s.port c.outPort).swapPending = true →
          ∃ t, exec .retrim s = .next t ∧
            t.record i = ⟨(s.record i).tag, some { c with flags := { c.flags with trimDue := true } }⟩ ∧
            sameOtherRecords s t i ∧
            { t with records := s.records } = s.answered 3 a b rest .ok false .none) ∧
        (c.state = .inService → c.teardown = none → (s.port c.outPort).swapPending = false →
          ∀ first, c.chosen = some first → ∃ t, exec .retrim s = .next t ∧
            t.record i = ⟨(s.record i).tag + 1, some { c with
              state := .trimming, kind := none, flags := { c.flags with trimDue := false },
              attempts := 1, outstanding := some .measure,
              timer := some (s.elapsed + s.part.measureTimeout) }⟩ ∧
            sameOtherRecords s t i ∧
            sentOn s t c.outPort
              [.request ⟨.measure, i, (s.record i).tag + 1, first, c.width, 0⟩] ∧
            samePortButOut (s.port c.outPort) (t.port c.outPort) ∧ sameOtherPorts s t c.outPort ∧
            { t with records := s.records, ports := s.ports } =
              s.answered 3 a b rest .ok false .none)

/-- Checks 3 to 7 of R36, in their order, with the code of each; check 2 stands first. -/
def adoptChecks (s : State) (f : AdoptFields) : List (Bool × ResultCode) :=
  [(decide (1 ≤ f.n ∧ f.n ≤ 16 ∧ f.s + f.n ≤ 400), .badRange), ((adoptPorts f).isSome, .badPort),
   (s.adoptRoleFits f, .wrongRole), ((s.lookup f.path).isNone, .duplicate),
   (s.lowestFree.isSome, .tableFull),
   ((adoptPorts f).any fun x =>
      decide (∀ k : Fin 400, f.s ≤ k.val → k.val < f.s + f.n →
        Table.read (s.port x.2).map k = .free), .conflict)]

/-- The ports that fit each role of an adoption: an add group and a degree at a head, two degrees
that differ at a transit, a degree and a drop group at a tail; and the role fits the part: HEAD on
the path's own head under a valid identity, the others elsewhere, and an invalid identity takes
TRANSIT and TAIL adoptions (R36), whatever the head of their path, which is the model's choice (log 39).
ADOPT is checked in the order of R36. When every check passes, the lowest FREE record becomes a context
in IN_SERVICE at class NORMAL with its range Open and its A at the nearer bound of 0 to 2500, with no
request sent and no record written, and the answer carries the index (R36, R37). -/
def Obligations.AdoptMakesAnOpenContext : Prop :=
  ((∀ (f : AdoptFields) (g : AddGroup) (d e : DegreeNo) (q : PortNo),
    (f.role = .head → (adoptPorts f = some (.addGroup g, portOf e) ↔
      f.inPort = g.val ∧ f.outPort = e.val)) ∧
    (f.role = .transit → (adoptPorts f = some (.degree d, portOf e) ↔
      f.inPort = d.val ∧ f.outPort = e.val ∧ d ≠ e)) ∧
    (f.role = .tail → (adoptPorts f = some (.degree d, q) ↔
      f.inPort = d.val ∧ f.outPort = q.val ∧ 8 ≤ q.val)) ∧
    (f.role = .head → 4 ≤ f.inPort ∨ 8 ≤ f.outPort → adoptPorts f = none) ∧
    (f.role = .transit → 8 ≤ f.inPort ∨ 8 ≤ f.outPort ∨ f.inPort = f.outPort → adoptPorts f = none) ∧
    (f.role = .tail → 8 ≤ f.inPort ∨ f.outPort < 8 ∨ 12 ≤ f.outPort → adoptPorts f = none)) ∧
  ∀ (s : State) (f : AdoptFields), s.adoptRoleFits f = true ↔
    (f.role = .head → s.identityValid = true ∧ f.path.head = s.nodeId) ∧
    (f.role ≠ .head → s.identityValid = true → f.path.head ≠ s.nodeId)) ∧
  ∀ (s : State) (a b : Byte) (fields : List Byte) (rest : List (List Byte)) (f : AdoptFields),
    readAdopt fields = some f → s.commandWaits 4 a b fields rest →
      (∀ code, ((adoptChecks s f).find? fun x => !x.1).map Prod.snd = some code →
        exec .adopt s = .next (s.answered 4 a b rest code false .none)) ∧
      ((∀ x ∈ adoptChecks s f, x.1 = true) → ∀ i inPort outPort, s.lowestFree = some i →
        adoptPorts f = some (inPort, outPort) → ∃ t, exec .adopt s = .next t ∧
          t.record i = ⟨(s.record i).tag, some { newContext f.path f.role .normal inPort outPort f.n
            .inService s.timeBase with
              chosen := some f.s, serviceTag := some s.timeBase,
              att := some (if f.att < 0 then 0 else if 2500 < f.att then 2500 else f.att.toNat) }⟩ ∧
          sameOtherRecords s t i ∧
          (∀ k, cellAt (t.port outPort).map k = if f.s ≤ k ∧ k < f.s + f.n then some (.opened i)
            else cellAt (s.port outPort).map k) ∧
          { t.port outPort with map := (s.port outPort).map } = s.port outPort ∧
          sameOtherPorts s t outPort ∧
          { t with records := s.records, ports := s.ports } =
            s.answered 4 a b rest .ok (decide (f.att < 0 ∨ 2500 < f.att)) (.index i))

/-! ### Frames that arrive -/

/-- A management frame that arrives whole on an idle receiver joins the command queue when fewer
than four commands wait, and is discarded unanswered when four wait (R172, R184). A peer frame that
arrives whole on an idle receiver of a line degree joins the degree's queue when its destination is
this part, all neighbours while they are accepted, or the group while it is accepted; on a queue of
sixteen only the overflow flag is set; a frame to another destination, under an invalid identity, or
too short to hold one is discarded (R38, R39, R40, R185). A controller frame that arrives whole on
an idle receiver joins the port's queue when its body passes its check; on a queue of eight only the
overflow flag is set; one whose body fails is discarded as a bad frame, with no effect when no byte
after its marker begins another marker (R83, R184, R185). -/
def Obligations.FramesJoinTheirQueues : Prop :=
  (∀ (s : State) (body : List Byte), s.inReset = false → s.mgmtRx = [] → body.length ≤ 4095 →
    (s.commands.length < 4 → exec (.commandArrival (frameBytes 3 body)) s =
      .next { s with commands := s.commands ++ [body] }) ∧
    (4 ≤ s.commands.length → exec (.commandArrival (frameBytes 3 body)) s = .next s)) ∧
  (∀ (s : State) (d : DegreeNo) (body : List Byte), s.inReset = false →
    (s.port (portOf d)).rx = [] → body.length ≤ 255 →
      let mine := fun x : Nat => x = s.nodeId.toNat ∨ (x = 0 ∧ s.part.acceptAll = true) ∨
        (x = s.part.groupId ∧ s.part.groupAccept = true)
      let result := exec (.peerFrameArrival (portOf d) (frameBytes 2 body)) s
      (s.identityValid = true → (∃ x, peerDest body = some x ∧ mine x) →
        ∃ t, result = .next t ∧ sameOtherDegrees s t d ∧ { t with degrees := s.degrees } = s ∧
          t.degree d = if (s.degree d).peerQueue.length < 16
            then { s.degree d with peerQueue := (s.degree d).peerQueue ++ [body] }
            else { s.degree d with overflow := true }) ∧
      (s.identityValid = false ∨ (∀ x, peerDest body = some x → ¬mine x) → result = .next s)) ∧
  ∀ (s : State) (p : PortNo) (body : List Byte), s.inReset = false → (s.port p).rx = [] →
    body.length ≤ 255 →
      let result := exec (.controllerFrameArrival p (frameBytes 1 body)) s
      (readReport body = none → (∀ x ∈ (frameBytes 1 body).drop 2, x ≠ 0xA5) → result = .next s) ∧
      ∀ r, readReport body = some r → ∃ t, result = .next t ∧ sameOtherPorts s t p ∧
        { t with ports := s.ports } = s ∧
        t.port p = if (s.port p).reports.length < 8
          then { s.port p with reports := (s.port p).reports ++ [r] }
          else { s.port p with overflow := true }

/-- Bytes may arrive in pieces: two arrivals on a link one after the other do what one arrival of all
their bytes does (R184). That an arrival carries any piece of a stream, and that both arrival rows of a
port link feed its one receiver, are the model's choices (log 7). A frame is bad whose check does not
match, whose stream its link does not carry, whose length is over the link's largest, or which is a
controller frame whose body is no report. On an idle receiver a bad frame does what the bytes after its
start marker do alone, since the search goes on there; and it changes nothing when none of them begins
another marker (R184, R185). -/
def Obligations.ArrivalsMayBeCutAndBadFramesAreLost : Prop :=
  (∀ (s t : State) (p : PortNo) (xs ys : List Byte),
    (exec (.commandArrival xs) s = .next t →
      exec (.commandArrival ys) t = exec (.commandArrival (xs ++ ys)) s) ∧
    (exec (.peerFrameArrival p xs) s = .next t →
      exec (.peerFrameArrival p ys) t = exec (.peerFrameArrival p (xs ++ ys)) s) ∧
    (exec (.controllerFrameArrival p xs) s = .next t →
      exec (.controllerFrameArrival p ys) t = exec (.controllerFrameArrival p (xs ++ ys)) s)) ∧
  ∀ (s : State) (hi lo flag c1 c0 : Byte) (body : List Byte), s.inReset = false →
    be2 hi lo = body.length + 1 →
      let rest := hi :: lo :: flag :: body ++ [c1, c0]
      let wrong := crc (hi :: lo :: flag :: body) ≠ BitVec.ofNat 16 (be2 c1 c0)
      let lost := fun row : List Byte → Instr =>
        exec (row (0xA5 :: 0x5A :: rest)) s = exec (row rest) s ∧
          ((∀ x ∈ rest, x ≠ 0xA5) → exec (row (0xA5 :: 0x5A :: rest)) s = .next s)
      (s.mgmtRx = [] → wrong ∨ flag ≠ 3 ∨ 4096 < body.length + 1 → lost .commandArrival) ∧
      ∀ p : PortNo, (s.port p).rx = [] →
        (wrong ∨ (flag ≠ 1 ∧ (flag ≠ 2 ∨ 8 ≤ p.val)) ∨ (flag = 1 ∧ readReport body = none) ∨
            256 < body.length + 1 →
          lost (.peerFrameArrival p) ∧ lost (.controllerFrameArrival p))

/-! ### Peer messages: taking -/

/-- The rows of the peer messages on degree `d`, with their kinds. -/
def peerRows (d : DegreeNo) : List (Instr × Nat) :=
  [(.offer d, 1), (.accept d, 2), (.decline d, 3), (.light d, 4), (.lit d, 5),
   (.releaseFromUpstream d, 6), (.abortFromDownstream d, 7), (.abortFromUpstream d, 7),
   (.hello d, 8), (.identQuery d, 9), (.identReply d, 10)]

/-- Check 1 of R41 fails, or checks 2 and 3 fail for a path message: the degree is not UP, or the
source is not the recorded neighbour. -/
def failsPeerChecks (x : DegreeState) (body : List Byte) : Prop :=
  ∀ f, readPeerFrame body = some f → f.msg.kindCode ≤ 7 ∧
    (x.adj ≠ .up ∨ x.nbrId ≠ some f.src ∨ x.nbrDegree ≠ some f.srcDegree)

/-- A peer frame that fails a check of R41, or whose kind is none of the ten, leaves its queue and has
no other effect (R41, R185). Three clauses are the model's choices: with no frame at the head, or one of
another kind, the row does not arise and nothing changes (log 1); an ABORT that fails leaves its queue by
either of its two rows (log 24); and a body too short to hold a kind is taken as of unknown kind
(log 30). -/
def Obligations.PeerFramesThatFailAreDiscarded : Prop :=
  ∀ (s : State) (d : DegreeNo) (c : Instr) (k : Nat), s.inReset = false → (c, k) ∈ peerRows d →
    (∀ body rest, (s.degree d).peerQueue = body :: rest → peerKind body = some k →
      failsPeerChecks (s.degree d) body →
        ∃ t, exec c s = .next t ∧ t.degree d = { s.degree d with peerQueue := rest } ∧
          sameOtherDegrees s t d ∧ { t with degrees := s.degrees } = s) ∧
    ((∀ body rest, (s.degree d).peerQueue = body :: rest → peerKind body ≠ some k) →
      exec c s = .next s) ∧
    ∀ body rest, (s.degree d).peerQueue = body :: rest →
      ((∀ k', peerKind body = some k' → k' = 0 ∨ 10 < k') →
        ∃ t, exec (.unknownPeerKindTaken d) s = .next t ∧
          t.degree d = { s.degree d with peerQueue := rest } ∧ sameOtherDegrees s t d ∧
          { t with degrees := s.degrees } = s) ∧
      (∀ k', peerKind body = some k' → 1 ≤ k' → k' ≤ 10 →
        exec (.unknownPeerKindTaken d) s = .next s)

/-! ### Peer messages: the offer -/

/-- An OFFER's route fits this node (check 1 of R66). -/
def offerRouteFits (s : State) (d : DegreeNo) (hop : Nat) (mine : RouteEntry)
    (onward : List RouteEntry) : Bool :=
  decide (mine.node = s.nodeId) && decide (hop + onward.length ≤ 16) &&
    decide (mine.port ≠ portOf d) &&
    if onward = [] then decide (8 ≤ mine.port.val)
    else decide (mine.port.val < 8) && onward.dropLast.all (fun e => decide (e.port.val < 8)) &&
      onward.getLast?.any fun e => decide (8 ≤ e.port.val)

/-- The candidates of an OFFER that survive trimming on out-port `p` (R68). -/
def offerSurvivors (s : State) (p : PortNo) (f : OfferFields) : List Candidate :=
  trimCandidates (s.port p).map (s.port p).params.guard f.width f.candidates

/-- Checks 7 to 9 of R66, made at a transit whose out-port is degree `out`. -/
def transitChecks (s : State) (out : DegreeNo) (next : RouteEntry) : List (Bool × Reason) :=
  [(decide ((s.degree out).adj = .up) && decide ((s.degree out).nbrId = some next.node), .noAdjacency),
   (decide ((s.degree out).verif = .verified), .gridMismatch),
   (takesOffers s out next.port, .neighbourBusy)]

/-- The checks of R66 in their order, with the reason of each. -/
def offerChecks (s : State) (d : DegreeNo) (path : PathId) (f : OfferFields) (mine : RouteEntry)
    (onward : List RouteEntry) : List (Bool × Reason) :=
  [(offerRouteFits s d f.hop mine onward, .routeError),
   (onward.all fun e => decide (e.node ≠ s.nodeId), .routeLoop),
   ((s.lookup path).isNone, .routeLoop), (decide ((s.degree d).verif = .verified), .gridMismatch),
   (s.lowestFree.isSome, .tableFull), ((s.port mine.port).synced, .notSynced)] ++
  (match onward, degreeOf mine.port with
    | next :: _, some out => transitChecks s out next
    | _, _ => []) ++
  [(!(offerSurvivors s mine.port f).isEmpty, .noSpectrum)]

/-- An OFFER that fails a check of R66 is answered by a DECLINE on its degree with the reason of the
first that fails and this node as origin, and changes nothing else (R67). -/
def Obligations.OfferRefusedIsDeclined : Prop :=
  ∀ (s : State) (d deg : DegreeNo) (dest n : NodeId) (path : PathId) (f : OfferFields)
    (mine : RouteEntry) (onward : List RouteEntry) (r : Reason),
    s.peerWaits d ⟨dest, n, deg, .offer path f⟩ → s.servesDegree d n → f.route = mine :: onward →
    ((offerChecks s d path f mine onward).find? fun x => !x.1).map Prod.snd = some r →
      ∃ t, exec (.offer d) s = .next t ∧
        sentOn s t (portOf d) [.peer ⟨n, s.nodeId, d, .decline path r s.nodeId⟩] ∧
        samePortButOut (s.port (portOf d)) (t.port (portOf d)) ∧ sameOtherPorts s t (portOf d) ∧
        { t with ports := s.ports } = s.popPeer d

/-- An OFFER whose checks pass at a transit: the lowest FREE record becomes a context in OFFERED
with the survivors as its candidates, the union of their ranges is Held by it, its timer is armed
for the offer, and one OFFER goes on with the hop index one higher, the route without this node and
the survivors' new costs (R65, R69, R75). An OFFER whose checks pass at a tail: the lowest FREE
record becomes a context in AWAIT_LIGHT with the chosen survivor, its range is Reserved, its timer
is armed for the LIGHT, and an ACCEPT with the choice goes back (R65, R70, R32). A cost that passes 32
is kept as it is: the model's choice (log 33). -/
def Obligations.OfferMakesAContext : Prop :=
  (∀ (s : State) (d out deg : DegreeNo) (dest n : NodeId) (path : PathId) (f : OfferFields)
    (mine next : RouteEntry) (more : List RouteEntry) (i : CtxIdx),
    s.peerWaits d ⟨dest, n, deg, .offer path f⟩ → s.servesDegree d n →
    f.route = mine :: next :: more → mine.port = portOf out → s.lowestFree = some i →
    (∀ x ∈ offerChecks s d path f mine (next :: more), x.1 = true) →
      let cands := offerSurvivors s (portOf out) f
      ∃ t, exec (.offer d) s = .next t ∧
        t.record i = ⟨(s.record i).tag, some { newContext path .transit f.cls (.degree d)
          (portOf out) f.width .offered s.timeBase with
            tie := some f.tie, hop := some f.hop, remaining := some (more.length + 1),
            candidates := some cands,
            timer := some (s.elapsed + s.part.offerHop * (more.length + 1)) }⟩ ∧
        sameOtherRecords s t i ∧
        (∀ k, cellAt (t.port (portOf out)).map k =
          if ∃ c ∈ cands, c.s ≤ k ∧ k < c.s + f.width then some (.held i)
          else cellAt (s.port (portOf out)).map k) ∧
        sentOn s t (portOf out) [.peer ⟨next.node, s.nodeId, out,
          .offer path ⟨f.cls, f.width, f.tie, f.hop + 1, next :: more, cands⟩⟩] ∧
        { t.port (portOf out) with
          map := (s.port (portOf out)).map, out := (s.port (portOf out)).out } =
            s.port (portOf out) ∧
        sameOtherPorts s t (portOf out) ∧
        { t with records := s.records, ports := s.ports } = s.popPeer d) ∧
  ∀ (s : State) (d deg : DegreeNo) (dest n : NodeId) (path : PathId) (f : OfferFields)
    (mine : RouteEntry) (i : CtxIdx) (best : Candidate),
    s.peerWaits d ⟨dest, n, deg, .offer path f⟩ → s.servesDegree d n → f.route = [mine] →
    s.lowestFree = some i → (∀ x ∈ offerChecks s d path f mine [], x.1 = true) →
    tailChoice f.tie (offerSurvivors s mine.port f) = some best →
      ∃ t, exec (.offer d) s = .next t ∧
        t.record i = ⟨(s.record i).tag, some { newContext path .tail f.cls (.degree d) mine.port
          f.width .awaitLight s.timeBase with
            tie := some f.tie, hop := some f.hop, remaining := some 0, chosen := some best.s,
            totalCost := some best.cost,
            timer := some (s.elapsed + s.part.litHop * (f.hop - 1)) }⟩ ∧
        sameOtherRecords s t i ∧
        (∀ k, cellAt (t.port mine.port).map k =
          if best.s ≤ k ∧ k < best.s + f.width then some (.reserved i)
          else cellAt (s.port mine.port).map k) ∧
        { t.port mine.port with map := (s.port mine.port).map } = s.port mine.port ∧
        sentOn s t (portOf d) [.peer ⟨n, s.nodeId, d, .accept path best.s best.cost⟩] ∧
        samePortButOut (s.port (portOf d)) (t.port (portOf d)) ∧
        (∀ q, q ≠ mine.port → q ≠ portOf d → t.port q = s.port q) ∧
        { t with records := s.records, ports := s.ports } = s.popPeer d

/-- A message whose path no context holds: an ACCEPT or a LIGHT is answered by ABORT UnknownPath with
this node as origin, and any other is discarded (R78). One that comes from the wrong side of its
context, or that its state does not take, is discarded (R79, R144). That a discarded ABORT is taken from its queue
by either of its two rows is the model's choice (log 24). -/
def Obligations.PathMessagesOutOfPlaceAreDiscarded : Prop :=
  ∀ (s : State) (d deg : DegreeNo) (dest n : NodeId) (path : PathId) (first cost : Nat) (r : Reason)
    (origin : NodeId),
    let waits := fun m => s.peerWaits d ⟨dest, n, deg, m⟩
    let dropped := fun row => exec row s = .next (s.popPeer d)
    (s.lookup path = none → s.servesDegree d n →
      ∀ row m, (row, m) ∈ [(Instr.accept d, PeerMsg.accept path first cost),
        (Instr.light d, PeerMsg.light path)] → waits m →
          ∃ t, exec row s = .next t ∧
            sentOn s t (portOf d) [.peer ⟨n, s.nodeId, d, .abort path .unknownPath s.nodeId⟩] ∧
            samePortButOut (s.port (portOf d)) (t.port (portOf d)) ∧ sameOtherPorts s t (portOf d) ∧
            { t with ports := s.ports } = s.popPeer d) ∧
    (s.lookup path = none →
      (waits (.decline path r origin) → dropped (.decline d)) ∧ (waits (.lit path) → dropped (.lit d)) ∧
      (waits (.release path) → dropped (.releaseFromUpstream d)) ∧
      (waits (.abort path r origin) →
        dropped (.abortFromDownstream d) ∧ dropped (.abortFromUpstream d))) ∧
    ∀ i c, s.lookup path = some i → s.ctx i = some c →
      (c.outPort ≠ portOf d ∨ c.state ≠ .offered →
        (waits (.accept path first cost) → dropped (.accept d)) ∧
        (waits (.decline path r origin) → dropped (.decline d))) ∧
      (c.inPort ≠ .degree d ∨ c.state ≠ .awaitLight → waits (.light path) → dropped (.light d)) ∧
      (c.outPort ≠ portOf d ∨ c.state ≠ .litWait → waits (.lit path) → dropped (.lit d)) ∧
      (c.inPort ≠ .degree d → waits (.release path) → dropped (.releaseFromUpstream d)) ∧
      (c.outPort ≠ portOf d → c.inPort ≠ .degree d → waits (.abort path r origin) →
        dropped (.abortFromDownstream d) ∧ dropped (.abortFromUpstream d))

/-- ACCEPT of an offered candidate: the chosen range turns from Held to Reserved and the other holds
become Free. A transit moves to AWAIT_LIGHT with its timer armed for the LIGHT and sends the ACCEPT on
(R71); a head moves to PREPARING, sends OPEN under the next tag and waits for the actuation window (R72,
R135). -/
def Obligations.AcceptReservesTheChosenRange : Prop :=
  ∀ (s : State) (d deg : DegreeNo) (dest n : NodeId) (path : PathId) (first cost : Nat) (i : CtxIdx)
    (c : Context) (cands : List Candidate),
    s.peerWaits d ⟨dest, n, deg, .accept path first cost⟩ → s.lookup path = some i →
    s.ctx i = some c → c.outPort = portOf d → c.state = .offered → c.candidates = some cands →
    (∃ x ∈ cands, x.s = first) →
    (∀ k, first ≤ k → k < first + c.width → cellAt (s.port c.outPort).map k = some (.held i)) →
      let c1 := { c with candidates := none, chosen := some first, totalCost := some cost }
      ∃ t, exec (.accept d) s = .next t ∧ sameOtherRecords s t i ∧
        (∀ k, cellAt (t.port c.outPort).map k = (cellAt (s.port c.outPort).map k).map fun x =>
          if x = .held i then (if first ≤ k ∧ k < first + c.width then .reserved i else .free) else x) ∧
        { t.port c.outPort with map := (s.port c.outPort).map, out := (s.port c.outPort).out } =
          s.port c.outPort ∧
        (∀ q, q ≠ c.outPort → samePortButOut (s.port q) (t.port q)) ∧
        { t with records := s.records, ports := s.ports } = s.popPeer d ∧
        (c.role = .transit → ∀ h, c.hop = some h →
          t.record i = ⟨(s.record i).tag, some { c1 with
            state := .awaitLight,
            timer := some (s.elapsed + s.part.litHop * (h - 1)) }⟩ ∧
          ∀ e m, c.inPort = .degree e → s.servesDegree e m →
            sentOn s t (portOf e) [.peer ⟨m, s.nodeId, e, .accept path first cost⟩]) ∧
        (c.role = .head →
          t.record i = ⟨(s.record i).tag + 1, some { c1 with
            state := .preparing, attempts := 0, outstanding := some .openBand,
            timer := some (s.elapsed + (s.port c.outPort).params.actuationWindow) }⟩ ∧
          sentOn s t c.outPort
            [.request ⟨.openBand, i, (s.record i).tag + 1, first, c.width, 2500⟩])

/-- An offer ends here with its holds freed: a DECLINE from downstream is sent on with its own reason
and origin (R74); an ACCEPT of a candidate not offered, and a run-out offer timer, send DECLINE up and
ABORT down with reasons ProtocolError and OfferTimeout and this node as origin (R73, R76). A head
writes a PathEnd record Declined, a transit writes none (R34). Two clauses are the model's choices: an
ACCEPT whose s is over 399 ends the offer as any other that is not offered (log 8), and an offer timeout
taken before its timer has run out leaves the state (log 3). -/
def Obligations.AnOfferEndsWithItsHoldsFreed : Prop :=
  ∀ (s : State) (i : CtxIdx) (c : Context) (d : DegreeNo),
    s.inReset = false → s.ctx i = some c → c.state = .offered → c.outPort = portOf d →
    c.role ≠ .tail →
      let ended := fun (u t : State) (r : Reason) (origin : NodeId) => contextFreed s t i c ∧
        (∀ e m, c.inPort = .degree e → s.servesDegree e m →
          sentAmong s t (portOf e) ⟨m, s.nodeId, e, .decline c.path r origin⟩) ∧
        ((s.port c.outPort).swapPending = false → onlyAround u t c.outPort i ∧
          (c.role = .transit → t.ring = s.ring) ∧
          (c.role = .head → c.teardown = none → t.ring = (s.report (.pathEnd ⟨c.path, .head, .declined,
            some r, some origin, c.startTag, s.timeBase, c.steps, c.backoffs, c.slowest,
            c.flags⟩)).ring))
      let told := fun (t : State) (r : Reason) => ∀ n, s.servesDegree d n →
        sentAmong s t (portOf d) ⟨n, s.nodeId, d, .abort c.path r s.nodeId⟩
      (∀ deg dest n r origin, s.peerWaits d ⟨dest, n, deg, .decline c.path r origin⟩ →
        s.lookup c.path = some i →
          ∃ t, exec (.decline d) s = .next t ∧ ended (s.popPeer d) t r origin) ∧
      (∀ deg dest n first cost, s.peerWaits d ⟨dest, n, deg, .accept c.path first cost⟩ →
        s.lookup c.path = some i → (∀ x ∈ c.candidates.getD [], x.s ≠ first) →
          ∃ t, exec (.accept d) s = .next t ∧ ended (s.popPeer d) t .protocolError s.nodeId ∧
            told t .protocolError) ∧
      ∀ due, c.timer = some due →
        (s.elapsed < due → exec (.offerTimeout i) s = .next s) ∧
        (due ≤ s.elapsed → ∃ t, exec (.offerTimeout i) s = .next t ∧
          ended s t .offerTimeout s.nodeId ∧ told t .offerTimeout)

/-! ### Peer messages: lighting and teardown -/

/-- LIGHT taken in AWAIT_LIGHT from upstream: the context enters PREPARING, its attempts are 0, OPEN
is sent under the next tag, and its timer is armed for the actuation window (R136, R135). LIT taken
in LIT_WAIT from downstream: the context enters IN_SERVICE with its in-service tag and its timer
disarmed, an InService record is written, and LIT goes on upstream (R144, R145). One that is TrimDue
with no swap pending starts its trim at once (R147). -/
def Obligations.LightPreparesAndLitServes : Prop :=
  (∀ (s : State) (d deg : DegreeNo) (dest n : NodeId) (path : PathId) (i : CtxIdx) (c : Context)
    (first : Nat), s.peerWaits d ⟨dest, n, deg, .light path⟩ → s.lookup path = some i →
    s.ctx i = some c → c.inPort = .degree d → c.state = .awaitLight → c.chosen = some first →
      ∃ t, exec (.light d) s = .next t ∧
        t.record i = ⟨(s.record i).tag + 1, some { c with
          state := .preparing, attempts := 0, outstanding := some .openBand,
          timer := some (s.elapsed + (s.port c.outPort).params.actuationWindow) }⟩ ∧
        sameOtherRecords s t i ∧
        sentOn s t c.outPort [.request ⟨.openBand, i, (s.record i).tag + 1, first, c.width, 2500⟩] ∧
        samePortButOut (s.port c.outPort) (t.port c.outPort) ∧ sameOtherPorts s t c.outPort ∧
        { t with records := s.records, ports := s.ports } = s.popPeer d) ∧
  ∀ (s : State) (d deg : DegreeNo) (dest n : NodeId) (path : PathId) (i : CtxIdx) (c : Context)
    (a first : Nat), s.peerWaits d ⟨dest, n, deg, .lit path⟩ → s.lookup path = some i →
    s.ctx i = some c → c.outPort = portOf d → c.state = .litWait → c.att = some a →
    c.chosen = some first →
      let trims := c.flags.trimDue && !(s.port c.outPort).swapPending
      let served := { c with state := .inService, timer := none, serviceTag := some s.timeBase }
      ∃ t, exec (.lit d) s = .next t ∧
        t.record i = (if trims then ⟨(s.record i).tag + 1, some { served with
            state := .trimming, kind := none, flags := { c.flags with trimDue := false },
            attempts := 1, outstanding := some .measure,
            timer := some (s.elapsed + s.part.measureTimeout) }⟩
          else ⟨(s.record i).tag, some served⟩) ∧
        sameOtherRecords s t i ∧
        t.ring = (s.report (.inService path c.role s.timeBase a c.flags)).ring ∧
        (∀ e m, c.inPort = .degree e → s.servesDegree e m →
          sentAmong s t (portOf e) ⟨m, s.nodeId, e, .lit path⟩) ∧
        (trims = true → ∃ fs, (t.port c.outPort).out = (s.port c.outPort).out ++
          .request ⟨.measure, i, (s.record i).tag + 1, first, c.width, 0⟩ :: fs) ∧
        (∀ q, samePortButOut (s.port q) (t.port q)) ∧
        { t with records := s.records, ports := s.ports, ring := s.ring, lost := s.lost } = s.popPeer d

/-- ABORT from downstream: the first cause of a context is torn down along the way of its line and the
ABORT goes on upstream with its reason and origin, as a DECLINE from an OFFERED context (R164, R153,
R156). A context whose teardown has begun changes nothing (R170). That the row for an
ABORT from upstream leaves this frame in its queue is the model's choice (log 24). -/
def Obligations.AbortFromDownstreamGoesUp : Prop :=
  ∀ (s : State) (d deg : DegreeNo) (dest n : NodeId) (path : PathId) (r : Reason) (origin : NodeId)
    (i : CtxIdx) (c : Context), s.peerWaits d ⟨dest, n, deg, .abort path r origin⟩ →
    s.lookup path = some i → s.ctx i = some c → c.outPort = portOf d →
      (c.tornDown = true → exec (.abortFromDownstream d) s = .next (s.popPeer d)) ∧
      (c.inPort ≠ .degree d → exec (.abortFromUpstream d) s = .next s) ∧
      (c.tornDown = false → ∃ t, exec (.abortFromDownstream d) s = .next t ∧
        tornDownBy s t i c .abortFromDownstream (s.localWay c) .none (some r) origin ∧
        (∀ e m, c.inPort = .degree e → s.servesDegree e m → sentFirst s t (portOf e) ⟨m, s.nodeId, e,
          if c.state = .offered then .decline path r origin else .abort path r origin⟩) ∧
        ((s.port c.outPort).swapPending = false → onlyAround (s.popPeer d) t c.outPort i))

/-- RELEASE and ABORT from upstream mean that the input is lost. The first cause of a context ends it
where its range is not Open, with the notice sent downstream, and is a dark jump with that notice owed
otherwise: the notice is RELEASE for a RELEASE and ABORT for an ABORT (R165). On a retreat already
decided it is the second cause that turns it into a dark jump (R170). A RELEASE taken in OFFERED
goes on as ABORT ReleasedByManager (R165). -/
def Obligations.CausesFromUpstreamAreDarkJumps : Prop :=
  ∀ (s : State) (d deg : DegreeNo) (dest n : NodeId) (path : PathId) (m : PeerMsg) (row : Instr)
    (cause : Cause) (reason : Option Reason) (origin : NodeId) (notice : Notice) (i : CtxIdx)
    (c : Context) (down : PeerMsg),
    s.peerWaits d ⟨dest, n, deg, m⟩ → s.lookup path = some i → s.ctx i = some c →
    c.inPort = .degree d → c.outPort ≠ portOf d →
    ((m = .release path ∧ row = .releaseFromUpstream d ∧ cause = .releaseFromUpstream ∧ reason = none ∧
        origin = path.head ∧
        ((c.state = .offered ∧ notice = .abort ∧ down = .abort path .releasedByManager path.head) ∨
          (c.state ≠ .offered ∧ notice = .release ∧ down = .release path))) ∨
      ∃ r, m = .abort path r origin ∧ row = .abortFromUpstream d ∧ cause = .abortFromUpstream ∧
        reason = some r ∧ notice = .abort ∧ down = .abort path r origin) →
      (c.tornDown = false → ∃ t, exec row s = .next t ∧
        tornDownBy s t i c cause c.lostWay notice reason origin ∧
        (c.lostWay = .none → ∀ e x, c.outPort = portOf e → s.servesDegree e x →
          sentFirst s t c.outPort ⟨x, s.nodeId, e, down⟩) ∧
        ((s.port c.outPort).swapPending = false → onlyAround (s.popPeer d) t c.outPort i)) ∧
      (∀ td, c.teardown = some td → td.way = .retreat → c.state ≠ .closing →
        ∃ t c', exec row s = .next t ∧ t.ctx i = some c' ∧
          c'.teardown = some { td with way := .darkJump } ∧ c'.abortReason = c.abortReason ∧
          c'.origin = c.origin ∧ jumpsDark c c' ∧
          ((s.port c.outPort).swapPending = false → onlyAround (s.popPeer d) t c.outPort i)) ∧
      (c.tornDown = true → (∀ td, c.teardown = some td → td.way ≠ .retreat ∨ c.state = .closing) →
        exec row s = .next (s.popPeer d))

/-! ### The adjacency monitor -/

/-- A HELLO is valid: its source is a node identity and not this part's own, and its unsynced ports are
ports, each once (R45). -/
def goodHello (s : State) (src : NodeId) (unsynced : List Nat) : Prop :=
  1 ≤ src.toNat ∧ src.toNat ≤ 4094 ∧ src ≠ s.nodeId ∧ (∀ p ∈ unsynced, p < 12) ∧ unsynced.Nodup

/-- The ports a HELLO names, ascending, each once (R43). -/
def portsNamed (unsynced : List Nat) (ps : List PortNo) : Prop :=
  ps.Pairwise (· < ·) ∧ ∀ p, p ∈ ps ↔ p.val ∈ unsynced

/-- Entry of degree `d` to RECOVERY from UP: the four timers but the recovery timer are disarmed, what
was heard of the neighbour goes, its identity, degree and objects stay, the Adjacency record comes
first, and every context on the degree goes dark. With no swap pending, each takes its cause with reason
AdjacencyLost and this node as origin: with the degree downstream along the way of its line, with no
notice and a message upstream; with the degree upstream as input lost, with the notice ABORT, which a
retreat already decided becomes a dark jump by (R50, R168, R170). That the query attempts used stay is
the model's choice (log 32). -/
def entersRecovery (s t : State) (d : DegreeNo) : Prop :=
  t.degree d = { s.degree d with
    adj := .recovery, peerQueue := (t.degree d).peerQueue, lampHold := (t.degree d).lampHold,
    helloTimer := none, deadTimer := none, identTimer := none,
    recoveryTimer := some (s.elapsed + s.part.recoveryHold), verif := .none, seenUp := false,
    nbrFull := false, nbrUnsynced := [] } ∧
  (∀ e, e ≠ d → { t.degree e with lampHold := (s.degree e).lampHold } = s.degree e) ∧
  allGoDark s t (fun c => c.usesPort (portOf d)) ∧
  ((∀ q, (s.port q).swapPending = false) → ∀ i c, s.ctx i = some c →
    (c.outPort = portOf d → c.tornDown = false →
      takesCause t i .outPortAdjacencyLost (s.localWay c) .none .adjacencyLost s.nodeId ∧
      ∀ e m, e ≠ d → c.inPort = .degree e → s.servesDegree e m → sentAmong s t (portOf e)
        ⟨m, s.nodeId, e, c.upMessage .adjacencyLost s.nodeId⟩) ∧
    (c.outPort ≠ portOf d → c.inPort = .degree d →
      (c.tornDown = false →
        takesCause t i .inPortAdjacencyLost c.lostWay .abort .adjacencyLost s.nodeId ∧
        (c.lostWay = .none → ∀ e m, c.outPort = portOf e → s.servesDegree e m →
          sentAmong s t (portOf e) ⟨m, s.nodeId, e, .abort c.path .adjacencyLost s.nodeId⟩)) ∧
      ∀ td, c.teardown = some td → td.way = .retreat → c.state ≠ .closing →
        ∃ c', t.ctx i = some c' ∧ c'.teardown = some { td with way := .darkJump })) ∧
  (∀ i c, s.ctx i = some c → ¬c.usesPort (portOf d) →
    (∀ q, (s.port q).swapPending = false) → (t.ctx i).map Context.stepless = some c.stepless) ∧
  (s.ring.length < 64 → (∀ i c, s.ctx i = some c → ¬c.usesPort (portOf d)) →
    t.ring = s.ring ++ [.adjacency d .recovery (s.degree d).nbrId .none]) ∧
  (∀ q, (t.port q).lineIsUp = (s.port q).lineIsUp ∧ (t.port q).synced = (s.port q).synced)

/-- A valid HELLO taken in PROBING brings the adjacency UP: it records the neighbour, drops the
objects held, arms the dead timer, starts an identity query and writes an Adjacency record (R47,
R53). A valid HELLO taken in UP: from another neighbour, or from one that has restarted, it sends
the degree to RECOVERY; otherwise its Full flag and unsynced set are recorded, the dead timer is
armed anew and no record is written (R48). A HELLO that is not valid, or is taken in DOWN or
RECOVERY, is discarded (R45, R47). What a loss does to the contexts on the degree is R168, under the
choices of log 32 for the record of the query. -/
def Obligations.HelloMakesRefreshesOrLosesTheNeighbour : Prop :=
  (∀ (s : State) (d deg : DegreeNo) (dest src : NodeId) (sender : AdjState) (full : Bool)
    (us : List Nat) (ps : List PortNo), s.peerWaits d ⟨dest, src, deg, .hello sender full us⟩ →
    s.identityValid = true → (s.degree d).adj = .probing → goodHello s src us → portsNamed us ps →
      ∃ t, exec (.hello d) s = .next t ∧
        t.degree d = { (s.popPeer d).degree d with
          adj := .up, nbrId := some src, nbrDegree := some deg, nbrFull := full, nbrUnsynced := ps,
          seenUp := decide (sender = .up), verif := .pending, objects := [], queryAttempts := 1,
          deadTimer := some (s.elapsed + s.part.deadTime),
          identTimer := some (s.elapsed + s.part.identTimeout) } ∧
        sameOtherDegrees s t d ∧
        sentOn s t (portOf d) [.peer ⟨src, s.nodeId, d, .identQuery⟩] ∧
        samePortButOut (s.port (portOf d)) (t.port (portOf d)) ∧ sameOtherPorts s t (portOf d) ∧
        t.ring = (s.report (.adjacency d .up (some src) .pending)).ring ∧
        { t with ports := s.ports, degrees := s.degrees, ring := s.ring, lost := s.lost } = s) ∧
  ∀ (s : State) (d deg : DegreeNo) (dest src : NodeId) (sender : AdjState) (full : Bool)
    (us : List Nat), s.peerWaits d ⟨dest, src, deg, .hello sender full us⟩ →
      (¬goodHello s src us ∨ (s.degree d).adj = .down ∨ (s.degree d).adj = .recovery →
        exec (.hello d) s = .next (s.popPeer d)) ∧
      (goodHello s src us → (s.degree d).adj = .up →
        ((s.degree d).nbrId ≠ some src ∨ (s.degree d).nbrDegree ≠ some deg ∨
            ((s.degree d).seenUp = true ∧ sender = .probing) →
          ∃ t, exec (.hello d) s = .next t ∧ entersRecovery s t d ∧
            (t.degree d).peerQueue = (s.degree d).peerQueue.drop 1) ∧
        ((s.degree d).nbrId = some src → (s.degree d).nbrDegree = some deg →
            ¬((s.degree d).seenUp = true ∧ sender = .probing) → ∀ ps, portsNamed us ps →
          ∃ t, exec (.hello d) s = .next t ∧
            t.degree d = { (s.popPeer d).degree d with
              nbrFull := full, nbrUnsynced := ps,
              seenUp := (s.degree d).seenUp || decide (sender = .up),
              deadTimer := some (s.elapsed + s.part.deadTime) } ∧
            sameOtherDegrees s t d ∧ { t with degrees := s.degrees } = s))

/-- IDENT-QUERY is answered on its degree to its source: ACK with four objects when the degree is UP,
NAK in any other state; the query changes nothing in the monitor (R55). Under an invalid identity no
message leaves (R38). -/
def Obligations.IdentQueryIsAnswered : Prop :=
  ∀ (s : State) (d deg : DegreeNo) (dest src : NodeId),
    s.peerWaits d ⟨dest, src, deg, .identQuery⟩ →
      let reply := fun ack objects => ∃ t, exec (.identQuery d) s = .next t ∧
        sentOn s t (portOf d) [.peer ⟨src, s.nodeId, d, .identReply ack objects⟩] ∧
        samePortButOut (s.port (portOf d)) (t.port (portOf d)) ∧ sameOtherPorts s t (portOf d) ∧
        { t with ports := s.ports } = s.popPeer d
      (s.identityValid = false → exec (.identQuery d) s = .next (s.popPeer d)) ∧
      (s.identityValid = true → (s.degree d).adj ≠ .up → reply false []) ∧
      (s.identityValid = true → ∀ n, (s.degree d).adj = .up → (s.degree d).nbrId = some n →
        reply true [⟨1, put2 s.nodeId.toNat ++ put2 0x0C5D⟩,
          ⟨2, [byteOf d.val, 1, byteOf (s.port (portOf d)).params.guard]⟩,
          ⟨3, [byteOf ((List.finRange 64).countP fun i => (s.ctx i).isSome), 64]⟩,
          ⟨4, 3 :: put2 n.toNat⟩])

/-- A query's attempt is spent: another IDENT-QUERY while attempts are left, and the verdict Unverified
with its Adjacency record when none is (R53, R52), the query attempts used as they stood (log 32). `u` is
the state after the event was taken. -/
def querySpent (u t : State) (d : DegreeNo) : Prop :=
  let x := u.degree d
  (x.queryAttempts < u.part.identAttempts →
    t.degree d = { x with queryAttempts := x.queryAttempts + 1,
                          identTimer := some (u.elapsed + u.part.identTimeout) } ∧
    (∀ n, u.servesDegree d n →
      sentOn u t (portOf d) [.peer ⟨n, u.nodeId, d, .identQuery⟩]) ∧
    samePortButOut (u.port (portOf d)) (t.port (portOf d)) ∧ sameOtherPorts u t (portOf d) ∧
    sameOtherDegrees u t d ∧ { t with ports := u.ports, degrees := u.degrees } = u) ∧
  (u.part.identAttempts ≤ x.queryAttempts →
    t.degree d = { x with verif := .unverified, identTimer := none } ∧ sameOtherDegrees u t d ∧
    t.ring = (u.report (.adjacency d x.adj x.nbrId .unverified)).ring ∧
    { t with degrees := u.degrees, ring := u.ring, lost := u.lost } = u)

/-- IDENT-REPLY taken while the query is Pending: an ACK ends it, Verified exactly when the first two
objects name the neighbour, its degree, the grid and this degree's guard, Mismatched otherwise, and
Unverified with fewer than two objects; a NAK spends an attempt. With no query Pending it is discarded
(R54). Two clauses are the model's choices: the query attempts used stay after a verdict (log 32), and
the objects are held with their whole contents, extra bytes too (log 38). -/
def Obligations.IdentReplyGivesTheVerdict : Prop :=
  ∀ (s : State) (d deg : DegreeNo) (dest src : NodeId) (ack : Bool) (objects : List IdentObject),
    s.peerWaits d ⟨dest, src, deg, .identReply ack objects⟩ →
      let x := s.degree d
      let ends := fun (v : Verif) (held : List IdentObject) => ∃ t, exec (.identReply d) s = .next t ∧
        t.degree d = { (s.popPeer d).degree d with verif := v, objects := held, identTimer := none } ∧
        sameOtherDegrees s t d ∧ t.ring = (s.report (.adjacency d x.adj x.nbrId v)).ring ∧
        { t with degrees := s.degrees, ring := s.ring, lost := s.lost } = s
      (x.verif ≠ .pending → exec (.identReply d) s = .next (s.popPeer d)) ∧
      (x.verif = .pending → ack = false →
        ∃ t, exec (.identReply d) s = .next t ∧ querySpent (s.popPeer d) t d) ∧
      (x.verif = .pending → ack = true → objects.length < 2 → ends .unverified x.objects) ∧
      ∀ (num1 num2 n1 n0 e g guard : Byte) (more1 more2 : List Byte) (more : List IdentObject),
        x.verif = .pending → ack = true →
        objects = ⟨num1, n1 :: n0 :: more1⟩ :: ⟨num2, e :: g :: guard :: more2⟩ :: more →
          (x.nbrId.map (·.toNat) = some (be2 n1 n0) → x.nbrDegree.map (·.val) = some e.toNat →
            g = 1 → (s.port (portOf d)).params.guard = guard.toNat → ends .verified objects) ∧
          (x.nbrId.map (·.toNat) ≠ some (be2 n1 n0) ∨ x.nbrDegree.map (·.val) ≠ some e.toNat ∨
            g ≠ 1 ∨ (s.port (portOf d)).params.guard ≠ guard.toNat → ends .mismatched objects)

/-- Entry of degree `d` to PROBING: the verification and the neighbour seen UP flag clear, a HELLO
leaves to all neighbours, the hello timer is armed, and an Adjacency record is written (R46, R44). -/
def entersProbing (u t : State) (d : DegreeNo) : Prop :=
  t.degree d = { u.degree d with
    adj := .probing, seenUp := false, verif := .none, recoveryTimer := none,
    helloTimer := some (u.elapsed + u.part.helloInterval) } ∧
  sameOtherDegrees u t d ∧
  (u.identityValid = true → sentOn u t (portOf d) [.peer ⟨0, u.nodeId, d,
    .hello .probing (decide (∀ i, u.ctx i ≠ none))
      (((List.finRange 12).filter fun p => !(u.port p).synced).map (·.val))⟩]) ∧
  samePortButOut (u.port (portOf d)) (t.port (portOf d)) ∧ sameOtherPorts u t (portOf d) ∧
  t.ring = (u.report (.adjacency d .probing (u.degree d).nbrId .none)).ring ∧
  { t with ports := u.ports, degrees := u.degrees, ring := u.ring, lost := u.lost } = u

/-- The timers of an adjacency monitor. The hello timer, in PROBING and UP, sends one HELLO and is
armed anew (R44); the dead timer sends an UP degree to RECOVERY (R49); the recovery timer sends a
degree in RECOVERY to PROBING (R50); the ident timer spends an attempt of a Pending query (R53). That a
row taken before its timer has run out does nothing, and that the query attempts used stay, are the
model's choices (log 3, log 32). -/
def Obligations.AdjacencyTimersActWhenTheyRunOut : Prop :=
  ∀ (s : State) (d : DegreeNo), s.inReset = false → ∀ due : Nat,
    let x := s.degree d
    ((x.helloTimer = some due → s.elapsed < due → exec (.helloTimerExpiry d) s = .next s) ∧
      (x.deadTimer = some due → s.elapsed < due → exec (.deadTimerExpiry d) s = .next s) ∧
      (x.recoveryTimer = some due → s.elapsed < due → exec (.recoveryTimerExpiry d) s = .next s) ∧
      (x.identTimer = some due → s.elapsed < due → exec (.identTimerExpiry d) s = .next s)) ∧
    (due ≤ s.elapsed →
      (x.helloTimer = some due → s.identityValid = true → ∀ dst,
        (x.adj = .probing ∧ dst = 0) ∨ (x.adj = .up ∧ x.nbrId = some dst) →
          ∃ t, exec (.helloTimerExpiry d) s = .next t ∧
            t.degree d = { x with helloTimer := some (s.elapsed + s.part.helloInterval) } ∧
            sameOtherDegrees s t d ∧
            sentOn s t (portOf d) [.peer ⟨dst, s.nodeId, d,
              .hello x.adj (decide (∀ i, s.ctx i ≠ none))
                (((List.finRange 12).filter fun p => !(s.port p).synced).map (·.val))⟩] ∧
            samePortButOut (s.port (portOf d)) (t.port (portOf d)) ∧ sameOtherPorts s t (portOf d) ∧
            { t with ports := s.ports, degrees := s.degrees } = s) ∧
      (x.deadTimer = some due → x.adj = .up →
        ∃ t, exec (.deadTimerExpiry d) s = .next t ∧ entersRecovery s t d ∧
          (t.degree d).peerQueue = x.peerQueue) ∧
      (x.recoveryTimer = some due → x.adj = .recovery →
        ∃ t, exec (.recoveryTimerExpiry d) s = .next t ∧ entersProbing s t d) ∧
      (x.identTimer = some due → x.verif = .pending →
        ∃ t, exec (.identTimerExpiry d) s = .next t ∧ querySpent s t d))

/-- The lamp of a degree holds FAST for 250 ms after its port's step phase has returned to IDLE. The end
of a step arms the hold for 250 ms from that moment, whatever ends it: a SETTLED, a SET's ACTUATED that
fails, or the expiry of either window (R180, R119). The hold's expiry ends it and changes nothing else;
before its time it leaves the state (log 3). The output follows the lamp mode, and in AUTO the first
condition that applies: FAST for a frozen port, a step or the hold; SLOW for a context on its way up or
down; steady for one lit; dark otherwise (R180). That the hold ends by an event is read from the rule by
inference (log 19). -/
def Obligations.TheLampShowsTheDegree : Prop :=
  ∀ (s : State) (d : DegreeNo), s.inReset = false →
    let x := s.degree d
    let p := s.port (portOf d)
    let on := fun st => ∃ i c, s.ctx i = some c ∧ c.usesPort (portOf d) ∧ c.state ∈ st
    let armed := fun row => ∃ t, exec row s = .next t ∧ (t.degree d).lampHold = some (s.elapsed + 250)
    (∀ i tag c a, s.asked (portOf d) i tag c .set → c.att = some a →
      (∀ dp, s.reportWaits (portOf d) (.settled i tag dp) → p.phase = .observing →
        armed (.settled (portOf d))) ∧
      (∀ done v req, s.reportWaits (portOf d) (.actuated i tag done v) → p.phase = .actuating →
        p.requested = some req → done = false ∨ 10 < v - req ∨ 10 < req - v →
          armed (.actuated (portOf d))) ∧
      ∀ due, p.expiry = some due → due ≤ s.elapsed → p.holder = some i →
        (p.phase = .actuating → armed (.actuationWindowExpiry (portOf d))) ∧
        (p.phase = .observing → armed (.observationWindowExpiry (portOf d)))) ∧
    (∀ due, x.lampHold = some due →
      (s.elapsed < due → exec (.lampFastHoldExpiry d) s = .next s) ∧
      (due ≤ s.elapsed → ∃ t, exec (.lampFastHoldExpiry d) s = .next t ∧
        t.degree d = { x with lampHold := none } ∧ sameOtherDegrees s t d ∧
        { t with degrees := s.degrees } = s)) ∧
    (x.lampMode = .off → s.lamp d = .dark) ∧ (x.lampMode = .on → s.lamp d = .steady) ∧
    (x.lampMode = .slow → s.lamp d = .slow) ∧ (x.lampMode = .fast → s.lamp d = .fast) ∧
    (x.lampMode = .auto →
      (p.frozen = true ∨ p.phase ≠ .idle ∨ x.lampHold.isSome → s.lamp d = .fast) ∧
      (p.frozen = false → p.phase = .idle → x.lampHold = none →
        (on [.offered, .awaitLight, .preparing, .ramping, .retreating, .closing] →
          s.lamp d = .slow) ∧
        (¬on [.offered, .awaitLight, .preparing, .ramping, .retreating, .closing] →
          (on [.inService, .litWait, .trimming] → s.lamp d = .steady) ∧
          (¬on [.inService, .litWait, .trimming] → s.lamp d = .dark))))

/-! ### Controller reports: matching, OPEN, CLOSE -/

/-- A request sent for context `i`, which becomes the outstanding one, under the next tag (R30, R84). -/
def requestSent (u t : State) (p : PortNo) (i : CtxIdx) (r : Request) : Prop :=
  r.idx = i ∧ r.tag = (u.record i).tag + 1 ∧ (t.record i).tag = (u.record i).tag + 1 ∧
    sentOn u t p [.request r]

/-- The rows of the reports that name context `i` with a tag, each with the report it takes, and the
request and phase that fit it (R89, check 4). -/
def namedReports (p : PortNo) (i : CtxIdx) (tag : Byte) :
    List (Instr × (Report → Prop) × (Context → Phase → Prop)) :=
  [(.actuated p, fun r => ∃ done x, r = .actuated i tag done x, fun c ph =>
      c.outstanding = some .openBand ∨ c.outstanding = some .close ∨
        (c.outstanding = some .set ∧ ph = .actuating)),
   (.power p, fun r => ∃ x, r = .power i tag x, fun c _ => c.outstanding = some .measure),
   (.settled p, fun r => ∃ x, r = .settled i tag x, fun c ph =>
      c.outstanding = some .set ∧ ph = .observing),
   (.pendingUnits p, fun r => ∃ k, r = .pending i tag k, fun c ph =>
      c.outstanding = some .set ∧ ph = .observing),
   (.continueUnit p, fun r => r = .continue_ i tag, fun c ph =>
      c.outstanding = some .set ∧ ph = .observing)]

/-- A report that names a FREE record, another port's context, another tag, or a request that is not
outstanding is stray: it leaves its queue and has no other effect (R89). -/
def Obligations.StrayReportsHaveNoEffect : Prop :=
  ∀ (s : State) (p : PortNo) (i : CtxIdx) (tag : Byte) (row : Instr) (is : Report → Prop)
    (fits : Context → Phase → Prop) (r : Report), (row, is, fits) ∈ namedReports p i tag → is r →
    s.reportWaits p r →
    (∀ c, s.ctx i = some c → c.outPort ≠ p ∨ (s.record i).tag ≠ tag ∨ ¬fits c (s.port p).phase) →
      ∃ t, exec row s = .next t ∧
        t.port p = { s.port p with reports := (s.port p).reports.drop 1 } ∧ sameOtherPorts s t p ∧
        { t with ports := s.ports } = s

/-- The part aborts context `i`, which was `c`, with a reason of its own and this node as origin: the
teardown goes along the way of its line with the notice ABORT, the ABORT leaves upstream, and where the
range was never Open the context ends at once with the ABORT downstream and a PathEnd record Aborted
(R153 to R156, R166, R34). `u` is the state after the event was taken. -/
def abortsLocally (s u t : State) (i : CtxIdx) (c : Context) (r : Reason) : Prop :=
  tornDownBy u t i c .localAbort (u.localWay c) .abort (some r) s.nodeId ∧
  (∀ e m, c.inPort = .degree e → s.servesDegree e m →
    sentFirst s t (portOf e) ⟨m, s.nodeId, e, .abort c.path r s.nodeId⟩) ∧
  (u.localWay c = .none → ∀ d n, c.outPort = portOf d → s.servesDegree d n →
    sentAmong s t c.outPort ⟨n, s.nodeId, d, .abort c.path r s.nodeId⟩) ∧
  ((s.port c.outPort).swapPending = false → onlyAround u t c.outPort i ∧
    (u.localWay c = .none → t.ring = (s.report (.pathEnd ⟨c.path, c.role, .aborted, some r,
      some s.nodeId, c.startTag, s.timeBase, c.steps, c.backoffs, c.slowest, c.flags⟩)).ring))

/-- ACTUATED for an OPEN: confirmed, DONE within 10 of 2500, it makes the Reserved range Open, sets A to
dark and sends the first MEASURE under the next tag; otherwise the context aborts with ActuateFailed
(R138, R91). -/
def Obligations.ActuatedOpenStartsTheMeasurement : Prop :=
  ∀ (s : State) (p : PortNo) (i : CtxIdx) (tag : Byte) (c : Context) (done : Bool) (x : Int),
    s.reportWaits p (.actuated i tag done x) → s.asked p i tag c .openBand → c.state = .preparing →
      (done = true → 2490 ≤ x → x ≤ 2510 → ∀ first, c.chosen = some first →
        (∀ k, first ≤ k → k < first + c.width → cellAt (s.port p).map k = some (.reserved i)) →
        ∃ t, exec (.actuated p) s = .next t ∧
          t.record i = ⟨tag + 1, some { c with
            att := some 2500, attempts := 1, outstanding := some .measure,
            timer := some (s.elapsed + s.part.measureTimeout) }⟩ ∧
          sameOtherRecords s t i ∧
          (∀ k, cellAt (t.port p).map k =
            if first ≤ k ∧ k < first + c.width then some (.opened i) else cellAt (s.port p).map k) ∧
          requestSent s t p i ⟨.measure, i, tag + 1, first, c.width, 0⟩ ∧
          { t.port p with map := (s.port p).map, out := (s.port p).out } = (s.popReport p).port p ∧
          sameOtherPorts s t p ∧ { t with records := s.records, ports := s.ports } = s) ∧
      (done = false ∨ x < 2490 ∨ 2510 < x →
        ∃ t, exec (.actuated p) s = .next t ∧
          let c1 := { c with outstanding := none, timer := none }
          abortsLocally s ((s.popReport p).onCtx i fun _ => c1) t i c1 .actuateFailed)

/-- A path ends with its cells freed once its CLOSE is confirmed (R161). A CLOSE that fails or runs out
of its window leaves the cells Blocked and the path's record marked CloseUnconfirmed, and a Port record
follows the PathEnd record (R162, R11). Either way the notice owed goes downstream (R156), the tag
advances and the record is FREE (R33). The outcome is Released after a RELEASE and Aborted after any
other first cause (R34). Two clauses are the model's: a close timeout taken before its timer has run out
does nothing (log 3), and a blocked end frees the cells that the context owns outside its range (log 29).
-/
def Obligations.CloseEndsThePath : Prop :=
  ∀ (s : State) (p : PortNo) (i : CtxIdx) (c : Context) (first : Nat) (td : Teardown),
    s.inReset = false → s.ctx i = some c → c.outPort = p → c.state = .closing →
    c.chosen = some first → c.teardown = some td →
      let ending := fun (flags : CtxFlags) =>
        if td.cause = .managementRelease ∨ td.cause = .releaseFromUpstream then
          RingRecord.pathEnd ⟨c.path, c.role, .released, none, some c.path.head, c.startTag,
            s.timeBase, c.steps, c.backoffs, c.slowest, flags⟩
        else .pathEnd ⟨c.path, c.role, .aborted, c.abortReason, c.origin, c.startTag, s.timeBase, c.steps,
          c.backoffs, c.slowest, flags⟩
      let unconfirmed := { c.flags with closeUnconfirmed := true }
      let notice := fun t => ∀ d n, p = portOf d → s.servesDegree d n →
        (td.notice = .abort → ∀ r origin, c.abortReason = some r → c.origin = some origin →
          sentFirst s t p ⟨n, s.nodeId, d, .abort c.path r origin⟩) ∧
        (td.notice = .release → sentFirst s t p ⟨n, s.nodeId, d, .release c.path⟩)
      let freed := fun (u t : State) => contextFreed s t i c ∧ notice t ∧
        ((s.port p).swapPending = false →
          onlyAround u t p i ∧ t.ring = (s.report (ending c.flags)).ring)
      let blocked := fun (u t : State) =>
        t.ctx i = none ∧ (t.record i).tag = (s.record i).tag + 1 ∧ notice t ∧
        (∀ k, cellAt (t.port p).map k = (cellAt (s.port p).map k).map fun x =>
          if (first ≤ k ∧ k < first + c.width) ∧ x = .opened i then .blocked
          else if x.owner = some i then .free else x) ∧
        ((s.port p).swapPending = false → onlyAround u t p i ∧
          t.ring = ((s.report (ending unconfirmed)).report (.port p .closeUnconfirmed)).ring)
      (∀ tag done x, s.reportWaits p (.actuated i tag done x) → (s.record i).tag = tag →
        c.outstanding = some .close →
          (done = true → 2490 ≤ x → x ≤ 2510 →
            ∃ t, exec (.actuated p) s = .next t ∧ freed (s.popReport p) t) ∧
          (done = false ∨ x < 2490 ∨ 2510 < x →
            ∃ t, exec (.actuated p) s = .next t ∧ blocked (s.popReport p) t)) ∧
      ∀ due, c.timer = some due →
        (s.elapsed < due → exec (.closeTimeout i) s = .next s) ∧
        (due ≤ s.elapsed → ∃ t, exec (.closeTimeout i) s = .next t ∧ blocked s t)

/-- The expiries that abort a path: of the wait for LIGHT (R137), of the OPEN (R138) and of the wait for
LIT (R146), each with its reason. One taken before its timer has run out does nothing (log 3). -/
def Obligations.TimeoutsAbortThePath : Prop :=
  ∀ (s : State) (i : CtxIdx) (c : Context) (due : Nat), s.inReset = false → s.ctx i = some c →
    c.timer = some due →
      (s.elapsed < due → exec (.lightTimeout i) s = .next s ∧ exec (.openTimeout i) s = .next s ∧
        exec (.litTimeout i) s = .next s ∧ exec (.measureTimeout i) s = .next s) ∧
      (due ≤ s.elapsed →
        (c.state = .awaitLight → ∃ t, exec (.lightTimeout i) s = .next t ∧
          abortsLocally s s t i c .lightTimeout) ∧
        (c.state = .litWait → ∃ t, exec (.litTimeout i) s = .next t ∧
          abortsLocally s s t i c .litTimeout) ∧
        (c.state = .preparing → c.outstanding = some .openBand →
          ∃ t, exec (.openTimeout i) s = .next t ∧
            let c1 := { c with outstanding := none, timer := none }
            abortsLocally s (s.onCtx i fun _ => c1) t i c1 .actuateTimeout))

/-! ### Controller reports: power and target -/

/-- The arithmetic of a target: the average density is the sum and half the width, divided by the width
toward negative infinity (R99); the width allowance is that of the table (R100); and P + G less the
target power is the target, 0 with ShortPower below 0, InputTooHigh over 2500, NoGain without a gain
(R101). The live count that chooses the step code is the number of distinct owners of Open cells of the
map, the asking context left out, and at most 63 (R16). -/
def Obligations.TargetArithmetic : Prop :=
  (∀ (b : Profile) (first n : Nat), 1 ≤ n → first + n ≤ 400 →
    let sum := ((List.range n).map fun k => densityAt b (first + k)).sum
    n * averageDensity b first n ≤ sum + (n / 2 : Nat) ∧
      sum + (n / 2 : Nat) < n * (averageDensity b first n + 1)) ∧
  (∀ (b : Profile) (first n : Nat),
    (n, channelTarget b first n - averageDensity b first n) ∈ ([(1, 0), (2, 301), (3, 477), (4, 602),
      (5, 699), (6, 778), (7, 845), (8, 903), (9, 954), (10, 1000), (11, 1041), (12, 1079),
      (13, 1114), (14, 1146), (15, 1176), (16, 1204)] : List (Nat × Int)) ↔ 1 ≤ n ∧ n ≤ 16) ∧
  (∀ (m : PortMap) (i : CtxIdx) (owners : List CtxIdx), owners.Nodup →
    (∀ j, j ∈ owners ↔ j ≠ i ∧ ∃ k, cellAt m k = some (.opened j)) →
      liveCount m i = owners.length ∧ owners.length ≤ 63) ∧
  ∀ (power : Int) (g : Nat) (y : Int), targetOf power none y = .noGain ∧
    (power + g - y < 0 → targetOf power (some g) y = .reached 0 true) ∧
    (∀ k : Nat, k ≤ 2500 → power + g - y = k → targetOf power (some g) y = .reached k false) ∧
    (2500 < power + g - y → targetOf power (some g) y = .inputTooHigh)

/-- The base step on a port: 25 for each unit of the sparse or the dense code, by the live count; code 0
is a single step on a port with no other open channel and 25 on any other (R104). -/
def baseFor (q : PortParams) (live : Nat) : Nat :=
  let code := if live ≤ q.sparseThreshold then q.sparseCode else q.denseCode
  if code ≠ 0 then 25 * code else if live = 0 then 2500 else 25

/-- The trim of context `i`, which was `c`, halts at `a`: TrimHalted is set and the kind goes, and with
no swap pending it is IN_SERVICE, or TRIMMING again if it is TrimDue, with a Trim record Halted (R150,
R147) that carries the flags (R26, log 36). -/
def trimHalts (s t : State) (p : PortNo) (i : CtxIdx) (c : Context) (a : Nat) : Prop :=
  ∃ c', t.ctx i = some c' ∧ c'.att = some a ∧ c'.flags.trimHalted = true ∧ c'.kind = none ∧
    c'.teardown = c.teardown ∧
    ((s.port p).swapPending = false →
      c'.state = (if c.flags.trimDue then .trimming else .inService) ∧
      ((s.port p).params.haltOnDisturbance = false →
        t.ring = (s.report (.trim c.path false a { c.flags with trimHalted := true })).ring))

/-- POWER valid in PREPARING: P takes the corrected value and nothing is outstanding. With a swap
pending the context waits; otherwise its target is computed, and it becomes RAMPING with B, S and
the clean count set and joins its class queue, where the arbiter considers a grant; without a gain,
or with the target over 2500, it aborts and its CLOSE is sent at once (R92, R139 to R141, R102 to
R104). POWER valid in TRIMMING: within the trim band the context returns to IN_SERVICE with its new
target, B and S and no record; otherwise its kind is TRIM and it joins its class queue; without a
gain or with the target over 2500 the trim halts (R148, R149, R107). -/
def Obligations.PowerSetsTheTarget : Prop :=
  (∀ (s : State) (p : PortNo) (i : CtxIdx) (tag : Byte) (c : Context) (x : Int) (first : Nat),
    s.reportWaits p (.power i tag x) → s.asked p i tag c .measure → c.state = .preparing →
    c.teardown = none → c.att = some 2500 → c.chosen = some first → -3000 ≤ x →
      let c1 := { c with power := some (min x 1000), outstanding := none, timer := none }
      let u := (s.popReport p).onCtx i fun _ => c1
      let target := targetOf (min x 1000) (s.port p).gain
        (channelTarget (s.port p).profile first c.width)
      let aborted := fun r => ∃ t c', exec (.power p) s = .next t ∧ t.ctx i = some c' ∧
        c'.state = .closing ∧ c'.outstanding = some .close ∧ c'.abortReason = some r ∧
        c'.origin = some s.nodeId ∧
        c'.teardown = some ⟨.localAbort, if (s.port p).lineIsUp then .retreat else .darkJump, .abort⟩ ∧
        onlyAround u t p i
      ((s.port p).swapPending = true → exec (.power p) s = .next u) ∧
      ((s.port p).swapPending = false →
        (target = .noGain → aborted .noGain) ∧ (target = .inputTooHigh → aborted .inputTooHigh) ∧
        (∀ g short, target = .reached g short → g < 2500 →
          let b := baseFor (s.port p).params (liveCount (s.port p).map i)
          let v := (u.onCtx i fun _ => { c1 with
            target := some g, flags := { c.flags with shortPower := short }, base := some b,
            stepSize := some b, clean := 0, state := .ramping, kind := some .ramp }).onPort p fun ps =>
              if c.cls = .restore then { ps with restoreQ := ps.restoreQ ++ [i] }
              else { ps with normalQ := ps.normalQ ++ [i] }
          ∃ t, exec (.power p) s = .next t ∧ afterGrant v t p) ∧
        (∀ short, target = .reached 2500 short → ∃ t c', exec (.power p) s = .next t ∧
          t.ctx i = some c' ∧ c'.target = some 2500 ∧ c'.kind = none ∧
          (c.role ≠ .tail → c'.state = .litWait ∧
            c'.timer = some (s.elapsed + s.part.litHop * c.remaining.getD 0) ∧
            ∀ d n, p = portOf d → s.servesDegree d n →
              sentOn s t p [.peer ⟨n, s.nodeId, d, .light c.path⟩]) ∧
          (c.role = .tail → c'.serviceTag = some s.timeBase ∧
            t.ring = (s.report (.inService c.path .tail s.timeBase 2500
              { c.flags with shortPower := short })).ring)))) ∧
  ∀ (s : State) (p : PortNo) (i : CtxIdx) (tag : Byte) (c : Context) (x : Int) (first a : Nat),
    s.reportWaits p (.power i tag x) → s.asked p i tag c .measure → c.state = .trimming →
    c.teardown = none → c.att = some a → c.chosen = some first → -3000 ≤ x →
      let c1 := { c with power := some (min x 1000), outstanding := none, timer := none }
      let u := (s.popReport p).onCtx i fun _ => c1
      let target := targetOf (min x 1000) (s.port p).gain
        (channelTarget (s.port p).profile first c.width)
      let b := baseFor (s.port p).params (liveCount (s.port p).map i)
      (target = .noGain ∨ target = .inputTooHigh →
        ∃ t, exec (.power p) s = .next t ∧ trimHalts s t p i c a) ∧
      ∀ g short, target = .reached g short →
        let c2 := { c1 with
          target := some g, flags := { c.flags with shortPower := short }, base := some b,
          stepSize := some b, clean := 0 }
        (a < g + 5 → g < a + 5 → (s.port p).swapPending = false → c.flags.trimDue = false →
          exec (.power p) s = .next (u.onCtx i fun _ => { c2 with state := .inService })) ∧
        (g + 5 ≤ a ∨ a + 5 ≤ g → ∃ t, exec (.power p) s = .next t ∧
          afterGrant ((u.onCtx i fun _ => { c2 with kind := some .trim }).onPort p fun ps =>
            if c.cls = .restore then { ps with restoreQ := ps.restoreQ ++ [i] }
            else { ps with normalQ := ps.normalQ ++ [i] }) t p)

/-- An attempt of a measurement ends. Under a decided teardown the recorded way is carried out, whether
by a low POWER, by a run-out timer, or by a valid POWER, which first sets P (R159, R92). With no teardown
decided and without a valid P, another MEASURE is sent while attempts are left; with none left a PREPARING
context aborts with NoInputPower and its CLOSE is sent, and a trim halts (R93). -/
def Obligations.MeasurementAttemptsAreSpent : Prop :=
  ∀ (s : State) (p : PortNo) (i : CtxIdx) (tag : Byte) (c : Context) (first a : Nat),
    s.inReset = false → s.asked p i tag c .measure → c.chosen = some first → c.att = some a →
      let c1 := { c with outstanding := none, timer := none }
      let spent := fun (row : Instr) (u : State) =>
        (∀ td, c.teardown = some td → ∃ t c', exec row s = .next t ∧ t.ctx i = some c' ∧
          c'.teardown = some td ∧ (td.way = .retreat → retreats u t i c1 c') ∧
          (td.way = .darkJump → jumpsDark c1 c')) ∧
        (c.teardown = none → c.attempts < s.part.measureAttempts →
          ∃ t, exec row s = .next t ∧
            t.record i = ⟨tag + 1, some { c with
              attempts := c.attempts + 1, timer := some (s.elapsed + s.part.measureTimeout) }⟩ ∧
            sameOtherRecords s t i ∧
            requestSent s t p i ⟨.measure, i, tag + 1, first, c.width, 0⟩ ∧
            samePortButOut (u.port p) (t.port p) ∧ sameOtherPorts s t p ∧
            { t with records := s.records, ports := s.ports } = s) ∧
        (c.teardown = none → s.part.measureAttempts ≤ c.attempts →
          (c.state = .preparing → ∃ t c', exec row s = .next t ∧ t.ctx i = some c' ∧
            c'.state = .closing ∧ c'.outstanding = some .close ∧
            c'.abortReason = some .noInputPower ∧ c'.origin = some s.nodeId ∧
            c'.teardown = some ⟨.localAbort, if (s.port p).lineIsUp then .retreat else .darkJump,
              .abort⟩ ∧
            onlyAround u t p i) ∧
          (c.state = .trimming → ∃ t, exec row s = .next t ∧ trimHalts s t p i c a))
      (∀ x, s.reportWaits p (.power i tag x) → x < -3000 → spent (.power p) (s.popReport p)) ∧
      (∀ x td, s.reportWaits p (.power i tag x) → -3000 ≤ x → c.teardown = some td →
        let c2 := { c1 with power := some (min x 1000) }
        ∃ t c', exec (.power p) s = .next t ∧ t.ctx i = some c' ∧ c'.teardown = some td ∧
          c'.power = some (min x 1000) ∧
          (td.way = .retreat → retreats (s.popReport p) t i c2 c') ∧
          (td.way = .darkJump → jumpsDark c2 c')) ∧
      ∀ due, c.timer = some due → due ≤ s.elapsed → spent (.measureTimeout i) s

/-! ### Controller reports: a step -/

/-- The ramp of context `i`, which was `c` and holds the slot, ends in an abort at the end of its step,
at attenuation `a`: its teardown is recorded, the ABORT leaves upstream, and it closes at once at dark or
on a line that is down, and retreats otherwise (R122, R155, R157). -/
def rampAborts (s t : State) (p : PortNo) (i : CtxIdx) (c : Context) (a : Nat) (r : Reason) : Prop :=
  (∃ c', t.ctx i = some c' ∧ c'.att = some a ∧ c'.abortReason = some r ∧ c'.origin = some s.nodeId ∧
    c'.teardown = some ⟨.localAbort, if (s.port p).lineIsUp then .retreat else .darkJump, .abort⟩ ∧
    ((s.port p).lineIsUp = false ∨ a = 2500 → c'.state = .closing ∧ c'.kind = none) ∧
    ((s.port p).lineIsUp = true → a ≠ 2500 → c'.state = .retreating ∧ c'.kind = some .retreat ∧
      (i ∈ (t.port p).retreatQ ∨ (t.port p).holder = some i))) ∧
  ∀ e m, c.inPort = .degree e → s.servesDegree e m →
    sentFirst s t (portOf e) ⟨m, s.nodeId, e, .abort c.path r s.nodeId⟩

/-- The retreat that waited for the end of the step begins at attenuation `a`: the mark is cleared, what
the teardown recorded stands, and at dark the CLOSE is sent at once (R122). -/
def markedRetreatBegins (t : State) (p : PortNo) (i : CtxIdx) (c : Context) (a : Nat) : Prop :=
  (t.port p).retreatDue = false ∧ ∃ c', t.ctx i = some c' ∧ c'.att = some a ∧
    c'.teardown = c.teardown ∧ c'.abortReason = c.abortReason ∧ c'.origin = c.origin ∧
    c'.flags.trimHalted = c.flags.trimHalted ∧
    (a = 2500 → c'.state = .closing) ∧ (a ≠ 2500 → c'.state = .retreating ∧ c'.kind = some .retreat)

/-- A step of context `i` has failed with attenuation `a` and a reason: a ramp aborts with it, a trim
halts at `a`, and under the retreat-due mark the retreat begins. -/
def stepFails (s t : State) (p : PortNo) (i : CtxIdx) (c : Context) (a : Nat) (r : Reason) : Prop :=
  (c.state = .ramping → c.kind = some .ramp → (s.port p).retreatDue = false →
    rampAborts s t p i c a r) ∧
  (c.state = .trimming → c.kind = some .trim → (s.port p).retreatDue = false →
    trimHalts s t p i c a) ∧
  (c.kind = some .ramp ∨ c.kind = some .trim → (s.port p).retreatDue = true → c.teardown.isSome →
    markedRetreatBegins t p i c a)

/-- A RETREAT-kind SET that fails or times out is closed outright, with CloseForced set (R126, R127). -/
def closesForced (t : State) (i : CtxIdx) (c : Context) (a : Nat) : Prop :=
  ∃ c', t.ctx i = some c' ∧ c'.att = some a ∧ c'.state = .closing ∧ c'.flags.closeForced = true ∧
    c'.kind = none ∧ c'.outstanding = some .close ∧ c'.teardown = c.teardown

/-- The step size, the clean count and the backoff count after a result that is not a disturbance of a
ramp or a trim (R110, R111): `backoff` says which of the two it is. -/
def settledValues (c c' : Context) (backoff : Bool) : Prop :=
  ∀ size b, c.stepSize = some size → c.base = some b →
    if backoff then c'.stepSize = some (max (size / 2) 5) ∧ c'.clean = 0 ∧
      c'.backoffs = min (c.backoffs + 1) 65535
    else c'.backoffs = c.backoffs ∧
      if 1 ≤ c.clean ∧ size < b then c'.stepSize = some (min (2 * size) b) ∧ c'.clean = 0
      else c'.stepSize = some size ∧ c'.clean = min (c.clean + 1) 2

/-- The steps that fail. A failed ACTUATED for a SET leaves A as it was (R126); the actuation window's
expiry takes the requested value as applied (R127); the observation window's expiry keeps the new A, and
is a clean result for a retreat, evaluated in full with its restore (R128, R110). That an expiry taken before its window has run out does nothing
is the model's choice (log 3), and that TrimHalted keeps its value under the retreat-due mark is its
reading of R122 (log 18). -/
def Obligations.StepsThatFail : Prop :=
  ∀ (s : State) (p : PortNo) (i : CtxIdx) (tag : Byte) (c : Context) (a : Nat), s.inReset = false →
    s.asked p i tag c .set → c.att = some a → c.chosen.isSome →
      (∀ done x req, s.reportWaits p (.actuated i tag done x) → (s.port p).phase = .actuating →
        (s.port p).requested = some req → done = false ∨ 10 < x - req ∨ 10 < req - x →
          ∃ t, exec (.actuated p) s = .next t ∧ stepFails s t p i c a .actuateFailed ∧
            (c.kind = some .retreat → closesForced t i c a)) ∧
      (∀ due, (s.port p).expiry = some due → s.elapsed < due →
        exec (.actuationWindowExpiry p) s = .next s ∧
          exec (.observationWindowExpiry p) s = .next s) ∧
      (∀ due req, (s.port p).expiry = some due → due ≤ s.elapsed → (s.port p).holder = some i →
        (s.port p).phase = .actuating → (s.port p).requested = some req →
          ∃ t, exec (.actuationWindowExpiry p) s = .next t ∧
            stepFails s t p i c req .actuateTimeout ∧
            (c.kind = some .retreat → closesForced t i c req)) ∧
      ∀ due, (s.port p).expiry = some due → due ≤ s.elapsed → (s.port p).holder = some i →
        (s.port p).phase = .observing →
          ∃ t, exec (.observationWindowExpiry p) s = .next t ∧
            stepFails s t p i c a .settleTimeout ∧
            (c.state = .retreating → c.kind = some .retreat → (s.port p).retreatDue = false →
              ∃ c', t.ctx i = some c' ∧ c'.att = some a ∧ c'.backoffs = c.backoffs ∧
                (a = 2500 → c'.state = .closing) ∧
                (a ≠ 2500 → c'.state = .retreating ∧ c'.kind = some .retreat ∧
                  settledValues c c' false))

/-- What a step judged a disturbance in a ramp or a trim does to its port, where `u` is the state whose
ring holds the records of the step itself: with halt on disturbance the port is frozen, and a Port record
Frozen follows them unless it was frozen already; without it nothing is written (R132, R176). A swap that
the end of the step allows writes its own record. -/
def freezesPort (s u t : State) (p : PortNo) : Prop :=
  let halts := (s.port p).params.haltOnDisturbance
  (t.port p).frozen = (halts || (s.port p).frozen) ∧
  ((s.port p).swapPending = false →
    t.ring = if halts && !(s.port p).frozen then (u.report (.port p .frozen)).ring else u.ring)

/-- A SETTLED of the step in flight, with the change `dp` judged against G_ok and G_abort, a G_ok above
G_abort taken as equal to it (R109): up to G_ok clean, up to G_abort a backoff, above it a disturbance.
The settle time raises the slowest settle of the context and of the port (R125). Stepping that goes on
keeps its state, with S and the counts as R110 and R111 give. A ramp disturbed aborts, a trim disturbed
halts, and the port freezes where it is asked to, with its Port record Frozen after the Trim record of the
step; a retreat disturbed is backed off (R112, R132). Under
the retreat-due mark the retreat begins instead (R122). That a settle time over 65535 is kept as 65535
is the model's reading (log 20), and so is that TrimHalted keeps its value under the mark (log 18). -/
def Obligations.SettledJudgesTheStep : Prop :=
  ∀ (s : State) (p : PortNo) (i : CtxIdx) (tag : Byte) (c : Context) (a dp mark : Nat),
    s.reportWaits p (.settled i tag dp) → s.asked p i tag c .set → (s.port p).phase = .observing →
    (s.port p).holder = some i → (s.port p).confirmMark = some mark → c.att = some a →
      let q := (s.port p).params
      let time := min (s.elapsed - mark) 65535
      let backoff := decide (min q.gOk q.gAbort < dp)
      ∃ t, exec (.settled p) s = .next t ∧ (t.port p).slowest = max (s.port p).slowest time ∧
        (∀ c', t.ctx i = some c' → c'.slowest = max c.slowest time ∧ c'.att = some a) ∧
        ((s.port p).retreatDue = true → c.kind = some .ramp ∨ c.kind = some .trim →
          c.teardown.isSome → markedRetreatBegins t p i c a ∧
            (q.gAbort < dp → freezesPort s s t p)) ∧
        ((s.port p).retreatDue = false →
          (dp ≤ q.gAbort → (c.state = .ramping ∧ c.kind = some .ramp) ∨
              (c.state = .trimming ∧ c.kind = some .trim) → c.target ≠ some a →
            ∃ c', t.ctx i = some c' ∧ c'.state = c.state ∧ c'.kind = c.kind ∧
              settledValues c c' backoff) ∧
          (c.state = .retreating → c.kind = some .retreat → a ≠ 2500 →
            ∃ c', t.ctx i = some c' ∧ c'.state = .retreating ∧ c'.kind = some .retreat ∧
              settledValues c c' backoff) ∧
          (q.gAbort < dp → c.state = .ramping → c.kind = some .ramp →
            rampAborts s t p i c a .disturbanceAbort ∧ freezesPort s s t p) ∧
          (q.gAbort < dp → c.state = .trimming → c.kind = some .trim →
            trimHalts s t p i c a ∧ freezesPort s
              (s.report (.trim c.path false a { c.flags with trimHalted := true })) t p))

/-- A step judged clean or backoff that has reached its end hands the context on: a ramp to LIT_WAIT
with LIGHT downstream at a head or transit, to IN_SERVICE with LIT upstream at a tail (R121, R142); a
trim to IN_SERVICE with TrimHalted clear and a Trim record Done (R150) that carries the flags (R26,
log 36); a retreat to CLOSING with its CLOSE (R160). -/
def Obligations.SteppingThatReachesItsEnd : Prop :=
  ∀ (s : State) (p : PortNo) (i : CtxIdx) (tag : Byte) (c : Context) (a dp : Nat),
    s.reportWaits p (.settled i tag dp) → s.asked p i tag c .set → (s.port p).phase = .observing →
    (s.port p).holder = some i → c.att = some a → (s.port p).retreatDue = false →
    (s.port p).swapPending = false → c.flags.trimDue = false → c.chosen.isSome →
      ∃ t, exec (.settled p) s = .next t ∧
        (dp ≤ (s.port p).params.gAbort → c.state = .ramping → c.kind = some .ramp →
          c.target = some a → ∃ c', t.ctx i = some c' ∧ c'.kind = none ∧ c'.att = some a ∧
            (c.role ≠ .tail → c'.state = .litWait ∧
              c'.timer = some (s.elapsed + s.part.litHop * c.remaining.getD 0) ∧ t.ring = s.ring ∧
              ∀ d n, p = portOf d → s.servesDegree d n →
                sentFirst s t p ⟨n, s.nodeId, d, .light c.path⟩) ∧
            (c.role = .tail → c'.state = .inService ∧ c'.serviceTag = some s.timeBase ∧
              t.ring = (s.report (.inService c.path .tail s.timeBase a c.flags)).ring ∧
              ∀ e m, c.inPort = .degree e → s.servesDegree e m →
                sentFirst s t (portOf e) ⟨m, s.nodeId, e, .lit c.path⟩)) ∧
        (dp ≤ (s.port p).params.gAbort → c.state = .trimming → c.kind = some .trim →
          c.target = some a → ∃ c', t.ctx i = some c' ∧ c'.state = .inService ∧ c'.kind = none ∧
            c'.flags.trimHalted = false ∧
            t.ring = (s.report (.trim c.path true a { c.flags with trimHalted := false })).ring) ∧
        (c.state = .retreating → c.kind = some .retreat → a = 2500 →
          ∃ c', t.ctx i = some c' ∧ c'.state = .closing ∧ c'.outstanding = some .close ∧
            c'.kind = none ∧ t.ring = s.ring) ∧
        ∀ c', t.ctx i = some c' → c'.att = some a

/-- A_next from attenuation `a` by the kind of ramp, the target `g` and the step size (R107). -/
def nextOf (kind : Option RampKind) (a g size : Nat) : Nat :=
  if kind = some .retreat then min (a + size) 2500
  else if kind = some .trim ∧ a < g then min (a + size) g else max (a - size) g

/-- The tests at the end of a step that has not reached its end and does not end the stepping, for a
holder of each kind: a higher queue that may be served takes the slot, and the holder goes to the head
of its own; a burst that is spent, with the holder's own queue not empty, sends it to the tail, and the
next of that queue takes the slot; otherwise the holder takes its next step in the same tenure. No queue
ranks above that of a retreat, whose holder a freeze does not stop (R119, R120, R107). -/
def Obligations.TheHolderYieldsOrStepsOn : Prop :=
  ∀ (s : State) (p : PortNo) (i : CtxIdx) (tag : Byte) (c : Context) (a dp : Nat) (limit : Option Nat),
    s.reportWaits p (.settled i tag dp) → s.asked p i tag c .set → (s.port p).phase = .observing →
    (s.port p).holder = some i → c.att = some a → (s.port p).retreatDue = false →
    (s.port p).swapPending = false →
    (c.state = .retreating ∧ c.kind = some .retreat ∧ a ≠ 2500) ∨
      (((c.state = .ramping ∧ c.kind = some .ramp) ∨ (c.state = .trimming ∧ c.kind = some .trim)) ∧
        dp ≤ (s.port p).params.gAbort ∧ c.target ≠ some a) →
    c.chosen.isSome →
    limit = (if (s.port p).params.burstCode = 0 then none
      else some (min (2 ^ ((s.port p).params.burstCode - 1)) 16)) →
      let q := s.port p
      let retreat := decide (c.kind = some .retreat)
      let ownOf := fun x : PortState =>
        if retreat then x.retreatQ else if c.cls = .restore then x.restoreQ else x.normalQ
      let above := if retreat then [] else
        q.retreatQ ++ if c.cls = .normal ∧ q.frozen = false then q.restoreQ else []
      let spent := (∃ n, limit = some n ∧ n ≤ q.tenure) ∧ ownOf q ≠ []
      ∃ t, exec (.settled p) s = .next t ∧
        (above ≠ [] → (t.port p).holder = above.head? ∧ (ownOf (t.port p)).head? = some i) ∧
        (above = [] → spent → (ownOf (t.port p)).getLast? = some i ∧
          (retreat = true ∨ q.frozen = false → (t.port p).holder = (ownOf q).head?)) ∧
        (above = [] → ¬spent → ∀ g size b, retreat = true ∨ c.target = some g →
          c.stepSize = some size → c.base = some b → ∃ c' size', t.ctx i = some c' ∧
            c'.stepSize = some size' ∧ (t.port p).holder = some i ∧ (t.port p).phase = .actuating ∧
            (t.port p).requested = some (nextOf c.kind a g size') ∧
            (t.port p).tenure = min (q.tenure + 1) 65535 ∧ c'.outstanding = some .set ∧
            c'.steps = min (c.steps + 1) 65535)

/-- ACTUATED for a SET in ACTUATING, DONE within 10 of the requested attenuation: A takes the
requested value, the confirm mark stands at this moment, and the phase is OBSERVING for the latched
observation window (R123, R91). PENDING asks for k units of more observation, CONTINUE for one: as
many are granted as the latched cap leaves, the expiry moves later by so many latched units, and the
units used rise by as many; the step stays as it is (R124). -/
def Obligations.ActuatedSetIsObservedAndExtended : Prop :=
  (∀ (s : State) (p : PortNo) (i : CtxIdx) (tag : Byte) (c : Context) (x : Int) (a : Nat)
    (set : StepSettings), s.reportWaits p (.actuated i tag true x) → s.asked p i tag c .set →
    (s.port p).phase = .actuating → (s.port p).requested = some a → (s.port p).settings = some set →
    x - a ≤ 10 → a - x ≤ 10 →
      ∃ t, exec (.actuated p) s = .next t ∧
        t.record i = ⟨tag, some { c with att := some a }⟩ ∧ sameOtherRecords s t i ∧
        t.port p = { (s.popReport p).port p with
          confirmMark := some s.elapsed, phase := .observing,
          expiry := some (s.elapsed + set.observation) } ∧
        sameOtherPorts s t p ∧ { t with records := s.records, ports := s.ports } = s) ∧
  ∀ (s : State) (p : PortNo) (i : CtxIdx) (tag : Byte) (c : Context) (k due : Nat)
    (set : StepSettings) (row : Instr) (r : Report),
    (row = .pendingUnits p ∧ r = .pending i tag k) ∨
      (row = .continueUnit p ∧ r = .continue_ i tag ∧ k = 1) →
    s.reportWaits p r → s.asked p i tag c .set → (s.port p).phase = .observing →
    (s.port p).settings = some set → (s.port p).expiry = some due →
      let granted := min k (set.extensionCap - (s.port p).unitsUsed)
      ∃ t, exec row s = .next t ∧
        t.port p = { (s.popReport p).port p with
          expiry := some (due + granted * set.extensionUnit),
          unitsUsed := (s.port p).unitsUsed + granted } ∧
        sameOtherPorts s t p ∧ { t with ports := s.ports } = s

/-! ### Controller reports: the port -/

/-- GAIN replaces the port's gain by the value given at the nearer bound of 0 to 3500 and changes
nothing else (R95). LINE UP makes the line state up. A degree that is DOWN under a valid identity
enters PROBING; on any other the report does nothing more (R96, R46). -/
def Obligations.GainAndLineUpAreTaken : Prop :=
  (∀ (s : State) (p : PortNo) (x : Int), s.reportWaits p (.gain x) →
    ∃ t, exec (.gain p) s = .next t ∧
      t.port p = { (s.popReport p).port p with
        gain := some (if x < 0 then 0 else if 3500 < x then 3500 else x.toNat) } ∧
      sameOtherPorts s t p ∧ { t with ports := s.ports } = s) ∧
  ∀ (s : State) (p : PortNo), s.reportWaits p .lineUp →
    let u := (s.popReport p).onPort p fun ps => { ps with lineIsUp := true }
    ((∀ d, p = portOf d → (s.degree d).adj ≠ .down ∨ s.identityValid = false) →
      exec (.lineUp p) s = .next u) ∧
    ∀ d, p = portOf d → (s.degree d).adj = .down → s.identityValid = true →
      ∃ t, exec (.lineUp p) s = .next t ∧ entersProbing u t d

/-- LINE DOWN on a line that is down changes nothing. On a line that is up it makes the line state down
and the degree's adjacency DOWN, with one Adjacency record if it was not, and every context on the port
goes dark: each with this port as out-port by out-port line down, with no retreat left to it, and each
with it as in-port by in-port line down (R96, R97, R51, R167). With no swap pending, each takes its cause
with reason LineDown and this node as origin: with the port downstream, with no notice and a DECLINE or
ABORT upstream; with it upstream, with the notice ABORT, sent down at once where the range was not Open;
a retreat already decided becomes a dark jump (R167, R170); and every context elsewhere stays as it is but
for the steps a grant starts. -/
def Obligations.LineDownTakesThePortDark : Prop :=
  ∀ (s : State) (p : PortNo), s.reportWaits p .lineDown →
    ((s.port p).lineIsUp = false → exec (.lineDown p) s = .next (s.popReport p)) ∧
    ((s.port p).lineIsUp = true → ∃ t, exec (.lineDown p) s = .next t ∧
      (t.port p).lineIsUp = false ∧ (t.port p).reports = (s.port p).reports.drop 1 ∧
      (∀ d, p = portOf d → (t.degree d).adj = .down ∧ (t.degree d).nbrId = (s.degree d).nbrId ∧
        (t.degree d).objects = (s.degree d).objects ∧
        ((s.degree d).adj ≠ .down → (t.degree d).verif = .none ∧ (t.degree d).helloTimer = none ∧
          (t.degree d).deadTimer = none ∧ (t.degree d).recoveryTimer = none ∧
          (t.degree d).identTimer = none)) ∧
      (∀ d, p ≠ portOf d → { t.degree d with lampHold := (s.degree d).lampHold } = s.degree d) ∧
      allGoDark s t (fun c => c.usesPort p) ∧
      (∀ i c, s.ctx i = some c → c.outPort = p → c.tornDown = false → c.rangeOpen = true →
        (s.port p).swapPending = false → ∃ c', t.ctx i = some c' ∧ c'.teardown = some ⟨.outPortLineDown, .darkJump, .none⟩ ∧
          c'.abortReason = some .lineDown ∧ c'.origin = some s.nodeId) ∧
      (∀ i c d, s.ctx i = some c → c.inPort = .degree d → p = portOf d → c.outPort ≠ p →
        c.tornDown = false → c.rangeOpen = true → c.outstanding ≠ some .measure →
        (∀ q, (s.port q).swapPending = false) →
          ∃ c', t.ctx i = some c' ∧ c'.teardown = some ⟨.inPortLineDown, .darkJump, .abort⟩ ∧
            c'.state = .closing) ∧
      ((∀ q, (s.port q).swapPending = false) → ∀ i c, s.ctx i = some c →
        (c.outPort = p → c.tornDown = false →
          takesCause t i .outPortLineDown c.lostWay .none .lineDown s.nodeId ∧
          ∀ e m, portOf e ≠ p → c.inPort = .degree e → s.servesDegree e m → sentAmong s t (portOf e)
            ⟨m, s.nodeId, e, c.upMessage .lineDown s.nodeId⟩) ∧
        (∀ d, c.outPort ≠ p → c.inPort = .degree d → portOf d = p → c.tornDown = false →
          takesCause t i .inPortLineDown c.lostWay .abort .lineDown s.nodeId ∧
          (c.lostWay = .none → ∀ e m, c.outPort = portOf e → s.servesDegree e m →
            sentAmong s t (portOf e) ⟨m, s.nodeId, e, .abort c.path .lineDown s.nodeId⟩)) ∧
        (c.usesPort p → ∀ td, c.teardown = some td → td.way = .retreat → c.state ≠ .closing →
          ∃ c', t.ctx i = some c' ∧ c'.teardown = some { td with way := .darkJump } ∧
            c'.abortReason = c.abortReason ∧ c'.origin = c.origin ∧
            (c.outstanding ≠ some .measure → c'.state = .closing)) ∧
        (¬c.usesPort p → (t.ctx i).map Context.stepless = some c.stepless)) ∧
      ((∀ i c, s.ctx i = some c → ¬c.usesPort p) → t.ring =
        match degreeOf p with
        | some d => if (s.degree d).adj = .down then s.ring
            else (s.report (.adjacency d .down (s.degree d).nbrId .none)).ring
        | none => s.ring))

/-! ### What every command keeps -/

/-- The numbered fields of every context, port, degree and parameter stay in the ranges the manual gives
them, over every step of any command: what a path is, its spectrum, its power and progress with S
between 5 and B, its attempts; the banks, the gain, the requested attenuation, the latched settings and
the units used; the neighbour record; the parameters (R17, R22 to R25, R43, R82, R93, R104, R110, R111,
R113, R114, R134, R174). The costs are bounded by what the model keeps of them, 34 in a candidate and 255
in a total cost, where R23 says 32 (log 8, log 33). -/
def Obligations.RangesArePreserved : Prop :=
  ∀ s t : State, s.inRange → step s = .next t → t.inRange

/-- The laws of the map and of the context table: an UNSYNCED port has no Held cells, every owned cell
names a context that is not FREE on its out-port, and no path is in two records. Every step keeps them
(R14, R2, R29). From a state that meets the ranges and the laws of the step machine as well, every step
also keeps what each context owns on its out-port: Held cells only in OFFERED, which are the cells of its
candidates (R63, R69), and later exactly its chosen range, Reserved until its OPEN is confirmed and Open
from then on (R2). -/
def Obligations.MapAndTableLawsArePreserved : Prop :=
  (∀ s t : State, s.Law → step s = .next t → t.Law) ∧
  ∀ s t : State, s.inRange → s.stepLaw → s.Law → s.cellsFit → step s = .next t → t.cellsFit

/-- No queue ever holds more than its rule allows, whatever is taken (R40, R83, R172, R176). Under
an invalid node identity no adjacency leaves DOWN, over every step (R38, R46, R181). -/
def Obligations.QueuesStayBoundedAndDegreesDown : Prop :=
  (∀ s t : State, s.queuesBounded → step s = .next t → t.queuesBounded) ∧
  ∀ s t : State, s.downWhileInvalid → step s = .next t → t.downWhileInvalid

/-- The laws of the step machine, over every step from a state whose fields are in range: every context
has the fields and the outstanding request of its state (R27), in RAMPING with A not below T (R108);
among the queues and the slot of a port a context stands at most once, so that no queue holds more than
64, and it stands in the queue of its kind and class (R115); a SET is outstanding only for the holder of
the slot, for its A_next, so that a port has at most one step in flight (R118, R107); the step timer's
items fit its phase (R114, R119). The attenuation of a context that stays RETREATING never falls (R108).
And no step leaves a port whose swap is pending quiet, where none was before it: whatever event ends the
last step or takes the last context out of RAMPING and TRIMMING makes the swap (R19, R20). -/
def Obligations.StepMachineLawsArePreserved : Prop :=
  ∀ s t : State, s.inRange → s.stepLaw → step s = .next t →
    t.stepLaw ∧ (∀ i c c' a a', s.ctx i = some c → t.ctx i = some c' → c.state = .retreating →
      c'.state = .retreating → c.att = some a → c'.att = some a' → a ≤ a') ∧
    (s.noQuietSwap → t.noQuietSwap)

/-- Every state right after a reset meets the seven invariants: the ranges, the bounds of the queues, the
laws of the map and the table, the adjacencies of an invalid identity, the laws of the step machine, what
each context owns on its map, and no quiet port with a swap pending. -/
def Obligations.ResetMeetsTheInvariants : Prop :=
  ∀ straps : BitVec 13, let s := State.resetWith straps
    s.inRange ∧ s.queuesBounded ∧ s.Law ∧ s.downWhileInvalid ∧ s.stepLaw ∧ s.cellsFit ∧
      s.noQuietSwap

/-- What only its own commands change, over every step but a reset: the straps; the sync state, which
only SYNC sets; a Blocked cell, which only UNBLOCK frees; the freeze, which only THAW clears; the gain,
which only GAIN writes; the parameters, which only SETPARAM writes; the bank in use, which no PROFILE
writes; the swap-pending flag, which only SWAP sets, and the active selector, which flips with a swap
alone: from a pending flag or at a SWAP of the port, with the flag clear afterwards and SwapDone among the
records of the event, and no flag clears but with it; and a context's path, role, class, ports and width, which stand from its creation to its end
(R14, R13, R132, R95, R174, R18, R19, R20,
R22). Elapsed time, which only a tick of the time base changes, is the
model's own count (log 3). -/
def Obligations.OnlyTheirOwnCommandsChange : Prop :=
  ∀ (c : Instr) (s t : State), exec c s = .next t →
    (∀ straps, c ≠ .reset straps ∧ c ≠ .resetPinRelease straps) →
      t.straps = s.straps ∧
      (∀ p, (s.port p).synced = true → (t.port p).synced = true) ∧
      (c ≠ .sync → ∀ p, (t.port p).synced = (s.port p).synced) ∧
      (c ≠ .unblock → ∀ p k, cellAt (s.port p).map k = some .blocked →
        cellAt (t.port p).map k = some .blocked) ∧
      (c ≠ .thaw → ∀ p, (s.port p).frozen = true → (t.port p).frozen = true) ∧
      (∀ p, c ≠ .gain p → (t.port p).gain = (s.port p).gain) ∧
      (c ≠ .setparam → t.part = s.part ∧ ∀ p, (t.port p).params = (s.port p).params) ∧
      (∀ p, (t.port p).active = (s.port p).active → (t.port p).profile = (s.port p).profile) ∧
      (c ≠ .swap → ∀ p, (t.port p).swapPending = true → (s.port p).swapPending = true) ∧
      (∀ p, (s.port p).swapPending = true → (t.port p).swapPending = false →
        (t.port p).active ≠ (s.port p).active) ∧
      (∀ p, (t.port p).active ≠ (s.port p).active →
        ((s.port p).swapPending = true ∨
          (c = .swap ∧ ∃ a b rest, s.commandWaits 9 a b [byteOf p.val] rest)) ∧
        (t.port p).swapPending = false ∧
        ∃ written : List RingRecord, .port p .swapDone ∈ written ∧
          t.ring = (written.foldl State.report s).ring ∧
          t.lost = (written.foldl State.report s).lost) ∧
      (c ≠ .timeBaseTick → t.elapsed = s.elapsed) ∧
      (∀ i x x', s.ctx i = some x → t.ctx i = some x' → x'.path = x.path ∧ x'.role = x.role ∧
        x'.cls = x.cls ∧ x'.inPort = x.inPort ∧ x'.outPort = x.outPort ∧ x'.width = x.width)
end

