-- ==== Sys2Proof/Laws/Tables.lean ====
section
/-! SUPPORT. Reading and writing the fixed-length tables, and reading a map after it has changed. -/

namespace Sys2Proof

@[simp] theorem Table.read_write_same {n : Nat} {α : Type} (t : Table n α) (i : Fin n) (x : α) :
    Table.read (Table.write t i x) i = x := by
  simp [Table.read, Table.write]

theorem Table.read_write_other {n : Nat} {α : Type} (t : Table n α) {i j : Fin n} (x : α)
    (h : j ≠ i) : Table.read (Table.write t i x) j = Table.read t j := by
  have hv : i.val ≠ j.val := fun e => h (Fin.ext e.symm)
  simp [Table.read, Table.write, Vector.getElem_set_ne, hv]

@[simp] theorem Table.read_modify_same {n : Nat} {α : Type} (t : Table n α) (i : Fin n)
    (f : α → α) : Table.read (Table.modify t i f) i = f (Table.read t i) := by
  simp [Table.modify]

theorem Table.read_modify_other {n : Nat} {α : Type} (t : Table n α) {i j : Fin n} (f : α → α)
    (h : j ≠ i) : Table.read (Table.modify t i f) j = Table.read t j :=
  Table.read_write_other t _ h

@[simp] theorem Table.read_all {n : Nat} {α : Type} (x : α) (i : Fin n) :
    Table.read (Table.all x : Table n α) i = x := by
  simp [Table.read, Table.all]

/-- Two tables that read the same everywhere are the same. -/
theorem Table.ext {n : Nat} {α : Type} {t u : Table n α}
    (h : ∀ i, Table.read t i = Table.read u i) : t = u := by
  apply Vector.ext
  intro i hi
  exact h ⟨i, hi⟩

theorem degreeOf_portOf (d : DegreeNo) : degreeOf (portOf d) = some d := by
  simp [degreeOf, portOf]

theorem portOf_of_degreeOf {p : PortNo} {d : DegreeNo} (h : degreeOf p = some d) :
    portOf d = p := by
  unfold degreeOf at h
  split at h
  · cases h; rfl
  · cases h

theorem portOf_injective {d e : DegreeNo} (h : portOf d = portOf e) : d = e := by
  have := congrArg Fin.val h
  exact Fin.ext this

end Sys2Proof

namespace Sys2Proof.Machine

open Sys2Proof

/-! ### Maps -/

theorem mapFrom_get {α : Type} (f : Nat → α → α) (k : Nat) (xs : List α) (j : Nat)
    (hj : j < xs.length) (hj' : j < (mapFrom f k xs).length) :
    (mapFrom f k xs)[j] = f (k + j) xs[j] := by
  induction xs generalizing k j with
  | nil => simp at hj
  | cons x xs ih =>
    cases j with
    | zero => simp [mapFrom]
    | succ j =>
      simp only [mapFrom, List.getElem_cons_succ]
      rw [ih (k + 1) j (by simpa using hj) (by simpa [mapFrom] using hj')]
      congr 1; omega

/-- Entry `i` of a table whose entries were changed by number. -/
@[simp] theorem read_mapEntries {n : Nat} {α : Type} (t : Table n α) (f : Nat → α → α)
    (i : Fin n) : Table.read (mapEntries t f) i = f i.val (Table.read t i) := by
  have hl : i.val < t.toList.length := by simp
  simp only [Table.read, mapEntries, Vector.getElem_mk, List.getElem_toArray]
  rw [mapFrom_get f 0 t.toList i.val hl]
  simp

/-- A cell of a map whose entries were changed by number. -/
theorem cellAt_mapEntries (m : PortMap) (f : Nat → Cell → Cell) (k : Nat) :
    cellAt (mapEntries m f) k = (cellAt m k).map (f k) := by
  unfold cellAt
  split <;> simp

/-- A cell after `writeRange`: new inside the range where the test held, and as it was elsewhere. -/
theorem cellAt_writeRange (m : PortMap) (first n : Nat) (test : Cell → Bool) (new : Cell) (k : Nat) :
    cellAt (writeRange m first n test new) k =
      (cellAt m k).map fun x => if inRange first n k && test x then new else x :=
  cellAt_mapEntries m _ k

/-- A cell after the free write: Free where `i` owned it (R6). -/
theorem cellAt_freeOwned (m : PortMap) (i : CtxIdx) (k : Nat) :
    cellAt (freeOwned m i) k =
      (cellAt m k).map fun x => if x.owner = some i then .free else x :=
  cellAt_mapEntries m _ k

/-- Two maps with the same cells are the same map. -/
theorem map_ext {m m' : PortMap} (h : ∀ k, cellAt m k = cellAt m' k) : m = m' := by
  apply Table.ext
  intro i
  have := h i.val
  simpa [cellAt, i.isLt] using this

/-- What `rangeAll` says: every cell of the range lies in the band and passes the test. -/
theorem rangeAll_iff (m : PortMap) (first n : Nat) (test : Cell → Bool) :
    rangeAll m first n test = true ↔
      ∀ k, first ≤ k → k < first + n → ∃ x, cellAt m k = some x ∧ test x = true := by
  simp only [rangeAll, cellsOf, List.all_eq_true, List.mem_map, List.mem_range, Option.any_eq_true]
  constructor
  · intro h k h1 h2
    obtain ⟨x, hx, ht⟩ := h k ⟨k - first, by omega, by omega⟩
    exact ⟨x, hx, ht⟩
  · rintro h k ⟨j, hj, rfl⟩
    obtain ⟨x, hx, ht⟩ := h (first + j) (by omega) (by omega)
    exact ⟨x, hx, ht⟩

/-- What `inRange` says. -/
@[simp] theorem inRange_iff (first n k : Nat) :
    inRange first n k = true ↔ first ≤ k ∧ k < first + n := by
  simp [inRange]

end Sys2Proof.Machine
end

