-- ==== Sys2Proof/Laws/State.lean ====
section
/-! SUPPORT. What the updates of the state leave and what they change: one lemma for each field and
update, and the reading of a record, a port or a degree after one has changed. -/

namespace Sys2Proof.Machine

open Sys2Proof

/-! ### Fields that an update leaves -/

@[simp] theorem State.onRecord_ports (s : State) (i : CtxIdx) (f : Record → Record) : (s.onRecord i f).ports = s.ports := rfl
@[simp] theorem State.onRecord_degrees (s : State) (i : CtxIdx) (f : Record → Record) : (s.onRecord i f).degrees = s.degrees := rfl
@[simp] theorem State.onRecord_part (s : State) (i : CtxIdx) (f : Record → Record) : (s.onRecord i f).part = s.part := rfl
@[simp] theorem State.onRecord_ring (s : State) (i : CtxIdx) (f : Record → Record) : (s.onRecord i f).ring = s.ring := rfl
@[simp] theorem State.onRecord_lost (s : State) (i : CtxIdx) (f : Record → Record) : (s.onRecord i f).lost = s.lost := rfl
@[simp] theorem State.onRecord_timeBase (s : State) (i : CtxIdx) (f : Record → Record) : (s.onRecord i f).timeBase = s.timeBase := rfl
@[simp] theorem State.onRecord_elapsed (s : State) (i : CtxIdx) (f : Record → Record) : (s.onRecord i f).elapsed = s.elapsed := rfl
@[simp] theorem State.onRecord_straps (s : State) (i : CtxIdx) (f : Record → Record) : (s.onRecord i f).straps = s.straps := rfl
@[simp] theorem State.onRecord_inReset (s : State) (i : CtxIdx) (f : Record → Record) : (s.onRecord i f).inReset = s.inReset := rfl
@[simp] theorem State.onRecord_commands (s : State) (i : CtxIdx) (f : Record → Record) : (s.onRecord i f).commands = s.commands := rfl
@[simp] theorem State.onRecord_mgmtRx (s : State) (i : CtxIdx) (f : Record → Record) : (s.onRecord i f).mgmtRx = s.mgmtRx := rfl
@[simp] theorem State.onRecord_responses (s : State) (i : CtxIdx) (f : Record → Record) : (s.onRecord i f).responses = s.responses := rfl
@[simp] theorem State.onRecord_freeNext (s : State) (i : CtxIdx) (f : Record → Record) : (s.onRecord i f).freeNext = s.freeNext := rfl
@[simp] theorem State.onRecord_pending (s : State) (i : CtxIdx) (f : Record → Record) : (s.onRecord i f).pending = s.pending := rfl

@[simp] theorem State.onCtx_ports (s : State) (i : CtxIdx) (f : Context → Context) : (s.onCtx i f).ports = s.ports := rfl
@[simp] theorem State.onCtx_degrees (s : State) (i : CtxIdx) (f : Context → Context) : (s.onCtx i f).degrees = s.degrees := rfl
@[simp] theorem State.onCtx_part (s : State) (i : CtxIdx) (f : Context → Context) : (s.onCtx i f).part = s.part := rfl
@[simp] theorem State.onCtx_ring (s : State) (i : CtxIdx) (f : Context → Context) : (s.onCtx i f).ring = s.ring := rfl
@[simp] theorem State.onCtx_lost (s : State) (i : CtxIdx) (f : Context → Context) : (s.onCtx i f).lost = s.lost := rfl
@[simp] theorem State.onCtx_timeBase (s : State) (i : CtxIdx) (f : Context → Context) : (s.onCtx i f).timeBase = s.timeBase := rfl
@[simp] theorem State.onCtx_elapsed (s : State) (i : CtxIdx) (f : Context → Context) : (s.onCtx i f).elapsed = s.elapsed := rfl
@[simp] theorem State.onCtx_straps (s : State) (i : CtxIdx) (f : Context → Context) : (s.onCtx i f).straps = s.straps := rfl
@[simp] theorem State.onCtx_inReset (s : State) (i : CtxIdx) (f : Context → Context) : (s.onCtx i f).inReset = s.inReset := rfl
@[simp] theorem State.onCtx_commands (s : State) (i : CtxIdx) (f : Context → Context) : (s.onCtx i f).commands = s.commands := rfl
@[simp] theorem State.onCtx_mgmtRx (s : State) (i : CtxIdx) (f : Context → Context) : (s.onCtx i f).mgmtRx = s.mgmtRx := rfl
@[simp] theorem State.onCtx_responses (s : State) (i : CtxIdx) (f : Context → Context) : (s.onCtx i f).responses = s.responses := rfl
@[simp] theorem State.onCtx_freeNext (s : State) (i : CtxIdx) (f : Context → Context) : (s.onCtx i f).freeNext = s.freeNext := rfl
@[simp] theorem State.onCtx_pending (s : State) (i : CtxIdx) (f : Context → Context) : (s.onCtx i f).pending = s.pending := rfl

@[simp] theorem State.putCtx_ports (s : State) (i : CtxIdx) (c : Context) : (s.putCtx i c).ports = s.ports := rfl
@[simp] theorem State.putCtx_degrees (s : State) (i : CtxIdx) (c : Context) : (s.putCtx i c).degrees = s.degrees := rfl
@[simp] theorem State.putCtx_part (s : State) (i : CtxIdx) (c : Context) : (s.putCtx i c).part = s.part := rfl
@[simp] theorem State.putCtx_ring (s : State) (i : CtxIdx) (c : Context) : (s.putCtx i c).ring = s.ring := rfl
@[simp] theorem State.putCtx_lost (s : State) (i : CtxIdx) (c : Context) : (s.putCtx i c).lost = s.lost := rfl
@[simp] theorem State.putCtx_timeBase (s : State) (i : CtxIdx) (c : Context) : (s.putCtx i c).timeBase = s.timeBase := rfl
@[simp] theorem State.putCtx_elapsed (s : State) (i : CtxIdx) (c : Context) : (s.putCtx i c).elapsed = s.elapsed := rfl
@[simp] theorem State.putCtx_straps (s : State) (i : CtxIdx) (c : Context) : (s.putCtx i c).straps = s.straps := rfl
@[simp] theorem State.putCtx_inReset (s : State) (i : CtxIdx) (c : Context) : (s.putCtx i c).inReset = s.inReset := rfl
@[simp] theorem State.putCtx_commands (s : State) (i : CtxIdx) (c : Context) : (s.putCtx i c).commands = s.commands := rfl
@[simp] theorem State.putCtx_mgmtRx (s : State) (i : CtxIdx) (c : Context) : (s.putCtx i c).mgmtRx = s.mgmtRx := rfl
@[simp] theorem State.putCtx_responses (s : State) (i : CtxIdx) (c : Context) : (s.putCtx i c).responses = s.responses := rfl
@[simp] theorem State.putCtx_freeNext (s : State) (i : CtxIdx) (c : Context) : (s.putCtx i c).freeNext = s.freeNext := rfl
@[simp] theorem State.putCtx_pending (s : State) (i : CtxIdx) (c : Context) : (s.putCtx i c).pending = s.pending := rfl

@[simp] theorem State.advanceTag_ports (s : State) (i : CtxIdx) : (s.advanceTag i).ports = s.ports := rfl
@[simp] theorem State.advanceTag_degrees (s : State) (i : CtxIdx) : (s.advanceTag i).degrees = s.degrees := rfl
@[simp] theorem State.advanceTag_part (s : State) (i : CtxIdx) : (s.advanceTag i).part = s.part := rfl
@[simp] theorem State.advanceTag_ring (s : State) (i : CtxIdx) : (s.advanceTag i).ring = s.ring := rfl
@[simp] theorem State.advanceTag_lost (s : State) (i : CtxIdx) : (s.advanceTag i).lost = s.lost := rfl
@[simp] theorem State.advanceTag_timeBase (s : State) (i : CtxIdx) : (s.advanceTag i).timeBase = s.timeBase := rfl
@[simp] theorem State.advanceTag_elapsed (s : State) (i : CtxIdx) : (s.advanceTag i).elapsed = s.elapsed := rfl
@[simp] theorem State.advanceTag_straps (s : State) (i : CtxIdx) : (s.advanceTag i).straps = s.straps := rfl
@[simp] theorem State.advanceTag_inReset (s : State) (i : CtxIdx) : (s.advanceTag i).inReset = s.inReset := rfl
@[simp] theorem State.advanceTag_commands (s : State) (i : CtxIdx) : (s.advanceTag i).commands = s.commands := rfl
@[simp] theorem State.advanceTag_mgmtRx (s : State) (i : CtxIdx) : (s.advanceTag i).mgmtRx = s.mgmtRx := rfl
@[simp] theorem State.advanceTag_responses (s : State) (i : CtxIdx) : (s.advanceTag i).responses = s.responses := rfl
@[simp] theorem State.advanceTag_freeNext (s : State) (i : CtxIdx) : (s.advanceTag i).freeNext = s.freeNext := rfl
@[simp] theorem State.advanceTag_pending (s : State) (i : CtxIdx) : (s.advanceTag i).pending = s.pending := rfl

@[simp] theorem State.armCtx_ports (s : State) (i : CtxIdx) (ms : Nat) : (s.armCtx i ms).ports = s.ports := rfl
@[simp] theorem State.armCtx_degrees (s : State) (i : CtxIdx) (ms : Nat) : (s.armCtx i ms).degrees = s.degrees := rfl
@[simp] theorem State.armCtx_part (s : State) (i : CtxIdx) (ms : Nat) : (s.armCtx i ms).part = s.part := rfl
@[simp] theorem State.armCtx_ring (s : State) (i : CtxIdx) (ms : Nat) : (s.armCtx i ms).ring = s.ring := rfl
@[simp] theorem State.armCtx_lost (s : State) (i : CtxIdx) (ms : Nat) : (s.armCtx i ms).lost = s.lost := rfl
@[simp] theorem State.armCtx_timeBase (s : State) (i : CtxIdx) (ms : Nat) : (s.armCtx i ms).timeBase = s.timeBase := rfl
@[simp] theorem State.armCtx_elapsed (s : State) (i : CtxIdx) (ms : Nat) : (s.armCtx i ms).elapsed = s.elapsed := rfl
@[simp] theorem State.armCtx_straps (s : State) (i : CtxIdx) (ms : Nat) : (s.armCtx i ms).straps = s.straps := rfl
@[simp] theorem State.armCtx_inReset (s : State) (i : CtxIdx) (ms : Nat) : (s.armCtx i ms).inReset = s.inReset := rfl
@[simp] theorem State.armCtx_commands (s : State) (i : CtxIdx) (ms : Nat) : (s.armCtx i ms).commands = s.commands := rfl
@[simp] theorem State.armCtx_mgmtRx (s : State) (i : CtxIdx) (ms : Nat) : (s.armCtx i ms).mgmtRx = s.mgmtRx := rfl
@[simp] theorem State.armCtx_responses (s : State) (i : CtxIdx) (ms : Nat) : (s.armCtx i ms).responses = s.responses := rfl
@[simp] theorem State.armCtx_freeNext (s : State) (i : CtxIdx) (ms : Nat) : (s.armCtx i ms).freeNext = s.freeNext := rfl
@[simp] theorem State.armCtx_pending (s : State) (i : CtxIdx) (ms : Nat) : (s.armCtx i ms).pending = s.pending := rfl

@[simp] theorem State.onPort_records (s : State) (p : PortNo) (f : PortState → PortState) : (s.onPort p f).records = s.records := rfl
@[simp] theorem State.onPort_degrees (s : State) (p : PortNo) (f : PortState → PortState) : (s.onPort p f).degrees = s.degrees := rfl
@[simp] theorem State.onPort_part (s : State) (p : PortNo) (f : PortState → PortState) : (s.onPort p f).part = s.part := rfl
@[simp] theorem State.onPort_ring (s : State) (p : PortNo) (f : PortState → PortState) : (s.onPort p f).ring = s.ring := rfl
@[simp] theorem State.onPort_lost (s : State) (p : PortNo) (f : PortState → PortState) : (s.onPort p f).lost = s.lost := rfl
@[simp] theorem State.onPort_timeBase (s : State) (p : PortNo) (f : PortState → PortState) : (s.onPort p f).timeBase = s.timeBase := rfl
@[simp] theorem State.onPort_elapsed (s : State) (p : PortNo) (f : PortState → PortState) : (s.onPort p f).elapsed = s.elapsed := rfl
@[simp] theorem State.onPort_straps (s : State) (p : PortNo) (f : PortState → PortState) : (s.onPort p f).straps = s.straps := rfl
@[simp] theorem State.onPort_inReset (s : State) (p : PortNo) (f : PortState → PortState) : (s.onPort p f).inReset = s.inReset := rfl
@[simp] theorem State.onPort_commands (s : State) (p : PortNo) (f : PortState → PortState) : (s.onPort p f).commands = s.commands := rfl
@[simp] theorem State.onPort_mgmtRx (s : State) (p : PortNo) (f : PortState → PortState) : (s.onPort p f).mgmtRx = s.mgmtRx := rfl
@[simp] theorem State.onPort_responses (s : State) (p : PortNo) (f : PortState → PortState) : (s.onPort p f).responses = s.responses := rfl
@[simp] theorem State.onPort_freeNext (s : State) (p : PortNo) (f : PortState → PortState) : (s.onPort p f).freeNext = s.freeNext := rfl
@[simp] theorem State.onPort_pending (s : State) (p : PortNo) (f : PortState → PortState) : (s.onPort p f).pending = s.pending := rfl

@[simp] theorem State.emit_records (s : State) (p : PortNo) (o : OutFrame) : (s.emit p o).records = s.records := rfl
@[simp] theorem State.emit_degrees (s : State) (p : PortNo) (o : OutFrame) : (s.emit p o).degrees = s.degrees := rfl
@[simp] theorem State.emit_part (s : State) (p : PortNo) (o : OutFrame) : (s.emit p o).part = s.part := rfl
@[simp] theorem State.emit_ring (s : State) (p : PortNo) (o : OutFrame) : (s.emit p o).ring = s.ring := rfl
@[simp] theorem State.emit_lost (s : State) (p : PortNo) (o : OutFrame) : (s.emit p o).lost = s.lost := rfl
@[simp] theorem State.emit_timeBase (s : State) (p : PortNo) (o : OutFrame) : (s.emit p o).timeBase = s.timeBase := rfl
@[simp] theorem State.emit_elapsed (s : State) (p : PortNo) (o : OutFrame) : (s.emit p o).elapsed = s.elapsed := rfl
@[simp] theorem State.emit_straps (s : State) (p : PortNo) (o : OutFrame) : (s.emit p o).straps = s.straps := rfl
@[simp] theorem State.emit_inReset (s : State) (p : PortNo) (o : OutFrame) : (s.emit p o).inReset = s.inReset := rfl
@[simp] theorem State.emit_commands (s : State) (p : PortNo) (o : OutFrame) : (s.emit p o).commands = s.commands := rfl
@[simp] theorem State.emit_mgmtRx (s : State) (p : PortNo) (o : OutFrame) : (s.emit p o).mgmtRx = s.mgmtRx := rfl
@[simp] theorem State.emit_responses (s : State) (p : PortNo) (o : OutFrame) : (s.emit p o).responses = s.responses := rfl
@[simp] theorem State.emit_freeNext (s : State) (p : PortNo) (o : OutFrame) : (s.emit p o).freeNext = s.freeNext := rfl
@[simp] theorem State.emit_pending (s : State) (p : PortNo) (o : OutFrame) : (s.emit p o).pending = s.pending := rfl

@[simp] theorem State.onDegree_records (s : State) (d : DegreeNo) (f : DegreeState → DegreeState) : (s.onDegree d f).records = s.records := rfl
@[simp] theorem State.onDegree_ports (s : State) (d : DegreeNo) (f : DegreeState → DegreeState) : (s.onDegree d f).ports = s.ports := rfl
@[simp] theorem State.onDegree_part (s : State) (d : DegreeNo) (f : DegreeState → DegreeState) : (s.onDegree d f).part = s.part := rfl
@[simp] theorem State.onDegree_ring (s : State) (d : DegreeNo) (f : DegreeState → DegreeState) : (s.onDegree d f).ring = s.ring := rfl
@[simp] theorem State.onDegree_lost (s : State) (d : DegreeNo) (f : DegreeState → DegreeState) : (s.onDegree d f).lost = s.lost := rfl
@[simp] theorem State.onDegree_timeBase (s : State) (d : DegreeNo) (f : DegreeState → DegreeState) : (s.onDegree d f).timeBase = s.timeBase := rfl
@[simp] theorem State.onDegree_elapsed (s : State) (d : DegreeNo) (f : DegreeState → DegreeState) : (s.onDegree d f).elapsed = s.elapsed := rfl
@[simp] theorem State.onDegree_straps (s : State) (d : DegreeNo) (f : DegreeState → DegreeState) : (s.onDegree d f).straps = s.straps := rfl
@[simp] theorem State.onDegree_inReset (s : State) (d : DegreeNo) (f : DegreeState → DegreeState) : (s.onDegree d f).inReset = s.inReset := rfl
@[simp] theorem State.onDegree_commands (s : State) (d : DegreeNo) (f : DegreeState → DegreeState) : (s.onDegree d f).commands = s.commands := rfl
@[simp] theorem State.onDegree_mgmtRx (s : State) (d : DegreeNo) (f : DegreeState → DegreeState) : (s.onDegree d f).mgmtRx = s.mgmtRx := rfl
@[simp] theorem State.onDegree_responses (s : State) (d : DegreeNo) (f : DegreeState → DegreeState) : (s.onDegree d f).responses = s.responses := rfl
@[simp] theorem State.onDegree_freeNext (s : State) (d : DegreeNo) (f : DegreeState → DegreeState) : (s.onDegree d f).freeNext = s.freeNext := rfl
@[simp] theorem State.onDegree_pending (s : State) (d : DegreeNo) (f : DegreeState → DegreeState) : (s.onDegree d f).pending = s.pending := rfl

/-! ### Reads that an update leaves -/

@[simp] theorem State.onRecord_port (s : State) (i : CtxIdx) (f : Record → Record) (q : PortNo) : (s.onRecord i f).port q = s.port q := rfl
@[simp] theorem State.onRecord_degree (s : State) (i : CtxIdx) (f : Record → Record) (e : DegreeNo) : (s.onRecord i f).degree e = s.degree e := rfl
@[simp] theorem State.onRecord_nodeId (s : State) (i : CtxIdx) (f : Record → Record) : (s.onRecord i f).nodeId = s.nodeId := rfl
@[simp] theorem State.onRecord_identityValid (s : State) (i : CtxIdx) (f : Record → Record) : (s.onRecord i f).identityValid = s.identityValid := rfl

@[simp] theorem State.onCtx_port (s : State) (i : CtxIdx) (f : Context → Context) (q : PortNo) : (s.onCtx i f).port q = s.port q := rfl
@[simp] theorem State.onCtx_degree (s : State) (i : CtxIdx) (f : Context → Context) (e : DegreeNo) : (s.onCtx i f).degree e = s.degree e := rfl
@[simp] theorem State.onCtx_nodeId (s : State) (i : CtxIdx) (f : Context → Context) : (s.onCtx i f).nodeId = s.nodeId := rfl
@[simp] theorem State.onCtx_identityValid (s : State) (i : CtxIdx) (f : Context → Context) : (s.onCtx i f).identityValid = s.identityValid := rfl

@[simp] theorem State.putCtx_port (s : State) (i : CtxIdx) (c : Context) (q : PortNo) : (s.putCtx i c).port q = s.port q := rfl
@[simp] theorem State.putCtx_degree (s : State) (i : CtxIdx) (c : Context) (e : DegreeNo) : (s.putCtx i c).degree e = s.degree e := rfl
@[simp] theorem State.putCtx_nodeId (s : State) (i : CtxIdx) (c : Context) : (s.putCtx i c).nodeId = s.nodeId := rfl
@[simp] theorem State.putCtx_identityValid (s : State) (i : CtxIdx) (c : Context) : (s.putCtx i c).identityValid = s.identityValid := rfl

@[simp] theorem State.advanceTag_port (s : State) (i : CtxIdx) (q : PortNo) : (s.advanceTag i).port q = s.port q := rfl
@[simp] theorem State.advanceTag_degree (s : State) (i : CtxIdx) (e : DegreeNo) : (s.advanceTag i).degree e = s.degree e := rfl
@[simp] theorem State.advanceTag_nodeId (s : State) (i : CtxIdx) : (s.advanceTag i).nodeId = s.nodeId := rfl
@[simp] theorem State.advanceTag_identityValid (s : State) (i : CtxIdx) : (s.advanceTag i).identityValid = s.identityValid := rfl

@[simp] theorem State.armCtx_port (s : State) (i : CtxIdx) (ms : Nat) (q : PortNo) : (s.armCtx i ms).port q = s.port q := rfl
@[simp] theorem State.armCtx_degree (s : State) (i : CtxIdx) (ms : Nat) (e : DegreeNo) : (s.armCtx i ms).degree e = s.degree e := rfl
@[simp] theorem State.armCtx_nodeId (s : State) (i : CtxIdx) (ms : Nat) : (s.armCtx i ms).nodeId = s.nodeId := rfl
@[simp] theorem State.armCtx_identityValid (s : State) (i : CtxIdx) (ms : Nat) : (s.armCtx i ms).identityValid = s.identityValid := rfl

@[simp] theorem State.onPort_record (s : State) (p : PortNo) (f : PortState → PortState) (j : CtxIdx) : (s.onPort p f).record j = s.record j := rfl
@[simp] theorem State.onPort_ctx (s : State) (p : PortNo) (f : PortState → PortState) (j : CtxIdx) : (s.onPort p f).ctx j = s.ctx j := rfl
@[simp] theorem State.onPort_degree (s : State) (p : PortNo) (f : PortState → PortState) (e : DegreeNo) : (s.onPort p f).degree e = s.degree e := rfl
@[simp] theorem State.onPort_nodeId (s : State) (p : PortNo) (f : PortState → PortState) : (s.onPort p f).nodeId = s.nodeId := rfl
@[simp] theorem State.onPort_identityValid (s : State) (p : PortNo) (f : PortState → PortState) : (s.onPort p f).identityValid = s.identityValid := rfl

@[simp] theorem State.emit_record (s : State) (p : PortNo) (o : OutFrame) (j : CtxIdx) : (s.emit p o).record j = s.record j := rfl
@[simp] theorem State.emit_ctx (s : State) (p : PortNo) (o : OutFrame) (j : CtxIdx) : (s.emit p o).ctx j = s.ctx j := rfl
@[simp] theorem State.emit_degree (s : State) (p : PortNo) (o : OutFrame) (e : DegreeNo) : (s.emit p o).degree e = s.degree e := rfl
@[simp] theorem State.emit_nodeId (s : State) (p : PortNo) (o : OutFrame) : (s.emit p o).nodeId = s.nodeId := rfl
@[simp] theorem State.emit_identityValid (s : State) (p : PortNo) (o : OutFrame) : (s.emit p o).identityValid = s.identityValid := rfl

@[simp] theorem State.onDegree_record (s : State) (d : DegreeNo) (f : DegreeState → DegreeState) (j : CtxIdx) : (s.onDegree d f).record j = s.record j := rfl
@[simp] theorem State.onDegree_ctx (s : State) (d : DegreeNo) (f : DegreeState → DegreeState) (j : CtxIdx) : (s.onDegree d f).ctx j = s.ctx j := rfl
@[simp] theorem State.onDegree_port (s : State) (d : DegreeNo) (f : DegreeState → DegreeState) (q : PortNo) : (s.onDegree d f).port q = s.port q := rfl
@[simp] theorem State.onDegree_nodeId (s : State) (d : DegreeNo) (f : DegreeState → DegreeState) : (s.onDegree d f).nodeId = s.nodeId := rfl
@[simp] theorem State.onDegree_identityValid (s : State) (d : DegreeNo) (f : DegreeState → DegreeState) : (s.onDegree d f).identityValid = s.identityValid := rfl

/-! ### Reads that an update changes -/

@[simp] theorem State.record_onRecord_same (s : State) (i : CtxIdx) (f : Record → Record) :
    (s.onRecord i f).record i = f (s.record i) := by
  simp [State.record, State.onRecord]

theorem State.record_onRecord_other (s : State) {i j : CtxIdx} (f : Record → Record) (h : j ≠ i) :
    (s.onRecord i f).record j = s.record j :=
  Table.read_modify_other _ f h

@[simp] theorem State.ctx_onCtx_same (s : State) (i : CtxIdx) (f : Context → Context) :
    (s.onCtx i f).ctx i = (s.ctx i).map f := by
  simp [State.ctx, State.onCtx]

theorem State.ctx_onCtx_other (s : State) {i j : CtxIdx} (f : Context → Context) (h : j ≠ i) :
    (s.onCtx i f).ctx j = s.ctx j := by
  simp [State.ctx, State.onCtx, State.record_onRecord_other s _ h]

@[simp] theorem State.tag_onCtx (s : State) (i j : CtxIdx) (f : Context → Context) :
    ((s.onCtx i f).record j).tag = (s.record j).tag := by
  by_cases h : j = i
  · subst h; simp [State.onCtx]
  · rw [State.onCtx, State.record_onRecord_other s _ h]

@[simp] theorem State.ctx_putCtx_same (s : State) (i : CtxIdx) (c : Context) :
    (s.putCtx i c).ctx i = some c := by
  simp [State.ctx, State.putCtx]

theorem State.ctx_putCtx_other (s : State) {i j : CtxIdx} (c : Context) (h : j ≠ i) :
    (s.putCtx i c).ctx j = s.ctx j := by
  simp [State.ctx, State.putCtx, State.record_onRecord_other s _ h]

@[simp] theorem State.ctx_advanceTag (s : State) (i j : CtxIdx) :
    (s.advanceTag i).ctx j = s.ctx j := by
  by_cases h : j = i
  · subst h; simp [State.ctx, State.advanceTag]
  · simp [State.ctx, State.advanceTag, State.record_onRecord_other s _ h]

@[simp] theorem State.tag_advanceTag_same (s : State) (i : CtxIdx) :
    ((s.advanceTag i).record i).tag = (s.record i).tag + 1 := by
  simp [State.advanceTag]

@[simp] theorem State.port_onPort_same (s : State) (p : PortNo) (f : PortState → PortState) :
    (s.onPort p f).port p = f (s.port p) := by
  simp [State.port, State.onPort]

theorem State.port_onPort_other (s : State) {p q : PortNo} (f : PortState → PortState) (h : q ≠ p) :
    (s.onPort p f).port q = s.port q :=
  Table.read_modify_other _ f h

@[simp] theorem State.degree_onDegree_same (s : State) (d : DegreeNo)
    (f : DegreeState → DegreeState) : (s.onDegree d f).degree d = f (s.degree d) := by
  simp [State.degree, State.onDegree]

theorem State.degree_onDegree_other (s : State) {d e : DegreeNo} (f : DegreeState → DegreeState)
    (h : e ≠ d) : (s.onDegree d f).degree e = s.degree e :=
  Table.read_modify_other _ f h

end Sys2Proof.Machine
end

