-- ==== Sys2Proof/Laws/Ops.lean ====
section
/-! SUPPORT. One lemma for each shared operation over the state that says once what it does: looking
up a path, finding a FREE record, writing a record to the ring, timers, and sending. -/

namespace Sys2Proof.Machine

open Sys2Proof

/-! ### Contexts -/

theorem State.withCtx_some {s : State} {i : CtxIdx} {c : Context} (h : s.ctx i = some c)
    (f : Context → State) : s.withCtx i f = f c := by
  simp [State.withCtx, h]

theorem State.withCtx_none {s : State} {i : CtxIdx} (h : s.ctx i = none) (f : Context → State) :
    s.withCtx i f = s := by
  simp [State.withCtx, h]

theorem mem_allContexts (i : CtxIdx) : i ∈ allContexts := by simp [allContexts]

theorem mem_allPorts (p : PortNo) : p ∈ allPorts := by simp [allPorts]

/-- A lookup that finds a record finds a context with that path (R29). -/
theorem State.lookup_some {s : State} {path : PathId} {i : CtxIdx} (h : s.lookup path = some i) :
    ∃ c, s.ctx i = some c ∧ c.path = path := by
  have := List.find?_some h
  simpa [Option.any_eq_true] using this

/-- A lookup that finds none: no context has that path (R29). -/
theorem State.lookup_none {s : State} {path : PathId} :
    s.lookup path = none ↔ ∀ i c, s.ctx i = some c → c.path ≠ path := by
  simp only [State.lookup, List.find?_eq_none, mem_allContexts, true_implies]
  constructor
  · intro h i c hc hp
    exact h i (by simp [hc, hp])
  · intro h i hi
    obtain ⟨c, hc, hp⟩ := (Option.any_eq_true _ _).1 hi
    exact h i c hc (by simpa using hp)

/-- Where a path is held once, its lookup finds it (R29). -/
theorem State.lookup_of_unique {s : State} {path : PathId} {i : CtxIdx} {c : Context}
    (hc : s.ctx i = some c) (hp : c.path = path)
    (hu : ∀ j c', s.ctx j = some c' → c'.path = path → j = i) : s.lookup path = some i := by
  cases h : s.lookup path with
  | none => exact absurd hp (State.lookup_none.1 h i c hc)
  | some j =>
    obtain ⟨c', hc', hp'⟩ := State.lookup_some h
    rw [hu j c' hc' hp']

/-- The lowest FREE record is FREE (R28). -/
theorem State.lowestFree_some {s : State} {i : CtxIdx} (h : s.lowestFree = some i) :
    s.ctx i = none := by
  have := List.find?_some h
  simpa using this

/-! ### The ring (R176) -/

/-- Everything `report` changes is the ring and its Lost flag. -/
theorem State.report_frame (s : State) (r : RingRecord) :
    { s.report r with ring := s.ring, lost := s.lost } = s := by
  unfold State.report
  split <;> rfl

/-- The record joins the tail; a full ring loses its oldest and sets Lost. -/
theorem State.report_ring (s : State) (r : RingRecord) :
    (s.report r).ring = (if s.ring.length < 64 then s.ring else s.ring.drop 1) ++ [r] ∧
      (s.report r).lost = (s.lost || !decide (s.ring.length < 64)) := by
  unfold State.report
  split <;> simp_all [Config.ringCapacity]

@[simp] theorem State.report_port (s : State) (r : RingRecord) (p : PortNo) :
    (s.report r).port p = s.port p := by
  unfold State.report; split <;> rfl

@[simp] theorem State.report_record (s : State) (r : RingRecord) (i : CtxIdx) :
    (s.report r).record i = s.record i := by
  unfold State.report; split <;> rfl

@[simp] theorem State.report_ctx (s : State) (r : RingRecord) (i : CtxIdx) :
    (s.report r).ctx i = s.ctx i := by
  unfold State.report; split <;> rfl

@[simp] theorem State.report_degree (s : State) (r : RingRecord) (d : DegreeNo) :
    (s.report r).degree d = s.degree d := by
  unfold State.report; split <;> rfl

/-! ### Timers (R32) -/

theorem State.due_iff (s : State) (timer : Option Nat) :
    s.due timer = true ↔ ∃ t, timer = some t ∧ t ≤ s.elapsed := by
  simp [State.due, Option.any_eq_true]

@[simp] theorem State.due_none (s : State) : s.due none = false := rfl

theorem saturate_le (x : Nat) : saturate x ≤ 65535 := by
  simp [saturate, Config.countMax]

/-! ### Sending (R42) -/

/-- A message sent on a degree adds at most one frame to that degree's link. -/
theorem State.sendTo_eq (s : State) (d : DegreeNo) (dest : NodeId) (m : PeerMsg) :
    s.sendTo d dest m = s ∨ s.sendTo d dest m = s.emit (portOf d) (.peer ⟨dest, s.nodeId, d, m⟩) := by
  unfold State.sendTo
  split <;> simp

/-- A path message adds at most one frame to the degree's link. -/
theorem State.sendPath_eq (s : State) (d : DegreeNo) (m : PeerMsg) :
    s.sendPath d m = s ∨ ∃ f, s.sendPath d m = s.emit (portOf d) f := by
  unfold State.sendPath
  split
  · rcases s.sendTo_eq d _ m with h | h
    · exact .inl h
    · exact .inr ⟨_, h⟩
  · exact .inl rfl

/-- Under a valid identity and an adjacency that is UP, a path message goes to the recorded
neighbour (R42). -/
theorem State.sendPath_up {s : State} {d : DegreeNo} {n : NodeId} (m : PeerMsg)
    (hv : s.identityValid = true) (hu : (s.degree d).adj = .up) (hn : (s.degree d).nbrId = some n) :
    s.sendPath d m = s.emit (portOf d) (.peer ⟨n, s.nodeId, d, m⟩) := by
  simp [State.sendPath, State.sendTo, hu, hn, hv]

/-- A message upstream adds at most one frame to a port's link. -/
theorem State.sendUpstream_eq (s : State) (c : Context) (m : PeerMsg) :
    s.sendUpstream c m = s ∨ ∃ p f, s.sendUpstream c m = s.emit p f := by
  unfold State.sendUpstream
  split
  · rcases s.sendPath_eq _ m with h | ⟨f, h⟩
    · exact .inl h
    · exact .inr ⟨_, f, h⟩
  · exact .inl rfl

/-- A message downstream adds at most one frame to a port's link. -/
theorem State.sendDownstream_eq (s : State) (c : Context) (m : PeerMsg) :
    s.sendDownstream c m = s ∨ ∃ p f, s.sendDownstream c m = s.emit p f := by
  unfold State.sendDownstream
  split
  · rcases s.sendPath_eq _ m with h | ⟨f, h⟩
    · exact .inl h
    · exact .inr ⟨_, f, h⟩
  · exact .inl rfl

/-- A request for a context with a range advances the tag, becomes the outstanding request and is
formed for the out-port's link (R30, R31, R84). -/
theorem State.sendRequest_eq {s : State} {i : CtxIdx} {c : Context} {first : Nat}
    (hc : s.ctx i = some c) (hf : c.chosen = some first) (k : ReqKind) (att : Nat) :
    s.sendRequest i k att =
      ((s.advanceTag i).onCtx i fun x => { x with outstanding := some k }).emit c.outPort
        (.request ⟨k, i, (s.record i).tag + 1, first, c.width, att⟩) := by
  simp [State.sendRequest, State.withCtx_some hc, hf]

/-! ### How a command ends -/

theorem whileRunning_running {s : State} (h : s.inReset = false) (work : State → State) :
    whileRunning s work = .next (work s) := by
  simp [whileRunning, h]

theorem whileRunning_inReset {s : State} (h : s.inReset = true) (work : State → State) :
    whileRunning s work = .next s := by
  simp [whileRunning, h]

/-- A waiting command of kind `k` is carried out by its work and answered (R172). -/
theorem onCommand_eq {s : State} {k : Nat} {a b : Byte} {fields : List Byte} {rest : List (List Byte)}
    (hr : s.inReset = false) (hk : k < 256)
    (hc : s.commands = (byteOf k :: a :: b :: fields) :: rest)
    (work : List Byte → State → State × Reply) :
    onCommand s k work =
      .next ((work fields { s with commands := rest }).1.respond (byteOf k :: a :: b :: fields)
        (work fields { s with commands := rest }).2) := by
  simp [onCommand, whileRunning_running hr, State.runCommand, hc, commandKind, byteOf,
    Nat.mod_eq_of_lt hk]

/-- The answer to a command of at least three bytes (R172). -/
theorem State.respond_eq (s : State) (k a b : Byte) (fields : List Byte) (r : Reply) :
    s.respond (k :: a :: b :: fields) r =
      { s with responses := s.responses ++ [⟨k, a, b, r.code, r.clamped, s.timeBase, r.body⟩] } := by
  simp [State.respond, State.echo]

end Sys2Proof.Machine
end

