-- ==== Sys2Proof/Laws/Keeps.lean ====
section
/-! SUPPORT. What the engines of the part never do, as one relation between the state before and the
state after: it holds of every operation between the taking of an event and its end, so that a later
proof cites it instead of unfolding them. -/

namespace Sys2Proof.Machine

open Sys2Proof

/-- What a context keeps from its creation to its end (R22): everything else at one value. -/
def Context.identity (c : Context) : Context :=
  { newContext c.path c.role c.cls c.inPort c.outPort c.width .offered c.startTag with
      tie := c.tie, hop := c.hop, remaining := c.remaining }

/-- The two contexts have one identity. -/
def SameIdentity (c c' : Context) : Prop := c'.identity = c.identity

theorem SameIdentity.refl (c : Context) : SameIdentity c c := rfl

theorem SameIdentity.trans {c c' c'' : Context} (h : SameIdentity c c') (h' : SameIdentity c' c'') :
    SameIdentity c c'' :=
  Eq.trans h' h

theorem SameIdentity.outPort {c c' : Context} (h : SameIdentity c c') : c'.outPort = c.outPort := by
  have e : c'.identity.outPort = c.identity.outPort := congrArg _ h
  exact e

/-- A context without the fields that neither its identity nor a range speaks of. -/
def Context.measured (c : Context) : Context :=
  { c with state := .offered, kind := none, flags := .clear, outstanding := none, timer := none,
           serviceTag := none, abortReason := none, origin := none, teardown := none }

/-- What the engines keep of a port's map: Blocked cells stay Blocked, and an UNSYNCED port without
Held cells gets none (R13, R14). -/
def MapKeeps (synced : Bool) (m m' : PortMap) : Prop :=
  (∀ k, cellAt m k = some .blocked → cellAt m' k = some .blocked) ∧
  (synced = false → (∀ k i, cellAt m k ≠ some (.held i)) → ∀ k i, cellAt m' k ≠ some (.held i))

theorem MapKeeps.refl (b : Bool) (m : PortMap) : MapKeeps b m m := ⟨fun _ h => h, fun _ h => h⟩

theorem MapKeeps.trans {b : Bool} {m m' m'' : PortMap} (h : MapKeeps b m m')
    (h' : MapKeeps b m' m'') : MapKeeps b m m'' :=
  ⟨fun k hk => h'.1 k (h.1 k hk), fun hb hm => h'.2 hb (h.2 hb hm)⟩

/-- What the engines keep of a port. -/
structure PortKeeps (q r : PortState) : Prop where
  synced : r.synced = q.synced
  bankA : r.bankA = q.bankA
  bankB : r.bankB = q.bankB
  gain : r.gain = q.gain
  lineIsUp : r.lineIsUp = q.lineIsUp
  reports : r.reports = q.reports
  overflow : r.overflow = q.overflow
  params : r.params = q.params
  rx : r.rx = q.rx
  frozen : q.frozen = true → r.frozen = true
  map : MapKeeps q.synced q.map r.map
  out : ∃ fs, r.out = q.out ++ fs

theorem PortKeeps.refl (q : PortState) : PortKeeps q q :=
  ⟨rfl, rfl, rfl, rfl, rfl, rfl, rfl, rfl, rfl, id, .refl _ _, [], by simp⟩

theorem PortKeeps.trans {q r t : PortState} (h : PortKeeps q r) (h' : PortKeeps r t) :
    PortKeeps q t where
  synced := h'.synced.trans h.synced
  bankA := h'.bankA.trans h.bankA
  bankB := h'.bankB.trans h.bankB
  gain := h'.gain.trans h.gain
  lineIsUp := h'.lineIsUp.trans h.lineIsUp
  reports := h'.reports.trans h.reports
  overflow := h'.overflow.trans h.overflow
  params := h'.params.trans h.params
  rx := h'.rx.trans h.rx
  frozen := fun x => h'.frozen (h.frozen x)
  map := h.map.trans (h.synced ▸ h'.map)
  out := by
    obtain ⟨fs, hf⟩ := h.out
    obtain ⟨gs, hg⟩ := h'.out
    exact ⟨fs ++ gs, by rw [hg, hf, List.append_assoc]⟩

/-- What the engines keep of a degree. -/
structure DegreeKeeps (x y : DegreeState) : Prop where
  peerQueue : y.peerQueue = x.peerQueue
  overflow : y.overflow = x.overflow
  lampMode : y.lampMode = x.lampMode

theorem DegreeKeeps.refl (x : DegreeState) : DegreeKeeps x x := ⟨rfl, rfl, rfl⟩

theorem DegreeKeeps.trans {x y z : DegreeState} (h : DegreeKeeps x y) (h' : DegreeKeeps y z) :
    DegreeKeeps x z :=
  ⟨h'.1.trans h.1, h'.2.trans h.2, h'.3.trans h.3⟩

/-- What every engine operation keeps of the state. -/
structure Keeps (s t : State) : Prop where
  part : t.part = s.part
  timeBase : t.timeBase = s.timeBase
  elapsed : t.elapsed = s.elapsed
  straps : t.straps = s.straps
  inReset : t.inReset = s.inReset
  commands : t.commands = s.commands
  mgmtRx : t.mgmtRx = s.mgmtRx
  responses : t.responses = s.responses
  freeNext : t.freeNext = s.freeNext
  pending : t.pending = s.pending
  ring : s.ring.length ≤ 64 → t.ring.length ≤ 64
  lost : s.lost = true → t.lost = true
  ports : ∀ p, PortKeeps (s.port p) (t.port p)
  degrees : ∀ d, DegreeKeeps (s.degree d) (t.degree d)
  contexts : ∀ i c', t.ctx i = some c' → ∃ c, s.ctx i = some c ∧ SameIdentity c c'
  ranges : s.inRange → t.inRange

namespace Keeps

variable {s t : State}

theorem refl (s : State) : Keeps s s where
  part := rfl
  timeBase := rfl
  elapsed := rfl
  straps := rfl
  inReset := rfl
  commands := rfl
  mgmtRx := rfl
  responses := rfl
  freeNext := rfl
  pending := rfl
  ring := id
  lost := id
  ports _ := .refl _
  degrees _ := .refl _
  contexts _ c' h := ⟨c', h, .refl _⟩
  ranges := id

theorem trans {u : State} (h : Keeps s t) (h' : Keeps t u) : Keeps s u where
  part := h'.part.trans h.part
  timeBase := h'.timeBase.trans h.timeBase
  elapsed := h'.elapsed.trans h.elapsed
  straps := h'.straps.trans h.straps
  inReset := h'.inReset.trans h.inReset
  commands := h'.commands.trans h.commands
  mgmtRx := h'.mgmtRx.trans h.mgmtRx
  responses := h'.responses.trans h.responses
  freeNext := h'.freeNext.trans h.freeNext
  pending := h'.pending.trans h.pending
  ring x := h'.ring (h.ring x)
  lost x := h'.lost (h.lost x)
  ports p := (h.ports p).trans (h'.ports p)
  degrees d := (h.degrees d).trans (h'.degrees d)
  contexts i c' hc := by
    obtain ⟨c1, h1, e1⟩ := h'.contexts i c' hc
    obtain ⟨c0, h0, e0⟩ := h.contexts i c1 h1
    exact ⟨c0, h0, e0.trans e1⟩
  ranges x := h'.ranges (h.ranges x)

/-! ### The updates -/

/-- A change of one context that keeps its identity and its ranges. -/
theorem onCtx (h : Keeps s t) (i : CtxIdx) (f : Context → Context)
    (hid : ∀ c, SameIdentity c (f c))
    (hr : ∀ c, t.inRange → t.ctx i = some c → c.inRange → (f c).inRange) :
    Keeps s (t.onCtx i f) := by
  refine h.trans { refl t with contexts := ?_, ranges := ?_ }
  · intro j c' hc
    by_cases hj : j = i
    · subst hj
      rw [State.ctx_onCtx_same, Option.map_eq_some_iff] at hc
      obtain ⟨c, hc, rfl⟩ := hc
      exact ⟨c, hc, hid c⟩
    · rw [State.ctx_onCtx_other _ _ hj] at hc
      exact ⟨c', hc, .refl _⟩
  · intro ht
    refine ⟨ht.1, ?_, ht.2.2⟩
    intro j c' hc
    by_cases hj : j = i
    · subst hj
      rw [State.ctx_onCtx_same, Option.map_eq_some_iff] at hc
      obtain ⟨c, hc, rfl⟩ := hc
      exact hr c ht hc (ht.2.1 _ c hc)
    · rw [State.ctx_onCtx_other _ _ hj] at hc
      exact ht.2.1 _ c' hc

/-- A change of fields of a context that neither its identity nor a range speaks of. -/
theorem quietly (h : Keeps s t) (i : CtxIdx) (f : Context → Context)
    (hf : ∀ c, (f c).measured = c.measured) : Keeps s (t.onCtx i f) := by
  refine h.onCtx i f (fun c => ?_) fun c _ _ hc => ?_
  · have : (f c).measured.identity = c.measured.identity := congrArg _ (hf c)
    exact this
  · have : (f c).measured.inRange := (hf c).symm ▸ hc
    exact this

theorem advanceTag (h : Keeps s t) (i : CtxIdx) : Keeps s (t.advanceTag i) := by
  refine h.trans { refl t with contexts := ?_, ranges := ?_ }
  · intro j c' hc
    exact ⟨c', by simpa using hc, .refl _⟩
  · intro ht
    exact ⟨ht.1, fun j c hc => ht.2.1 j c (by simpa using hc), ht.2.2⟩

/-- A record that becomes FREE. -/
theorem onRecord_free (h : Keeps s t) (i : CtxIdx) (f : Record → Record)
    (hf : ∀ r, (f r).ctx = none) : Keeps s (t.onRecord i f) := by
  have key : ∀ j c', (t.onRecord i f).ctx j = some c' → t.ctx j = some c' := by
    intro j c' hc
    by_cases hj : j = i
    · subst hj; simp [State.ctx, hf] at hc
    · simpa [State.ctx, State.record_onRecord_other _ _ hj] using hc
  refine h.trans { refl t with contexts := ?_, ranges := ?_ }
  · exact fun j c' hc => ⟨c', key j c' hc, .refl _⟩
  · exact fun ht => ⟨ht.1, fun j c hc => ht.2.1 j c (key j c hc), ht.2.2⟩

/-- A change of one port that keeps what the engines keep of it, and its ranges. -/
theorem onPort (h : Keeps s t) (p : PortNo) (f : PortState → PortState)
    (hf : PortKeeps (t.port p) (f (t.port p)))
    (hr : t.inRange → (t.port p).inRange → (f (t.port p)).inRange) :
    Keeps s (t.onPort p f) := by
  refine h.trans { refl t with ports := ?_, ranges := ?_ }
  · intro q
    by_cases hq : q = p
    · subst hq; simpa using hf
    · rw [State.port_onPort_other _ _ hq]; exact .refl _
  · intro ht
    refine ⟨ht.1, ht.2.1, fun q => ?_, ht.2.2.2⟩
    by_cases hq : q = p
    · subst hq; simpa using hr ht (ht.2.2.1 q)
    · rw [State.port_onPort_other _ _ hq]; exact ht.2.2.1 q

/-- A change of one port's map that keeps its Blocked cells and adds no Held cell while it is
UNSYNCED. -/
theorem onMap (h : Keeps s t) (p : PortNo) (f : PortState → PortMap)
    (hf : MapKeeps (t.port p).synced (t.port p).map (f (t.port p))) :
    Keeps s (t.onPort p fun ps => { ps with map := f ps }) :=
  h.onPort p _ { PortKeeps.refl (t.port p) with map := hf } fun _ hr => hr

/-- A change of one degree that keeps what the engines keep of it, and its ranges. -/
theorem onDegree (h : Keeps s t) (d : DegreeNo) (f : DegreeState → DegreeState)
    (hf : ∀ x, DegreeKeeps x (f x))
    (hr : t.inRange → (t.degree d).inRange → (f (t.degree d)).inRange) :
    Keeps s (t.onDegree d f) := by
  refine h.trans { refl t with degrees := ?_, ranges := ?_ }
  · intro e
    by_cases he : e = d
    · subst he; simpa using hf _
    · rw [State.degree_onDegree_other _ _ he]; exact .refl _
  · intro ht
    refine ⟨ht.1, ht.2.1, ht.2.2.1, fun e => ?_⟩
    by_cases he : e = d
    · subst he; simpa using hr ht (ht.2.2.2 e)
    · rw [State.degree_onDegree_other _ _ he]; exact ht.2.2.2 e

theorem report (h : Keeps s t) (r : RingRecord) : Keeps s (t.report r) := by
  have e : (t.report r).ring.length ≤ 64 ∨ ¬ t.ring.length ≤ 64 := by
    rw [(t.report_ring r).1]
    split <;> simp <;> omega
  have l := (t.report_ring r).2
  have fr := t.report_frame r
  refine h.trans
    { part := congrArg (·.part) fr, timeBase := congrArg (·.timeBase) fr,
      elapsed := congrArg (·.elapsed) fr, straps := congrArg (·.straps) fr,
      inReset := congrArg (·.inReset) fr, commands := congrArg (·.commands) fr,
      mgmtRx := congrArg (·.mgmtRx) fr, responses := congrArg (·.responses) fr,
      freeNext := congrArg (·.freeNext) fr, pending := congrArg (·.pending) fr,
      ring := fun x => e.resolve_right (fun n => n x), lost := fun x => by simp [l, x],
      ports := fun p => by rw [State.report_port]; exact .refl _,
      degrees := fun d => by rw [State.report_degree]; exact .refl _,
      contexts := fun i c' hc => ⟨c', by simpa using hc, .refl _⟩,
      ranges := fun ht => ⟨(congrArg (·.part) fr) ▸ ht.1, by simpa using ht.2.1, by simpa using ht.2.2⟩ }

/-! ### Composition -/

theorem withCtx (h : Keeps s t) (i : CtxIdx) {f : Context → State}
    (hf : ∀ c, t.ctx i = some c → Keeps s (f c)) : Keeps s (t.withCtx i f) := by
  unfold State.withCtx
  split
  · exact hf _ ‹_›
  · exact h

theorem ite {p : Prop} [Decidable p] {a b : State} (ha : Keeps s a) (hb : Keeps s b) :
    Keeps s (if p then a else b) := by
  split <;> assumption

/-- A fold over a list whose every round keeps. -/
theorem foldl {α : Type} (h : Keeps s t) (f : State → α → State)
    (hf : ∀ u a, Keeps u (f u a)) (l : List α) : Keeps s (l.foldl f t) := by
  induction l generalizing t with
  | nil => exact h
  | cons a l ih => exact ih (h.trans (hf t a))

/-! ### The shared operations -/

theorem armCtx (h : Keeps s t) (i : CtxIdx) (ms : Nat) : Keeps s (t.armCtx i ms) :=
  h.quietly i _ fun _ => rfl

theorem emit (h : Keeps s t) (p : PortNo) (o : OutFrame) : Keeps s (t.emit p o) :=
  h.onPort p _ { PortKeeps.refl (t.port p) with out := ⟨[o], rfl⟩ } fun _ hr => hr

theorem sendTo (h : Keeps s t) (d : DegreeNo) (dest : NodeId) (m : PeerMsg) :
    Keeps s (t.sendTo d dest m) :=
  ite (h.emit _ _) h

theorem sendPath (h : Keeps s t) (d : DegreeNo) (m : PeerMsg) : Keeps s (t.sendPath d m) := by
  unfold State.sendPath
  split
  · exact h.sendTo _ _ _
  · exact h

theorem sendUpstream (h : Keeps s t) (c : Context) (m : PeerMsg) :
    Keeps s (t.sendUpstream c m) := by
  unfold State.sendUpstream
  split
  · exact h.sendPath _ _
  · exact h

theorem sendDownstream (h : Keeps s t) (c : Context) (m : PeerMsg) :
    Keeps s (t.sendDownstream c m) := by
  unfold State.sendDownstream
  split
  · exact h.sendPath _ _
  · exact h

theorem sendRequest (h : Keeps s t) (i : CtxIdx) (k : ReqKind) (att : Nat) :
    Keeps s (t.sendRequest i k att) := by
  refine h.withCtx i fun c _ => ?_
  split
  · exact h
  · refine emit (quietly (h.advanceTag i) i _ ?_) _ _
    exact fun _ => rfl

end Keeps

end Sys2Proof.Machine
end

