-- ==== Sys2Proof/Laws/Engines.lean ====
section
/-! SUPPORT. Every operation of the map, the target calculator, the step arbiter and the lighting
logic keeps what the engines keep: one lemma for each. -/

namespace Sys2Proof.Machine

open Sys2Proof

/-! ### Writes to a map -/

/-- A write that changes no Blocked cell and makes no cell Held keeps the map. -/
theorem MapKeeps.mapEntries {b : Bool} {m : PortMap} {f : Nat → Cell → Cell}
    (hb : ∀ k, cellAt m k = some .blocked → f k .blocked = .blocked)
    (hh : ∀ k x i, f k x = .held i → x = .held i) : MapKeeps b m (mapEntries m f) := by
  constructor
  · intro k hk
    simp [cellAt_mapEntries, hk, hb k hk]
  · intro _ hm k i hk
    rw [cellAt_mapEntries, Option.map_eq_some_iff] at hk
    obtain ⟨x, hx, he⟩ := hk
    exact hm k i (by rw [hx, hh k x i he])

/-- On a SYNCED port only the Blocked cells are kept. -/
theorem MapKeeps.of_synced {m m' : PortMap}
    (hb : ∀ k, cellAt m k = some .blocked → cellAt m' k = some .blocked) : MapKeeps true m m' :=
  ⟨hb, fun h => by cases h⟩

theorem cellAt_blocked_writeRange {m : PortMap} {first n : Nat} {test : Cell → Bool} {new : Cell}
    (ht : test .blocked = false) (k : Nat) (h : cellAt m k = some .blocked) :
    cellAt (writeRange m first n test new) k = some .blocked := by
  simp [cellAt_writeRange, h, ht]

theorem cellAt_blocked_holdPlacements (c : CtxIdx) (n : Nat) (firsts : List Nat) (m : PortMap)
    (k : Nat) (h : cellAt m k = some .blocked) :
    cellAt (holdPlacements m c n firsts).1 k = some .blocked := by
  induction firsts generalizing m with
  | nil => exact h
  | cons first rest ih =>
    simp only [holdPlacements]
    apply ih
    unfold holdPlacement
    split
    · exact cellAt_blocked_writeRange (by simp) k h
    · exact h

/-- A range all of whose cells pass a test that Blocked fails holds no Blocked cell. -/
theorem rangeAll_not_blocked {m : PortMap} {first n : Nat} {test : Cell → Bool}
    (h : rangeAll m first n test = true) (ht : test .blocked = false) (k : Nat)
    (hk : cellAt m k = some .blocked) : inRange first n k = false := by
  by_contra hr
  rw [Bool.not_eq_false, inRange_iff] at hr
  obtain ⟨x, hx, hxt⟩ := (rangeAll_iff m first n test).1 h k hr.1 hr.2
  rw [hk] at hx
  cases hx
  simp [ht] at hxt

/-- A range of which every cell passes a test, written new: Blocked cells stay and no cell becomes
Held. -/
theorem MapKeeps.writeWhole {b : Bool} {m : PortMap} {first n : Nat} {test : Cell → Bool} {new : Cell}
    (h : rangeAll m first n test = true) (ht : test .blocked = false)
    (hn : ∀ i, new ≠ .held i) : MapKeeps b m (writeRange m first n (fun _ => true) new) := by
  apply MapKeeps.mapEntries
  · intro k hk
    simp [rangeAll_not_blocked h ht k hk]
  · intro k x i hx
    split at hx
    · exact absurd hx (hn i)
    · exact hx

namespace Keeps

variable {s t : State}

/-- A claim keeps when its write keeps the map it is given. -/
theorem claim (h : Keeps s t) (i : CtxIdx) (write : Context → PortMap → Option PortMap)
    (hw : ∀ c m, t.ctx i = some c → write c (t.port c.outPort).map = some m →
      MapKeeps (t.port c.outPort).synced (t.port c.outPort).map m) :
    Keeps s (t.claim i write) := by
  refine h.withCtx i fun c hc => ?_
  split
  · exact h.onMap c.outPort (fun _ => _) (hw c _ hc ‹_›)
  · exact h

theorem mapHold (h : Keeps s t) (i : CtxIdx) (firsts : List Nat) : Keeps s (t.mapHold i firsts) := by
  refine h.claim i _ fun c m _ hm => ?_
  split at hm
  · cases hm
    rw [‹(t.port c.outPort).synced = true›]
    exact .of_synced fun k hk => cellAt_blocked_holdPlacements i c.width firsts _ k hk
  · cases hm

theorem mapReserveFromHold (h : Keeps s t) (i : CtxIdx) (first : Nat) :
    Keeps s (t.mapReserveFromHold i first) := by
  refine h.claim i _ fun c m _ hm => ?_
  split at hm
  · cases hm
    apply MapKeeps.mapEntries
    · intro k _; simp
    · intro k x j hx
      split at hx
      · split at hx <;> cases hx
      · exact hx
  · cases hm

theorem mapReserveDirect (h : Keeps s t) (i : CtxIdx) (first : Nat) :
    Keeps s (t.mapReserveDirect i first) := by
  refine h.claim i _ fun c m _ hm => ?_
  split at hm
  · cases hm
    rw [Bool.and_eq_true] at *
    exact .writeWhole (‹_ ∧ _›).2 (by simp) (by simp)
  · cases hm

theorem mapOpen (h : Keeps s t) (i : CtxIdx) (first : Nat) : Keeps s (t.mapOpen i first) := by
  refine h.claim i _ fun c m _ hm => ?_
  split at hm
  · cases hm
    exact .writeWhole ‹_› (by simp) (by simp)
  · cases hm

theorem mapAdopt (h : Keeps s t) (i : CtxIdx) (first : Nat) : Keeps s (t.mapAdopt i first) := by
  refine h.claim i _ fun c m _ hm => ?_
  split at hm
  · cases hm
    exact .writeWhole ‹_› (by simp) (by simp)
  · cases hm

theorem freeOwned_keeps (b : Bool) (m : PortMap) (i : CtxIdx) : MapKeeps b m (freeOwned m i) := by
  apply MapKeeps.mapEntries
  · intro k _; simp [Cell.owner]
  · intro k x j hx
    split at hx
    · cases hx
    · exact hx

theorem mapFree (h : Keeps s t) (i : CtxIdx) (p : PortNo) : Keeps s (t.mapFree i p) :=
  h.onMap p _ (freeOwned_keeps _ _ _)

theorem mapBlock (h : Keeps s t) (i : CtxIdx) (p : PortNo) (first n : Nat) :
    Keeps s (t.mapBlock i p first n) := by
  refine h.onMap p _ (MapKeeps.trans (m' := writeRange (t.port p).map first n _ .blocked) ?_
    (freeOwned_keeps _ _ _))
  apply MapKeeps.mapEntries
  · intro k _; simp
  · intro k x j hx
    split at hx
    · cases hx
    · exact hx

end Keeps

/-! ### Ranges that the arithmetic keeps (R107, R108, R110, R111) -/

theorem nextAttenuation_le (k : RampKind) {a t : Nat} (size : Nat) (ha : a ≤ 2500) (ht : t ≤ 2500) :
    nextAttenuation k a t size ≤ 2500 := by
  cases k <;> simp only [nextAttenuation, Config.dark] <;> (try split) <;> omega

/-- A next attenuation is one (R107). -/
theorem Context.next_le {c : Context} (h : c.inRange) {a : Nat} (hn : c.next = some a) :
    a ≤ 2500 := by
  obtain ⟨⟨ha, ht, -⟩, -⟩ := h
  unfold Context.next at hn
  split at hn
  · cases hn; exact nextAttenuation_le _ _ (ha _ ‹_›) (by omega)
  · rw [Option.map_eq_some_iff] at hn
    obtain ⟨t, hT, rfl⟩ := hn
    exact nextAttenuation_le _ _ (ha _ ‹_›) (ht t hT)
  · cases hn

theorem baseOfCode_range {code : Nat} (live : Nat) (h : code ≤ 15) :
    25 ≤ baseOfCode code live ∧ baseOfCode code live ≤ 2500 := by
  unfold baseOfCode
  split
  · split <;> omega
  · omega

/-- Every base step chosen on a port whose parameters are in range is one (R104, R108). -/
theorem State.baseStep_range {t : State} (h : t.inRange) (i : CtxIdx) (p : PortNo) :
    25 ≤ t.baseStep i p ∧ t.baseStep i p ≤ 2500 := by
  obtain ⟨h1, h2, -⟩ := (h.2.2.1 p).1
  apply baseOfCode_range
  unfold stepCode
  split <;> assumption

/-- The settings latched from parameters in range are in range (R118). -/
theorem PortParams.latch_inRange {q : PortParams} (h : q.inRange) : q.latch.inRange := by
  obtain ⟨-, -, -, -, -, h6, h7, h8, h9, -⟩ := h
  exact ⟨h6, h7, h8, h9⟩

theorem Context.withBase_inRange {c : Context} {b : Nat} (h : c.inRange) (hb : 25 ≤ b ∧ b ≤ 2500) :
    (c.withBase b).inRange := by
  obtain ⟨⟨h1, h2, h3, -, -, -, h7⟩, hx⟩ := h
  refine ⟨⟨h1, h2, h3, ?_, ?_, by simp [Context.withBase], h7⟩, hx⟩
  · intro x hx; cases hx; exact hb
  · intro z hz; cases hz; exact ⟨b, rfl, by omega, Nat.le_refl _⟩

theorem Context.afterClean_inRange {c : Context} (h : c.inRange) : c.afterClean.inRange := by
  obtain ⟨⟨h1, h2, h3, h4, h5, h6, h7⟩, hx⟩ := h
  unfold Context.afterClean
  dsimp only
  split
  · rename_i size b hs hb
    obtain ⟨b', hb', hz⟩ := h5 size hs
    rw [hb] at hb'
    cases hb'
    split
    · refine ⟨⟨h1, h2, h3, h4, ?_, by simp, h7⟩, hx⟩
      intro z hz'
      cases hz'
      have := (h4 b hb).1
      exact ⟨b, hb, by omega, by omega⟩
    · exact ⟨⟨h1, h2, h3, h4, h5, by dsimp only; omega, h7⟩, hx⟩
  · exact ⟨⟨h1, h2, h3, h4, h5, by dsimp only; omega, h7⟩, hx⟩

theorem Context.afterBackoff_inRange {c : Context} (h : c.inRange) : c.afterBackoff.inRange := by
  obtain ⟨⟨h1, h2, h3, h4, h5, h6, h7, -, h9⟩, hx⟩ := h
  refine ⟨⟨h1, h2, h3, h4, ?_, by simp [Context.afterBackoff], h7, saturate_le _, h9⟩, hx⟩
  intro z hz
  simp only [Context.afterBackoff, Option.map_eq_some_iff] at hz
  obtain ⟨size, hs, rfl⟩ := hz
  obtain ⟨b, hb, hr⟩ := h5 size hs
  have := (h4 b hb).1
  exact ⟨b, hb, by omega, by omega⟩

theorem Context.afterVerdict_inRange {c : Context} (v : Verdict) (h : c.inRange) :
    (c.afterVerdict v).inRange := by
  unfold Context.afterVerdict
  split
  · exact c.afterClean_inRange h
  · exact c.afterBackoff_inRange h
  · split
    · exact c.afterBackoff_inRange h
    · exact h

theorem Context.afterClean_same (c : Context) : SameIdentity c c.afterClean := by
  unfold Context.afterClean
  dsimp only
  split
  · split <;> exact rfl
  · exact rfl

theorem Context.afterVerdict_same (c : Context) (v : Verdict) : SameIdentity c (c.afterVerdict v) := by
  unfold Context.afterVerdict
  split
  · exact c.afterClean_same
  · exact rfl
  · split
    · exact rfl
    · exact .refl _

/-- A target in reach lies between 0 and 2500 (R101). -/
theorem targetOf_reached {x : Int} {g : Option Nat} {y : Int} {t : Nat} {short : Bool}
    (h : targetOf x g y = .reached t short) : t ≤ 2500 := by
  unfold targetOf at h
  split at h
  · cases h
  · dsimp only at h
    split at h
    · cases h
    · split at h
      · cases h; omega
      · cases h; omega

theorem State.targetFor_reached {s : State} {c : Context} {t : Nat} {short : Bool}
    (h : s.targetFor c = .reached t short) : t ≤ 2500 := by
  unfold State.targetFor at h
  dsimp only at h
  split at h
  · exact targetOf_reached h
  · cases h

namespace Keeps

variable {s t : State}

/-! ### The target calculator -/

theorem chooseBase (h : Keeps s t) (i : CtxIdx) : Keeps s (t.chooseBase i) := by
  refine h.withCtx i fun c _ => ?_
  refine ite (h.onCtx i _ (fun _ => rfl) ?_) h
  exact fun _ ht _ hc => Context.withBase_inRange hc (State.baseStep_range ht _ _)

theorem writeTarget (h : Keeps s t) (i : CtxIdx) {x : Nat} (hx : x ≤ 2500) (short : Bool) :
    Keeps s (t.writeTarget i x short) := by
  refine h.withCtx i fun c _ => ?_
  refine onCtx h i _ (fun _ => rfl) ?_
  intro c' ht _ hc
  refine Context.withBase_inRange ?_ (State.baseStep_range ht _ _)
  obtain ⟨⟨h1, -, h3⟩, hz⟩ := hc
  exact ⟨⟨h1, by intro y hy; cases hy; exact hx, h3⟩, hz⟩

/-! ### The arbiter -/

theorem takeStep (h : Keeps s t) (p : PortNo) : Keeps s (t.takeStep p) := by
  unfold State.takeStep
  split
  · exact h
  · refine h.withCtx _ fun c hc => ?_
    split
    · exact h
    · rename_i a ha
      refine onCtx (onPort (sendRequest (onPort h p _ ?_ ?_) _ _ _) p _ ?_ ?_) _ _ ?_ ?_
      · exact { PortKeeps.refl (t.port p) with }
      · intro ht hr
        obtain ⟨r1, r2, r3, r4, -, r6, r7, -⟩ := hr
        refine ⟨r1, r2, r3, r4, ?_, r6, r7, ?_, Nat.zero_le _⟩
        · intro y hy; cases hy; exact Context.next_le (ht.2.1 _ c hc) ha
        · intro x hx; cases hx; exact PortParams.latch_inRange r1
      · exact { PortKeeps.refl _ with }
      · intro _ hr
        obtain ⟨r1, r2, r3, r4, r5, -, r7⟩ := hr
        exact ⟨r1, r2, r3, r4, r5, saturate_le _, r7⟩
      · exact fun _ => rfl
      · intro c' _ _ hc'
        obtain ⟨⟨h1, h2, h3, h4, h5, h6, -, h8⟩, hx⟩ := hc'
        exact ⟨⟨h1, h2, h3, h4, h5, h6, saturate_le _, h8⟩, hx⟩

theorem setQueue_keeps (ps : PortState) (q : QueueSel) (xs : List CtxIdx) :
    PortKeeps ps (ps.setQueue q xs) := by
  cases q <;> exact { PortKeeps.refl ps with }

theorem setQueue_inRange {ps : PortState} (q : QueueSel) (xs : List CtxIdx) (h : ps.inRange) :
    (ps.setQueue q xs).inRange := by
  cases q <;> exact h

theorem grantTo (h : Keeps s t) (p : PortNo) (q : QueueSel) : Keeps s (t.grantTo p q) := by
  unfold State.grantTo
  split
  · exact h
  · refine takeStep (onPort h p _ ?_ ?_) p
    · exact (setQueue_keeps _ q _).trans { PortKeeps.refl _ with }
    · intro _ hr
      obtain ⟨r1, r2, r3, r4, r5, -, r7⟩ := setQueue_inRange q ‹List CtxIdx› hr
      exact ⟨r1, r2, r3, r4, r5, by simp, r7⟩

theorem considerGrant (h : Keeps s t) (p : PortNo) : Keeps s (t.considerGrant p) := by
  unfold State.considerGrant
  dsimp only
  split
  · split
    · exact h.grantTo p _
    · exact h
  · exact h

theorem setQueue (h : Keeps s t) (p : PortNo) (q : QueueSel) (f : PortState → List CtxIdx) :
    Keeps s (t.onPort p fun ps => ps.setQueue q (f ps)) :=
  h.onPort p _ (setQueue_keeps _ _ _) fun _ hr => setQueue_inRange _ _ hr

theorem join (h : Keeps s t) (p : PortNo) (q : QueueSel) (i : CtxIdx) (grant : Bool) :
    Keeps s (t.join p q i grant) := by
  unfold State.join
  dsimp only
  split
  · exact (h.setQueue p q _).considerGrant p
  · exact h.setQueue p q _

theorem leaveQueues (h : Keeps s t) (p : PortNo) (i : CtxIdx) : Keeps s (t.leaveQueues p i) :=
  h.onPort p _ { PortKeeps.refl (t.port p) with } fun _ hr => hr

theorem clearStep (h : Keeps s t) (p : PortNo) : Keeps s (t.clearStep p) := by
  have k : Keeps s (t.onPort p PortState.clearedStep) := by
    refine h.onPort p _ { PortKeeps.refl (t.port p) with } ?_
    intro _ hr
    obtain ⟨r1, r2, r3, r4, -, r6, r7, -⟩ := hr
    exact ⟨r1, r2, r3, r4, nofun, r6, r7, nofun, Nat.zero_le _⟩
  unfold State.clearStep
  dsimp only
  split
  · exact k.onDegree _ _ (fun x => { DegreeKeeps.refl x with }) fun _ hr => hr
  · exact k

theorem freeSlot (h : Keeps s t) (p : PortNo) : Keeps s (t.freeSlot p) := by
  refine h.onPort p _ { PortKeeps.refl (t.port p) with } ?_
  intro _ hr
  obtain ⟨r1, r2, r3, r4, r5, -, r7⟩ := hr
  exact ⟨r1, r2, r3, r4, r5, by simp, r7⟩

theorem clearRetreatDue (h : Keeps s t) (p : PortNo) (b : Bool) :
    Keeps s (t.onPort p fun ps => { ps with retreatDue := b }) :=
  h.onPort p _ { PortKeeps.refl (t.port p) with } fun _ hr => hr

/-! ### Requests of the lighting logic and of teardown -/

/-- Attempts written, within their range (R93). -/
theorem attempts_inRange {c : Context} {k : Nat} (hk : k ≤ 8) (h : c.inRange) :
    { c with attempts := k }.inRange := by
  obtain ⟨⟨h1, h2, h3, h4, h5, h6, h7, h8, h9, -⟩, hx⟩ := h
  exact ⟨⟨h1, h2, h3, h4, h5, h6, h7, h8, h9, hk⟩, hx⟩

theorem enterPreparing (h : Keeps s t) (i : CtxIdx) : Keeps s (t.enterPreparing i) := by
  refine h.withCtx i fun c _ => ?_
  refine armCtx (sendRequest (onCtx h i _ ?_ ?_) _ _ _) _ _
  · exact fun _ => rfl
  · exact fun _ _ _ hc => attempts_inRange (Nat.zero_le 8) hc

theorem sendMeasure (h : Keeps s t) (i : CtxIdx) {k : Nat}
    (hk : t.part.measureAttempts ≤ 8 → k ≤ 8) : Keeps s (t.sendMeasure i k) := by
  have sent := sendRequest (.refl t) i .measure 0
  refine armCtx (onCtx (h.trans sent) i _ ?_ ?_) _ _
  · exact fun _ => rfl
  · intro c ht _ hc
    obtain ⟨-, -, -, -, -, -, -, -, ⟨-, hm⟩, -⟩ := ht.1
    exact attempts_inRange (hk (sent.part ▸ hm)) hc

theorem sendClose (h : Keeps s t) (i : CtxIdx) : Keeps s (t.sendClose i) := by
  refine h.withCtx i fun c _ => ?_
  refine armCtx (quietly (sendRequest h _ _ _) i _ ?_) _ _
  · exact fun _ => rfl

/-! ### Service and trim -/

theorem enterTrimming (h : Keeps s t) (i : CtxIdx) : Keeps s (t.enterTrimming i) := by
  refine sendMeasure (quietly h i _ ?_) i fun _ => ?_
  · exact fun _ => rfl
  · omega

theorem trimIfDue (h : Keeps s t) (i : CtxIdx) : Keeps s (t.trimIfDue i) :=
  h.withCtx i fun _ _ => ite (h.enterTrimming i) h

theorem enterInService (h : Keeps s t) (i : CtxIdx) : Keeps s (t.enterInService i) := by
  refine h.withCtx i fun c _ => ?_
  refine trimIfDue (report (quietly h i _ ?_) _) i
  · exact fun _ => rfl

theorem haltTrim (h : Keeps s t) (i : CtxIdx) : Keeps s (t.haltTrim i) := by
  refine h.withCtx i fun c _ => ?_
  refine trimIfDue (report (quietly h i _ ?_) _) i
  · exact fun _ => rfl

theorem finishTrim (h : Keeps s t) (i : CtxIdx) : Keeps s (t.finishTrim i) := by
  refine h.withCtx i fun c _ => ?_
  refine trimIfDue (report (quietly h i _ ?_) _) i
  · exact fun _ => rfl

theorem completeRamp (h : Keeps s t) (i : CtxIdx) : Keeps s (t.completeRamp i) := by
  refine h.withCtx i fun c _ => ?_
  have k : Keeps s (t.onCtx i fun c => { c with kind := none }) :=
    h.quietly i _ fun _ => rfl
  dsimp only
  split
  · exact (k.enterInService i).sendUpstream _ _
  all_goals
    refine sendDownstream (armCtx (quietly k i _ ?_) _ _) _ _
    · exact fun _ => rfl

/-! ### Targets and the bank swap -/

theorem recordTeardown (h : Keeps s t) (i : CtxIdx) (c : Context) (o : TeardownOrder) (w : Way) :
    Keeps s (t.recordTeardown i c o w) := by
  have k : Keeps s (t.onCtx i fun c =>
      { c with abortReason := o.reason, origin := some o.origin,
               teardown := some ⟨o.cause, w, o.notice⟩ }) :=
    h.quietly i _ fun _ => rfl
  unfold State.recordTeardown
  dsimp only
  split
  · exact ite (k.sendUpstream _ _) (k.sendUpstream _ _)
  · exact k

theorem abortPreparing (h : Keeps s t) (i : CtxIdx) (r : Reason) : Keeps s (t.abortPreparing i r) := by
  refine h.withCtx i fun c _ => ?_
  have k := h.recordTeardown i c (t.localAbort r) (t.wayFor c (t.localAbort r))
  exact sendClose (ite (k.chooseBase i) k) i

theorem prepareTarget (h : Keeps s t) (i : CtxIdx) (grant : Bool) :
    Keeps s (t.prepareTarget i grant) := by
  refine h.withCtx i fun c _ => ?_
  split
  · exact h.abortPreparing i _
  · exact h.abortPreparing i _
  · rename_i x short hx
    have k := h.writeTarget i (State.targetFor_reached hx) short
    refine ite (k.completeRamp i) (join (quietly k i _ ?_) _ _ _ _)
    · exact fun _ => rfl

theorem resumeWaiting (h : Keeps s t) (grant : Bool) (p : PortNo) (i : CtxIdx) :
    Keeps s (State.resumeWaiting grant p t i) :=
  h.withCtx i fun _ _ => ite (h.prepareTarget i grant) h

theorem markTrimDue (h : Keeps s t) (p : PortNo) (i : CtxIdx) : Keeps s (State.markTrimDue p t i) := by
  refine h.withCtx i fun _ _ => ite (trimIfDue (quietly h i _ ?_) i) h
  · exact fun _ => rfl

theorem swapNow (h : Keeps s t) (p : PortNo) (grant : Bool) : Keeps s (t.swapNow p grant) := by
  unfold State.swapNow
  refine report (foldl (foldl (onPort h p _ ?_ ?_) _ ?_ _) _ ?_ _) _
  · exact { PortKeeps.refl (t.port p) with }
  · exact fun _ hr => hr
  · exact fun u i => (refl u).resumeWaiting grant p i
  · exact fun u i => (refl u).markTrimDue p i

theorem lookForQuiet (h : Keeps s t) (p : PortNo) (grant : Bool) : Keeps s (t.lookForQuiet p grant) :=
  ite (h.swapNow p grant) h

theorem lookAfter (h : Keeps s t) (c : Context) : Keeps s (t.lookAfter c) :=
  ite (h.lookForQuiet _ _) h

theorem trimTarget (h : Keeps s t) (i : CtxIdx) : Keeps s (t.trimTarget i) := by
  refine h.withCtx i fun c _ => ?_
  split
  · exact (h.haltTrim i).lookAfter c
  · exact (h.haltTrim i).lookAfter c
  · rename_i x short hx
    have k := h.writeTarget i (State.targetFor_reached hx) short
    refine ite (lookAfter (trimIfDue (quietly k i _ ?_) i) c) (join (quietly k i _ ?_) _ _ _ _)
    · exact fun _ => rfl
    · exact fun _ => rfl

theorem useMeasurement (h : Keeps s t) (i : CtxIdx) : Keeps s (t.useMeasurement i) :=
  h.withCtx i fun _ _ =>
    ite (ite h (h.prepareTarget i true)) (ite (h.trimTarget i) h)

theorem spendAttempt (h : Keeps s t) (i : CtxIdx) : Keeps s (t.spendAttempt i) := by
  refine h.withCtx i fun c _ => ?_
  have k : Keeps s (t.onCtx i fun c => { c with outstanding := none, timer := none }) :=
    h.quietly i _ fun _ => rfl
  split
  · exact h.sendMeasure i fun hm => by omega
  · exact ite (k.abortPreparing i _) (ite ((k.haltTrim i).lookAfter c) k)

end Keeps

end Sys2Proof.Machine
end

