-- ==== Sys2Proof/Laws/Causes.lean ====
section
/-! SUPPORT. Every operation of teardown, the step timer, the adjacency monitor and the reservation
engine keeps what the engines keep: one lemma for each. -/

namespace Sys2Proof.Machine

open Sys2Proof

namespace Keeps

variable {s t : State}

/-! ### Ending a context -/

theorem writePathEnd (h : Keeps s t) (c : Context) : Keeps s (t.writePathEnd c) := by
  unfold State.writePathEnd
  split
  · exact h
  · exact h.report _

theorem sendNotice (h : Keeps s t) (c : Context) : Keeps s (t.sendNotice c) := by
  unfold State.sendNotice
  split
  · exact h.sendDownstream _ _
  · exact h.sendDownstream _ _
  · exact h
  · exact h

theorem freeRecord (h : Keeps s t) (i : CtxIdx) : Keeps s (t.freeRecord i) :=
  h.onRecord_free i _ fun _ => rfl

theorem releaseSlot (h : Keeps s t) (p : PortNo) (i : CtxIdx) : Keeps s (t.releaseSlot p i) := by
  unfold State.releaseSlot
  split
  · exact clearRetreatDue (freeSlot (ite h (h.clearStep p)) p) p false
  · exact h

theorem finishEnding (h : Keeps s t) (i : CtxIdx) (c : Context) : Keeps s (t.finishEnding i c) := by
  unfold State.finishEnding
  exact (((((h.sendNotice c).leaveQueues _ i).releaseSlot _ i).writePathEnd c).freeRecord i)

theorem afterEnding (h : Keeps s t) (i : CtxIdx) (c : Context) (b : PortState) :
    Keeps s (t.afterEnding i c b) := by
  unfold State.afterEnding
  have k : Keeps s (if decide (b.holder = some i) = true then t.lookForQuiet c.outPort true
      else t.lookAfter c) := ite (h.lookForQuiet _ _) (h.lookAfter c)
  exact ite (k.considerGrant _) k

theorem endFreed (h : Keeps s t) (i : CtxIdx) : Keeps s (t.endFreed i) :=
  h.withCtx i fun c _ => ((h.mapFree i _).finishEnding i c).afterEnding i c _

theorem endBlocked (h : Keeps s t) (i : CtxIdx) : Keeps s (t.endBlocked i) := by
  refine h.withCtx i fun c _ => ?_
  exact afterEnding (report (finishEnding (mapBlock h i _ _ _) i _) _) i _ _

/-! ### Retreat and dark jump -/

theorem beginRetreat (h : Keeps s t) (i : CtxIdx) : Keeps s (t.beginRetreat i) := by
  refine h.withCtx i fun c _ => ?_
  have k := (h.leaveQueues c.outPort i).chooseBase i
  refine ite (k.sendClose i) (quietly k i _ ?_)
  · exact fun _ => rfl

theorem joinRetreat (h : Keeps s t) (i : CtxIdx) (grant : Bool) : Keeps s (t.joinRetreat i grant) :=
  h.withCtx i fun _ _ => ite (h.join _ _ _ _) h

theorem startRetreat (h : Keeps s t) (i : CtxIdx) : Keeps s (t.startRetreat i) := by
  refine h.withCtx i fun c _ => ?_
  have k := ((h.beginRetreat i).lookAfter c).joinRetreat i true
  exact ite (h.chooseBase i) (ite (h.clearRetreatDue _ true) (ite (k.considerGrant _) k))

theorem abandonStep (h : Keeps s t) (i : CtxIdx) (c : Context) : Keeps s (t.abandonStep i c) := by
  unfold State.abandonStep
  have k := ((h.clearStep c.outPort).clearRetreatDue c.outPort false).lookForQuiet c.outPort true
  refine considerGrant (lookAfter (sendClose (quietly (freeSlot (quietly (k.advanceTag i) i _ ?_) _)
    i _ ?_) i) c) _
  · exact fun _ => rfl
  · exact fun _ => rfl

theorem startDarkJump (h : Keeps s t) (i : CtxIdx) : Keeps s (t.startDarkJump i) := by
  refine h.withCtx i fun c _ => ?_
  have k := ((h.leaveQueues c.outPort i).sendClose i).lookAfter c
  exact ite h (ite (h.abandonStep i c) (ite (k.considerGrant _) k))

theorem goDark (h : Keeps s t) (i : CtxIdx) (w : Way) : Keeps s (t.goDark i w) := by
  unfold State.goDark
  split
  · exact h.endFreed i
  · exact h.startRetreat i
  · exact h.startDarkJump i

theorem decideTeardown (h : Keeps s t) (i : CtxIdx) (o : TeardownOrder) :
    Keeps s (t.decideTeardown i o) :=
  h.withCtx i fun c _ => (h.recordTeardown i c o _).goDark i _

theorem secondCause (h : Keeps s t) (i : CtxIdx) (o : TeardownOrder) :
    Keeps s (t.secondCause i o) := by
  refine h.withCtx i fun c _ => ?_
  split
  · refine ite (startDarkJump (quietly h i _ ?_) i) h
    · exact fun _ => rfl
  · exact h

theorem causeReaches (h : Keeps s t) (i : CtxIdx) (o : TeardownOrder) :
    Keeps s (t.causeReaches i o) :=
  h.withCtx i fun _ _ => ite (h.secondCause i o) (h.decideTeardown i o)

theorem afterMeasure (h : Keeps s t) (i : CtxIdx) : Keeps s (t.afterMeasure i) := by
  refine h.withCtx i fun c _ => ?_
  split
  · exact h.startRetreat i
  · exact h.startDarkJump i
  · exact h
  · exact h

theorem causeOnOutPort (h : Keeps s t) (p : PortNo) (o : TeardownOrder) :
    Keeps s (t.causeOnOutPort p o) :=
  h.foldl _ (fun u i => (refl u).withCtx i fun _ _ =>
    ite ((refl u).causeReaches i o) (refl u)) _

theorem causeOnInPort (h : Keeps s t) (d : DegreeNo) (o : TeardownOrder) :
    Keeps s (t.causeOnInPort d o) :=
  h.foldl _ (fun u i => (refl u).withCtx i fun _ _ =>
    ite ((refl u).causeReaches i o) (refl u)) _

theorem adjacencyLost (h : Keeps s t) (d : DegreeNo) : Keeps s (t.adjacencyLost d) :=
  h.foldl _ (fun u i => (refl u).withCtx i fun _ _ =>
    ite ((refl u).causeReaches i _) (ite ((refl u).causeReaches i _) (refl u))) _

theorem clearContext (h : Keeps s t) (p : PortNo) (i : CtxIdx) :
    Keeps s (State.clearContext p t i) :=
  h.withCtx i fun _ _ => ite (h.decideTeardown i _) h

/-! ### The step timer -/

theorem freeze (h : Keeps s t) (p : PortNo) : Keeps s (t.freeze p) := by
  refine ite h (report (onPort h p _ ?_ ?_) _)
  · exact { PortKeeps.refl (t.port p) with frozen := fun _ => rfl }
  · exact fun _ hr => hr

theorem freezeIf (h : Keeps s t) (p : PortNo) (b : Bool) : Keeps s (t.freezeIf p b) :=
  ite (h.freeze p) h

theorem abortAtStepEnd (h : Keeps s t) (i : CtxIdx) (r : Reason) :
    Keeps s (t.abortAtStepEnd i r) := by
  refine h.withCtx i fun c _ => ?_
  have k := h.recordTeardown i c (t.localAbort r) (t.wayFor c (t.localAbort r))
  dsimp only
  split
  · exact (k.beginRetreat i).joinRetreat i false
  · exact k.sendClose i
  · exact k

theorem completeStepping (h : Keeps s t) (i : CtxIdx) : Keeps s (t.completeStepping i) := by
  refine h.withCtx i fun c _ => ?_
  split
  · exact h.completeRamp i
  · exact h.finishTrim i
  · exact h.sendClose i
  · exact h

theorem lookThenGrant (h : Keeps s t) (p : PortNo) : Keeps s (t.lookThenGrant p) :=
  (h.lookForQuiet p false).considerGrant p

theorem tenureTests (h : Keeps s t) (p : PortNo) (i : CtxIdx) : Keeps s (t.tenureTests p i) := by
  refine h.withCtx i fun c _ => ?_
  have k := h.freeSlot p
  exact ite ((k.completeStepping i).lookThenGrant p)
    (ite (lookThenGrant (setQueue k p _ _) p)
      (ite (lookThenGrant (setQueue k p _ _) p) ((h.lookForQuiet p false).takeStep p)))

theorem endStep (h : Keeps s t) (p : PortNo) (i : CtxIdx) (e : StepEnd) (b : Bool) :
    Keeps s (t.endStep p i e b) := by
  have k := h.clearStep p
  have kf := k.freeSlot p
  have kd := kf.clearRetreatDue p false
  have retreat := (((kd.freezeIf p b).beginRetreat i).joinRetreat i false).lookThenGrant p
  unfold State.endStep
  dsimp only
  split
  · refine lookThenGrant (sendClose (quietly kd i _ ?_) i) p
    · exact fun _ => rfl
  · exact ((kf.abortAtStepEnd i _).freezeIf p b).lookThenGrant p
  · exact ((kf.haltTrim i).freezeIf p b).lookThenGrant p
  · exact k.tenureTests p i
  · exact retreat

theorem setAnswered (h : Keeps s t) (i : CtxIdx) : Keeps s (t.setAnswered i) :=
  quietly h i _ fun _ => rfl

theorem setConfirmed (h : Keeps s t) (p : PortNo) (i : CtxIdx) {a : Nat}
    (ha : t.inRange → a ≤ 2500) : Keeps s (t.setConfirmed p i a) := by
  refine onPort (onCtx h i _ ?_ ?_) p _ ?_ ?_
  · exact fun _ => rfl
  · intro c ht _ hc
    obtain ⟨⟨-, h2⟩, hx⟩ := hc
    exact ⟨⟨by intro y hy; cases hy; exact ha ht, h2⟩, hx⟩
  · exact { PortKeeps.refl _ with }
  · exact fun _ hr => hr

theorem setFailed (h : Keeps s t) (p : PortNo) (i : CtxIdx) : Keeps s (t.setFailed p i) :=
  h.withCtx i fun _ _ => (h.setAnswered i).endStep p i _ _

theorem actuationExpired (h : Keeps s t) (p : PortNo) (i : CtxIdx) :
    Keeps s (t.actuationExpired p i) := by
  refine h.withCtx i fun c _ => ?_
  refine endStep (onCtx h i _ ?_ ?_) p i _ _
  · exact fun _ => rfl
  · intro c ht _ hc
    obtain ⟨⟨h1, h2⟩, hx⟩ := hc
    refine ⟨⟨?_, h2⟩, hx⟩
    intro y hy
    cases ha : (t.port p).requested with
    | none => exact h1 y (by simpa [ha] using hy)
    | some a =>
      have : a = y := by simpa [ha] using hy
      exact this ▸ (ht.2.2.1 p).2.2.2.2.1 a ha

theorem observationExpired (h : Keeps s t) (p : PortNo) (i : CtxIdx) :
    Keeps s (t.observationExpired p i) := by
  refine h.withCtx i fun c _ => ?_
  have k := h.setAnswered i
  refine ite (endStep (onCtx k i _ ?_ ?_) p i _ _) (k.endStep p i _ _)
  · exact Context.afterClean_same
  · exact fun c _ _ hc => c.afterClean_inRange hc

theorem settle (h : Keeps s t) (p : PortNo) (i : CtxIdx) (dp : Nat) : Keeps s (t.settle p i dp) := by
  refine h.withCtx i fun c _ => ?_
  dsimp only
  have time_le := saturate_le (t.elapsed - (t.port p).confirmMark.getD t.elapsed)
  generalize saturate (t.elapsed - (t.port p).confirmMark.getD t.elapsed) = time at time_le ⊢
  generalize judge (t.port p).params.gOk (t.port p).params.gAbort dp = v
  have k : Keeps s ((t.onPort p fun ps => { ps with slowest := max ps.slowest time }).onCtx i
      fun c => { c with slowest := max c.slowest time, outstanding := none }.afterVerdict v) := by
    refine onCtx (onPort h p _ ?_ ?_) i _ ?_ ?_
    · exact { PortKeeps.refl (t.port p) with }
    · intro _ hr
      obtain ⟨r1, r2, r3, r4, r5, r6, r7, r8⟩ := hr
      exact ⟨r1, r2, r3, r4, r5, r6, Nat.max_le.2 ⟨r7, time_le⟩, r8⟩
    · intro c
      exact SameIdentity.trans rfl (Context.afterVerdict_same _ _)
    · intro c _ _ hc
      apply Context.afterVerdict_inRange
      obtain ⟨⟨h1, h2, h3, h4, h5, h6, h7, h8, h9, ha⟩, hx⟩ := hc
      exact ⟨⟨h1, h2, h3, h4, h5, h6, h7, h8, Nat.max_le.2 ⟨h9, time_le⟩, ha⟩, hx⟩
  refine ite ?_ (k.endStep p i _ _)
  split
  · exact k.endStep p i _ _
  · exact k.endStep p i _ _
  · exact k.endStep p i _ _
  · exact k.endStep p i _ _

theorem extend (h : Keeps s t) (p : PortNo) (k : Nat) : Keeps s (t.extend p k) := by
  unfold State.extend
  split
  · exact h
  · rename_i x hx
    refine h.onPort p _ { PortKeeps.refl (t.port p) with } fun _ hr => ?_
    obtain ⟨r1, r2, r3, r4, r5, r6, r7, r8, r9⟩ := hr
    have cap := (r8 x hx).2.2.2
    exact ⟨r1, r2, r3, r4, r5, r6, r7, r8, by dsimp only; omega⟩

/-! ### The adjacency monitor -/

theorem adjacencyRecord (h : Keeps s t) (d : DegreeNo) : Keeps s (t.adjacencyRecord d) := h.report _

theorem sendHello (h : Keeps s t) (d : DegreeNo) : Keeps s (t.sendHello d) := by
  unfold State.sendHello
  dsimp only
  split
  · exact h.sendTo _ _ _
  · exact h.sendTo _ _ _
  · exact h

theorem armHello (h : Keeps s t) (d : DegreeNo) : Keeps s (t.armHello d) :=
  h.onDegree d _ (fun x => { DegreeKeeps.refl x with }) fun _ hr => hr

theorem enterProbing (h : Keeps s t) (d : DegreeNo) : Keeps s (t.enterProbing d) := by
  refine adjacencyRecord (armHello (sendHello (onDegree h d _ ?_ ?_) d) d) d
  · exact fun x => { DegreeKeeps.refl x with }
  · exact fun _ hr => hr

theorem enterRecovery (h : Keeps s t) (d : DegreeNo) : Keeps s (t.enterRecovery d) := by
  refine adjacencyLost (adjacencyRecord (onDegree h d _ ?_ ?_) d) d
  · exact fun x => { DegreeKeeps.refl x with }
  · exact fun _ hr => ⟨hr.1, .nil, hr.2.2⟩

theorem enterDown (h : Keeps s t) (d : DegreeNo) : Keeps s (t.enterDown d) := by
  refine ite h (adjacencyRecord (onDegree h d _ ?_ ?_) d)
  · exact fun x => { DegreeKeeps.refl x with }
  · exact fun _ hr => ⟨hr.1, .nil, hr.2.2⟩

theorem sendQuery (h : Keeps s t) (d : DegreeNo) {k : Nat} (hk : t.part.identAttempts ≤ 8 → k ≤ 8) :
    Keeps s (t.sendQuery d k) := by
  have sent := sendPath (.refl t) d .identQuery
  refine onDegree (h.trans sent) d _ ?_ ?_
  · exact fun x => { DegreeKeeps.refl x with }
  · intro ht hr
    obtain ⟨-, -, -, -, ⟨-, hm⟩, -⟩ := ht.1
    exact ⟨hr.1, hr.2.1, hr.2.2.1, hk (sent.part ▸ hm)⟩

theorem startQuery (h : Keeps s t) (d : DegreeNo) : Keeps s (t.startQuery d) := by
  refine sendQuery (onDegree h d _ ?_ ?_) d fun _ => by omega
  · exact fun x => { DegreeKeeps.refl x with }
  · exact fun _ hr => hr

theorem endQuery (h : Keeps s t) (d : DegreeNo) (v : Verif) : Keeps s (t.endQuery d v) := by
  refine adjacencyRecord (onDegree h d _ ?_ ?_) d
  · exact fun x => { DegreeKeeps.refl x with }
  · exact fun _ hr => hr

theorem spendQuery (h : Keeps s t) (d : DegreeNo) : Keeps s (t.spendQuery d) := by
  unfold State.spendQuery
  dsimp only
  split
  · exact h.sendQuery d fun hm => by omega
  · exact h.endQuery d _

theorem takeAck (h : Keeps s t) (d : DegreeNo) (os : List IdentObject) : Keeps s (t.takeAck d os) := by
  unfold State.takeAck
  split
  · refine endQuery (onDegree h d _ ?_ ?_) d _
    · exact fun x => { DegreeKeeps.refl x with }
    · exact fun _ hr => ⟨hr.1, hr.2.1, List.length_take_le _ _, hr.2.2.2⟩
  · exact h.endQuery d _

theorem answerQuery (h : Keeps s t) (d : DegreeNo) (src : NodeId) : Keeps s (t.answerQuery d src) :=
  ite (h.sendTo _ _ _) (h.sendTo _ _ _)

/-- A set of ports is ascending, each once (R43). -/
theorem portSet_ascending (us : List Nat) : (portSet us).Pairwise (· < ·) :=
  .filter _ (List.pairwise_lt_finRange 12)

theorem refreshNeighbour (h : Keeps s t) (d : DegreeNo) (full : Bool) (us : List Nat) :
    Keeps s (t.refreshNeighbour d full us) := by
  refine h.onDegree d _ (fun x => { DegreeKeeps.refl x with }) fun _ hr => ?_
  exact ⟨hr.1, portSet_ascending us, hr.2.2⟩

theorem takeHello (h : Keeps s t) (d : DegreeNo) (src : NodeId) (sd : DegreeNo) (sender : AdjState)
    (full : Bool) (us : List Nat) : Keeps s (t.takeHello d src sd sender full us) := by
  unfold State.takeHello
  split
  · rename_i valid
    have node : isNode src := by
      simp only [State.helloValid, nodeInRange, Bool.and_eq_true, decide_eq_true_eq] at valid
      exact valid.1.1.1
    split
    · refine adjacencyRecord (startQuery (refreshNeighbour (onDegree h d _ ?_ ?_) d full us) d) d
      · exact fun x => { DegreeKeeps.refl x with }
      · exact fun _ hr => ⟨by intro n hn; cases hn; exact node, hr.2.1, Nat.zero_le _, hr.2.2.2⟩
    · refine ite (h.enterRecovery d) (ite (h.enterRecovery d)
        (onDegree (refreshNeighbour h d full us) d _ ?_ ?_))
      · exact fun x => { DegreeKeeps.refl x with }
      · exact fun _ hr => hr
    · exact h
    · exact h
  · exact h

/-! ### Path messages for a context -/

theorem unknownPath (h : Keeps s t) (d : DegreeNo) (path : PathId) : Keeps s (t.unknownPath d path) :=
  h.sendPath _ _

theorem endOffer (h : Keeps s t) (i : CtxIdx) (r : Reason) : Keeps s (t.endOffer i r) := by
  refine h.withCtx i fun c _ => ?_
  refine endFreed (sendDownstream (sendUpstream (quietly h i _ ?_) _ _) _ _) i
  · exact fun _ => rfl

/-- An ACCEPT of one of the candidates, with a cost of one byte (R71, R72, log 8). -/
theorem acceptRange (h : Keeps s t) (i : CtxIdx) {first cost : Nat} (hcost : cost ≤ 255)
    (hf : ∀ c, t.ctx i = some c → ∃ x ∈ c.candidates.getD [], x.s = first) :
    Keeps s (t.acceptRange i first cost) := by
  have k : Keeps t ((t.mapReserveFromHold i first).onCtx i fun c =>
      { c with candidates := none, chosen := some first, totalCost := some cost, timer := none }) := by
    have reserved := mapReserveFromHold (.refl t) i first
    have same : (t.mapReserveFromHold i first).ctx i = t.ctx i := by
      unfold State.mapReserveFromHold State.claim
      cases hc : t.ctx i with
      | none => rw [State.withCtx_none hc, hc]
      | some c => rw [State.withCtx_some hc]; split <;> simp [hc]
    refine reserved.onCtx i _ (fun _ => rfl) fun c _ hc hr => ?_
    obtain ⟨x, hx, rfl⟩ := hf c (same ▸ hc)
    obtain ⟨hp, hid, hs, -, -⟩ := hr
    refine ⟨hp, hid, nofun, ?_, by intro y hy; cases hy; exact hcost⟩
    intro f hff
    cases hff
    cases hl : c.candidates with
    | none => simp [hl] at hx
    | some l => exact ((hs l hl).2.2 x (by simpa [hl] using hx)).1
  refine h.withCtx i fun c _ => ?_
  dsimp only
  split
  · exact h.trans (k.enterPreparing i)
  all_goals
    refine h.trans (sendUpstream (armCtx (quietly k i _ ?_) _ _) _ _)
    exact fun _ => rfl

theorem takeAccept (h : Keeps s t) (d : DegreeNo) (path : PathId) (first : Nat) {cost : Nat}
    (hcost : cost ≤ 255) : Keeps s (t.takeAccept d path first cost) := by
  unfold State.takeAccept
  split
  · exact h.unknownPath d path
  · refine h.withCtx _ fun c hc => ?_
    split
    · split
      · rename_i hany
        refine h.acceptRange _ hcost fun c' hc' => ?_
        obtain rfl : c = c' := by rw [hc] at hc'; exact Option.some.inj hc'
        simpa using hany
      · exact h.endOffer _ _
    · exact h

theorem takeDecline (h : Keeps s t) (d : DegreeNo) (path : PathId) (r : Reason) (o : NodeId) :
    Keeps s (t.takeDecline d path r o) := by
  unfold State.takeDecline
  split
  · exact h
  · refine h.withCtx _ fun _ _ => ite (sendUpstream (endFreed (quietly h _ _ ?_) _) _ _) h
    · exact fun _ => rfl

theorem takeLight (h : Keeps s t) (d : DegreeNo) (path : PathId) : Keeps s (t.takeLight d path) := by
  unfold State.takeLight
  split
  · exact h.unknownPath d path
  · exact h.withCtx _ fun _ _ => ite (h.enterPreparing _) h

theorem takeLit (h : Keeps s t) (d : DegreeNo) (path : PathId) : Keeps s (t.takeLit d path) := by
  unfold State.takeLit
  split
  · exact h
  · exact h.withCtx _ fun _ _ => ite ((h.enterInService _).sendUpstream _ _) h

theorem takeRelease (h : Keeps s t) (d : DegreeNo) (path : PathId) :
    Keeps s (t.takeRelease d path) := by
  unfold State.takeRelease
  split
  · exact h
  · exact h.withCtx _ fun _ _ => ite (h.causeReaches _ _) h

/-! ### Reports -/

theorem openConfirmed (h : Keeps s t) (i : CtxIdx) : Keeps s (t.openConfirmed i) := by
  refine h.withCtx i fun c _ => ?_
  refine sendMeasure (onCtx (h.mapOpen i _) i _ ?_ ?_) i fun _ => by omega
  · exact fun _ => rfl
  · rintro c - - ⟨⟨-, h2⟩, hx⟩
    exact ⟨⟨by intro y hy; cases hy; exact Nat.le_refl _, h2⟩, hx⟩

theorem openFailed (h : Keeps s t) (i : CtxIdx) (r : Reason) : Keeps s (t.openFailed i r) := by
  refine decideTeardown (quietly h i _ ?_) i _
  · exact fun _ => rfl

theorem closeConfirmed (h : Keeps s t) (i : CtxIdx) : Keeps s (t.closeConfirmed i) := by
  refine endFreed (onCtx h i _ ?_ ?_) i
  · exact fun _ => rfl
  · rintro c - - ⟨⟨-, h2⟩, hx⟩
    exact ⟨⟨by intro y hy; cases hy; exact Nat.le_refl _, h2⟩, hx⟩

theorem actuatedOn (h : Keeps s t) (p : PortNo) (i : CtxIdx) (tag : Byte) (done : Bool) (x : Int) :
    Keeps s (t.actuatedOn p i tag done x) := by
  unfold State.actuatedOn State.ifMatched
  split
  · dsimp only
    split
    · unfold State.actuatedFor
      split
      · exact ite (h.openConfirmed i) (h.openFailed i _)
      · exact ite (h.closeConfirmed i) (h.endBlocked i)
      · split
        · exact ite (h.setConfirmed p i fun ht => (ht.2.2.1 p).2.2.2.2.1 _ ‹_›) (h.setFailed p i)
        · exact h
      · exact h
    · exact h
  · exact h

theorem attemptEnded (h : Keeps s t) (i : CtxIdx) : Keeps s (t.attemptEnded i) := by
  refine h.withCtx i fun _ _ => ite (afterMeasure (quietly h i _ ?_) i) (h.spendAttempt i)
  · exact fun _ => rfl

theorem powerFor (h : Keeps s t) (i : CtxIdx) (x : Int) : Keeps s (t.powerFor i x) := by
  refine h.withCtx i fun c _ => ?_
  split
  · rename_i hx
    have k : Keeps s (t.onCtx i fun c =>
        { c with power := some (clampPower x), outstanding := none, timer := none }) := by
      refine onCtx h i _ ?_ ?_
      · exact fun _ => rfl
      · rintro c - - ⟨⟨h1, h2, -, h4⟩, hz⟩
        exact ⟨⟨h1, h2, by intro y hy; cases hy; exact ⟨hx, by unfold clampPower; omega⟩, h4⟩, hz⟩
    exact ite (k.afterMeasure i) (k.useMeasurement i)
  · exact h.attemptEnded i

end Keeps

end Sys2Proof.Machine
end

