-- ==== Sys2Proof/Laws/Around.lean ====
section
/-! SUPPORT. What an event around one context on one port may change while no swap is pending there:
`onlyAround`, shown of every operation of an ending and of teardown. -/

namespace Sys2Proof.Machine

open Sys2Proof

variable {s t : State} {p : PortNo} {i : CtxIdx}

theorem otherPortsSend_refl (s : State) (p : PortNo) : otherPortsSend s s p :=
  ⟨fun _ _ => rfl, fun _ => ⟨[], by simp⟩⟩

theorem otherPortsSend_trans {u : State} (h : otherPortsSend s t p) (h' : otherPortsSend t u p) :
    otherPortsSend s u p := by
  refine ⟨fun q hq => ?_, fun q => ?_⟩
  · have a := h.1 q hq
    have b := h'.1 q hq
    unfold samePortButOut at *
    rw [← a, ← b]
  · obtain ⟨fs, hf⟩ := h.2 q
    obtain ⟨gs, hg⟩ := h'.2 q
    exact ⟨fs ++ gs, by rw [hg, hf, List.append_assoc]⟩

theorem onlyAround_refl (s : State) (p : PortNo) (i : CtxIdx) : onlyAround s s p i :=
  ⟨fun _ _ => rfl, rfl, otherPortsSend_refl s p, fun _ => rfl, rfl⟩

/-- Two such changes one after the other. -/
theorem onlyAround_trans {u : State} (h : onlyAround s t p i) (h' : onlyAround t u p i) :
    onlyAround s u p i := by
  obtain ⟨c1, p1, o1, d1, r1⟩ := h
  obtain ⟨c2, p2, o2, d2, r2⟩ := h'
  refine ⟨fun j hj => (c2 j hj).trans (c1 j hj), ?_, otherPortsSend_trans o1 o2, fun d => ?_, ?_⟩
  · rw [← p1, ← p2]
  · rw [← d1 d, ← d2 d]
  · unfold sameOutside at *
    rw [← r1, ← r2]

/-- No swap becomes pending. -/
theorem onlyAround_swapPending (h : onlyAround s t p i) :
    (t.port p).swapPending = (s.port p).swapPending := by
  have := congrArg PortState.swapPending h.2.1
  simpa [PortState.stepless] using this

namespace onlyAround

/-! ### The updates -/

theorem onRecord (h : onlyAround s t p i) (f : Record → Record) :
    onlyAround s (t.onRecord i f) p i := by
  refine onlyAround_trans h ⟨fun j hj => ?_, rfl, otherPortsSend_refl t p, fun _ => rfl, rfl⟩
  simp [State.ctx, State.record_onRecord_other _ _ hj]

theorem onCtx (h : onlyAround s t p i) (f : Context → Context) : onlyAround s (t.onCtx i f) p i :=
  onRecord h _

/-- A change of a context that a step may make. -/
theorem onCtx_step (h : onlyAround s t p i) (j : CtxIdx) (f : Context → Context)
    (hf : ∀ c : Context, (f c).stepless = c.stepless) : onlyAround s (t.onCtx j f) p i := by
  refine onlyAround_trans h ⟨fun k _ => ?_, rfl, otherPortsSend_refl t p, fun _ => rfl, rfl⟩
  by_cases hk : k = j
  · subst hk
    rw [State.ctx_onCtx_same]
    cases t.ctx k <;> simp [hf]
  · rw [State.ctx_onCtx_other _ _ hk]

theorem advanceTag (h : onlyAround s t p i) (j : CtxIdx) : onlyAround s (t.advanceTag j) p i :=
  onlyAround_trans h ⟨fun k _ => by simp, rfl, otherPortsSend_refl t p, fun _ => rfl, rfl⟩

/-- A change of port `p` in its map, its arbiter or its step timer. -/
theorem onPort (h : onlyAround s t p i) (f : PortState → PortState)
    (hf : { (f (t.port p)).stepless with map := (t.port p).map } = (t.port p).stepless)
    (ho : (f (t.port p)).out = (t.port p).out) : onlyAround s (t.onPort p f) p i := by
  refine onlyAround_trans h ⟨fun _ _ => rfl, ?_, ⟨fun q hq => ?_, fun q => ⟨[], ?_⟩⟩, fun _ => rfl, rfl⟩
  · simpa using hf
  · rw [State.port_onPort_other _ _ hq]; rfl
  · by_cases hq : q = p
    · subst hq; simp [ho]
    · rw [State.port_onPort_other _ _ hq]; simp

theorem emit (h : onlyAround s t p i) (q : PortNo) (o : OutFrame) :
    onlyAround s (t.emit q o) p i := by
  refine onlyAround_trans h ⟨fun _ _ => rfl, ?_, ⟨fun r _ => ?_, fun r => ?_⟩, fun _ => rfl, rfl⟩
  · by_cases hq : p = q
    · subst hq; simp [State.emit]; rfl
    · simp only [State.emit]; rw [State.port_onPort_other _ _ hq]; rfl
  · by_cases hr : r = q
    · subst hr; simp [State.emit, samePortButOut]
    · simp only [State.emit]; rw [State.port_onPort_other _ _ hr]; rfl
  · by_cases hr : r = q
    · subst hr; exact ⟨[o], by simp [State.emit]⟩
    · exact ⟨[], by simp only [State.emit]; rw [State.port_onPort_other _ _ hr]; simp⟩

theorem onDegree_hold (h : onlyAround s t p i) (d : DegreeNo) (x : Option Nat) :
    onlyAround s (t.onDegree d fun y => { y with lampHold := x }) p i := by
  refine onlyAround_trans h ⟨fun _ _ => rfl, rfl, otherPortsSend_refl t p, fun e => ?_, rfl⟩
  by_cases he : e = d
  · subst he; simp
  · rw [State.degree_onDegree_other _ _ he]

theorem report (h : onlyAround s t p i) (r : RingRecord) : onlyAround s (t.report r) p i := by
  refine onlyAround_trans h ?_
  unfold State.report
  split <;> exact ⟨fun _ _ => rfl, rfl, otherPortsSend_refl t p, fun _ => rfl, rfl⟩

/-! ### Composition -/

theorem withCtx (h : onlyAround s t p i) (j : CtxIdx) {f : Context → State}
    (hf : ∀ c, t.ctx j = some c → onlyAround s (f c) p i) : onlyAround s (t.withCtx j f) p i := by
  unfold State.withCtx
  split
  · exact hf _ ‹_›
  · exact h

theorem ite {q : Prop} [Decidable q] {a b : State} (ha : onlyAround s a p i)
    (hb : onlyAround s b p i) : onlyAround s (if q then a else b) p i := by
  split <;> assumption

/-! ### Sending -/

theorem armCtx (h : onlyAround s t p i) (ms : Nat) : onlyAround s (t.armCtx i ms) p i := h.onCtx _

theorem sendTo (h : onlyAround s t p i) (d : DegreeNo) (dest : NodeId) (m : PeerMsg) :
    onlyAround s (t.sendTo d dest m) p i := ite (h.emit _ _) h

theorem sendPath (h : onlyAround s t p i) (d : DegreeNo) (m : PeerMsg) :
    onlyAround s (t.sendPath d m) p i := by
  unfold State.sendPath
  split
  · exact h.sendTo _ _ _
  · exact h

theorem sendUpstream (h : onlyAround s t p i) (c : Context) (m : PeerMsg) :
    onlyAround s (t.sendUpstream c m) p i := by
  unfold State.sendUpstream
  split
  · exact h.sendPath _ _
  · exact h

theorem sendDownstream (h : onlyAround s t p i) (c : Context) (m : PeerMsg) :
    onlyAround s (t.sendDownstream c m) p i := by
  unfold State.sendDownstream
  split
  · exact h.sendPath _ _
  · exact h

theorem sendRequest (h : onlyAround s t p i) (j : CtxIdx) (k : ReqKind) (att : Nat) :
    onlyAround s (t.sendRequest j k att) p i := by
  refine h.withCtx j fun c _ => ?_
  split
  · exact h
  · exact emit (onCtx_step (h.advanceTag j) j (fun c => { c with outstanding := some k })
      fun _ => rfl) _ _

/-! ### The arbiter -/

theorem takeStep (h : onlyAround s t p i) : onlyAround s (t.takeStep p) p i := by
  unfold State.takeStep
  split
  · exact h
  · refine h.withCtx _ fun c _ => ?_
    split
    · exact h
    · exact onCtx_step (onPort (sendRequest (onPort h _ rfl rfl) _ _ _) _ rfl rfl) _ _ fun _ => rfl

theorem grantTo (h : onlyAround s t p i) (q : QueueSel) : onlyAround s (t.grantTo p q) p i := by
  unfold State.grantTo
  split
  · exact h
  · exact takeStep (onPort h _ (by cases q <;> rfl) (by cases q <;> rfl))

theorem considerGrant (h : onlyAround s t p i) : onlyAround s (t.considerGrant p) p i := by
  unfold State.considerGrant
  dsimp only
  split
  · split
    · exact h.grantTo _
    · exact h
  · exact h

theorem setQueue (h : onlyAround s t p i) (q : QueueSel) (f : PortState → List CtxIdx) :
    onlyAround s (t.onPort p fun ps => ps.setQueue q (f ps)) p i :=
  h.onPort _ (by cases q <;> rfl) (by cases q <;> rfl)

theorem join (h : onlyAround s t p i) (q : QueueSel) (j : CtxIdx) (grant : Bool) :
    onlyAround s (t.join p q j grant) p i := by
  unfold State.join
  dsimp only
  split
  · exact (h.setQueue q _).considerGrant
  · exact h.setQueue q _

theorem leaveQueues (h : onlyAround s t p i) (j : CtxIdx) : onlyAround s (t.leaveQueues p j) p i :=
  h.onPort _ rfl rfl

theorem clearStep (h : onlyAround s t p i) : onlyAround s (t.clearStep p) p i := by
  unfold State.clearStep
  dsimp only
  have k : onlyAround s (t.onPort p PortState.clearedStep) p i := h.onPort _ rfl rfl
  split
  · exact k.onDegree_hold _ _
  · exact k

theorem freeSlot (h : onlyAround s t p i) : onlyAround s (t.freeSlot p) p i := h.onPort _ rfl rfl

theorem mark (h : onlyAround s t p i) (b : Bool) :
    onlyAround s (t.onPort p fun ps => { ps with retreatDue := b }) p i := h.onPort _ rfl rfl

theorem mapFree (h : onlyAround s t p i) (j : CtxIdx) : onlyAround s (t.mapFree j p) p i :=
  h.onPort _ rfl rfl

theorem mapBlock (h : onlyAround s t p i) (j : CtxIdx) (first n : Nat) :
    onlyAround s (t.mapBlock j p first n) p i := h.onPort _ rfl rfl

/-! ### Looks for quiet, while no swap is pending -/

theorem lookForQuiet (h : onlyAround s t p i) (hs : (s.port p).swapPending = false) (g : Bool) :
    onlyAround s (t.lookForQuiet p g) p i := by
  have : (t.port p).swapPending = false := (onlyAround_swapPending h).trans hs
  simpa [State.lookForQuiet, this] using h

theorem lookAfter (h : onlyAround s t p i) (hs : (s.port p).swapPending = false) (c : Context)
    (hc : c.outPort = p) : onlyAround s (t.lookAfter c) p i := by
  unfold State.lookAfter
  subst hc
  exact ite (h.lookForQuiet hs _) h

/-! ### Lighting and teardown -/

theorem chooseBase (h : onlyAround s t p i) : onlyAround s (t.chooseBase i) p i :=
  h.withCtx i fun _ _ => ite (h.onCtx _) h

theorem enterPreparing (h : onlyAround s t p i) : onlyAround s (t.enterPreparing i) p i :=
  h.withCtx i fun _ _ => armCtx (sendRequest (h.onCtx _) i _ _) _

theorem sendMeasure (h : onlyAround s t p i) (k : Nat) : onlyAround s (t.sendMeasure i k) p i :=
  armCtx (onCtx (sendRequest h i _ _) _) _

theorem sendClose (h : onlyAround s t p i) : onlyAround s (t.sendClose i) p i :=
  h.withCtx i fun _ _ => armCtx (onCtx (sendRequest h i _ _) _) _

theorem enterTrimming (h : onlyAround s t p i) : onlyAround s (t.enterTrimming i) p i :=
  sendMeasure (h.onCtx _) _

theorem trimIfDue (h : onlyAround s t p i) : onlyAround s (t.trimIfDue i) p i :=
  h.withCtx i fun _ _ => ite h.enterTrimming h

theorem enterInService (h : onlyAround s t p i) : onlyAround s (t.enterInService i) p i :=
  h.withCtx i fun _ _ => trimIfDue (report (h.onCtx _) _)

theorem haltTrim (h : onlyAround s t p i) : onlyAround s (t.haltTrim i) p i :=
  h.withCtx i fun _ _ => trimIfDue (report (h.onCtx _) _)

theorem finishTrim (h : onlyAround s t p i) : onlyAround s (t.finishTrim i) p i :=
  h.withCtx i fun _ _ => trimIfDue (report (h.onCtx _) _)

theorem completeRamp (h : onlyAround s t p i) : onlyAround s (t.completeRamp i) p i := by
  refine h.withCtx i fun c _ => ?_
  have k : onlyAround s (t.onCtx i fun c => { c with kind := none }) p i := h.onCtx _
  dsimp only
  split
  · exact k.enterInService.sendUpstream _ _
  · exact sendDownstream (armCtx (k.onCtx _) _) _ _
  · exact sendDownstream (armCtx (k.onCtx _) _) _ _

theorem recordTeardown (h : onlyAround s t p i) (c : Context) (o : TeardownOrder) (w : Way) :
    onlyAround s (t.recordTeardown i c o w) p i := by
  unfold State.recordTeardown
  dsimp only
  split
  · exact ite (sendUpstream (h.onCtx _) _ _) (sendUpstream (h.onCtx _) _ _)
  · exact h.onCtx _

theorem abortPreparing (h : onlyAround s t p i) (r : Reason) :
    onlyAround s (t.abortPreparing i r) p i := by
  refine h.withCtx i fun c _ => ?_
  exact sendClose (ite (recordTeardown h _ _ _).chooseBase (recordTeardown h _ _ _))

/-! ### Ending -/

theorem sendNotice (h : onlyAround s t p i) (c : Context) : onlyAround s (t.sendNotice c) p i := by
  unfold State.sendNotice
  split
  · exact h.sendDownstream _ _
  · exact h.sendDownstream _ _
  · exact h
  · exact h

theorem releaseSlot (h : onlyAround s t p i) (j : CtxIdx) :
    onlyAround s (t.releaseSlot p j) p i := by
  unfold State.releaseSlot
  split
  · exact mark (freeSlot (ite h h.clearStep)) _
  · exact h

theorem writePathEnd (h : onlyAround s t p i) (c : Context) : onlyAround s (t.writePathEnd c) p i := by
  unfold State.writePathEnd
  split
  · exact h
  · exact h.report _

theorem finishEnding (h : onlyAround s t p i) (c : Context) (hc : c.outPort = p) :
    onlyAround s (t.finishEnding i c) p i := by
  unfold State.finishEnding
  subst hc
  exact onRecord (writePathEnd (releaseSlot (leaveQueues (h.sendNotice c) i) i) c) _

theorem afterEnding (h : onlyAround s t p i) (hs : (s.port p).swapPending = false) (c : Context)
    (hc : c.outPort = p) (b : PortState) : onlyAround s (t.afterEnding i c b) p i := by
  unfold State.afterEnding
  subst hc
  dsimp only
  have k : onlyAround s (if decide (b.holder = some i) = true then t.lookForQuiet c.outPort true
      else t.lookAfter c) c.outPort i := ite (h.lookForQuiet hs _) (h.lookAfter hs c rfl)
  exact ite k.considerGrant k

theorem endFreed (h : onlyAround s t p i) (hs : (s.port p).swapPending = false)
    (ho : ∀ c, t.ctx i = some c → c.outPort = p) : onlyAround s (t.endFreed i) p i := by
  refine h.withCtx i fun c hc => ?_
  have e := ho c hc
  exact afterEnding (finishEnding (e ▸ mapFree h i) c e) hs c e _

theorem endBlocked (h : onlyAround s t p i) (hs : (s.port p).swapPending = false)
    (ho : ∀ c, t.ctx i = some c → c.outPort = p) : onlyAround s (t.endBlocked i) p i := by
  refine h.withCtx i fun c hc => ?_
  have e := ho c hc
  refine afterEnding (report ?_ _) hs _ e _
  exact finishEnding (e ▸ mapBlock h i _ _) _ e

/-! ### Going dark -/

/-- Context `i` keeps its out-port. -/
theorem keepsOut {u : State} (h : Keeps t u) (ho : ∀ c, t.ctx i = some c → c.outPort = p) :
    ∀ c, u.ctx i = some c → c.outPort = p := by
  intro c hc
  obtain ⟨c0, h0, e⟩ := h.contexts i c hc
  exact e.outPort.trans (ho c0 h0)

theorem beginRetreat (h : onlyAround s t p i) (ho : ∀ c, t.ctx i = some c → c.outPort = p) :
    onlyAround s (t.beginRetreat i) p i := by
  refine h.withCtx i fun c hc => ?_
  have e := ho c hc
  subst e
  exact ite (sendClose (chooseBase (leaveQueues h i))) (onCtx (chooseBase (leaveQueues h i)) _)

theorem joinRetreat (h : onlyAround s t p i) (ho : ∀ c, t.ctx i = some c → c.outPort = p) (g : Bool) :
    onlyAround s (t.joinRetreat i g) p i := by
  refine h.withCtx i fun c hc => ?_
  have e := ho c hc
  subst e
  exact ite (h.join _ _ _) h

theorem startRetreat (h : onlyAround s t p i) (hs : (s.port p).swapPending = false)
    (ho : ∀ c, t.ctx i = some c → c.outPort = p) : onlyAround s (t.startRetreat i) p i := by
  refine h.withCtx i fun c hc => ?_
  have e := ho c hc
  subst e
  refine ite h.chooseBase (ite (h.mark true) ?_)
  have a := lookAfter (beginRetreat h ho) hs c rfl
  have k : Keeps t ((t.beginRetreat i).lookAfter c) :=
    Keeps.lookAfter (Keeps.beginRetreat (.refl t) i) c
  have b := joinRetreat a (keepsOut k ho) true
  exact ite b.considerGrant b

theorem abandonStep (h : onlyAround s t p i) (hs : (s.port p).swapPending = false) (c : Context)
    (hc : c.outPort = p) : onlyAround s (t.abandonStep i c) p i := by
  unfold State.abandonStep
  subst hc
  dsimp only
  exact considerGrant (lookAfter (sendClose (onCtx (freeSlot (onCtx (advanceTag
    (lookForQuiet (mark (clearStep h) false) hs true) i) _)) _)) hs c rfl)

theorem startDarkJump (h : onlyAround s t p i) (hs : (s.port p).swapPending = false)
    (ho : ∀ c, t.ctx i = some c → c.outPort = p) : onlyAround s (t.startDarkJump i) p i := by
  refine h.withCtx i fun c hc => ?_
  have e := ho c hc
  subst e
  refine ite h (ite (h.abandonStep hs c rfl) ?_)
  have a := lookAfter (sendClose (leaveQueues h i)) hs c rfl
  exact ite a.considerGrant a

theorem goDark (h : onlyAround s t p i) (hs : (s.port p).swapPending = false)
    (ho : ∀ c, t.ctx i = some c → c.outPort = p) (w : Way) : onlyAround s (t.goDark i w) p i := by
  unfold State.goDark
  split
  · exact h.endFreed hs ho
  · exact h.startRetreat hs ho
  · exact h.startDarkJump hs ho

/-- The first cause of a teardown (R153 to R156). -/
theorem decideTeardown (h : onlyAround s t p i) (hs : (s.port p).swapPending = false)
    (ho : ∀ c, t.ctx i = some c → c.outPort = p) (o : TeardownOrder) :
    onlyAround s (t.decideTeardown i o) p i := by
  refine h.withCtx i fun c hc => ?_
  have k := Keeps.recordTeardown (.refl t) i c o (t.wayFor c o)
  exact goDark (recordTeardown h c o _) hs (keepsOut k ho) _

theorem secondCause (h : onlyAround s t p i) (hs : (s.port p).swapPending = false)
    (ho : ∀ c, t.ctx i = some c → c.outPort = p) (o : TeardownOrder) :
    onlyAround s (t.secondCause i o) p i := by
  refine h.withCtx i fun c hc => ?_
  split
  · rename_i x hx
    refine ite ?_ h
    have k : Keeps t (t.onCtx i fun c => { c with teardown := some { x with way := .darkJump } }) :=
      Keeps.quietly (.refl t) i _ fun _ => rfl
    exact startDarkJump (h.onCtx _) hs (keepsOut k ho)
  · exact h

/-- A cause that reaches a context, first or second (R170). -/
theorem causeReaches (h : onlyAround s t p i) (hs : (s.port p).swapPending = false)
    (ho : ∀ c, t.ctx i = some c → c.outPort = p) (o : TeardownOrder) :
    onlyAround s (t.causeReaches i o) p i :=
  h.withCtx i fun _ _ => ite (h.secondCause hs ho o) (h.decideTeardown hs ho o)

end onlyAround

/-! ### A grant -/

/-- What the step of context `i` on port `p` may change: the step fields of its record, the arbiter and
the step timer of the port, and frames formed. -/
structure StepFrame (s t : State) (p : PortNo) (i : CtxIdx) : Prop where
  records : ∀ j, j ≠ i → t.record j = s.record j
  contexts : ∀ j, (t.ctx j).map Context.stepless = (s.ctx j).map Context.stepless
  port : (t.port p).stepless = (s.port p).stepless
  others : otherPortsSend s t p
  outside : { t with records := s.records, ports := s.ports } = s

namespace StepFrame

theorem refl (s : State) (p : PortNo) (i : CtxIdx) : StepFrame s s p i :=
  ⟨fun _ _ => rfl, fun _ => rfl, rfl, otherPortsSend_refl s p, rfl⟩

theorem trans {u : State} (h : StepFrame s t p i) (h' : StepFrame t u p i) : StepFrame s u p i where
  records j hj := (h'.records j hj).trans (h.records j hj)
  contexts j := (h'.contexts j).trans (h.contexts j)
  port := h'.port.trans h.port
  others := otherPortsSend_trans h.others h'.others
  outside := by
    have a := h.outside
    rw [← h'.outside] at a
    exact a

theorem onCtx (h : StepFrame s t p i) (f : Context → Context)
    (hf : ∀ c : Context, (f c).stepless = c.stepless) : StepFrame s (t.onCtx i f) p i := by
  refine h.trans ⟨fun j hj => ?_, fun j => ?_, rfl, otherPortsSend_refl t p, rfl⟩
  · exact State.record_onRecord_other _ _ hj
  · by_cases hj : j = i
    · subst hj
      rw [State.ctx_onCtx_same]
      cases t.ctx j <;> simp [hf]
    · rw [State.ctx_onCtx_other _ _ hj]

theorem advanceTag (h : StepFrame s t p i) : StepFrame s (t.advanceTag i) p i :=
  h.trans ⟨fun _ hj => State.record_onRecord_other _ _ hj, fun j => by simp, rfl,
    otherPortsSend_refl t p, rfl⟩

theorem onPort (h : StepFrame s t p i) (f : PortState → PortState)
    (hf : (f (t.port p)).stepless = (t.port p).stepless) (ho : (f (t.port p)).out = (t.port p).out) :
    StepFrame s (t.onPort p f) p i := by
  refine h.trans ⟨fun _ _ => rfl, fun _ => rfl, ?_, ⟨fun q hq => ?_, fun q => ⟨[], ?_⟩⟩, rfl⟩
  · simpa using hf
  · rw [State.port_onPort_other _ _ hq]; rfl
  · by_cases hq : q = p
    · subst hq; simp [ho]
    · rw [State.port_onPort_other _ _ hq]; simp

theorem emit (h : StepFrame s t p i) (q : PortNo) (o : OutFrame) : StepFrame s (t.emit q o) p i := by
  refine h.trans ⟨fun _ _ => rfl, fun _ => rfl, ?_, ⟨fun r _ => ?_, fun r => ?_⟩, rfl⟩
  · by_cases hq : p = q
    · subst hq; simp [State.emit]; rfl
    · simp only [State.emit]; rw [State.port_onPort_other _ _ hq]
  · by_cases hr : r = q
    · subst hr; simp [State.emit, samePortButOut]
    · simp only [State.emit]; rw [State.port_onPort_other _ _ hr]; rfl
  · by_cases hr : r = q
    · subst hr; exact ⟨[o], by simp [State.emit]⟩
    · exact ⟨[], by simp only [State.emit]; rw [State.port_onPort_other _ _ hr]; simp⟩

theorem sendRequest (h : StepFrame s t p i) (k : ReqKind) (att : Nat) :
    StepFrame s (t.sendRequest i k att) p i := by
  unfold State.sendRequest State.withCtx
  cases t.ctx i with
  | none => exact h
  | some c =>
    dsimp only
    split
    · exact h
    · exact emit (onCtx h.advanceTag (fun c => { c with outstanding := some k }) fun _ => rfl) _ _

end StepFrame

/-- A request leaves the holder of every port. -/
theorem State.sendRequest_holder (t : State) (j : CtxIdx) (k : ReqKind) (att : Nat) (p : PortNo) :
    ((t.sendRequest j k att).port p).holder = (t.port p).holder := by
  unfold State.sendRequest State.withCtx
  cases t.ctx j with
  | none => rfl
  | some c =>
    dsimp only
    split
    · rfl
    · by_cases hq : p = c.outPort
      · subst hq; simp [State.emit]
      · simp only [State.emit]; rw [State.port_onPort_other _ _ hq]; rfl

/-- What the taking of a step changes, and that it keeps the holder (R118). -/
theorem State.takeStep_frame (t : State) (p : PortNo) {i : CtxIdx} (hi : (t.port p).holder = some i) :
    StepFrame t (t.takeStep p) p i ∧ ((t.takeStep p).port p).holder = some i := by
  unfold State.takeStep State.withCtx
  simp only [hi]
  cases t.ctx i with
  | none => exact ⟨.refl _ _ _, hi⟩
  | some c =>
    dsimp only
    split
    · exact ⟨.refl _ _ _, hi⟩
    · refine ⟨StepFrame.onCtx (StepFrame.onPort (StepFrame.sendRequest (StepFrame.onPort
        (.refl t p i) _ rfl rfl) _ _) _ rfl rfl) _ fun _ => rfl, ?_⟩
      simp [State.sendRequest_holder, hi]

/-- The consideration of a grant, said once (R117, R118). -/
theorem State.considerGrant_afterGrant (s : State) (p : PortNo) : afterGrant s (s.considerGrant p) p := by
  unfold State.considerGrant
  dsimp only
  split
  case isFalse h =>
    have h' : ¬((s.port p).holder = none ∧ (s.port p).phase = .idle) := by simpa using h
    exact ⟨fun _ => rfl, fun a b => absurd ⟨a, b⟩ h', fun _ _ => rfl, fun _ => rfl, rfl,
      otherPortsSend_refl s p, rfl⟩
  case isTrue h =>
    have h' : (s.port p).holder = none ∧ (s.port p).phase = .idle := by simpa using h
    have grant : ∀ q i rest, (s.port p).queue q = i :: rest → (s.port p).served.head? = some i →
        afterGrant s (s.grantTo p q) p := by
      intro q i rest hq hs
      unfold State.grantTo
      simp only [hq]
      set u := s.onPort p fun ps => { ps.setQueue q rest with holder := some i, tenure := 0 } with hu
      have hi : (u.port p).holder = some i := by rw [hu]; simp
      obtain ⟨f, hh⟩ := State.takeStep_frame u p hi
      have g : StepFrame s (u.takeStep p) p i := by
        refine StepFrame.trans (StepFrame.onPort (.refl s p i) _ ?_ ?_) f
        · cases q <;> rfl
        · cases q <;> rfl
      refine ⟨fun n => absurd h' n, fun _ _ => by rw [hh, hs], fun j hj => ?_, g.contexts, g.port,
        g.others, g.outside⟩
      exact g.records j fun e => hj (by rw [hh, e])
    cases hr : (s.port p).retreatQ with
    | cons i rest =>
      have : (s.port p).nextQueue = some .retreat := by
        simp [PortState.nextQueue, PortState.serves, PortState.queue, hr]
      simp only [this]
      exact grant .retreat i rest hr (by simp [PortState.served, hr])
    | nil =>
      cases hf : (s.port p).frozen with
      | true =>
        have : (s.port p).nextQueue = none := by
          simp [PortState.nextQueue, PortState.serves, PortState.queue, hr, hf]
        simp only [this]
        exact ⟨fun _ => rfl, fun _ _ => by simp [PortState.served, hr, hf, h'.1], fun _ _ => rfl,
          fun _ => rfl, rfl, otherPortsSend_refl s p, rfl⟩
      | false =>
        cases ho : (s.port p).restoreQ with
        | cons i rest =>
          have : (s.port p).nextQueue = some .restore := by
            simp [PortState.nextQueue, PortState.serves, PortState.queue, hr, hf, ho]
          simp only [this]
          exact grant .restore i rest ho (by simp [PortState.served, hr, hf, ho])
        | nil =>
          cases hn : (s.port p).normalQ with
          | cons i rest =>
            have : (s.port p).nextQueue = some .normal := by
              simp [PortState.nextQueue, PortState.serves, PortState.queue, hr, hf, ho, hn]
            simp only [this]
            exact grant .normal i rest hn (by simp [PortState.served, hr, hf, ho, hn])
          | nil =>
            have : (s.port p).nextQueue = none := by
              simp [PortState.nextQueue, PortState.serves, PortState.queue, hr, hf, ho, hn]
            simp only [this]
            exact ⟨fun _ => rfl, fun _ _ => by simp [PortState.served, hr, hf, ho, hn, h'.1],
              fun _ _ => rfl, fun _ => rfl, rfl, otherPortsSend_refl s p, rfl⟩

end Sys2Proof.Machine
end

