-- ==== Sys2Proof/WellFormed.lean ====
section
/-! DEFINITION. Which commands are well formed. The operands that name a port, a degree or a context
are in range by their types; what is left is that an arrival brings at least one byte. -/

namespace Sys2Proof

/-- An arrival event brings at least one byte; every other command is well formed as it stands. -/
def Instr.wellFormed : Instr → Bool
  | .commandArrival bytes => !bytes.isEmpty
  | .peerFrameArrival _ bytes => !bytes.isEmpty
  | .controllerFrameArrival _ bytes => !bytes.isEmpty
  | .commission | .release | .retrim | .adopt | .sync | .block | .unblock | .profile | .swap
  | .thaw | .portclear | .setparam | .getparam | .readctx | .readmap | .readport | .readnbr
  | .readrpt | .identq | .settime | .reset _ | .offer _ | .accept _ | .decline _ | .light _
  | .lit _ | .releaseFromUpstream _ | .abortFromDownstream _ | .abortFromUpstream _ | .hello _
  | .identQuery _ | .identReply _ | .actuated _ | .power _ | .settled _ | .pendingUnits _
  | .continueUnit _ | .gain _ | .lineUp _ | .lineDown _ | .offerTimeout _ | .lightTimeout _
  | .openTimeout _ | .measureTimeout _ | .litTimeout _ | .closeTimeout _
  | .actuationWindowExpiry _ | .observationWindowExpiry _ | .helloTimerExpiry _
  | .deadTimerExpiry _ | .recoveryTimerExpiry _ | .identTimerExpiry _ | .lampFastHoldExpiry _
  | .timeBaseTick | .resetPinAssert | .resetPinRelease _ | .unknownPeerKindTaken _
  | .unknownCommandKind => true

end Sys2Proof
end

