-- ==== Sys2Proof/Laws/PerInstr.lean ====
section
/-! SUPPORT. One law about every command as syntax: it is well formed unless it is an arrival of no
bytes. -/

namespace Sys2Proof.Laws.Row

/-- The bytes that an arrival brings; the other commands bring none and carry no such list. -/
def arrivalBytes : Instr → Option (List Byte)
  | .commandArrival bytes => some bytes
  | .peerFrameArrival _ bytes => some bytes
  | .controllerFrameArrival _ bytes => some bytes
  | .commission | .release | .retrim | .adopt | .sync | .block | .unblock | .profile | .swap
  | .thaw | .portclear | .setparam | .getparam | .readctx | .readmap | .readport | .readnbr
  | .readrpt | .identq | .settime | .reset _ | .offer _ | .accept _ | .decline _ | .light _
  | .lit _ | .releaseFromUpstream _ | .abortFromDownstream _ | .abortFromUpstream _ | .hello _
  | .identQuery _ | .identReply _ | .actuated _ | .power _ | .settled _ | .pendingUnits _
  | .continueUnit _ | .gain _ | .lineUp _ | .lineDown _ | .offerTimeout _ | .lightTimeout _
  | .openTimeout _ | .measureTimeout _ | .litTimeout _ | .closeTimeout _
  | .actuationWindowExpiry _ | .observationWindowExpiry _ | .helloTimerExpiry _
  | .deadTimerExpiry _ | .recoveryTimerExpiry _ | .identTimerExpiry _ | .lampFastHoldExpiry _
  | .timeBaseTick | .resetPinAssert | .resetPinRelease _ | .unknownPeerKindTaken _
  | .unknownCommandKind => none

/-- A command is ill formed exactly when it is an arrival of no bytes (R184: an event on a link brings
bytes). -/
def Statement (i : Instr) : Prop := i.wellFormed = false ↔ arrivalBytes i = some []

/-- A command that is well formed and brings no bytes of a link meets the statement. -/
theorem of_wellFormed {i : Instr} (h : i.wellFormed = true) (h' : arrivalBytes i = none) :
    Statement i := by
  unfold Statement
  rw [h, h']
  simp

/-- An arrival meets the statement. -/
theorem of_arrival {i : Instr} {bytes : List Byte} (h : i.wellFormed = !bytes.isEmpty)
    (h' : arrivalBytes i = some bytes) : Statement i := by
  unfold Statement
  rw [h, h']
  cases bytes <;> simp

theorem commission : Statement .commission :=
  of_wellFormed rfl rfl
theorem release : Statement .release :=
  of_wellFormed rfl rfl
theorem retrim : Statement .retrim :=
  of_wellFormed rfl rfl
theorem adopt : Statement .adopt :=
  of_wellFormed rfl rfl
theorem sync : Statement .sync :=
  of_wellFormed rfl rfl
theorem block : Statement .block :=
  of_wellFormed rfl rfl
theorem unblock : Statement .unblock :=
  of_wellFormed rfl rfl
theorem profile : Statement .profile :=
  of_wellFormed rfl rfl
theorem swap : Statement .swap :=
  of_wellFormed rfl rfl
theorem thaw : Statement .thaw :=
  of_wellFormed rfl rfl
theorem portclear : Statement .portclear :=
  of_wellFormed rfl rfl
theorem setparam : Statement .setparam :=
  of_wellFormed rfl rfl
theorem getparam : Statement .getparam :=
  of_wellFormed rfl rfl
theorem readctx : Statement .readctx :=
  of_wellFormed rfl rfl
theorem readmap : Statement .readmap :=
  of_wellFormed rfl rfl
theorem readport : Statement .readport :=
  of_wellFormed rfl rfl
theorem readnbr : Statement .readnbr :=
  of_wellFormed rfl rfl
theorem readrpt : Statement .readrpt :=
  of_wellFormed rfl rfl
theorem identq : Statement .identq :=
  of_wellFormed rfl rfl
theorem settime : Statement .settime :=
  of_wellFormed rfl rfl
theorem reset (straps : BitVec 13) : Statement (.reset straps) :=
  of_wellFormed rfl rfl
theorem commandArrival (bytes : List Byte) : Statement (.commandArrival bytes) :=
  of_arrival rfl rfl
theorem peerFrameArrival (link : PortNo) (bytes : List Byte) : Statement (.peerFrameArrival link bytes) :=
  of_arrival rfl rfl
theorem controllerFrameArrival (link : PortNo) (bytes : List Byte) : Statement (.controllerFrameArrival link bytes) :=
  of_arrival rfl rfl
theorem offer (d : DegreeNo) : Statement (.offer d) :=
  of_wellFormed rfl rfl
theorem accept (d : DegreeNo) : Statement (.accept d) :=
  of_wellFormed rfl rfl
theorem decline (d : DegreeNo) : Statement (.decline d) :=
  of_wellFormed rfl rfl
theorem light (d : DegreeNo) : Statement (.light d) :=
  of_wellFormed rfl rfl
theorem lit (d : DegreeNo) : Statement (.lit d) :=
  of_wellFormed rfl rfl
theorem releaseFromUpstream (d : DegreeNo) : Statement (.releaseFromUpstream d) :=
  of_wellFormed rfl rfl
theorem abortFromDownstream (d : DegreeNo) : Statement (.abortFromDownstream d) :=
  of_wellFormed rfl rfl
theorem abortFromUpstream (d : DegreeNo) : Statement (.abortFromUpstream d) :=
  of_wellFormed rfl rfl
theorem hello (d : DegreeNo) : Statement (.hello d) :=
  of_wellFormed rfl rfl
theorem identQuery (d : DegreeNo) : Statement (.identQuery d) :=
  of_wellFormed rfl rfl
theorem identReply (d : DegreeNo) : Statement (.identReply d) :=
  of_wellFormed rfl rfl
theorem actuated (p : PortNo) : Statement (.actuated p) :=
  of_wellFormed rfl rfl
theorem power (p : PortNo) : Statement (.power p) :=
  of_wellFormed rfl rfl
theorem settled (p : PortNo) : Statement (.settled p) :=
  of_wellFormed rfl rfl
theorem pendingUnits (p : PortNo) : Statement (.pendingUnits p) :=
  of_wellFormed rfl rfl
theorem continueUnit (p : PortNo) : Statement (.continueUnit p) :=
  of_wellFormed rfl rfl
theorem gain (p : PortNo) : Statement (.gain p) :=
  of_wellFormed rfl rfl
theorem lineUp (p : PortNo) : Statement (.lineUp p) :=
  of_wellFormed rfl rfl
theorem lineDown (p : PortNo) : Statement (.lineDown p) :=
  of_wellFormed rfl rfl
theorem offerTimeout (i : CtxIdx) : Statement (.offerTimeout i) :=
  of_wellFormed rfl rfl
theorem lightTimeout (i : CtxIdx) : Statement (.lightTimeout i) :=
  of_wellFormed rfl rfl
theorem openTimeout (i : CtxIdx) : Statement (.openTimeout i) :=
  of_wellFormed rfl rfl
theorem measureTimeout (i : CtxIdx) : Statement (.measureTimeout i) :=
  of_wellFormed rfl rfl
theorem litTimeout (i : CtxIdx) : Statement (.litTimeout i) :=
  of_wellFormed rfl rfl
theorem closeTimeout (i : CtxIdx) : Statement (.closeTimeout i) :=
  of_wellFormed rfl rfl
theorem actuationWindowExpiry (p : PortNo) : Statement (.actuationWindowExpiry p) :=
  of_wellFormed rfl rfl
theorem observationWindowExpiry (p : PortNo) : Statement (.observationWindowExpiry p) :=
  of_wellFormed rfl rfl
theorem helloTimerExpiry (d : DegreeNo) : Statement (.helloTimerExpiry d) :=
  of_wellFormed rfl rfl
theorem deadTimerExpiry (d : DegreeNo) : Statement (.deadTimerExpiry d) :=
  of_wellFormed rfl rfl
theorem recoveryTimerExpiry (d : DegreeNo) : Statement (.recoveryTimerExpiry d) :=
  of_wellFormed rfl rfl
theorem identTimerExpiry (d : DegreeNo) : Statement (.identTimerExpiry d) :=
  of_wellFormed rfl rfl
theorem lampFastHoldExpiry (d : DegreeNo) : Statement (.lampFastHoldExpiry d) :=
  of_wellFormed rfl rfl
theorem timeBaseTick : Statement .timeBaseTick :=
  of_wellFormed rfl rfl
theorem resetPinAssert : Statement .resetPinAssert :=
  of_wellFormed rfl rfl
theorem resetPinRelease (straps : BitVec 13) : Statement (.resetPinRelease straps) :=
  of_wellFormed rfl rfl
theorem unknownPeerKindTaken (d : DegreeNo) : Statement (.unknownPeerKindTaken d) :=
  of_wellFormed rfl rfl
theorem unknownCommandKind : Statement .unknownCommandKind :=
  of_wellFormed rfl rfl

end Sys2Proof.Laws.Row
end

