-- ==== Sys2Proof/Tests/Slice0.lean ====
section
/-! SUPPORT. Tests of the model on small states, with expected results worked out from spec/; the
refusals of ill-formed commands; and for each statement with hypotheses a state that meets them. -/

namespace Sys2Proof.Tests

-- each test is checked after the one before it, so that their evaluations do not add up in memory
set_option Elab.async false

open Sys2Proof Sys2Proof.Machine

/-! ### Small states -/

/-- A working node 1: degree 0 UP with neighbour 2 on its degree 3, degree 1 UP with neighbour 4 on its
degree 5, both Verified; ports 0, 1 and 8 SYNCED with their lines up and a gain of 10 dB. -/
def base : State :=
  let up : NodeId → DegreeNo → DegreeState → DegreeState := fun n e x =>
    { x with adj := .up, nbrId := some n, nbrDegree := some e, verif := .verified,
             helloTimer := some 100, deadTimer := some 400 }
  let live : PortState → PortState := fun x =>
    { x with synced := true, lineIsUp := true, gain := some 1000 }
  (((((State.resetWith 1).onDegree 0 (up 2 3)).onDegree 1 (up 4 5)).onPort 0 live).onPort 1 live).onPort
    8 live

/-- The state after a command; the state itself where the command does not answer a next state. -/
def after (c : Instr) (s : State) : State :=
  match exec c s with
  | .next t => t
  | .fault _ => s
  | .refused _ => s

/-- A command body waits. -/
def withCommand (s : State) (bytes : List Byte) : State := { s with commands := [bytes] }

/-- The result code of the last response. -/
def answer (s : State) : Option ResultCode := s.responses.getLast?.map (·.code)

/-- A peer frame waits on a degree. -/
def withPeer (s : State) (d : DegreeNo) (f : PeerFrame) : State :=
  s.onDegree d fun x => { x with peerQueue := [f.body] }

/-- A message from upstream, from node 2 on degree 0. -/
def fromUp (s : State) (m : PeerMsg) : State := withPeer s 0 ⟨1, 2, 3, m⟩

/-- A message from downstream, from node 4 on degree 1. -/
def fromDown (s : State) (m : PeerMsg) : State := withPeer s 1 ⟨1, 4, 5, m⟩

/-- A report waits on a port. -/
def withReport (s : State) (p : PortNo) (r : Report) : State :=
  s.onPort p fun x => { x with reports := [r] }

/-- The path of the tests: head node 2 for the roles TRANSIT and TAIL. -/
def onward : PathId := ⟨2, 9⟩

/-- The path of the tests whose head is this node. -/
def own : PathId := ⟨1, 9⟩

/-- A transit from degree 0 to degree 1, two slots wide from cell 10. -/
def transit (st : CtxState) : Context :=
  { newContext onward .transit .normal (.degree 0) 1 2 st 0 with
    tie := some .low, hop := some 2, remaining := some 2, chosen := some 10, totalCost := some 1 }

/-- A head from add group 0 to degree 1. -/
def headOf (st : CtxState) : Context :=
  { transit st with path := own, role := .head, inPort := .addGroup 0, hop := some 1 }

/-- A tail from degree 0 to drop group 8. -/
def tailOf (st : CtxState) : Context :=
  { transit st with role := .tail, outPort := 8, remaining := some 0 }

/-- Context 0, with its range on its out-port in state `cell`. -/
def holding (s : State) (c : Context) (cell : Cell) : State :=
  (s.putCtx 0 c).onPort c.outPort fun x =>
    { x with map := writeRange x.map 10 2 (fun _ => true) cell }

/-- A channel in a state whose range is Open, at attenuation `a`. -/
def litAt (c : Context) (a : Nat) : State := holding base { c with att := some a } (.opened 0)

/-- A step in flight: context 0 holds the slot of its out-port, and a SET for `req` is outstanding. -/
def stepping (c : Context) (a req : Nat) (ph : Phase) : State :=
  let s := litAt { c with target := some 900, base := some 200, stepSize := some 100,
                          outstanding := some .set } a
  s.onPort c.outPort fun x =>
    { x with holder := some 0, phase := ph, requested := some req, expiry := some 0, tenure := 1,
             settings := some ⟨50, 200, 100, 8⟩, confirmMark := some 0 }

/-- The kind of ramp set in a context. -/
def ofKind (c : Context) (k : RampKind) : Context := { c with kind := some k }

/-! ### Commands that are ill formed -/

theorem test_commandArrival_illFormed : (Instr.commandArrival []).wellFormed = false := by decide
theorem test_peerFrameArrival_illFormed : (Instr.peerFrameArrival 0 []).wellFormed = false := by
  decide
theorem test_controllerFrameArrival_illFormed :
    (Instr.controllerFrameArrival 0 []).wellFormed = false := by decide
theorem test_commandArrival_wellFormed : (Instr.commandArrival [0]).wellFormed = true := by decide

/-! ### Formats -/

/-- The check of the nine digits is 0x29B1 (R184). -/
theorem test_crc_digits :
    crc [0x31, 0x32, 0x33, 0x34, 0x35, 0x36, 0x37, 0x38, 0x39] = 0x29B1 := by decide +kernel

/-- SETTIME to 5 under sequence 1, as a frame: length 8 counts the stream flag and the seven bytes of
the body. -/
theorem test_frame_layout :
    (frameBytes 3 [20, 0, 1, 0, 0, 0, 5]).take 12 =
      [0xA5, 0x5A, 0, 8, 3, 20, 0, 1, 0, 0, 0, 5] := by decide +kernel

/-- A SET of context 3 to 9.00 dB on cells 10 and 11 under tag 7 (section 11.4). -/
theorem test_request_layout :
    (Request.mk .set 3 7 10 2 900).body = [2, 3, 7, 0, 10, 2, 3, 132] := by decide +kernel

/-- An ACCEPT of path (2, 9) from node 1 to node 2 on degree 0 (section 11.3). -/
theorem test_accept_layout :
    (PeerFrame.mk 2 1 0 (.accept onward 8 3)).body =
      [0, 2, 0, 1, 0, 2, 0, 2, 0, 9, 0, 8, 3] := by decide +kernel

/-! ### The step and the reset -/

theorem witness_StepRunsTheFrontCommand :
    ({ base with pending := [.swap, .thaw] } : State).pending = [.swap, .thaw] ∧ base.pending = [] := by
  decide +kernel

theorem test_step_takes_the_front :
    step { base with pending := [.timeBaseTick, .resetPinAssert] } =
      .next (after .timeBaseTick { base with pending := [.resetPinAssert] }) := rfl

theorem witness_ThePinAndTheCommandResetThePart :
    base.inReset = false ∧ ({ base with inReset := true } : State).inReset = true ∧
      (withCommand base [21, 1, 2]).commandWaits 21 1 2 [] [] ∧
      (withCommand base [21, 1, 2, 0]).commandWaits 21 1 2 [0] [] := by
  unfold State.commandWaits
  decide +kernel

/-- A RESET is answered OK and reads the straps: node 7 with three pins high is valid (R181, R182). -/
theorem test_reset_reads_straps :
    let t := after (.reset 7) (withCommand base [21, 1, 2])
    answer t = some .ok ∧ t.identityValid = true ∧ t.nodeId = 7 ∧ (t.degree 0).adj = .down := by
  decide +kernel

theorem test_resetPinAssert_darkens :
    (after .resetPinAssert base).attention = false ∧
      (after (.resetPinRelease 3) (after .resetPinAssert base)).identityValid = false := by
  decide +kernel

theorem witness_TimeBaseTicksAndIsSet :
    (withCommand base [20, 1, 2, 0xFF, 0xFF, 0xFF, 0xFF]).commandWaits 20 1 2
      [0xFF, 0xFF, 0xFF, 0xFF] [] := by
  unfold State.commandWaits
  decide +kernel

/-- The time base wraps from 4294967295 to 0 (R179). -/
theorem test_timeBaseTick_wraps :
    (after .timeBaseTick
      (after .settime (withCommand base [20, 1, 2, 0xFF, 0xFF, 0xFF, 0xFF]))).timeBase = 0 := by
  decide +kernel

/-! ### Management -/

theorem witness_CommandsThatFailDecodingAreRefused :
    ((Instr.sync, 5, 12) ∈ portCommands ∧ 12 ≤ (12 : Byte).toNat ∧
      (withCommand base [5, 1, 2, 12]).commandWaits 5 1 2 [12] [] ∧
      (Instr.readnbr, 16, 8) ∈ portCommands ∧ 8 ≤ (8 : Byte).toNat ∧
      (withCommand base [16, 1, 2, 8]).commandWaits 16 1 2 [8] [] ∧
      (Instr.unblock, 7) ∈ [(Instr.block, 6), (Instr.unblock, 7)] ∧
      (withCommand base [7, 1, 2, 12, 0, 0, 0, 1]).commandWaits 7 1 2 [12, 0, 0, 0, 1] []) ∧
    (Instr.commission, 1, false) ∈ decodings [] ∧
      (withCommand base [1, 1, 2]).commandWaits 1 1 2 [] [] ∧
      (Instr.readrpt, 18, false) ∈ decodings [9] ∧
      (withCommand base [18, 1, 2, 9]).commandWaits 18 1 2 [9] [] ∧
      (withCommand base [0, 1, 2]).commandWaits (0 : Byte).toNat 1 2 [] [] ∧
      21 < (22 : Byte).toNat ∧
      (withCommand base [22, 1, 2]).commandWaits (22 : Byte).toNat 1 2 [] [] := by
  unfold State.commandWaits
  decide +kernel

/-- The fields of a SETPARAM: number, port byte and a value of one byte. -/
def setting (e : Byte × Byte × Byte) : List Byte := [e.1, e.2.1, 0, 0, 0, e.2.2]

/-- A port byte of 12 for a PROFILE and for a per-port parameter, 8 for the lamp mode; the numbers 14
and 40; and values next to the sets of halt on disturbance and of the lamp mode. -/
theorem witness_CommandsThatFailDecodingAreRefused_of_parameters :
    (readProfile [12, 2, 0, 0, 1, 0, 5] = some (12, .b, 0, [5]) ∧
      (withCommand base [8, 1, 2, 12, 2, 0, 0, 1, 0, 5]).commandWaits 8 1 2
        [12, 2, 0, 0, 1, 0, 5] []) ∧
    (∀ e ∈ ([(14, 0, 0), (40, 0, 0), (11, 0, 2), (13, 0, 6), (1, 12, 30), (13, 8, 5)] :
        List (Byte × Byte × Byte)),
      readSetparam (setting e) = some (e.1.toNat, e.2.1, (e.2.2.toNat : Int)) ∧
        (withCommand base ([12, 1, 2] ++ setting e)).commandWaits 12 1 2 (setting e) []) ∧
    (¬listedItem (14 : Byte).toNat ∧ outsideItsSet 11 2 ∧ outsideItsSet 13 6 ∧
      outsideItsScope 1 12 ∧ ¬outsideItsSet 1 30 ∧ outsideItsScope 13 8 ∧ ¬outsideItsSet 13 5) ∧
    (withCommand base [13, 1, 2, 14, 0]).commandWaits 13 1 2 [14, 0] [] ∧
      (withCommand base [13, 1, 2, 13, 8]).commandWaits 13 1 2 [13, 8] [] := by
  unfold State.commandWaits listedItem outsideItsSet outsideItsScope
  refine ⟨by decide +kernel, fun e h => ?_, by decide +kernel⟩
  simp only [List.mem_cons, List.not_mem_nil, or_false] at h
  rcases h with rfl | rfl | rfl | rfl | rfl | rfl <;> decide +kernel

theorem test_readnbr_badPort :
    answer (after .readnbr (withCommand base [16, 1, 2, 8])) = some .badPort ∧
      answer (after .readnbr (withCommand base [16, 1, 2, 7])) = some .ok := by decide +kernel

/-- A kind that is not a command is answered MALFORMED with the kind echoed (R173, R185). -/
theorem test_unknownCommandKind_echoes :
    (after .unknownCommandKind (withCommand base [22, 1, 2])).responses.map
      (fun r => (r.kind, r.code)) = [(22, .malformed)] := by decide +kernel

theorem witness_SyncMakesThePortSynced :
    (withCommand base [5, 1, 2, 11]).commandWaits 5 1 2 [byteOf (11 : PortNo).val] [] := by
  unfold State.commandWaits
  decide +kernel

theorem test_sync_port :
    ((after .sync (withCommand base [5, 1, 2, 11])).port 11).synced = true := by decide +kernel

/-- A map of port 3 with its last cell Blocked. -/
def lastBlocked : State :=
  base.onPort 3 fun x => { x with map := writeRange x.map 399 1 (fun _ => true) .blocked }

theorem witness_BlockAndUnblockTurnCells :
    (withCommand base (6 :: 1 :: 2 :: rangeBytes 3 399 1)).commandWaits 6 1 2 (rangeBytes 3 399 1) [] ∧
      (∀ k, 399 ≤ k → k < 399 + 1 →
        cellAt ((withCommand base (6 :: 1 :: 2 :: rangeBytes 3 399 1)).port 3).map k = some .free) ∧
      (withCommand lastBlocked (6 :: 1 :: 2 :: rangeBytes 3 399 1)).commandWaits 6 1 2
        (rangeBytes 3 399 1) [] ∧
      cellAt ((withCommand lastBlocked (6 :: 1 :: 2 :: rangeBytes 3 399 1)).port 3).map 399 ≠
        some .free ∧
      (withCommand base (6 :: 1 :: 2 :: rangeBytes 3 399 2)).commandWaits 6 1 2 (rangeBytes 3 399 2) [] ∧
      ¬(1 ≤ 2 ∧ 399 + 2 ≤ 400) ∧
      (withCommand lastBlocked (7 :: 1 :: 2 :: rangeBytes 3 0 400)).commandWaits 7 1 2
        (rangeBytes 3 0 400) [] ∧
      (withCommand base (7 :: 1 :: 2 :: rangeBytes 3 0 0)).commandWaits 7 1 2 (rangeBytes 3 0 0) [] := by
  unfold State.commandWaits
  and_intros <;> decide +kernel

theorem test_block_conflict :
    answer (after .block (withCommand lastBlocked (6 :: 1 :: 2 :: rangeBytes 3 398 2))) =
      some .conflict := by decide +kernel

theorem test_unblock_frees :
    cellAt ((after .unblock (withCommand lastBlocked (7 :: 1 :: 2 :: rangeBytes 3 399 1))).port 3).map
      399 = some .free := by decide +kernel

theorem witness_ProfileWritesTheInactiveBank :
    readProfile [3, 2, 1, 0x8F, 1, 0x7F, 0xFF] = some (byteOf (3 : PortNo).val, .b, 399, [32767]) ∧
      (withCommand base [8, 1, 2, 3, 2, 1, 0x8F, 1, 0x7F, 0xFF]).commandWaits 8 1 2
        [3, 2, 1, 0x8F, 1, 0x7F, 0xFF] [] ∧
      (base.port 3).active ≠ .b ∧
      readProfile [3, 1, 1, 0x8F, 1, 0x80, 0] = some (byteOf (3 : PortNo).val, .a, 399, [-32768]) ∧
      (withCommand base [8, 1, 2, 3, 1, 1, 0x8F, 1, 0x80, 0]).commandWaits 8 1 2
        [3, 1, 1, 0x8F, 1, 0x80, 0] [] ∧
      (base.port 3).active = .a ∧
      readProfile [3, 2, 1, 0x90, 1, 0, 0] = some (byteOf (3 : PortNo).val, .b, 400, [0]) ∧
      (withCommand base [8, 1, 2, 3, 2, 1, 0x90, 1, 0, 0]).commandWaits 8 1 2
        [3, 2, 1, 0x90, 1, 0, 0] [] ∧ 400 < 400 + [(0 : Int)].length := by
  unfold State.commandWaits
  and_intros <;> decide +kernel

/-- A density over +10.00 dBm is written as +10.00 dBm, and the answer carries Clamped (R18). -/
theorem test_profile_clamps :
    let t := after .profile (withCommand base [8, 1, 2, 3, 2, 1, 0x8F, 1, 0x7F, 0xFF])
    densityAt (t.port 3).bankB 399 = 1000 ∧ t.responses.map (·.clamped) = [true] := by decide +kernel

/-- A port with one context in LIT_WAIT. -/
def swapping (c : Context) : State := withCommand (litAt c 900) [9, 1, 2, 1]

theorem witness_SwapWaitsForQuietOrIsMade :
    (swapping (transit .ramping)).commandWaits 9 1 2 [byteOf (1 : PortNo).val] [] ∧
      (swapping (transit .ramping)).quiet 1 = false ∧
      (swapping (transit .litWait)).commandWaits 9 1 2 [byteOf (1 : PortNo).val] [] ∧
      (swapping (transit .litWait)).quiet 1 = true ∧
      (swapping (transit .inService)).quiet 1 = true ∧
      (swapping { transit .preparing with power := some (-500) }).quiet 1 = true ∧
      ({ transit .preparing with power := some (-500), att := some 2500 } : Context).waitsOnSwap =
        true ∧
      (swapping (tailOf .inService)).quiet 1 = true ∧ (tailOf .inService).outPort ≠ 1 := by
  unfold State.commandWaits
  decide +kernel

/-- SWAP on a quiet port changes the bank and starts the trim of a channel in service (R19, R20). -/
theorem test_swap_quiet :
    let t := after .swap (swapping (transit .inService))
    (t.port 1).active = .b ∧ t.ring = [.port 1 .swapDone] ∧
      (t.ctx 0).map (·.state) = some .trimming := by decide +kernel

/-- A frozen port whose NORMAL queue holds a context ready for its first step. -/
def frozenQueue : State :=
  let c := { ofKind (transit .ramping) .ramp with
    target := some 900, base := some 200, stepSize := some 200 }
  withCommand ((litAt c 2500).onPort 1 fun x => { x with frozen := true, normalQ := [0] }) [10, 1, 2, 1]

theorem witness_ThawClearsTheFreezeAndGrants :
    frozenQueue.commandWaits 10 1 2 [byteOf (1 : PortNo).val] [] ∧
      (frozenQueue.port 1).holder = none ∧ (frozenQueue.port 1).phase = .idle ∧
      ((frozenQueue.onPort 1 fun x => { x with frozen := false }).port 1).served.head? = some 0 ∧
      (frozenQueue.ctx 0).map (fun c => (c.outPort, c.next, c.chosen)) =
        some (1, some 2300, some 10) := by
  unfold State.commandWaits
  decide +kernel

/-- The first step of a ramp from dark toward 9.00 dB with a step of 2.00 dB asks for 23.00 dB (R105). -/
theorem test_thaw_first_step :
    (((after .thaw frozenQueue).port 1).out, ((after .thaw frozenQueue).port 1).holder) =
      ([.request ⟨.set, 0, 1, 10, 2, 2300⟩], some 0) := by decide +kernel

theorem witness_PortclearTearsDownEveryContextOnThePort :
    let lit := withCommand (litAt (transit .inService) 900) [11, 1, 2, 0]
    (withCommand base [11, 1, 2, 0]).commandWaits 11 1 2 [byteOf (0 : PortNo).val] [] ∧
      (∀ i, (withCommand base [11, 1, 2, 0]).ctx i = none) ∧
      lit.commandWaits 11 1 2 [byteOf (0 : PortNo).val] [] ∧ (transit .inService).usesPort 0 ∧
      ¬(headOf .inService).usesPort 0 ∧ (∀ q, (lit.port q).swapPending = false) ∧
      lit.ctx 0 = some { transit .inService with att := some 900 } ∧ (transit .inService).tornDown = false ∧
      lit.localWay (transit .inService) = .retreat ∧ lit.localWay (transit .awaitLight) = .none ∧
      lit.servesDegree 0 2 ∧ lit.servesDegree 1 4 := by
  unfold State.commandWaits State.servesDegree Context.usesPort
  decide +kernel

/-- A channel that was adopted, in its trim's measurement: it has no base step yet. -/
def adoptedTrim : State :=
  litAt { transit .trimming with outstanding := some .measure, timer := some 50 } 900

/-- The base step of a retreat is chosen when the retreat is decided, while the MEASURE is still
outstanding (R106, R159). -/
theorem test_portclear_chooses_the_base :
    ((after .portclear (withCommand adoptedTrim [11, 1, 2, 0])).ctx 0).map
      (fun c => (c.state, c.outstanding, c.base)) = some (.trimming, some .measure, some 50) := by
  decide +kernel

/-- The same in PREPARING, where READCTX shows the base step while the MEASURE is still outstanding. -/
theorem test_portclear_chooses_the_base_in_preparing :
    ((after .portclear (withCommand (litAt { transit .preparing with
      outstanding := some .measure, timer := some 50 } 2500) [11, 1, 2, 0])).ctx 0).map
      (fun c => (c.state, c.outstanding, c.base, c.stepSize, c.clean)) =
        some (.preparing, some .measure, some 50, some 50, 0) := by
  decide +kernel

/-- A PORTCLEAR of a port of a lit channel is a local abort: the channel retreats (R169, R157). -/
theorem test_portclear_retreats :
    ((after .portclear (withCommand (litAt (transit .inService) 900) [11, 1, 2, 0])).ctx 0).map
      (fun c => (c.state, c.abortReason)) = some (.retreating, some .portCleared) := by decide +kernel

theorem witness_SetparamWritesOneParameter :
    readSetparam [20, 0, 0, 0, 0, 0] = some (20, 0, 0) ∧ (paramRange 20).fit 0 = some 20 ∧
      (withCommand base [12, 1, 2, 20, 0, 0, 0, 0, 0]).commandWaits 12 1 2 [20, 0, 0, 0, 0, 0] [] ∧
      readSetparam [31, 0, 0, 0, 0x10, 0] = some (31, 0, 4096) ∧
      (paramRange 31).fit 4096 = some 4094 ∧
      (withCommand base [12, 1, 2, 31, 0, 0, 0, 0x10, 0]).commandWaits 12 1 2
        [31, 0, 0, 0, 0x10, 0] [] ∧
      readSetparam [1, 11, 0, 0, 0, 15] = some (1, byteOf (11 : PortNo).val, 15) ∧
      (paramRange 1).fit 15 = some 15 ∧
      (withCommand base [12, 1, 2, 1, 11, 0, 0, 0, 15]).commandWaits 12 1 2 [1, 11, 0, 0, 0, 15] [] ∧
      readSetparam [12, 0, 0xFF, 0xFF, 0xFF, 0xFF] = some (12, byteOf (0 : PortNo).val, -1) ∧
      (paramRange 12).fit (-1) = some 0 ∧
      (withCommand base [12, 1, 2, 12, 0, 0xFF, 0xFF, 0xFF, 0xFF]).commandWaits 12 1 2
        [12, 0, 0xFF, 0xFF, 0xFF, 0xFF] [] ∧
      readSetparam [13, 7, 0, 0, 0, 5] = some (13, byteOf (7 : DegreeNo).val, 5) ∧
      (paramRange 13).fit 5 = some 5 ∧
      (withCommand base [12, 1, 2, 13, 7, 0, 0, 0, 5]).commandWaits 12 1 2 [13, 7, 0, 0, 0, 5] [] := by
  unfold State.commandWaits
  decide +kernel

theorem test_setparam_clamps :
    let t := after .setparam (withCommand base [12, 1, 2, 31, 0, 0, 0, 0x10, 0])
    (t.part.groupId, t.responses.map (·.clamped)) = (4094, [true]) := by decide +kernel

/-- The part code is 0x0C5D (R174). -/
theorem test_getparam_part_code :
    (after .getparam (withCommand base [13, 1, 2, 42, 0])).responses.map (·.body) =
      [.value 0x0C5D] := by decide +kernel

theorem witness_GetparamAndReadctxAnswer :
    (withCommand base [13, 1, 2, 20, 0]).commandWaits 13 1 2 [byteOf 20, 0] [] ∧
      (withCommand base [13, 1, 2, 12, 11]).commandWaits 13 1 2 [byteOf 12, byteOf (11 : PortNo).val] [] ∧
      (withCommand base [13, 1, 2, 13, 7]).commandWaits 13 1 2 [byteOf 13, byteOf (7 : DegreeNo).val] [] ∧
      (withCommand base [13, 1, 2, 43, 0]).commandWaits 13 1 2 [byteOf 43, 0] [] ∧
      (withCommand base [14, 1, 2, 1, 64]).commandWaits 14 1 2 [1, 64] [] ∧
      (withCommand base [14, 1, 2, 1, 63]).commandWaits 14 1 2 [1, byteOf (63 : CtxIdx).val] [] ∧
      readPath 0 2 0 9 = some onward ∧
      (withCommand base [14, 1, 2, 2, 0, 2, 0, 9]).commandWaits 14 1 2 [2, 0, 2, 0, 9] [] ∧
      (∀ i, (withCommand base [14, 1, 2, 2, 0, 2, 0, 9]).ctx i = none) ∧
      (withCommand (litAt (transit .inService) 900) [14, 1, 2, 2, 0, 2, 0, 9]).commandWaits 14 1 2
        [2, 0, 2, 0, 9] [] ∧
      ((withCommand (litAt (transit .inService) 900) [14, 1, 2, 2, 0, 2, 0, 9]).ctx 0).map (·.path) =
        some onward ∧
      ∀ j, j ≠ 0 →
        (withCommand (litAt (transit .inService) 900) [14, 1, 2, 2, 0, 2, 0, 9]).ctx j = none := by
  unfold State.commandWaits
  decide +kernel

/-- READCTX of a FREE record answers its state and its tag only (R35). -/
theorem test_readctx_free :
    ((after .readctx (withCommand base [14, 1, 2, 1, 63])).responses.map
      fun r => r.bodyBytes.drop 9) = [[0, 0]] := by decide +kernel

theorem witness_ReadmapRunsAreTheMap :
    (withCommand base [15, 1, 2, 0]).commandWaits 15 1 2 [byteOf (0 : PortNo).val] [] := by
  unfold State.commandWaits
  decide +kernel

/-- A map with one Blocked cell at its end has two runs (R15). -/
theorem test_readmap_two_runs :
    (after .readmap (withCommand lastBlocked [15, 1, 2, 3])).responses.map (·.body) =
      [.runs [⟨0, 399, .free⟩, ⟨399, 1, .blocked⟩]] := by decide +kernel

theorem witness_ReadportAndReadnbrClearWhatTheyReturn :
    (withCommand base [17, 1, 2, 11]).commandWaits 17 1 2 [byteOf (11 : PortNo).val] [] ∧
      (withCommand base [16, 1, 2, 7]).commandWaits 16 1 2 [byteOf (7 : DegreeNo).val] [] := by
  unfold State.commandWaits
  decide +kernel

theorem test_readport_clears_overflow :
    ((after .readport (withCommand (base.onPort 3 fun x => { x with overflow := true, slowest := 9 })
      [17, 1, 2, 3])).port 3).overflow = false := by decide +kernel

/-- Two records wait. -/
def twoRecords : State := { base with ring := [.port 0 .frozen, .port 1 .swapDone], lost := true }

theorem witness_ReadrptReturnsTheOldestRecords :
    (withCommand twoRecords [18, 1, 2, 1]).commandWaits 18 1 2 [byteOf 1] [] ∧
      (withCommand twoRecords [18, 1, 2, 8]).commandWaits 18 1 2 [byteOf 8] [] := by
  unfold State.commandWaits
  decide +kernel

theorem test_readrpt_oldest_first :
    let t := after .readrpt (withCommand twoRecords [18, 1, 2, 1])
    (t.ring, t.lost, t.attention) = ([.port 1 .swapDone], false, true) := by decide +kernel

theorem witness_IdentqStartsAQuery :
    (withCommand base [19, 1, 2, 7]).commandWaits 19 1 2 [byteOf (7 : DegreeNo).val] [] ∧
      ((withCommand base [19, 1, 2, 7]).degree 7).adj ≠ .up ∧
      (withCommand base [19, 1, 2, 0]).commandWaits 19 1 2 [byteOf (0 : DegreeNo).val] [] ∧
      (withCommand base [19, 1, 2, 0]).servesDegree 0 2 := by
  unfold State.servesDegree State.commandWaits
  decide +kernel

theorem test_identq_queries :
    ((after .identq (withCommand base [19, 1, 2, 0])).port 0).out =
      [.peer ⟨2, 1, 0, .identQuery⟩] := by decide +kernel

/-! ### Management: paths -/

/-- A COMMISSION of serial 9 from add group 0, with tie LOW. -/
def commissionBytes (n lo hi : Byte) (route : List Byte) : List Byte :=
  [0, 9, 1, 0, n, 1, 0, lo, 0, hi, byteOf (route.length / 3)] ++ route

/-- The COMMISSION of the tests: two slots in cells 0 to 5, over this node's degree 1 to node 4's drop
group 8. -/
def offering : List Byte := commissionBytes 2 0 5 [0, 1, 1, 0, 4, 8]

def offeringFields : CommissionFields := ⟨9, .normal, 0, 2, .low, 0, 5, [(1, 1), (4, 8)]⟩

def commissioning (s : State) (fields : List Byte) : State := withCommand s (1 :: 1 :: 2 :: fields)

theorem witness_CommissionAnswersTheFirstFailedCheck :
    (commissioning base []).commandWaits 1 1 2 [] [] ∧ readCommission [] = none ∧
      (commissioning base offering).commandWaits 1 1 2 offering [] ∧
      readCommission offering = some offeringFields ∧
      (commissioning { base with straps := 3 } offering).identityValid = false ∧
      (commissioning base offering).identityValid = true ∧
      readCommission (commissionBytes 7 0 5 [0, 1, 1, 0, 4, 8]) = some { offeringFields with width := 7 } ∧
      ¬goodWindow 7 0 5 ∧ goodWindow 6 0 5 ∧ goodWindow 2 0 5 ∧
      readCommission (commissionBytes 2 0 5 [0, 1, 1]) = some { offeringFields with route := [(1, 1)] } ∧
      ¬goodRoute base [(1, 1)] ∧ goodRoute (commissioning base offering) [(1, 1), (4, 8)] ∧
      ((commissionChecks (commissioning (holding base (headOf .offered) .free) offering) offeringFields 1
        ⟨4, 8⟩).find? fun x => !x.1).map Prod.snd = some .duplicate ∧
      ((commissionChecks (commissioning (base.onPort 1 fun x =>
        { x with map := writeRange x.map 0 6 (fun _ => true) .blocked }) offering) offeringFields 1
        ⟨4, 8⟩).find? fun x => !x.1).map Prod.snd = some .noSpectrum := by
  unfold State.commandWaits goodWindow
  and_intros <;> first | decide +kernel | exact fun h => absurd h.1.1 (by decide)

/-- A width over the window is refused with BADRANGE before the route is looked at (R59). -/
theorem test_commission_badRange :
    answer (after .commission (commissioning base (commissionBytes 7 0 5 [0, 1, 1]))) =
      some .badRange := by decide +kernel

theorem witness_CommissionHoldsItsCandidatesAndOffers :
    (commissioning base offering).commandWaits 1 1 2 offering [] ∧
      readCommission offering = some offeringFields ∧
      (commissioning base offering).identityValid = true ∧ goodWindow 2 0 5 ∧
      goodRoute (commissioning base offering) [(1, 1), (4, 8)] ∧
      readAll readRouteEntry [(1, 1), (4, 8)] = some [⟨1, portOf 1⟩, ⟨4, 8⟩] ∧
      (commissioning base offering).lowestFree = some 0 ∧
      ∀ x ∈ commissionChecks (commissioning base offering) offeringFields 1 ⟨4, 8⟩, x.1 = true := by
  unfold State.commandWaits goodWindow
  and_intros <;> decide +kernel

/-- On a free map the placements whose lower probe lies below the band cost 1 and the others cost 2, so
those from cells 0 and 1 lead the offer (R9, R62). -/
theorem test_commission_offers :
    let t := after .commission (commissioning base offering)
    answer t = some .ok ∧ (t.ctx 0).bind (·.candidates) =
      some [⟨0, 1⟩, ⟨1, 1⟩, ⟨2, 2⟩, ⟨3, 2⟩, ⟨4, 2⟩] := by decide +kernel

theorem witness_TheBestPlacementsAreOfferedAndChosen :
    goodWindow 1 399 399 ∧ goodWindow 16 0 15 ∧
      windowQuery (base.port 1).map 1 1 399 399 = [⟨399, 1⟩] ∧
      tailChoice .high [⟨3, 2⟩, ⟨9, 2⟩] = some ⟨9, 2⟩ := by
  unfold goodWindow
  decide +kernel

def releasing (s : State) (p : PathId) : State :=
  withCommand s (2 :: 1 :: 2 :: (put2 p.head.toNat ++ put2 p.serial.toNat))

theorem witness_ReleaseTearsDownAtTheHead :
    readPathField [0, 1, 0, 9] = some own ∧ readPathField [0, 2, 0, 9] = some onward ∧
      (releasing base own).commandWaits 2 1 2 [0, 1, 0, 9] [] ∧
      (∀ i, (releasing base own).ctx i = none) ∧
      (releasing (litAt (transit .inService) 900) onward).commandWaits 2 1 2 [0, 2, 0, 9] [] ∧
      (releasing (litAt (transit .inService) 900) onward).lookup onward = some 0 ∧
      (transit .inService).role ≠ .head ∧
      (releasing (litAt (headOf .retreating) 900) own).lookup own = some 0 ∧
      (headOf .retreating).tornDown = true ∧
      (releasing (holding base (headOf .offered) (.held 0)) own).lookup own = some 0 ∧
      (headOf .offered).tornDown = false ∧
      (releasing (litAt (headOf .inService) 900) own).lookup own = some 0 ∧
      (releasing (litAt (headOf .inService) 900) own).localWay (headOf .inService) = .retreat ∧
      (releasing (holding base (headOf .preparing) (.reserved 0)) own).lookup own = some 0 ∧
      (releasing (holding base (headOf .preparing) (.reserved 0)) own).localWay (headOf .preparing) =
        .none ∧
      (releasing base own).servesDegree 1 4 ∧ degreeOf (headOf .preparing).outPort = some 1 := by
  unfold State.servesDegree State.commandWaits
  decide +kernel

/-- RELEASE of an offer frees the holds and tells the next node ReleasedByManager (R163). -/
theorem test_release_offered :
    let t := after .release (releasing (holding base (headOf .offered) (.held 0)) own)
    t.ctx 0 = none ∧ cellAt (t.port 1).map 10 = some .free ∧
      (t.port 1).out = [.peer ⟨4, 1, 1, .abort own .releasedByManager 1⟩] := by decide +kernel

theorem test_release_inService :
    ((after .release (releasing (litAt (headOf .inService) 900) own)).ctx 0).map (·.state) =
      some .retreating := by decide +kernel

def retrimming (s : State) : State := withCommand s [3, 1, 2, 0, 2, 0, 9]

/-- A channel in service on a port whose swap is pending. -/
def swapWaits : State :=
  (litAt (transit .inService) 900).onPort 1 fun x => { x with swapPending := true }

theorem witness_RetrimMarksAndMeasures :
    readPathField [0, 2, 0, 9] = some onward ∧
      (retrimming base).commandWaits 3 1 2 [0, 2, 0, 9] [] ∧ (∀ i, (retrimming base).ctx i = none) ∧
      (retrimming (litAt (transit .litWait) 900)).commandWaits 3 1 2 [0, 2, 0, 9] [] ∧
      (retrimming (litAt (transit .litWait) 900)).lookup onward = some 0 ∧
      (transit .litWait).state ≠ .inService ∧
      (retrimming swapWaits).commandWaits 3 1 2 [0, 2, 0, 9] [] ∧
      (retrimming swapWaits).lookup onward = some 0 ∧
      ((retrimming swapWaits).port 1).swapPending = true ∧
      (retrimming (litAt (transit .inService) 900)).commandWaits 3 1 2 [0, 2, 0, 9] [] ∧
      (retrimming (litAt (transit .inService) 900)).lookup onward = some 0 ∧
      ((retrimming (litAt (transit .inService) 900)).port 1).swapPending = false := by
  unfold State.commandWaits
  decide +kernel

theorem test_retrim_measures :
    ((after .retrim (retrimming (litAt (transit .inService) 900))).port 1).out =
      [.request ⟨.measure, 0, 1, 10, 2, 0⟩] := by decide +kernel

/-- The fields of an ADOPT of path (2, 9) in role `role`. -/
def adoptBytes (role ip op : Byte) (s n : Nat) : List Byte :=
  [0, 2, 0, 9, role, ip, op] ++ put2 s ++ [byteOf n, 0xFF, 0xFF]

def adopting (s : State) (fields : List Byte) : State := withCommand s (4 :: 1 :: 2 :: fields)

theorem witness_AdoptMakesAnOpenContext :
    readAdopt (adoptBytes 2 0 1 384 16) = some ⟨onward, .transit, 0, 1, 384, 16, -1⟩ ∧
      (adopting base (adoptBytes 2 0 1 384 16)).commandWaits 4 1 2 (adoptBytes 2 0 1 384 16) [] ∧
      (∀ x ∈ adoptChecks (adopting base (adoptBytes 2 0 1 384 16))
        ⟨onward, .transit, 0, 1, 384, 16, -1⟩, x.1 = true) ∧
      (adopting base (adoptBytes 2 0 1 384 16)).lowestFree = some 0 ∧
      adoptPorts ⟨onward, .transit, 0, 1, 384, 16, -1⟩ = some (.degree 0, 1) ∧
      readAdopt (adoptBytes 2 0 1 385 16) = some ⟨onward, .transit, 0, 1, 385, 16, -1⟩ ∧
      ((adoptChecks base ⟨onward, .transit, 0, 1, 385, 16, -1⟩).find? fun x => !x.1).map Prod.snd =
        some .badRange ∧
      readAdopt (adoptBytes 2 0 0 384 16) = some ⟨onward, .transit, 0, 0, 384, 16, -1⟩ ∧
      ((adoptChecks base ⟨onward, .transit, 0, 0, 384, 16, -1⟩).find? fun x => !x.1).map Prod.snd =
        some .badPort := by
  unfold State.commandWaits
  decide +kernel

/-- ADOPT clamps A to 0 and opens the last cells of the band (R36, R37). -/
theorem test_adopt_opens :
    let t := after .adopt (adopting base (adoptBytes 2 0 1 384 16))
    (t.ctx 0).bind (·.att) = some 0 ∧ cellAt (t.port 1).map 399 = some (.opened 0) ∧
      answer t = some .ok := by decide +kernel

theorem test_adopt_head_elsewhere :
    answer (after .adopt (adopting base (adoptBytes 1 0 1 0 1))) = some .wrongRole := by
  decide +kernel

/-! ### Arrivals -/

/-- Sixteen frames wait on degree 0. -/
def sixteen : State := base.onDegree 0 fun x => { x with peerQueue := List.replicate 16 [] }

/-- Four commands wait. -/
def fourCommands : State := { base with commands := List.replicate 4 [] }

/-- Eight reports wait on port 11. -/
def eightReports : State := base.onPort 11 fun x => { x with reports := List.replicate 8 .lineUp }

theorem witness_FramesJoinTheirQueues :
    base.inReset = false ∧ base.mgmtRx = [] ∧ base.commands.length < 4 ∧
      4 ≤ fourCommands.commands.length ∧ (base.port (portOf 0)).rx = [] ∧
      base.identityValid = true ∧
      peerDest [0, 1] = some base.nodeId.toNat ∧ (peerDest [0, 0] = some 0 ∧ base.part.acceptAll = true) ∧
      peerDest [0, 2] = some 2 ∧ 2 ≠ base.nodeId.toNat ∧ peerDest [0] = none ∧
      (sixteen.degree 0).peerQueue.length = 16 ∧
      ({ base with straps := 0 } : State).identityValid = false ∧
      readReport [20, 0, 0, 1] = some .lineUp ∧ readReport [20, 1, 0, 1] = none ∧
      (∀ x ∈ (frameBytes 1 [20, 1, 0, 1]).drop 2, x ≠ 0xA5) ∧
      (eightReports.port 11).reports.length = 8 := by
  decide +kernel

theorem test_commandArrival_joins :
    (after (.commandArrival (frameBytes 3 [9, 0, 1, 2])) base).commands = [[9, 0, 1, 2]] := by
  decide +kernel

theorem test_peerFrameArrival_overflow :
    let t := after (.peerFrameArrival 0 (frameBytes 2 [0, 1])) sixteen
    (t.degree 0).overflow = true ∧ (t.degree 0).peerQueue.length = 16 := by decide +kernel

/-- The body of the first frame is no report, so the search goes on at the byte after its start marker,
and the frame inside it is found (R184, R185). -/
theorem test_controllerFrameArrival_finds_the_frame_inside :
    ((after (.controllerFrameArrival 11 (frameBytes 1 (20 :: frameBytes 1 [20, 0, 0, 2]))) base).port
      11).reports = [.lineDown] := by decide +kernel

theorem witness_ArrivalsMayBeCutAndBadFramesAreLost :
    exec (.commandArrival [0xA5]) base = .next (after (.commandArrival [0xA5]) base) ∧
      be2 0 3 = [(9 : Byte), 9].length + 1 ∧
      (∀ x ∈ (0 : Byte) :: 3 :: 3 :: [9, 9] ++ [0, 0], x ≠ 0xA5) ∧
      crc (0 :: 3 :: 3 :: [9, 9]) ≠ BitVec.ofNat 16 (be2 0 0) ∧ (base.port 8).rx = [] ∧
      ((2 : Byte) ≠ 1 ∧ ((2 : Byte) ≠ 2 ∨ 8 ≤ (8 : PortNo).val)) ∧
      be2 0 2 = [(20 : Byte)].length + 1 ∧ readReport [20] = none ∧
      be2 1 1 = (List.replicate 256 (0 : Byte)).length + 1 ∧
      256 < (List.replicate 256 (0 : Byte)).length + 1 ∧ base.mgmtRx = [] := by
  refine ⟨rfl, ?_⟩
  decide +kernel

/-- A peer frame on the link of a drop group is a bad frame (R184). -/
theorem test_controllerFrameArrival_flag2 :
    ((after (.controllerFrameArrival 8 (frameBytes 2 [20, 0, 0, 2])) base).port 8).reports = [] := by
  decide +kernel

/-! ### Peer messages -/

/-- A body waits on degree 0. -/
def bodyWaits (body : List Byte) : State := base.onDegree 0 fun x => { x with peerQueue := [body] }

theorem witness_PeerFramesThatFailAreDiscarded :
    (Instr.offer 0, 1) ∈ peerRows 0 ∧ peerKind [0, 1, 0, 2, 3, 1] = some 1 ∧
      ((bodyWaits [0, 1, 0, 2, 3, 1]).degree 0).peerQueue = [[0, 1, 0, 2, 3, 1]] ∧
      failsPeerChecks (base.degree 0) [0, 1, 0, 2, 3, 1] ∧
      (Instr.light 0, 4) ∈ peerRows 0 ∧
      ((bodyWaits (PeerFrame.mk 1 6 3 (.light onward)).body).degree 0).peerQueue =
        [(PeerFrame.mk 1 6 3 (.light onward)).body] ∧
      failsPeerChecks (base.degree 0) (PeerFrame.mk 1 6 3 (.light onward)).body ∧
      peerKind [0, 1, 0, 2, 3, 1] ≠ some 4 ∧
      ((bodyWaits [0, 1, 0, 2, 3, 0]).degree 0).peerQueue = [[0, 1, 0, 2, 3, 0]] ∧
      peerKind [0, 1, 0, 2, 3, 0] = some 0 ∧ peerKind [0, 1, 0, 2, 3, 11] = some 11 ∧
      peerKind [0, 1, 0, 2, 3] = none ∧ peerKind [0, 1, 0, 2, 3, 10] = some 10 := by
  have dead : readPeerFrame [0, 1, 0, 2, 3, 1] = none := by decide +kernel
  have alien : readPeerFrame (PeerFrame.mk 1 6 3 (.light onward)).body =
      some ⟨1, 6, 3, .light onward⟩ := by decide +kernel
  have other : (base.degree 0).nbrId ≠ some 6 := by decide +kernel
  have noFrame : failsPeerChecks (base.degree 0) [0, 1, 0, 2, 3, 1] := fun f h => by
    rw [dead] at h
    cases h
  have notHere : failsPeerChecks (base.degree 0) (PeerFrame.mk 1 6 3 (.light onward)).body :=
    fun f h => by
      rw [alien] at h
      cases h
      exact ⟨by decide, Or.inr (Or.inl other)⟩
  refine ⟨?_, ?_, ?_, noFrame, ?_, ?_, notHere, ?_⟩ <;> decide +kernel

/-- A LIGHT from a node that is not the neighbour is discarded (R41). -/
theorem test_light_alien_discarded :
    ((after (.light 0) (bodyWaits (PeerFrame.mk 1 6 3 (.light onward)).body)).degree 0).peerQueue =
      [] := by decide +kernel

theorem test_unknownPeerKindTaken_drops :
    ((after (.unknownPeerKindTaken 0) (bodyWaits [0, 1, 0, 2, 3, 11])).degree 0).peerQueue = [] := by
  decide +kernel

/-- An OFFER of the tests' path with a route, for cells 10 and 11. -/
def offerOn (route : List RouteEntry) : OfferFields := ⟨.normal, 2, .low, 2, route, [⟨10, 1⟩, ⟨20, 2⟩]⟩

def offered (s : State) (route : List RouteEntry) : State :=
  fromUp s (.offer onward (offerOn route))

/-- Every cell of port 8 is Blocked. -/
def blockedDrop : State :=
  base.onPort 8 fun x => { x with map := writeRange x.map 0 400 (fun _ => true) .blocked }

theorem witness_OfferRefusedIsDeclined :
    (offered base [⟨6, 8⟩]).peerWaits 0 ⟨1, 2, 3, .offer onward (offerOn [⟨6, 8⟩])⟩ ∧
      (offered base [⟨6, 8⟩]).servesDegree 0 2 ∧
      ((offerChecks (offered base [⟨6, 8⟩]) 0 onward (offerOn [⟨6, 8⟩]) ⟨6, 8⟩ []).find?
        fun x => !x.1).map Prod.snd = some .routeError ∧
      (offered blockedDrop [⟨1, 8⟩]).peerWaits 0 ⟨1, 2, 3, .offer onward (offerOn [⟨1, 8⟩])⟩ ∧
      (offered blockedDrop [⟨1, 8⟩]).servesDegree 0 2 ∧
      ((offerChecks (offered blockedDrop [⟨1, 8⟩]) 0 onward (offerOn [⟨1, 8⟩]) ⟨1, 8⟩ []).find?
        fun x => !x.1).map Prod.snd = some .noSpectrum := by
  unfold State.peerWaits State.servesDegree
  decide +kernel

/-- An OFFER routed to another node is declined with RouteError (R66, R67). -/
theorem test_offer_routeError :
    ((after (.offer 0) (offered base [⟨6, 8⟩])).port 0).out =
      [.peer ⟨2, 1, 0, .decline onward .routeError 1⟩] := by decide +kernel

theorem witness_OfferMakesAContext :
    (offered base [⟨1, 1⟩, ⟨4, 8⟩]).peerWaits 0 ⟨1, 2, 3, .offer onward (offerOn [⟨1, 1⟩, ⟨4, 8⟩])⟩ ∧
      (offered base [⟨1, 1⟩, ⟨4, 8⟩]).servesDegree 0 2 ∧ (1 : PortNo) = portOf 1 ∧
      (offered base [⟨1, 1⟩, ⟨4, 8⟩]).lowestFree = some 0 ∧
      (∀ x ∈ offerChecks (offered base [⟨1, 1⟩, ⟨4, 8⟩]) 0 onward (offerOn [⟨1, 1⟩, ⟨4, 8⟩]) ⟨1, 1⟩
        [⟨4, 8⟩], x.1 = true) ∧
      (offered base [⟨1, 8⟩]).peerWaits 0 ⟨1, 2, 3, .offer onward (offerOn [⟨1, 8⟩])⟩ ∧
      (offered base [⟨1, 8⟩]).servesDegree 0 2 ∧ (offered base [⟨1, 8⟩]).lowestFree = some 0 ∧
      (∀ x ∈ offerChecks (offered base [⟨1, 8⟩]) 0 onward (offerOn [⟨1, 8⟩]) ⟨1, 8⟩ [], x.1 = true) ∧
      tailChoice .low (offerSurvivors (offered base [⟨1, 8⟩]) 8 (offerOn [⟨1, 8⟩])) = some ⟨10, 3⟩ := by
  unfold State.peerWaits State.servesDegree
  decide +kernel

/-- The tail takes the cheaper survivor and answers with its total cost: 1 offered and 2 of its own
(R9, R70). -/
theorem test_offer_tail_accepts :
    let t := after (.offer 0) (offered base [⟨1, 8⟩])
    (t.port 0).out = [.peer ⟨2, 1, 0, .accept onward 10 3⟩] ∧
      cellAt (t.port 8).map 11 = some (.reserved 0) := by decide +kernel

theorem witness_PathMessagesOutOfPlaceAreDiscarded :
    (fromUp base (.light onward)).peerWaits 0 ⟨1, 2, 3, .light onward⟩ ∧
      (fromUp base (.light onward)).lookup onward = none ∧
      (fromUp base (.light onward)).servesDegree 0 2 ∧
      (fromUp base (.decline onward .noSpectrum 2)).peerWaits 0 ⟨1, 2, 3, .decline onward .noSpectrum 2⟩ ∧
      (fromUp base (.lit onward)).peerWaits 0 ⟨1, 2, 3, .lit onward⟩ ∧
      (fromUp base (.release onward)).peerWaits 0 ⟨1, 2, 3, .release onward⟩ ∧
      (fromUp base (.abort onward .lineDown 2)).peerWaits 0 ⟨1, 2, 3, .abort onward .lineDown 2⟩ ∧
      (fromDown (litAt (transit .ramping) 900) (.accept onward 10 1)).peerWaits 1
        ⟨1, 4, 5, .accept onward 10 1⟩ ∧
      (fromDown (litAt (transit .ramping) 900) (.accept onward 10 1)).lookup onward = some 0 ∧
      (transit .ramping).state ≠ .offered ∧
      (fromDown (litAt (transit .ramping) 900) (.release onward)).peerWaits 1
        ⟨1, 4, 5, .release onward⟩ ∧
      (transit .ramping).inPort ≠ .degree 1 ∧
      (fromUp (litAt (headOf .ramping) 900) (.abort own .lineDown 2)).peerWaits 0
        ⟨1, 2, 3, .abort own .lineDown 2⟩ ∧
      (fromUp (litAt (headOf .ramping) 900) (.abort own .lineDown 2)).lookup own = some 0 ∧
      (headOf .ramping).outPort ≠ portOf 0 ∧ (headOf .ramping).inPort ≠ .degree 0 := by
  unfold State.peerWaits State.servesDegree
  decide +kernel

/-- An ACCEPT of a path that no context holds is answered by ABORT UnknownPath (R78). -/
theorem test_accept_unknownPath :
    ((after (.accept 1) (fromDown base (.accept onward 10 1))).port 1).out =
      [.peer ⟨4, 1, 1, .abort onward .unknownPath 1⟩] := by decide +kernel

/-- An offer that waits for its answer, with cells 10 and 11 Held. -/
def waiting (c : Context) : State :=
  holding base { c with chosen := none, candidates := some [⟨10, 1⟩], timer := some 0 } (.held 0)

theorem witness_AcceptReservesTheChosenRange :
    (fromDown (waiting (transit .offered)) (.accept onward 10 3)).peerWaits 1
        ⟨1, 4, 5, .accept onward 10 3⟩ ∧
      (fromDown (waiting (transit .offered)) (.accept onward 10 3)).lookup onward = some 0 ∧
      ((fromDown (waiting (transit .offered)) (.accept onward 10 3)).ctx 0).map
        (fun c => (c.outPort, c.state, c.role)) = some (portOf 1, .offered, .transit) ∧
      (fromDown (waiting (transit .offered)) (.accept onward 10 3)).servesDegree 0 2 ∧
      (∀ k, 10 ≤ k → k < 10 + 2 →
        cellAt ((fromDown (waiting (transit .offered)) (.accept onward 10 3)).port 1).map k =
          some (.held 0)) ∧
      (fromDown (waiting (headOf .offered)) (.accept own 10 3)).peerWaits 1
        ⟨1, 4, 5, .accept own 10 3⟩ ∧
      (fromDown (waiting (headOf .offered)) (.accept own 10 3)).lookup own = some 0 := by
  unfold State.peerWaits State.servesDegree
  decide +kernel

/-- A head that takes the ACCEPT opens its range (R72). -/
theorem test_accept_head_opens :
    let t := after (.accept 1) (fromDown (waiting (headOf .offered)) (.accept own 10 3))
    (t.port 1).out = [.request ⟨.openBand, 0, 1, 10, 2, 2500⟩] ∧
      (t.ctx 0).map (·.state) = some .preparing := by decide +kernel

theorem witness_AnOfferEndsWithItsHoldsFreed :
    (fromDown (waiting (transit .offered)) (.decline onward .noSpectrum 4)).peerWaits 1
        ⟨1, 4, 5, .decline onward .noSpectrum 4⟩ ∧
      (fromDown (waiting (transit .offered)) (.decline onward .noSpectrum 4)).lookup onward = some 0 ∧
      (fromDown (waiting (transit .offered)) (.accept onward 11 3)).peerWaits 1
        ⟨1, 4, 5, .accept onward 11 3⟩ ∧
      (fromDown (waiting (transit .offered)) (.accept onward 11 3)).lookup onward = some 0 ∧
      (∀ x ∈ [Candidate.mk 10 1], x.s ≠ 11) ∧
      ((waiting (transit .offered)).ctx 0).map (fun c => (c.role, c.timer)) =
        some (.transit, some 0) ∧
      (waiting (transit .offered)).elapsed = 0 ∧
      ((waiting (headOf .offered)).ctx 0).map (fun c => (c.role, c.teardown)) = some (.head, none) ∧
      ((waiting (headOf .offered)).port 1).swapPending = false ∧
      (waiting (headOf .offered)).servesDegree 1 4 := by
  unfold State.peerWaits State.servesDegree
  decide +kernel

/-- A DECLINE goes upstream with its own reason and origin (R74). -/
theorem test_decline_forwarded :
    let t := after (.decline 1) (fromDown (waiting (transit .offered)) (.decline onward .noSpectrum 4))
    (t.port 0).out = [.peer ⟨2, 1, 0, .decline onward .noSpectrum 4⟩] ∧ t.ctx 0 = none := by
  decide +kernel

theorem test_offerTimeout_head_reports :
    ((after (.offerTimeout 0) (waiting (headOf .offered))).ring.map fun r =>
      match r with
      | .pathEnd e => e.outcome = .declined ∧ e.reason = some .offerTimeout
      | _ => False) = [True] := by
  have h : (after (.offerTimeout 0) (waiting (headOf .offered))).ring =
      [.pathEnd ⟨own, .head, .declined, some .offerTimeout, some 1, 0, 0, 0, 0, 0, .clear⟩] := by
    decide +kernel
  rw [h]
  simp

theorem witness_LightPreparesAndLitServes :
    (fromUp (holding base (transit .awaitLight) (.reserved 0)) (.light onward)).peerWaits 0
        ⟨1, 2, 3, .light onward⟩ ∧
      (fromUp (holding base (transit .awaitLight) (.reserved 0)) (.light onward)).lookup onward =
        some 0 ∧
      (fromUp (holding base (transit .awaitLight) (.reserved 0)) (.light onward)).ctx 0 =
        some (transit .awaitLight) ∧
      (fromDown (litAt (transit .litWait) 900) (.lit onward)).peerWaits 1 ⟨1, 4, 5, .lit onward⟩ ∧
      (fromDown (litAt (transit .litWait) 900) (.lit onward)).lookup onward = some 0 ∧
      (fromDown (litAt (transit .litWait) 900) (.lit onward)).ctx 0 =
        some { transit .litWait with att := some 900 } ∧
      (fromDown (litAt { transit .litWait with flags := { CtxFlags.clear with trimDue := true } } 900)
        (.lit onward)).lookup onward = some 0 ∧
      ((fromDown (litAt { transit .litWait with flags := { CtxFlags.clear with trimDue := true } } 900)
        (.lit onward)).port 1).swapPending = false := by
  unfold State.peerWaits
  decide +kernel

theorem test_light_opens :
    ((after (.light 0) (fromUp (holding base (transit .awaitLight) (.reserved 0)) (.light onward))).port
      1).out = [.request ⟨.openBand, 0, 1, 10, 2, 2500⟩] := by decide +kernel

/-- LIT is recorded and goes on upstream (R144, R145). -/
theorem test_lit_forwarded :
    let t := after (.lit 1) (fromDown (litAt (transit .litWait) 900) (.lit onward))
    (t.port 0).out = [.peer ⟨2, 1, 0, .lit onward⟩] ∧
      t.ring = [.inService onward .transit 0 900 .clear] := by decide +kernel

theorem witness_AbortFromDownstreamGoesUp :
    (fromDown (litAt (transit .inService) 900) (.abort onward .noGain 4)).peerWaits 1
        ⟨1, 4, 5, .abort onward .noGain 4⟩ ∧
      (fromDown (litAt (transit .inService) 900) (.abort onward .noGain 4)).lookup onward = some 0 ∧
      (transit .inService).outPort = portOf 1 ∧ (transit .inService).tornDown = false ∧
      (transit .inService).inPort ≠ .degree 1 ∧
      (fromDown (litAt (transit .inService) 900) (.abort onward .noGain 4)).servesDegree 0 2 ∧
      (fromDown (litAt (transit .retreating) 900) (.abort onward .noGain 4)).lookup onward = some 0 ∧
      (transit .retreating).tornDown = true ∧
      (fromDown (waiting (transit .offered)) (.abort onward .noGain 4)).lookup onward = some 0 := by
  unfold State.peerWaits State.servesDegree
  decide +kernel

/-- An ABORT from downstream goes on upstream and the channel retreats (R164). -/
theorem test_abortFromDownstream_forwarded :
    let t := after (.abortFromDownstream 1)
      (fromDown (litAt (transit .inService) 900) (.abort onward .noGain 4))
    (t.port 0).out = [.peer ⟨2, 1, 0, .abort onward .noGain 4⟩] ∧
      (t.ctx 0).map (·.state) = some .retreating := by decide +kernel

/-- A transit whose retreat has been decided. -/
def going (st : CtxState) : Context :=
  { transit st with teardown := some ⟨.abortFromDownstream, .retreat, .none⟩ }

theorem witness_CausesFromUpstreamAreDarkJumps :
    (fromUp (litAt (transit .inService) 900) (.release onward)).peerWaits 0 ⟨1, 2, 3, .release onward⟩ ∧
      (fromUp (litAt (transit .inService) 900) (.release onward)).lookup onward = some 0 ∧
      (transit .inService).inPort = .degree 0 ∧ (transit .inService).outPort ≠ portOf 0 ∧
      (transit .inService).tornDown = false ∧
      (fromUp (waiting (transit .offered)) (.release onward)).lookup onward = some 0 ∧
      (transit .offered).lostWay = .none ∧
      (fromUp (waiting (transit .offered)) (.release onward)).servesDegree 1 4 ∧
      (fromUp (litAt (transit .inService) 900) (.abort onward .lineDown 2)).peerWaits 0
        ⟨1, 2, 3, .abort onward .lineDown 2⟩ ∧
      (fromUp (litAt (going .retreating) 900) (.release onward)).peerWaits 0
        ⟨1, 2, 3, .release onward⟩ ∧
      (fromUp (litAt (going .retreating) 900) (.release onward)).lookup onward = some 0 ∧
      (going .retreating).teardown = some ⟨.abortFromDownstream, .retreat, .none⟩ ∧
      (fromUp (litAt (going .closing) 900) (.release onward)).lookup onward = some 0 ∧
      (going .closing).tornDown = true := by
  unfold State.peerWaits State.servesDegree
  decide +kernel

/-- The input is lost: the channel closes at once (R165, R158). -/
theorem test_releaseFromUpstream_closes :
    ((after (.releaseFromUpstream 0)
      (fromUp (litAt (transit .inService) 900) (.release onward))).port 1).out =
      [.request ⟨.close, 0, 1, 10, 2, 2500⟩] := by decide +kernel

theorem test_abortFromUpstream_second_cause :
    ((after (.abortFromUpstream 0)
      (fromUp (litAt (going .retreating) 900) (.abort onward .lineDown 2))).ctx 0).map
        (fun c => (c.state, c.teardown)) =
      some (.closing, some ⟨.abortFromDownstream, .darkJump, .none⟩) := by decide +kernel

/-! ### The adjacency monitor -/

/-- Degree 0 in PROBING. -/
def probing : State :=
  (base.onDegree 0 fun x => { x with adj := .probing, verif := .none })

/-- A lit channel, and a HELLO from another node on degree `d`. -/
def lostUnder (d : DegreeNo) : State :=
  withPeer (litAt (transit .inService) 900) d ⟨1, 6, 3, .hello .up false []⟩

theorem witness_HelloMakesRefreshesOrLosesTheNeighbour :
    (fromUp probing (.hello .probing false [11, 0])).peerWaits 0 ⟨1, 2, 3, .hello .probing false [11, 0]⟩ ∧
      (fromUp probing (.hello .probing false [11, 0])).identityValid = true ∧
      ((fromUp probing (.hello .probing false [11, 0])).degree 0).adj = .probing ∧
      goodHello base 2 [11, 0] ∧ portsNamed [11, 0] [0, 11] ∧
      (fromUp base (.hello .up false [])).peerWaits 0 ⟨1, 2, 3, .hello .up false []⟩ ∧
      ((fromUp base (.hello .up false [])).degree 0).adj = .up ∧ goodHello base 2 [] ∧
      ((fromUp base (.hello .up false [])).degree 0).nbrId = some 2 ∧
      ((fromUp base (.hello .up false [])).degree 0).nbrDegree = some 3 ∧ portsNamed [] [] ∧
      (fromUp base (.hello .up false [3, 3])).peerWaits 0 ⟨1, 2, 3, .hello .up false [3, 3]⟩ ∧
      ¬goodHello base 2 [3, 3] ∧
      (withPeer base 0 ⟨1, 6, 3, .hello .up false []⟩).peerWaits 0 ⟨1, 6, 3, .hello .up false []⟩ ∧
      goodHello base 6 [] ∧ (base.degree 0).nbrId ≠ some 6 ∧
      (∀ d ∈ ([0, 1] : List DegreeNo),
        (lostUnder d).peerWaits d ⟨1, 6, 3, .hello .up false []⟩ ∧ ((lostUnder d).degree d).adj = .up ∧
        ((lostUnder d).degree d).nbrId ≠ some 6 ∧ (∀ q, ((lostUnder d).port q).swapPending = false) ∧
        (lostUnder d).ctx 0 = some { transit .inService with att := some 900 } ∧
        (lostUnder d).servesDegree 0 2 ∧ (lostUnder d).servesDegree 1 4) ∧
      (transit .inService).outPort = portOf 1 ∧ (transit .inService).inPort = .degree 0 ∧
      (transit .inService).tornDown = false := by
  unfold State.peerWaits goodHello portsNamed State.servesDegree
  and_intros <;> decide +kernel

/-- A HELLO in PROBING brings the degree UP and its neighbour is asked for its identity (R47). -/
theorem test_hello_up :
    let t := after (.hello 0) (fromUp probing (.hello .probing false [11, 0]))
    (t.degree 0).adj = .up ∧ (t.degree 0).nbrUnsynced = [0, 11] ∧
      (t.port 0).out = [.peer ⟨2, 1, 0, .identQuery⟩] := by decide +kernel

/-- A HELLO from another node sends the degree to RECOVERY (R48). -/
theorem test_hello_other_neighbour :
    ((after (.hello 0) (withPeer base 0 ⟨1, 6, 3, .hello .up false []⟩)).degree 0).adj = .recovery := by
  decide +kernel

theorem witness_IdentQueryIsAnswered :
    (fromUp base .identQuery).peerWaits 0 ⟨1, 2, 3, .identQuery⟩ ∧
      (fromUp base .identQuery).identityValid = true ∧
      ((fromUp base .identQuery).degree 0).adj = .up ∧
      ((fromUp base .identQuery).degree 0).nbrId = some 2 ∧
      (fromUp probing .identQuery).peerWaits 0 ⟨1, 2, 3, .identQuery⟩ ∧
      ((fromUp probing .identQuery).degree 0).adj ≠ .up ∧
      (fromUp { base with straps := 3 } .identQuery).peerWaits 0 ⟨1, 2, 3, .identQuery⟩ ∧
      (fromUp { base with straps := 3 } .identQuery).identityValid = false := by
  unfold State.peerWaits
  decide +kernel

/-- The four objects of an ACK: node 1 of part code 0x0C5D, degree 0 of grid 1 with guard 1, no context
of 64 in use, and UP with neighbour 2 (R55). -/
theorem test_identQuery_objects :
    ((after (.identQuery 0) (fromUp base .identQuery)).port 0).out =
      [.peer ⟨2, 1, 0, .identReply true [⟨1, [0, 1, 0x0C, 0x5D]⟩, ⟨2, [0, 1, 1]⟩, ⟨3, [0, 64]⟩,
        ⟨4, [3, 0, 2]⟩]⟩] := by decide +kernel

/-- A query of degree 0 is Pending. -/
def asking (attempts : Nat) : State :=
  base.onDegree 0 fun x =>
    { x with verif := .pending, queryAttempts := attempts, identTimer := some 0 }

/-- The objects of an ACK from node 2, degree 3, with a guard. -/
def objectsOf (guard : Byte) : List IdentObject :=
  [⟨1, [0, 2, 0x0C, 0x5D]⟩, ⟨2, [3, 1, guard]⟩]

theorem witness_IdentReplyGivesTheVerdict :
    (fromUp base (.identReply false [])).peerWaits 0 ⟨1, 2, 3, .identReply false []⟩ ∧
      ((fromUp base (.identReply false [])).degree 0).verif ≠ .pending ∧
      (fromUp (asking 1) (.identReply false [])).peerWaits 0 ⟨1, 2, 3, .identReply false []⟩ ∧
      ((fromUp (asking 1) (.identReply false [])).degree 0).verif = .pending ∧
      (fromUp (asking 1) (.identReply true [⟨1, [0, 2, 0, 0]⟩])).peerWaits 0
        ⟨1, 2, 3, .identReply true [⟨1, [0, 2, 0, 0]⟩]⟩ ∧
      (fromUp (asking 1) (.identReply true (objectsOf 1))).peerWaits 0
        ⟨1, 2, 3, .identReply true (objectsOf 1)⟩ ∧
      ((asking 1).degree 0).nbrId.map (·.toNat) = some (be2 0 2) ∧
      ((asking 1).degree 0).nbrDegree.map (·.val) = some (3 : Byte).toNat ∧
      ((asking 1).port (portOf 0)).params.guard = (1 : Byte).toNat ∧
      (fromUp (asking 1) (.identReply true (objectsOf 0))).peerWaits 0
        ⟨1, 2, 3, .identReply true (objectsOf 0)⟩ ∧
      ((asking 1).port (portOf 0)).params.guard ≠ (0 : Byte).toNat := by
  unfold State.peerWaits
  decide +kernel

theorem test_identReply_verified :
    ((after (.identReply 0) (fromUp (asking 1) (.identReply true (objectsOf 1)))).degree 0).verif =
      .verified := by decide +kernel

/-- The other end uses another guard: Mismatched (R54). -/
theorem test_identReply_mismatched :
    ((after (.identReply 0) (fromUp (asking 1) (.identReply true (objectsOf 0)))).degree 0).verif =
      .mismatched := by decide +kernel

/-- Every timer of degree 0 is armed for time 400, with the query at an attempt. -/
def timed (st : AdjState) (now attempts : Nat) : State :=
  { (asking attempts).onDegree 0 (fun x =>
      { x with adj := st, helloTimer := some 400, deadTimer := some 400,
               recoveryTimer := some 400, identTimer := some 400 }) with elapsed := now }

theorem witness_AdjacencyTimersActWhenTheyRunOut :
    (timed .up 399 1).inReset = false ∧ (timed .up 399 1).elapsed < 400 ∧ 400 ≤ (timed .up 400 1).elapsed ∧
      (timed .up 400 1).identityValid = true ∧ ((timed .up 400 1).degree 0).adj = .up ∧
      ((timed .up 400 1).degree 0).nbrId = some 2 ∧
      ((timed .up 400 1).degree 0).helloTimer = some 400 ∧
      ((timed .up 400 1).degree 0).deadTimer = some 400 ∧
      ((timed .recovery 400 1).degree 0).adj = .recovery ∧
      ((timed .recovery 400 1).degree 0).recoveryTimer = some 400 ∧
      ((timed .up 400 3).degree 0).identTimer = some 400 ∧
      ((timed .up 400 3).degree 0).verif = .pending ∧
      (timed .up 400 3).part.identAttempts ≤ ((timed .up 400 3).degree 0).queryAttempts ∧
      ((timed .up 400 2).degree 0).queryAttempts < (timed .up 400 2).part.identAttempts ∧
      ((timed .up 400 1).putCtx 0 (going .retreating)).ctx 0 = some (going .retreating) ∧
      (going .retreating).inPort = .degree 0 ∧ (∀ q, ((timed .up 400 1).port q).swapPending = false) := by
  decide +kernel

/-- Ports 2 to 7 and 9 to 11 are UNSYNCED, and a HELLO names them (R44). -/
theorem test_helloTimerExpiry_sends :
    ((after (.helloTimerExpiry 0) (timed .up 400 1)).port 0).out =
      [.peer ⟨2, 1, 0, .hello .up false [2, 3, 4, 5, 6, 7, 9, 10, 11]⟩] := by decide +kernel

theorem test_deadTimerExpiry_recovers :
    ((after (.deadTimerExpiry 0) (timed .up 400 1)).degree 0).adj = .recovery := by decide +kernel

theorem test_recoveryTimerExpiry_probes :
    ((after (.recoveryTimerExpiry 0) (timed .recovery 400 1)).degree 0).adj = .probing := by
  decide +kernel

/-- The third attempt was the last (R52, R53). -/
theorem test_identTimerExpiry_unverified :
    ((after (.identTimerExpiry 0) (timed .up 400 3)).degree 0).verif = .unverified := by decide +kernel

/-- The lamp of degree 1 holds FAST until time 250. -/
def held (now : Nat) : State :=
  { base.onDegree 1 (fun x => { x with lampHold := some 250 }) with elapsed := now }

theorem witness_TheLampShowsTheDegree :
    (held 249).inReset = false ∧ ((held 249).degree 1).lampHold = some 250 ∧ (held 249).elapsed < 250 ∧
      250 ≤ (held 250).elapsed ∧
      ((base.onDegree 1 fun x => { x with lampMode := .slow }).degree 1).lampMode = .slow ∧
      (base.degree 1).lampMode = .auto ∧ (base.port 1).frozen = false ∧ (base.port 1).phase = .idle ∧
      (base.degree 1).lampHold = none ∧
      ((litAt (transit .ramping) 900).ctx 0).map (fun c => (c.outPort, c.state)) =
        some (portOf 1, .ramping) ∧
      ((litAt (transit .litWait) 900).ctx 0).map (fun c => (c.outPort, c.state)) =
        some (portOf 1, .litWait) := by
  decide +kernel

theorem test_lamp_of_a_lit_channel :
    (litAt (transit .inService) 900).lamp 1 = .steady ∧ (litAt (transit .ramping) 900).lamp 1 = .slow ∧
      base.lamp 1 = .dark ∧ (held 249).lamp 1 = .fast := by decide +kernel

theorem test_lampFastHoldExpiry_ends_the_hold :
    (after (.lampFastHoldExpiry 1) (held 250)).lamp 1 = .dark := by decide +kernel

/-! ### Controller reports -/

/-- Context 0 waits for the report to a request, with its timer run out at time 0. -/
def requested (c : Context) (k : ReqKind) (cell : Cell) : State :=
  holding base { c with outstanding := some k, timer := some 0 } cell

/-- A measurement of a channel at an attenuation, at an attempt. -/
def measuring (c : Context) (a attempts : Nat) : State :=
  requested { c with att := some a, attempts := attempts } .measure (.opened 0)

theorem witness_StrayReportsHaveNoEffect :
    (.power 1, (fun r => ∃ x, r = .power 0 9 x), fun c _ => c.outstanding = some .measure) ∈
        namedReports 1 0 9 ∧
      (∃ x, Report.power 0 9 0 = .power 0 9 x) ∧
      (withReport (measuring (transit .preparing) 2500 1) 1 (.power 0 9 0)).reportWaits 1 (.power 0 9 0) ∧
      ((withReport (measuring (transit .preparing) 2500 1) 1 (.power 0 9 0)).record 0).tag ≠ 9 ∧
      (withReport base 1 (.power 0 9 0)).ctx 0 = none := by
  unfold State.reportWaits
  refine ⟨List.mem_cons_of_mem _ (List.mem_cons_self ..), ⟨0, rfl⟩, ?_⟩
  decide +kernel

/-- A POWER under another tag is stray (R89). -/
theorem test_power_stray :
    ((after (.power 1) (withReport (measuring (transit .preparing) 2500 1) 1 (.power 0 9 0))).ctx 0).map
      (·.power) = some none := by decide +kernel

/-- An OPEN waits for its report. -/
def opening : State := requested (transit .preparing) .openBand (.reserved 0)

theorem witness_ActuatedOpenStartsTheMeasurement :
    (withReport opening 1 (.actuated 0 0 true 2490)).reportWaits 1 (.actuated 0 0 true 2490) ∧
      (withReport opening 1 (.actuated 0 0 true 2490)).asked 1 0 0
        { transit .preparing with outstanding := some .openBand, timer := some 0 } .openBand ∧
      (∀ k, 10 ≤ k → k < 10 + 2 →
        cellAt ((withReport opening 1 (.actuated 0 0 true 2490)).port 1).map k = some (.reserved 0)) ∧
      (withReport opening 1 (.actuated 0 0 true 2511)).reportWaits 1 (.actuated 0 0 true 2511) ∧
      (withReport opening 1 (.actuated 0 0 true 2511)).asked 1 0 0
        { transit .preparing with outstanding := some .openBand, timer := some 0 } .openBand := by
  unfold State.reportWaits State.asked
  decide +kernel

/-- 25.10 dB is still within 0.10 dB of dark, 25.11 dB is not (R91, R138). -/
theorem test_actuated_open_bound :
    ((after (.actuated 1) (withReport opening 1 (.actuated 0 0 true 2510))).ctx 0).map (·.att) =
        some (some 2500) ∧
      (after (.actuated 1) (withReport opening 1 (.actuated 0 0 true 2511))).ctx 0 = none := by
  decide +kernel

/-- A channel that closes after a teardown. -/
def closing (td : Teardown) : State :=
  requested { transit .closing with att := some 2500, teardown := some td, abortReason := some .noGain,
                                    origin := some 4 } .close (.opened 0)

theorem witness_CloseEndsThePath :
    (closing ⟨.releaseFromUpstream, .darkJump, .release⟩).inReset = false ∧
      ((closing ⟨.releaseFromUpstream, .darkJump, .release⟩).ctx 0).map
        (fun c => (c.outPort, c.state, c.chosen, c.outstanding, c.timer)) =
        some (1, .closing, some 10, some .close, some 0) ∧
      (withReport (closing ⟨.releaseFromUpstream, .darkJump, .release⟩) 1
        (.actuated 0 0 true 2510)).reportWaits 1 (.actuated 0 0 true 2510) ∧
      ((closing ⟨.releaseFromUpstream, .darkJump, .release⟩).record 0).tag = 0 ∧
      (withReport (closing ⟨.localAbort, .retreat, .abort⟩) 1
        (.actuated 0 0 true 2489)).reportWaits 1 (.actuated 0 0 true 2489) ∧
      (closing ⟨.localAbort, .retreat, .abort⟩).servesDegree 1 4 ∧
      (closing ⟨.localAbort, .retreat, .abort⟩).elapsed = 0 ∧
      ((closing ⟨.localAbort, .retreat, .abort⟩).port 1).swapPending = false := by
  unfold State.reportWaits State.servesDegree
  and_intros <;> decide +kernel

theorem test_actuated_close_frees :
    let t := after (.actuated 1) (withReport (closing ⟨.releaseFromUpstream, .darkJump, .release⟩) 1
      (.actuated 0 0 true 2500))
    cellAt (t.port 1).map 10 = some .free ∧ t.ctx 0 = none ∧
      (t.port 1).out = [.peer ⟨4, 1, 1, .release onward⟩] := by decide +kernel

/-- A CLOSE that runs out of its window leaves its cells Blocked (R162). -/
theorem test_closeTimeout_blocks :
    let t := after (.closeTimeout 0) (closing ⟨.localAbort, .retreat, .abort⟩)
    cellAt (t.port 1).map 10 = some .blocked ∧ t.ring.getLast? = some (.port 1 .closeUnconfirmed) := by
  decide +kernel

/-- Context 0 with its timer run out at time 0, and with one that has a millisecond left. -/
def expiring (st : CtxState) (due : Nat) : State :=
  holding base { transit st with timer := some due, att := some 900 } (.opened 0)

theorem witness_TimeoutsAbortThePath :
    ((expiring .litWait 1).ctx 0).map (·.timer) = some (some 1) ∧ (expiring .litWait 1).elapsed < 1 ∧
      ((expiring .litWait 0).ctx 0).map (fun c => (c.state, c.timer)) = some (.litWait, some 0) ∧
      0 ≤ (expiring .litWait 0).elapsed ∧
      ((expiring .awaitLight 0).ctx 0).map (fun c => (c.state, c.timer)) =
        some (.awaitLight, some 0) ∧
      (opening.ctx 0).map (fun c => (c.state, c.outstanding, c.timer)) =
        some (.preparing, some .openBand, some 0) := by
  decide +kernel

theorem test_lightTimeout_aborts :
    ((after (.lightTimeout 0) (expiring .awaitLight 0)).port 0).out =
      [.peer ⟨2, 1, 0, .abort onward .lightTimeout 1⟩] := by decide +kernel

theorem test_openTimeout_ends :
    (after (.openTimeout 0) opening).ctx 0 = none := by decide +kernel

theorem test_litTimeout_retreats :
    ((after (.litTimeout 0) (expiring .litWait 0)).ctx 0).map (fun c => (c.state, c.abortReason)) =
      some (.retreating, some .litTimeout) := by decide +kernel

/-- Sixteen slots at −3.00 dBm each are allowed 12.04 dB more together (R99, R100). -/
theorem test_channel_target_sixteen :
    channelTarget (base.port 1).profile 384 16 = 904 := by decide +kernel

theorem witness_TargetArithmetic :
    384 + 16 ≤ 400 ∧ (1000 : Int) + (1501 : Nat) - 1 = (2500 : Nat) ∧
      (-3000 : Int) + (1000 : Nat) - 1 < 0 := by decide

/-- A preparing channel measured on a port with a gain. -/
def gained (g : Option Nat) : State :=
  (measuring (transit .preparing) 2500 1).onPort 1 fun x => { x with gain := g }

/-- The context of `gained`. -/
def gainedCtx : Context :=
  { transit .preparing with att := some 2500, attempts := 1, outstanding := some .measure,
                            timer := some 0 }

/-- A trim measured at attenuation `a`, with a gain that brings −5.00 dBm to a target of 9.00 dB. -/
def trimmed (a : Nat) : State :=
  (measuring (transit .trimming) a 1).onPort 1 fun x => { x with gain := some 1401 }

theorem witness_PowerSetsTheTarget :
    (withReport (gained (some 1000)) 1 (.power 0 0 (-3000))).reportWaits 1 (.power 0 0 (-3000)) ∧
      (withReport (gained (some 1000)) 1 (.power 0 0 (-3000))).asked 1 0 0 gainedCtx .measure ∧
      targetOf (-3000) (some 1000) (channelTarget (base.port 1).profile 10 2) = .reached 0 true ∧
      targetOf 1000 (some 1501) (channelTarget (base.port 1).profile 10 2) = .reached 2500 false ∧
      targetOf 1000 (some 1502) (channelTarget (base.port 1).profile 10 2) = .inputTooHigh ∧
      targetOf 1000 none (channelTarget (base.port 1).profile 10 2) = .noGain ∧
      (withReport (gained (some 1501)) 1 (.power 0 0 1200)).asked 1 0 0 gainedCtx .measure ∧
      ((withReport (gained (some 1501)) 1 (.power 0 0 1200)).port 1).swapPending = false ∧
      (withReport (trimmed 904) 1 (.power 0 0 (-500))).asked 1 0 0
        { transit .trimming with att := some 904, attempts := 1, outstanding := some .measure,
                                 timer := some 0 } .measure ∧
      targetOf (-500) (some 1401) (channelTarget (base.port 1).profile 10 2) = .reached 900 false ∧
      904 < 900 + 5 ∧ 900 + 5 ≤ 905 := by
  unfold State.reportWaits State.asked
  decide +kernel

/-- A target of 9.00 dB, a sparse port: the base step of a sole channel is 25 times code 2, and the
channel takes its first step from dark at once (R101, R104, R141). -/
theorem test_power_starts_the_ramp :
    let t := after (.power 1) (withReport (gained (some 1401)) 1 (.power 0 0 (-500)))
    (t.ctx 0).map (fun c => (c.state, c.target, c.base)) = some (.ramping, some 900, some 50) ∧
      (t.port 1).requested = some 2450 := by decide +kernel

/-- 0.04 dB from its target a trim is over, 0.05 dB from it the trim goes on (R107, R149). -/
theorem test_power_trim_band :
    ((after (.power 1) (withReport (trimmed 904) 1 (.power 0 0 (-500)))).ctx 0).map (·.state) =
        some .inService ∧
      ((after (.power 1) (withReport (trimmed 905) 1 (.power 0 0 (-500)))).ctx 0).map (·.kind) =
        some (some .trim) := by decide +kernel

theorem witness_MeasurementAttemptsAreSpent :
    (withReport (measuring (transit .preparing) 2500 3) 1 (.power 0 0 (-3001))).reportWaits 1
        (.power 0 0 (-3001)) ∧
      (withReport (measuring (transit .preparing) 2500 3) 1 (.power 0 0 (-3001))).asked 1 0 0
        { gainedCtx with attempts := 3 } .measure ∧
      base.part.measureAttempts = 3 ∧
      ((measuring (transit .trimming) 900 2).ctx 0).map (fun c => (c.state, c.attempts, c.timer)) =
        some (.trimming, 2, some 0) ∧
      ((measuring (going .trimming) 900 2).ctx 0).map (·.teardown) =
        some (some ⟨.abortFromDownstream, .retreat, .none⟩) ∧
      (withReport (measuring (going .preparing) 2500 1) 1 (.power 0 0 (-3000))).reportWaits 1
        (.power 0 0 (-3000)) ∧
      (withReport (measuring (going .preparing) 2500 1) 1 (.power 0 0 (-3000))).asked 1 0 0
        { gainedCtx with
          attempts := 1, teardown := some ⟨.abortFromDownstream, .retreat, .none⟩ } .measure := by
  unfold State.reportWaits State.asked
  decide +kernel

/-- The second attempt of three is followed by a third, and the third by an abort (R93). -/
theorem test_measureTimeout_attempts :
    ((after (.measureTimeout 0) (measuring (transit .preparing) 2500 2)).ctx 0).map (·.attempts) =
        some 3 ∧
      ((after (.measureTimeout 0) (measuring (transit .preparing) 2500 3)).ctx 0).map
        (fun c => (c.state, c.abortReason)) = some (.closing, some .noInputPower) := by decide +kernel

/-! ### Steps -/

/-- A ramp, a trim and a retreat in the middle of a step. -/
def ramping : Context := ofKind (transit .ramping) .ramp
def trimming : Context := ofKind (transit .trimming) .trim
def retreating : Context := ofKind (going .retreating) .retreat

/-- The context of `stepping`. -/
def inStep (c : Context) (a : Nat) : Context :=
  { c with att := some a, target := some 900, base := some 200, stepSize := some 100,
           outstanding := some .set }

/-- The step's expiry moved to time 1. -/
def early (s : State) : State := s.onPort 1 fun x => { x with expiry := some 1 }

/-- The retreat waits for the end of the step. -/
def marked (s : State) : State := s.onPort 1 fun x => { x with retreatDue := true }

theorem witness_StepsThatFail :
    (withReport (stepping ramping 2500 2400 .actuating) 1 (.actuated 0 0 true 2411)).reportWaits 1
        (.actuated 0 0 true 2411) ∧
      (stepping ramping 2500 2400 .actuating).asked 1 0 0 (inStep ramping 2500) .set ∧
      ((stepping ramping 2500 2400 .actuating).port 1).phase = .actuating ∧
      ((stepping ramping 2500 2400 .actuating).port 1).requested = some 2400 ∧
      10 < (2411 : Int) - (2400 : Nat) ∧
      ((early (stepping ramping 2500 2400 .actuating)).port 1).expiry = some 1 ∧
      (early (stepping ramping 2500 2400 .actuating)).elapsed < 1 ∧
      ((stepping ramping 2500 2400 .actuating).port 1).expiry = some 0 ∧
      ((stepping ramping 2500 2400 .actuating).port 1).holder = some 0 ∧
      ((stepping ramping 2400 2400 .observing).port 1).phase = .observing ∧
      (stepping trimming 1000 950 .actuating).asked 1 0 0 (inStep trimming 1000) .set ∧
      (stepping retreating 2400 2500 .actuating).asked 1 0 0 (inStep retreating 2400) .set ∧
      ((marked (stepping (ofKind (going .ramping) .ramp) 2400 2300 .actuating)).port 1).retreatDue =
        true := by
  unfold State.reportWaits State.asked
  decide +kernel

/-- The four ends of a step that arm the lamp's hold: a SETTLED, a failed ACTUATED, both expiries. -/
theorem witness_TheLampShowsTheDegree_at_the_end_of_a_step :
    (∀ ph, (stepping ramping 2400 2400 ph).asked (portOf 1) 0 0 (inStep ramping 2400) .set ∧
      ((stepping ramping 2400 2400 ph).port (portOf 1)).phase = ph ∧
      ((stepping ramping 2400 2400 ph).port (portOf 1)).expiry = some 0 ∧
      ((stepping ramping 2400 2400 ph).port (portOf 1)).holder = some 0 ∧
      ((stepping ramping 2400 2400 ph).port (portOf 1)).requested = some 2400) ∧
    (withReport (stepping ramping 2400 2400 .observing) (portOf 1) (.settled 0 0 0)).reportWaits
      (portOf 1) (.settled 0 0 0) ∧
    (withReport (stepping ramping 2400 2400 .actuating) (portOf 1) (.actuated 0 0 false 0)).reportWaits
      (portOf 1) (.actuated 0 0 false 0) := by
  unfold State.reportWaits State.asked
  refine ⟨fun ph => ?_, ?_⟩
  · cases ph <;> decide +kernel
  · decide +kernel

theorem test_settled_arms_the_lamp :
    ((after (.settled 1) (withReport (stepping ramping 2400 2400 .observing) 1 (.settled 0 0 0))).degree
      1).lampHold = some 250 := by decide +kernel

/-- A SET of a retreat that fails closes the range outright (R126). -/
theorem test_actuated_retreat_forces_the_close :
    ((after (.actuated 1) (withReport (stepping retreating 2400 2500 .actuating) 1
      (.actuated 0 0 false 0))).ctx 0).map (fun c => (c.state, c.flags.closeForced)) =
      some (.closing, true) := by decide +kernel

/-- The actuation window's expiry takes the requested attenuation as applied (R127). -/
theorem test_actuationWindowExpiry_applies :
    ((after (.actuationWindowExpiry 1) (stepping ramping 2500 2400 .actuating)).ctx 0).map
      (fun c => (c.state, c.att, c.abortReason)) =
      some (.retreating, some 2400, some .actuateTimeout) := by decide +kernel

theorem test_observationWindowExpiry_halts_a_trim :
    let t := after (.observationWindowExpiry 1) (stepping trimming 950 950 .observing)
    (t.ctx 0).map (·.state) = some .inService ∧ t.ring = [.trim onward false 950 { CtxFlags.clear with trimHalted := true }] := by decide +kernel

/-- The expiry of a retreat's window is a clean result: the second in a row restores S (R128, R110). -/
theorem test_observationWindowExpiry_restores :
    ((after (.observationWindowExpiry 1) (stepping { retreating with clean := 1 } 2200 2200
      .observing)).ctx 0).map (fun c => (c.state, c.stepSize, c.clean)) =
      some (.retreating, some 200, 0) := by decide +kernel

theorem test_observationWindowExpiry_early :
    let t := after (.observationWindowExpiry 1) (early (stepping trimming 950 950 .observing))
    (t.ctx 0, (t.port 1).phase) = (some (inStep trimming 950), .observing) := by decide +kernel

theorem witness_SettledJudgesTheStep :
    (withReport (stepping ramping 2400 2400 .observing) 1 (.settled 0 0 30)).reportWaits 1
        (.settled 0 0 30) ∧
      (stepping ramping 2400 2400 .observing).asked 1 0 0 (inStep ramping 2400) .set ∧
      ((stepping ramping 2400 2400 .observing).port 1).phase = .observing ∧
      ((stepping ramping 2400 2400 .observing).port 1).holder = some 0 ∧
      ((stepping ramping 2400 2400 .observing).port 1).confirmMark = some 0 ∧
      ((stepping ramping 2400 2400 .observing).port 1).params.gOk = 30 ∧
      ((stepping ramping 2400 2400 .observing).port 1).params.gAbort = 100 ∧
      (inStep ramping 2400).target ≠ some 2400 ∧
      ((stepping ramping 2400 2400 .observing).port 1).retreatDue = false ∧
      (stepping trimming 950 950 .observing).asked 1 0 0 (inStep trimming 950) .set ∧
      (stepping retreating 2400 2400 .observing).asked 1 0 0 (inStep retreating 2400) .set ∧
      ((marked (stepping (ofKind (going .ramping) .ramp) 2400 2400 .observing)).port 1).retreatDue =
        true ∧
      (going .ramping).teardown.isSome := by
  unfold State.reportWaits State.asked
  decide +kernel

/-- A port that halts on disturbance, with a change of 1.01 dB: above G_abort. -/
def halting (c : Context) (a : Nat) : State :=
  withReport ((stepping c a a .observing).onPort 1 fun x =>
    { x with params := { x.params with haltOnDisturbance := true } }) 1 (.settled 0 0 101)

theorem witness_SettledJudgesTheStep_of_a_disturbance :
    ((halting ramping 2400).reportWaits 1 (.settled 0 0 101) ∧
      (halting ramping 2400).asked 1 0 0 (inStep ramping 2400) .set) ∧
    ((halting trimming 950).reportWaits 1 (.settled 0 0 101) ∧
      (halting trimming 950).asked 1 0 0 (inStep trimming 950) .set) ∧
    ((halting trimming 950).port 1).params.gAbort < 101 ∧
    ((halting trimming 950).port 1).frozen = false ∧
    ((halting trimming 950).port 1).params.haltOnDisturbance = true ∧
    ((halting trimming 950).port 1).swapPending = false := by
  unfold State.reportWaits State.asked
  decide +kernel

/-- The Port record Frozen follows the Trim record of the halted trim (R132). -/
theorem test_settled_freezes_after_the_trim :
    (after (.settled 1) (halting trimming 950)).ring =
      [.trim onward false 950 { CtxFlags.clear with trimHalted := true }, .port 1 .frozen] := by
  decide +kernel

/-- What a SETTLED of a ramp in flight leaves of its state, S, clean count and backoff count. -/
def judged (dp : Nat) : Option (CtxState × Option Nat × Nat × Nat) :=
  ((after (.settled 1) (withReport (stepping ramping 2400 2400 .observing) 1 (.settled 0 0 dp))).ctx
    0).map fun c => (c.state, c.stepSize, c.clean, c.backoffs)

/-- Up to 0.30 dB a step is clean, up to 1.00 dB S is halved, above that the ramp aborts (R109 to
R112). -/
theorem test_settled_bounds :
    judged 30 = some (.ramping, some 100, 1, 0) ∧ judged 31 = some (.ramping, some 50, 0, 1) ∧
      judged 100 = some (.ramping, some 50, 0, 1) ∧
      (judged 101).map (·.1) = some .retreating := by decide +kernel

theorem witness_SteppingThatReachesItsEnd :
    (withReport (stepping ramping 900 900 .observing) 1 (.settled 0 0 0)).reportWaits 1 (.settled 0 0 0) ∧
      (stepping ramping 900 900 .observing).asked 1 0 0 (inStep ramping 900) .set ∧
      (inStep ramping 900).target = some 900 ∧ ramping.role ≠ .tail ∧
      ((stepping ramping 900 900 .observing).port 1).swapPending = false ∧
      ramping.flags.trimDue = false ∧ ramping.chosen.isSome ∧
      (stepping ramping 900 900 .observing).servesDegree 1 4 ∧
      (stepping (ofKind (tailOf .ramping) .ramp) 900 900 .observing).asked 8 0 0
        (inStep (ofKind (tailOf .ramping) .ramp) 900) .set ∧
      (stepping trimming 900 900 .observing).asked 1 0 0 (inStep trimming 900) .set ∧
      (stepping retreating 2500 2500 .observing).asked 1 0 0 (inStep retreating 2500) .set := by
  unfold State.reportWaits State.asked State.servesDegree
  decide +kernel

/-- A ramp that reaches its target at a transit sends LIGHT on and waits for LIT (R121, R142). -/
theorem test_settled_target_reached :
    let t := after (.settled 1) (withReport (stepping ramping 900 900 .observing) 1 (.settled 0 0 0))
    (t.port 1).out = [.peer ⟨4, 1, 1, .light onward⟩] ∧
      (t.ctx 0).map (·.state) = some .litWait := by decide +kernel

/-- A channel that holds the slot while another context waits. -/
def contestedBy (c : Context) (f : PortState → PortState) : State :=
  ((stepping c 2400 2400 .observing).putCtx 1
    { inStep c 2400 with path := own, outstanding := none }).onPort 1 f

def contested (f : PortState → PortState) : State := contestedBy ramping f

/-- Each kind steps on alone; a ramp and a trim give way to a higher queue; and a burst of four steps is
over while another waits in the same queue. -/
theorem witness_TheHolderYieldsOrStepsOn :
    (∀ c ∈ [ramping, trimming, retreating],
      (withReport (contestedBy c id) 1 (.settled 0 0 0)).reportWaits 1 (.settled 0 0 0) ∧
      (contestedBy c id).asked 1 0 0 (inStep c 2400) .set ∧
      ((contestedBy c id).port 1).phase = .observing ∧ ((contestedBy c id).port 1).holder = some 0 ∧
      ((contestedBy c id).port 1).retreatDue = false ∧ ((contestedBy c id).port 1).swapPending = false ∧
      (inStep c 2400).target = some 900 ∧ (inStep c 2400).stepSize = some 100 ∧
      (inStep c 2400).base = some 200 ∧ c.cls = .normal ∧ ((contestedBy c id).port 1).frozen = false) ∧
      (ramping.state, trimming.state, retreating.state) = (.ramping, .trimming, .retreating) ∧
      ((contested id).port 1).params.burstCode = 3 ∧ min (2 ^ (3 - 1)) 16 = 4 ∧
      ((contested id).port 1).tenure = 1 ∧
      ((contested fun x => { x with restoreQ := [1] }).port 1).restoreQ = [1] ∧
      ((contestedBy trimming fun x => { x with retreatQ := [1] }).port 1).retreatQ = [1] ∧
      ((contested fun x => { x with normalQ := [1], tenure := 4 }).port 1).normalQ = [1] ∧
      ((contestedBy retreating fun x => { x with retreatQ := [1], tenure := 4 }).port 1).retreatQ =
        [1] := by
  unfold State.reportWaits State.asked
  decide +kernel

/-- A burst of four steps is over, and the next of the queue takes the slot (R120). -/
theorem test_settled_burst_over :
    let t := after (.settled 1)
      (withReport (contested fun x => { x with normalQ := [1], tenure := 4 }) 1 (.settled 0 0 0))
    ((t.port 1).holder, (t.port 1).normalQ) = (some 1, [0]) := by decide +kernel

theorem witness_ActuatedSetIsObservedAndExtended :
    (withReport (stepping ramping 2500 2400 .actuating) 1 (.actuated 0 0 true 2410)).reportWaits 1
        (.actuated 0 0 true 2410) ∧
      (stepping ramping 2500 2400 .actuating).asked 1 0 0 (inStep ramping 2500) .set ∧
      ((stepping ramping 2500 2400 .actuating).port 1).settings = some ⟨50, 200, 100, 8⟩ ∧
      (2410 : Int) - (2400 : Nat) ≤ 10 ∧
      (withReport (stepping ramping 2400 2400 .observing) 1 (.pending 0 0 3)).reportWaits 1
        (.pending 0 0 3) ∧
      (withReport (stepping ramping 2400 2400 .observing) 1 (.continue_ 0 0)).reportWaits 1
        (.continue_ 0 0) ∧
      ((stepping ramping 2400 2400 .observing).port 1).expiry = some 0 := by
  unfold State.reportWaits State.asked
  decide +kernel

/-- Of three units asked for, two are left under the cap of eight (R124). -/
theorem test_pending_capped :
    let s := (stepping ramping 2400 2400 .observing).onPort 1 fun x => { x with unitsUsed := 6 }
    let t := after (.pendingUnits 1) (withReport s 1 (.pending 0 0 3))
    ((t.port 1).expiry, (t.port 1).unitsUsed) = (some 200, 8) := by decide +kernel

theorem test_continue_one_unit :
    let t := after (.continueUnit 1)
      (withReport (stepping ramping 2400 2400 .observing) 1 (.continue_ 0 0))
    ((t.port 1).expiry, (t.port 1).unitsUsed) = (some 100, 1) := by decide +kernel

/-! ### The port -/

/-- Degree 2 in DOWN, as after a reset. -/
theorem witness_GainAndLineUpAreTaken :
    (withReport base 11 (.gain 3501)).reportWaits 11 (.gain 3501) ∧
      (withReport base 2 .lineUp).reportWaits 2 .lineUp ∧ (2 : PortNo) = portOf 2 ∧
      ((withReport base 2 .lineUp).degree 2).adj = .down ∧
      (withReport base 2 .lineUp).identityValid = true ∧
      (withReport base 11 .lineUp).reportWaits 11 .lineUp ∧ ∀ d, (11 : PortNo) ≠ portOf d := by
  unfold State.reportWaits
  decide +kernel

theorem test_gain_clamped :
    ((after (.gain 11) (withReport base 11 (.gain 3501))).port 11).gain = some 3500 := by
  decide +kernel

/-- A line that comes up starts probing (R46). -/
theorem test_lineUp_probes :
    let t := after (.lineUp 2) (withReport base 2 .lineUp)
    (t.degree 2).adj = .probing ∧ (t.port 2).lineIsUp = true := by decide +kernel

theorem witness_LineDownTakesThePortDark :
    (withReport base 11 .lineDown).reportWaits 11 .lineDown ∧
      ((withReport base 11 .lineDown).port 11).lineIsUp = false ∧
      (withReport (litAt (transit .inService) 900) 1 .lineDown).reportWaits 1 .lineDown ∧
      ((withReport (litAt (transit .inService) 900) 1 .lineDown).port 1).lineIsUp = true ∧
      ((withReport (litAt (transit .inService) 900) 1 .lineDown).ctx 0).map
        (fun c => (c.outPort, c.tornDown, c.rangeOpen)) = some (1, false, true) ∧
      ((withReport (litAt (transit .inService) 900) 1 .lineDown).port 1).swapPending = false ∧
      (withReport (litAt (transit .inService) 900) 0 .lineDown).reportWaits 0 .lineDown ∧
      ((withReport (litAt (transit .inService) 900) 0 .lineDown).port 0).lineIsUp = true ∧
      (transit .inService).inPort = .degree 0 ∧
      (∀ q, ((withReport (litAt (transit .inService) 900) 0 .lineDown).port q).swapPending = false) ∧
      (withReport base 1 .lineDown).reportWaits 1 .lineDown ∧
      ∀ i, (withReport base 1 .lineDown).ctx i = none := by
  unfold State.reportWaits
  decide +kernel

/-- A LINE_DOWN of port `p` with context 0 in the table. -/
def losing (c : Context) (p : PortNo) : State := withReport (litAt c 900) p .lineDown

/-- No swap pending; the neighbours that the messages go to; a context whose range is not Open; and one
whose retreat is decided. Port 11 serves none of them. -/
theorem witness_LineDownTakesThePortDark_of_the_causes :
    (∀ q, ((losing (going .retreating) 1).port q).swapPending = false) ∧
    (losing (transit .inService) 1).servesDegree 0 2 ∧ (losing (transit .inService) 0).servesDegree 1 4 ∧
    ((transit .awaitLight).rangeOpen = false ∧ (transit .awaitLight).tornDown = false ∧
      (transit .awaitLight).lostWay = .none ∧ (transit .inService).lostWay = .darkJump) ∧
    (∃ c, (losing (going .retreating) 1).ctx 0 = some c ∧ c.outPort = 1 ∧
      c.teardown = some ⟨.abortFromDownstream, .retreat, .none⟩ ∧ c.state ≠ .closing ∧
      c.outstanding ≠ some .measure) ∧
    ((losing (transit .inService) 11).reportWaits 11 .lineDown ∧
      (transit .inService).outPort ≠ 11 ∧ ∀ d, (11 : PortNo) ≠ portOf d) := by
  unfold State.servesDegree State.reportWaits
  refine ⟨by decide +kernel, by decide +kernel, by decide +kernel, by decide +kernel, ⟨_, rfl, ?_⟩,
    by decide +kernel⟩
  decide +kernel

/-- A channel not yet open is aborted downstream at once when its input is lost, and ends (R166). -/
theorem test_lineDown_of_an_unopened_channel :
    let t := after (.lineDown 0) (withReport (base.putCtx 0 (transit .awaitLight)) 0 .lineDown)
    t.ctx 0 = none ∧ (t.port 1).out = [.peer ⟨4, 1, 1, .abort onward .lineDown 1⟩] := by decide +kernel

/-- The out-port's line goes down: the neighbour upstream is told, and the range closes (R167). -/
theorem test_lineDown_closes :
    let t := after (.lineDown 1) (withReport (litAt (transit .inService) 900) 1 .lineDown)
    (t.ctx 0).map (fun c => (c.state, c.abortReason)) = some (.closing, some .lineDown) ∧
      (t.port 0).out = [.peer ⟨2, 1, 0, .abort onward .lineDown 1⟩] ∧
      (t.degree 1).adj = .down := by decide +kernel

/-! ### What every step keeps -/

/-- A channel of the table with every map Free, and a command that waits. -/
def occupied : State :=
  { base.putCtx 0 { transit .inService with att := some 2500 } with pending := [.timeBaseTick] }

/-- Context 0 is the only one, and it is `c0`. -/
def alone (s : State) (c0 : Context) : Prop :=
  s.ctx 0 = some c0 ∧ ∀ j, j ≠ 0 → s.ctx j = none

theorem alone_eq {s : State} {c0 c : Context} {i : CtxIdx} (h : alone s c0) (held : s.ctx i = some c) :
    i = 0 ∧ c = c0 := by
  by_cases e : i = 0
  · subst e
    exact ⟨rfl, Option.some.inj (held.symm.trans h.1)⟩
  · cases held.symm.trans (h.2 i e)

theorem occupied_alone : alone occupied { transit .inService with att := some 2500 } := by
  unfold alone
  decide +kernel

/-- A port with the parameters of a reset, whose gain and step are in range. -/
def tamePort (q : PortState) : Bool :=
  decide (q.params = .default) && q.gain.all (· ≤ 3500) && q.requested.all (· ≤ 2500) &&
  decide (q.tenure ≤ 65535 ∧ q.slowest ≤ 65535 ∧ q.settings ∈ [none, some ⟨50, 200, 100, 8⟩] ∧
    q.unitsUsed ≤ 15)

/-- The banks are those of a reset. -/
def resetBanks (q : PortState) : Prop :=
  q.bankA = PortState.reset.bankA ∧ q.bankB = PortState.reset.bankB

theorem tamePort_inRange (q : PortState) (h : tamePort q = true) (banks : resetBanks q) : q.inRange := by
  simp only [tamePort, Bool.and_eq_true, decide_eq_true_eq, Option.all_eq_true, List.mem_cons,
    List.not_mem_nil, or_false] at h
  obtain ⟨⟨⟨par, gain⟩, req⟩, tenure, slowest, settings, units⟩ := h
  refine ⟨?_, ?_, ?_, gain, req, tenure, slowest, ?_, units⟩
  · rw [par]
    unfold PortParams.inRange
    decide +kernel
  · rw [banks.1]
    simp [bankInRange, PortState.reset, Table.read, Table.all]
  · rw [banks.2]
    simp [bankInRange, PortState.reset, Table.read, Table.all]
  · intro x e
    rcases settings with h | h <;> cases h.symm.trans e
    simp [StepSettings.inRange]

/-- A degree whose record of its neighbour is in range. -/
def tameDegree (x : DegreeState) : Bool :=
  x.nbrId.all (fun n => decide (1 ≤ n.toNat ∧ n.toNat ≤ 4094)) &&
    decide (x.nbrUnsynced = [] ∧ x.objects = [] ∧ x.queryAttempts ≤ 8)

/-- The ranges of a small state follow from those of its one context. -/
theorem tame_inRange {s : State} {c0 : Context} (h : alone s c0) (context : c0.inRange)
    (part : s.part = .default) (ports : ∀ p, tamePort (s.port p) = true)
    (banks : ∀ p, resetBanks (s.port p))
    (degrees : ∀ d, tameDegree (s.degree d) = true) : s.inRange := by
  refine ⟨?_, ?_, fun p => tamePort_inRange _ (ports p) (banks p), fun d => ?_⟩
  · rw [part]
    unfold PartParams.inRange
    decide +kernel
  · intro i c held
    rw [(alone_eq h held).2]
    exact context
  · have tame := degrees d
    simp only [tameDegree, Bool.and_eq_true, decide_eq_true_eq, Option.all_eq_true] at tame
    obtain ⟨nbr, ports, objects, attempts⟩ := tame
    exact ⟨nbr, by simp [ports], by simp [objects], attempts⟩

theorem occupied_banks : ∀ q, resetBanks (occupied.port q)
  | 0 | 1 | 2 | 3 | 4 | 5 | 6 | 7 | 8 | 9 | 10 | 11 => ⟨rfl, rfl⟩

theorem witness_RangesArePreserved :
    occupied.inRange ∧ step occupied = .next (after .timeBaseTick { occupied with pending := [] }) := by
  refine ⟨tame_inRange occupied_alone ?_ rfl (by decide +kernel) occupied_banks (by decide +kernel), rfl⟩
  simp [Context.inRange, Context.powerInRange, Context.pathInRange, Context.spectrumInRange, isNode,
    transit, newContext, onward]

theorem occupied_map : ∀ q, (occupied.port q).map = PortState.reset.map
  | 0 | 1 | 2 | 3 | 4 | 5 | 6 | 7 | 8 | 9 | 10 | 11 => rfl

theorem occupied_cell (p : PortNo) (k : Nat) (x : Cell) (h : cellAt (occupied.port p).map k = some x) :
    x = .free := by
  rw [occupied_map p] at h
  unfold cellAt at h
  split at h
  · simpa [PortState.reset, Table.read, Table.all] using h.symm
  · cases h

theorem witness_MapAndTableLawsArePreserved_of_an_empty_map : occupied.Law := by
  refine ⟨?_, ?_, ?_⟩
  · intro p _ k i h
    cases occupied_cell p k _ h
  · intro p k x i h h'
    rw [occupied_cell p k x h] at h'
    cases h'
  · intro i j c c' h h' _
    rw [(alone_eq occupied_alone h).1, (alone_eq occupied_alone h').1]

/-- A retreat in the middle of its step on a port whose swap is pending, and the report that ends the
step. -/
def underway : State :=
  { withReport ((stepping retreating 2400 2400 .observing).onPort 1 fun x =>
      { x with swapPending := true }) 1 (.settled 0 0 0) with
    pending := [.settled 1] }

theorem underway_alone : alone underway (inStep retreating 2400) := by
  unfold alone
  decide +kernel

theorem underway_banks : ∀ q, resetBanks (underway.port q)
  | 0 | 1 | 2 | 3 | 4 | 5 | 6 | 7 | 8 | 9 | 10 | 11 => ⟨rfl, rfl⟩

theorem underway_noQuietSwap : underway.noQuietSwap := by
  have ports : ∀ p, (underway.port p).swapPending = true → (underway.port p).phase ≠ .idle := by
    decide +kernel
  exact fun p pending => .inl (ports p pending)

/-- The end of the step leaves the port quiet, and the swap is made (R19, R20). -/
theorem test_settled_makes_the_swap :
    let t := after (.settled 1) { underway with pending := [] }
    ((t.port 1).active, (t.port 1).swapPending) = (.b, false) ∧ t.ring = [.port 1 .swapDone] := by
  decide +kernel

/-- The step machine of a small state fits where that of its one context's port does. -/
theorem witness_StepMachineLawsArePreserved :
    underway.inRange ∧ underway.stepLaw ∧ underway.noQuietSwap ∧
      (underway.port 1).swapPending = true ∧
      ∃ t, step underway = .next t ∧ (t.ctx 0).map (·.state) = some .retreating := by
  refine ⟨tame_inRange underway_alone ?_ rfl (by decide +kernel) underway_banks (by decide +kernel), ⟨?_, ?_⟩,
    underway_noQuietSwap, rfl, after (.settled 1) { underway with pending := [] }, rfl, by decide +kernel⟩
  · simp [Context.inRange, Context.powerInRange, Context.pathInRange, Context.spectrumInRange, isNode,
      inStep, retreating, going, ofKind, transit, newContext, onward]
  · intro i c h
    obtain ⟨rfl, rfl⟩ := alone_eq underway_alone h
    have port : 0 ∈ (underway.port 1).members ∧ (underway.port 1).holder = some 0 := by
      decide +kernel
    refine ⟨?_, ?_, fun _ => port.1, fun _ => port.2⟩
    · simp [Context.fieldsFit, inStep, retreating, going, ofKind, transit, newContext]
    · simp [inStep, retreating, going, ofKind]
  · intro p
    by_cases e : p = 1
    · subst e
      have port : (underway.port 1).phase = .observing ∧ (underway.port 1).requested = some 2400 ∧
          (underway.port 1).expiry.isSome ∧ (underway.port 1).settings.isSome ∧
          (underway.port 1).confirmMark.isSome ∧ (underway.port 1).holder = some 0 ∧
          (underway.port 1).members = [0] ∧ (underway.port 1).retreatQ = [] ∧
          (underway.port 1).restoreQ = [] ∧ (underway.port 1).normalQ = [] := by decide +kernel
      obtain ⟨phase, req, expiry, settings, mark, holder, members, q1, q2, q3⟩ := port
      refine ⟨?_, by simp [members], by simp [members], by simp [q1], by simp [q2], by simp [q3], ?_⟩
      · simp [PortState.stepFits, phase, holder, req, expiry, settings, mark]
      · intro i h
        cases holder.symm.trans h
        exact ⟨_, underway_alone.1, rfl, rfl, rfl, by simp [phase], fun _ => req, fun _ => rfl⟩
    · have port : ∀ q, q ≠ 1 → (underway.port q).phase = .idle ∧ (underway.port q).expiry = none ∧
          (underway.port q).requested = none ∧ (underway.port q).settings = none ∧
          (underway.port q).confirmMark = none ∧ (underway.port q).holder = none ∧
          (underway.port q).members = [] ∧ (underway.port q).retreatQ = [] ∧
          (underway.port q).restoreQ = [] ∧ (underway.port q).normalQ = [] ∧
          (underway.port q).tenure = 0 ∧ (underway.port q).unitsUsed = 0 ∧
          (underway.port q).retreatDue = false := by decide +kernel
      obtain ⟨phase, expiry, req, settings, mark, holder, members, q1, q2, q3, tenure, units, due⟩ :=
        port p e
      refine ⟨?_, by simp [members], by simp [members], by simp [q1], by simp [q2], by simp [q3],
        by simp [holder]⟩
      simp [PortState.stepFits, phase, holder, req, expiry, settings, mark, tenure, units, due]

theorem underway_map : ∀ q, q ≠ 1 → (underway.port q).map = PortState.reset.map
  | 0, _ | 2, _ | 3, _ | 4, _ | 5, _ | 6, _ | 7, _ | 8, _ | 9, _ | 10, _ | 11, _ => rfl
  | 1, h => absurd rfl h

theorem underway_map_one : (underway.port 1).map =
    writeRange PortState.reset.map 10 2 (fun _ => true) (.opened 0) := rfl

/-- The maps of `underway`: the range of its one channel is Open, and every other cell is Free. -/
theorem underway_cell (p : PortNo) (k : Nat) : cellAt (underway.port p).map k =
    if k < 400 then some (if p = 1 ∧ 10 ≤ k ∧ k < 12 then .opened 0 else .free) else none := by
  have free : cellAt PortState.reset.map k = if k < 400 then some .free else none := by
    unfold cellAt
    split <;> simp_all [PortState.reset, Config.nCells]
  by_cases e : p = 1
  · subst e
    rw [underway_map_one, cellAt_writeRange, free]
    by_cases band : k < 400 <;> by_cases r : 10 ≤ k ∧ k < 12 <;> simp [band, r, inRange]
  · rw [underway_map p e, free]
    simp [e]

/-- Context 5 asks with one other owner on the port, and context 0 with none (R16). -/
theorem witness_TargetArithmetic_of_the_live_count :
    (∀ j, j ∈ ([0] : List CtxIdx) ↔ j ≠ 5 ∧ ∃ k, cellAt (underway.port 1).map k = some (.opened j)) ∧
      ∀ j, j ∈ ([] : List CtxIdx) ↔ j ≠ 0 ∧ ∃ k, cellAt (underway.port 1).map k = some (.opened j) := by
  have owner : ∀ j : CtxIdx, (∃ k, cellAt (underway.port 1).map k = some (.opened j)) ↔ j = 0 := by
    intro j
    constructor
    · rintro ⟨k, h⟩
      rw [underway_cell] at h
      split at h
      · split at h
        · cases h
          rfl
        · cases h
      · cases h
    · rintro rfl
      exact ⟨10, by rw [underway_cell]; rfl⟩
  refine ⟨fun j => ?_, fun j => ?_⟩
  · rw [owner, List.mem_singleton]
    exact ⟨fun e => ⟨e ▸ by decide, e⟩, And.right⟩
  · rw [owner]
    exact ⟨nofun, fun h => absurd h.2 h.1⟩

theorem test_liveCount_leaves_out_the_asking_context :
    liveCount (litAt (transit .inService) 900 |>.port 1).map 5 = 1 ∧
      liveCount (litAt (transit .inService) 900 |>.port 1).map 0 = 0 := by decide +kernel

theorem witness_MapAndTableLawsArePreserved :
    underway.inRange ∧ underway.stepLaw ∧ underway.Law ∧ underway.cellsFit := by
  refine ⟨witness_StepMachineLawsArePreserved.1, witness_StepMachineLawsArePreserved.2.1,
    ⟨?_, ?_, ?_⟩, ?_⟩
  · intro p _ k i h
    rw [underway_cell] at h
    split at h
    · split at h <;> cases h
    · cases h
  · intro p k x i h owner
    rw [underway_cell] at h
    split at h
    · split at h
      · rename_i r
        cases h
        cases owner
        exact ⟨_, underway_alone.1, r.1.symm⟩
      · cases h
        cases owner
    · cases h
  · intro i j c c' h h' _
    rw [(alone_eq underway_alone h).1, (alone_eq underway_alone h').1]
  · intro i c h k x owner
    obtain ⟨rfl, rfl⟩ := alone_eq underway_alone h
    have port : (inStep retreating 2400).outPort = 1 := rfl
    have owns : (inStep retreating 2400).ownsAt 0 k =
        if 10 ≤ k ∧ k < 12 then some (.opened 0) else none := rfl
    rw [underway_cell, owns, port]
    by_cases r : 10 ≤ k ∧ k < 12
    · simp [r, show k < 400 by omega]
    · simp only [r, and_false, if_false, reduceCtorEq, iff_false]
      intro e
      split at e
      · cases e
        cases owner
      · cases e

theorem witness_QueuesStayBoundedAndDegreesDown :
    sixteen.queuesBounded ∧ fourCommands.queuesBounded ∧ eightReports.queuesBounded ∧
      (State.resetWith 3).downWhileInvalid ∧ (State.resetWith 3).identityValid = false := by
  unfold State.queuesBounded State.downWhileInvalid
  decide +kernel

theorem witness_OnlyTheirOwnCommandsChange :
    exec .timeBaseTick occupied = .next (after .timeBaseTick occupied) ∧
      (∀ straps, Instr.timeBaseTick ≠ .reset straps ∧ Instr.timeBaseTick ≠ .resetPinRelease straps) ∧
      cellAt (lastBlocked.port 3).map 399 = some .blocked ∧ (frozenQueue.port 1).frozen = true ∧
      (base.port 1).synced = true ∧
      ∃ t, exec (.settled 1) underway = .next t ∧ (underway.port 1).swapPending = true ∧
        (t.port 1).active ≠ (underway.port 1).active := by
  exact ⟨rfl, fun _ => ⟨nofun, nofun⟩, by decide +kernel, by decide +kernel, by decide +kernel,
    after (.settled 1) underway, rfl, by decide +kernel⟩

end Sys2Proof.Tests
end

/-! PROOFS. The maps and their commands: BLOCK, UNBLOCK and READMAP (R12, R13, R15). -/

namespace Sys2Proof.Machine

open Sys2Proof

/-! ### The fields of a command -/

/-- A number that fits two bytes is read back from its two-byte field (chapter 11). -/
theorem be2_byteOf {x : Nat} (h : x < 65536) : be2 (byteOf (x / 256)) (byteOf x) = x := by
  simp only [be2, byteOf, BitVec.toNat_ofNat]
  omega

@[simp] theorem readPort_byteOf (p : PortNo) : readPort (byteOf p.val) = some p := by
  have fits : (byteOf p.val).toNat = p.val := by
    simp only [byteOf, BitVec.toNat_ofNat]
    omega
  simp [readPort, fits]

@[simp] theorem withPort_byteOf (p : PortNo) (s : State) (work : PortNo → State × Reply) :
    withPort (byteOf p.val) s work = work p := by
  simp [withPort]

@[simp] theorem onPortCommand_byteOf (p : PortNo) (s : State) (work : PortNo → State × Reply) :
    onPortCommand [byteOf p.val] s work = work p := by
  simp [onPortCommand, decoded, readPortField]

theorem readRangeFields_rangeBytes (p : PortNo) {first count : Nat} (hf : first < 65536)
    (hc : count < 65536) :
    readRangeFields (rangeBytes p first count) = some (byteOf p.val, first, count) := by
  simp [rangeBytes, put2, readRangeFields, be2_byteOf hf, be2_byteOf hc]

theorem countInRange_iff (first count : Nat) :
    countInRange first count = true ↔ 1 ≤ count ∧ first + count ≤ 400 := by
  simp only [countInRange, Bool.and_eq_true, decide_eq_true_eq, Config.nCells]
  omega

/-! ### A command that waits is answered -/

section
variable {s : State} {k : Nat} {a b : Byte} {fields : List Byte} {rest : List (List Byte)}
  {work : List Byte → State → State × Reply}

/-- A command whose work leaves the state is answered, and nothing else changes (R172). -/
theorem onCommand_answered {r : Reply} (waits : s.commandWaits k a b fields rest) (hk : k < 256)
    (does : work fields { s with commands := rest } = ({ s with commands := rest }, r)) :
    onCommand s k work = .next (s.answered k a b rest r.code r.clamped r.body) := by
  rw [onCommand_eq waits.1 hk waits.2, does, State.respond_eq]
  rfl

/-- A command whose work writes a range of one port's map is answered OK, and nothing else changes
(R172). -/
theorem onCommand_writes_range {p : PortNo} {first n : Nat} {test : Cell → Bool} {new : Cell}
    (waits : s.commandWaits k a b fields rest) (hk : k < 256)
    (does : work fields { s with commands := rest } =
      (State.onPort { s with commands := rest } p fun ps =>
        { ps with map := writeRange ps.map first n test new }, .ok .none)) :
    ∃ t, onCommand s k work = .next t ∧
      (t.port p).map = writeRange (s.port p).map first n test new ∧
      { t.port p with map := (s.port p).map } = s.port p ∧ sameOtherPorts s t p ∧
      { t with ports := s.ports } = s.answered k a b rest .ok false .none := by
  have port : ((s.answered k a b rest .ok false .none).onPort p
      fun ps => { ps with map := writeRange ps.map first n test new }).port p =
        { s.port p with map := writeRange (s.port p).map first n test new } :=
    State.port_onPort_same _ _ _
  refine ⟨_, ?_, congrArg PortState.map port, ?_, fun q hq => State.port_onPort_other _ _ hq, rfl⟩
  · rw [onCommand_eq waits.1 hk waits.2, does, State.respond_eq]
    rfl
  · rw [port]

end

/-! ### BLOCK and UNBLOCK -/

/-- A range is all Free when each of its cells reads Free. -/
theorem rangeAll_free_iff (m : PortMap) (first n : Nat) :
    rangeAll m first n (fun x => decide (x = .free)) = true ↔
      ∀ k, first ≤ k → k < first + n → cellAt m k = some .free := by
  simp [rangeAll_iff]

section
variable {s : State} {p : PortNo} {first count : Nat}

/-- The branches of BLOCK on the fields of a range. -/
theorem blockWork_rangeBytes (hf : first < 65536) (hc : count < 65536) :
    blockWork (rangeBytes p first count) s =
      if 1 ≤ count ∧ first + count ≤ 400 then
        if ∀ k, first ≤ k → k < first + count → cellAt (s.port p).map k = some .free then
          (s.onPort p fun ps =>
            { ps with map := writeRange ps.map first count (fun _ => true) .blocked }, .ok .none)
        else (s, .err .conflict)
      else (s, .err .badRange) := by
  simp only [blockWork, decoded, readRangeFields_rangeBytes p hf hc, withPort_byteOf,
    ← countInRange_iff, ← rangeAll_free_iff]
  cases countInRange first count <;> rfl

/-- The branches of UNBLOCK on the fields of a range. -/
theorem unblockWork_rangeBytes (hf : first < 65536) (hc : count < 65536) :
    unblockWork (rangeBytes p first count) s =
      if 1 ≤ count ∧ first + count ≤ 400 then
        (s.onPort p fun ps =>
          { ps with map := writeRange ps.map first count (fun x => decide (x = .blocked)) .free },
            .ok .none)
      else (s, .err .badRange) := by
  simp only [unblockWork, decoded, readRangeFields_rangeBytes p hf hc, withPort_byteOf,
    ← countInRange_iff]
  cases countInRange first count <;> rfl

end

/-- A cell is in the band when it has an entry. -/
theorem cellAt_of_lt (m : PortMap) {k : Nat} (h : k < 400) : ∃ x, cellAt m k = some x :=
  ⟨_, dif_pos h⟩

/-- A range of the band written whole (R12). -/
theorem cellAt_writeRange_whole (m : PortMap) {first n : Nat} (h : first + n ≤ 400) (new : Cell)
    (k : Nat) :
    cellAt (writeRange m first n (fun _ => true) new) k =
      if first ≤ k ∧ k < first + n then some new else cellAt m k := by
  rw [cellAt_writeRange]
  by_cases r : first ≤ k ∧ k < first + n
  · obtain ⟨x, hx⟩ := cellAt_of_lt m (show k < 400 by omega)
    simp [r, hx]
  · simp [r]

/-- A range of which the cells of one entry are written (R13). -/
theorem cellAt_writeRange_entry (m : PortMap) (first n : Nat) (old new : Cell) (k : Nat) :
    cellAt (writeRange m first n (fun x => decide (x = old)) new) k =
      if (first ≤ k ∧ k < first + n) ∧ cellAt m k = some old then some new else cellAt m k := by
  rw [cellAt_writeRange]
  cases cellAt m k with
  | none => simp
  | some x =>
    simp only [Option.map_some, Bool.and_eq_true, inRange_iff, decide_eq_true_eq, Option.some.injEq]
    split <;> rfl

/-- Settles O8, branch by branch of each command's work. -/
theorem blockAndUnblockTurnCells : Obligations.BlockAndUnblockTurnCells := by
  constructor
  · intro s a b p first count rest hf hc waits
    have does := blockWork_rangeBytes (s := { s with commands := rest }) (p := p) hf hc
    refine ⟨fun h1 h2 free => ?_, fun h1 h2 taken => ?_, fun outside => ?_⟩
    · rw [if_pos ⟨h1, h2⟩] at does
      obtain ⟨t, run, map, frame⟩ :=
        onCommand_writes_range waits (by decide) (does.trans (if_pos free))
      exact ⟨t, run, fun k => by rw [map, cellAt_writeRange_whole _ h2], frame⟩
    · obtain ⟨k, hk, hk', notFree⟩ := taken
      rw [if_pos ⟨h1, h2⟩] at does
      exact onCommand_answered waits (by decide)
        (does.trans (if_neg fun free => notFree (free k hk hk')))
    · rw [if_neg outside] at does
      exact onCommand_answered waits (by decide) does
  · intro s a b p first count rest hf hc waits
    have does := unblockWork_rangeBytes (s := { s with commands := rest }) (p := p) hf hc
    refine ⟨fun h1 h2 => ?_, fun outside => ?_⟩
    · rw [if_pos ⟨h1, h2⟩] at does
      obtain ⟨t, run, map, frame⟩ := onCommand_writes_range waits (by decide) does
      exact ⟨t, run, fun k => by rw [map, cellAt_writeRange_entry], frame⟩
    · rw [if_neg outside] at does
      exact onCommand_answered waits (by decide) does

/-! ### READMAP -/

/-- The induction of `runsFrom`: a cell joins the run that follows it when their entries are the same,
and otherwise is a run of its own (R15). -/
theorem runsFrom_induct {motive : Nat → List Cell → List MapRun → Prop}
    (nil : ∀ k, motive k [] [])
    (joins : ∀ k xs r rs, motive (k + 1) xs (r :: rs) →
      motive k (r.cell :: xs) (⟨k, r.count + 1, r.cell⟩ :: rs))
    (starts : ∀ k x xs rs, (∀ r ∈ rs.head?, x ≠ r.cell) → motive (k + 1) xs rs →
      motive k (x :: xs) (⟨k, 1, x⟩ :: rs))
    (k : Nat) (xs : List Cell) : motive k xs (runsFrom k xs) := by
  induction xs generalizing k with
  | nil => exact nil k
  | cons x xs ih =>
    have after := ih (k + 1)
    unfold runsFrom
    split
    next r rs runs =>
      rw [runs] at after
      split
      next same => exact same ▸ joins k xs r rs after
      next differs =>
        refine starts k x xs (r :: rs) (fun r' hr => ?_) after
        cases hr
        exact Ne.symm differs
    next runs =>
      rw [runs] at after
      exact starts k x xs [] nofun after

/-- Put end to end, the runs are the cells. -/
theorem flatMap_runsFrom (k : Nat) (xs : List Cell) :
    (runsFrom k xs).flatMap (fun r => List.replicate r.count r.cell) = xs := by
  induction k, xs using runsFrom_induct with
  | nil k => rfl
  | joins k xs r rs ih => rw [List.flatMap_cons] at ih; simp [List.replicate_succ, ih]
  | starts k x xs rs _ ih => simp [ih]

/-- Each run starts where those before it end. -/
theorem first_runsFrom (k : Nat) (xs : List Cell) :
    ∀ j (hj : j < (runsFrom k xs).length),
      (runsFrom k xs)[j].first = k + (((runsFrom k xs).take j).map MapRun.count).sum := by
  induction k, xs using runsFrom_induct with
  | nil k => exact fun j hj => absurd hj (Nat.not_lt_zero j)
  | joins k xs r rs ih =>
    intro j hj
    cases j with
    | zero => rfl
    | succ j =>
      have next := ih (j + 1) hj
      simp only [List.getElem_cons_succ, List.take_succ_cons, List.map_cons, List.sum_cons] at next ⊢
      omega
  | starts k x xs rs _ ih =>
    intro j hj
    cases j with
    | zero => rfl
    | succ j =>
      have next := ih j (Nat.lt_of_succ_lt_succ hj)
      simp only [List.getElem_cons_succ, List.take_succ_cons, List.map_cons, List.sum_cons]
      omega

/-- No run is empty. -/
theorem count_pos_runsFrom (k : Nat) (xs : List Cell) : ∀ r ∈ runsFrom k xs, 1 ≤ r.count := by
  induction k, xs using runsFrom_induct with
  | nil k => exact nofun
  | joins k xs r rs ih =>
    exact List.forall_mem_cons.2 ⟨Nat.le_add_left 1 r.count, (List.forall_mem_cons.1 ih).2⟩
  | starts k x xs rs _ ih => exact List.forall_mem_cons.2 ⟨le_rfl, ih⟩

/-- Two runs that follow one another differ. -/
theorem isChain_runsFrom (k : Nat) (xs : List Cell) :
    ((runsFrom k xs).map MapRun.cell).IsChain (· ≠ ·) := by
  induction k, xs using runsFrom_induct with
  | nil k => exact .nil
  | joins k xs r rs ih => exact ih
  | starts k x xs rs differs ih =>
    rw [List.map_cons, List.isChain_cons]
    refine ⟨fun y hy => ?_, ih⟩
    rw [List.head?_map, Option.mem_map] at hy
    obtain ⟨r, hr, rfl⟩ := hy
    exact differs r hr

/-- There are no more runs than cells. -/
theorem length_runsFrom_le (k : Nat) (xs : List Cell) : (runsFrom k xs).length ≤ xs.length := by
  induction k, xs using runsFrom_induct with
  | nil k => exact le_rfl
  | joins k xs r rs ih => exact Nat.le_succ_of_le ih
  | starts k x xs rs _ ih => exact Nat.succ_le_succ ih

/-- Where there are cells, there is a run. -/
theorem runsFrom_ne_nil (k : Nat) {xs : List Cell} (h : xs ≠ []) : runsFrom k xs ≠ [] := by
  intro empty
  have cells := flatMap_runsFrom k xs
  rw [empty] at cells
  exact h cells.symm

/-- Settles O15: the answer is `mapRuns` of the port's map, each clause a law of `runsFrom`. -/
theorem readmapRunsAreTheMap : Obligations.ReadmapRunsAreTheMap := by
  intro s a b p rest waits
  have cells : (s.port p).map.toList.length = 400 := by simp
  refine ⟨mapRuns (s.port p).map, ?_, flatMap_runsFrom 0 _, ?_, count_pos_runsFrom 0 _,
    isChain_runsFrom 0 _, ?_, ?_⟩
  · exact onCommand_answered (work := readmapWork) waits (by decide) (onPortCommand_byteOf p _ _)
  · intro j hj
    exact (first_runsFrom 0 _ j hj).trans (Nat.zero_add _)
  · exact List.length_pos_iff.2 (runsFrom_ne_nil 0 (List.ne_nil_of_length_pos (by omega)))
  · exact (length_runsFrom_le 0 _).trans_eq cells

end Sys2Proof.Machine

/-! PROOFS. The identity query: IDENTQ, and the answer to an IDENT-QUERY (R53, R55, R56). -/

namespace Sys2Proof.Machine

open Sys2Proof

/-! ### A degree changed, a record written -/

/-- Two changes of one degree are one change. -/
theorem State.onDegree_onDegree (s : State) (d : DegreeNo) (f g : DegreeState → DegreeState) :
    (s.onDegree d f).onDegree d g = s.onDegree d fun x => g (f x) := by
  simp [State.onDegree, Table.modify, Table.read, Table.write]

/-- A frame formed and a change of a degree do not meet. -/
theorem State.emit_onDegree (s : State) (d : DegreeNo) (f : DegreeState → DegreeState) (p : PortNo)
    (o : OutFrame) : (s.onDegree d f).emit p o = (s.emit p o).onDegree d f := rfl

@[simp] theorem State.popPeer_degree (s : State) (d : DegreeNo) :
    (s.popPeer d).degree d = { s.degree d with peerQueue := (s.degree d).peerQueue.drop 1 } :=
  State.degree_onDegree_same _ _ _

/-- A record is written to the ring and its Lost flag alone (R176). -/
theorem State.report_eq (s : State) (r : RingRecord) :
    s.report r = { s with ring := (s.report r).ring, lost := (s.report r).lost } := by
  unfold State.report
  split <;> rfl

/-- The ring after a record depends on the ring before it alone (R176). -/
theorem State.report_ring_congr {s t : State} (h : t.ring = s.ring) (r : RingRecord) :
    (t.report r).ring = (s.report r).ring := by
  rw [(t.report_ring r).1, (s.report_ring r).1, h]

/-! ### A frame formed -/

/-- A part with a valid identity sends (R38). -/
theorem State.sendTo_of_valid {s : State} (valid : s.identityValid = true) (d : DegreeNo)
    (dest : NodeId) (m : PeerMsg) :
    s.sendTo d dest m = s.emit (portOf d) (.peer ⟨dest, s.nodeId, d, m⟩) :=
  if_pos valid

/-- A part with an invalid identity sends nothing (R38). -/
theorem State.sendTo_of_invalid {s : State} (invalid : s.identityValid = false) (d : DegreeNo)
    (dest : NodeId) (m : PeerMsg) : s.sendTo d dest m = s := by
  simp [State.sendTo, invalid]

@[simp] theorem State.port_emit_same (s : State) (p : PortNo) (f : OutFrame) :
    (s.emit p f).port p = { s.port p with out := (s.port p).out ++ [f] } :=
  State.port_onPort_same _ _ _

theorem sentOn_emit (s : State) (p : PortNo) (f : OutFrame) : sentOn s (s.emit p f) p [f] := by
  simp [sentOn]

theorem samePortButOut_emit (s : State) (p : PortNo) (f : OutFrame) :
    samePortButOut (s.port p) ((s.emit p f).port p) := by
  simp [samePortButOut]

theorem sameOtherPorts_emit (s : State) (p : PortNo) (f : OutFrame) :
    sameOtherPorts s (s.emit p f) p :=
  fun _ other => State.port_onPort_other _ _ other

/-! ### IDENTQ -/

/-- A number that fits one byte is read back from its byte (chapter 11). -/
theorem toNat_byteOf {x : Nat} (h : x < 256) : (byteOf x).toNat = x := by
  simp only [byteOf, BitVec.toNat_ofNat]
  omega

@[simp] theorem readDegree_byteOf (d : DegreeNo) : readDegree (byteOf d.val) = some d := by
  have fits : (byteOf d.val).toNat = d.val := toNat_byteOf (by omega)
  simp [readDegree, fits]

/-- The branches of IDENTQ on a degree that exists (R56). -/
theorem identqWork_byteOf (s : State) (d : DegreeNo) :
    identqWork [byteOf d.val] s =
      if (s.degree d).adj = .up then
        (if (s.degree d).verif = .pending then s.startQuery d
          else (s.startQuery d).adjacencyRecord d, .ok .none)
      else (s, .err .wrongState) := by
  simp [identqWork, decoded, readPortField, withDegree]

section
variable {s : State} {d : DegreeNo} {n : NodeId}

/-- A query started on a degree that serves its neighbour: one frame, and the degree Pending at its
first attempt (R53). -/
theorem State.startQuery_eq (serves : s.servesDegree d n) :
    s.startQuery d =
      (s.emit (portOf d) (.peer ⟨n, s.nodeId, d, .identQuery⟩)).onDegree d fun x =>
        { x with verif := .pending, queryAttempts := 1,
                 identTimer := some (s.elapsed + s.part.identTimeout) } := by
  obtain ⟨valid, up, nbr⟩ := serves
  have sent := State.sendPath_up (s := s.onDegree d fun x => { x with verif := .pending })
    (d := d) (n := n) .identQuery valid (by simpa using up) (by simpa using nbr)
  rw [State.startQuery, State.sendQuery, sent, State.emit_onDegree, State.onDegree_onDegree]
  rfl

theorem State.startQuery_degree (serves : s.servesDegree d n) :
    (s.startQuery d).degree d =
      { s.degree d with verif := .pending, queryAttempts := 1,
                        identTimer := some (s.elapsed + s.part.identTimeout) } := by
  rw [State.startQuery_eq serves]
  exact State.degree_onDegree_same _ _ _

/-- The Adjacency record of a query that has started (R52). -/
theorem State.adjacencyRecord_startQuery (serves : s.servesDegree d n) :
    (s.startQuery d).adjacencyRecord d =
      (s.startQuery d).report (.adjacency d .up (some n) .pending) := by
  have ⟨_, up, nbr⟩ := serves
  rw [State.adjacencyRecord, State.startQuery_degree serves]
  simp only [up, nbr]

/-- IDENTQ's query, with its Adjacency record unless the verification was Pending already: the ring
beside the query (R52, R56). -/
theorem identqWork_serves (serves : s.servesDegree d n) :
    ∃ lost, identqWork [byteOf d.val] s =
      ({ s.startQuery d with
          ring := if (s.degree d).verif = .pending then s.ring
            else (s.report (.adjacency d .up (some n) .pending)).ring
          lost := lost }, .ok .none) := by
  have ⟨_, up, _⟩ := serves
  have ring : (s.startQuery d).ring = s.ring := by rw [State.startQuery_eq serves]; rfl
  rw [identqWork_byteOf, if_pos up]
  split
  · exact ⟨(s.startQuery d).lost, by rw [← ring]⟩
  · refine ⟨((s.startQuery d).report (.adjacency d .up (some n) .pending)).lost, ?_⟩
    rw [State.adjacencyRecord_startQuery serves, State.report_eq, State.report_ring_congr ring]

end

/-- Settles O18, by the two branches of IDENTQ's work. -/
theorem identqStartsAQuery : Obligations.IdentqStartsAQuery := by
  intro s a b d rest waits
  refine ⟨fun notUp => ?_, fun n serves => ?_⟩
  · exact onCommand_answered (work := identqWork) waits (by decide)
      ((identqWork_byteOf _ d).trans (if_neg notUp))
  · obtain ⟨running, queue⟩ := waits
    obtain ⟨lost, does⟩ := identqWork_serves (s := { s with commands := rest }) serves
    rw [State.startQuery_eq (s := { s with commands := rest }) serves] at does
    have run : exec .identq s = _ := onCommand_eq running (by decide) queue identqWork
    rw [does, State.respond_eq] at run
    refine ⟨_, run, State.degree_onDegree_same _ _ _, sentOn_emit s _ _, samePortButOut_emit s _ _,
      sameOtherPorts_emit s _ _, fun e other => State.degree_onDegree_other _ _ other, ?_, rfl⟩
    rw [apply_ite State.ring]
    exact if_congr Iff.rfl rfl
      (State.report_ring_congr (s := s) (t := { s with commands := rest }) rfl _)

/-! ### IDENT-QUERY -/

/-- A frame that waits is removed from its queue and handed to its block (R41). -/
theorem onPeer_eq {s : State} {d : DegreeNo} {f : PeerFrame} (waits : s.peerWaits d f)
    (use : PeerFrame → State → State) :
    onPeer s d f.msg.kindCode use = .next (use f (s.popPeer d)) := by
  obtain ⟨running, waits⟩ := waits
  obtain ⟨body, head, admitted⟩ := Option.bind_eq_some_iff.1 waits
  obtain ⟨bodies, queue⟩ := List.head?_eq_some_iff.1 head
  obtain ⟨kind, admitted⟩ := Option.ite_none_right_eq_some.1 admitted
  simp [onPeer, whileRunning_running running, State.takePeer, queue, kind, admitted]

/-- The four objects of an ACK, while a neighbour is recorded (R55). -/
theorem State.ackObjects_eq {s : State} {d : DegreeNo} {n : NodeId}
    (nbr : (s.degree d).nbrId = some n) :
    s.ackObjects d = [⟨1, put2 s.nodeId.toNat ++ put2 0x0C5D⟩,
      ⟨2, [byteOf d.val, 1, byteOf (s.port (portOf d)).params.guard]⟩,
      ⟨3, [byteOf ((List.finRange 64).countP fun i => (s.ctx i).isSome), 64]⟩,
      ⟨4, 3 :: put2 n.toNat⟩] := by
  simp only [State.ackObjects, nbr, Option.elim_some, List.countP_eq_length_filter]
  rfl

/-- Settles O37, by the two branches of the answer, which leaves only under a valid identity. -/
theorem identQueryIsAnswered : Obligations.IdentQueryIsAnswered := by
  intro s d deg dest src waits reply
  have run : exec (.identQuery d) s = .next ((s.popPeer d).answerQuery d src) :=
    onPeer_eq waits (identQueryUse d)
  have adj : ((s.popPeer d).degree d).adj = (s.degree d).adj := by simp
  have replies (valid : s.identityValid = true) (ack : Bool) (objects : List IdentObject)
      (answer : (s.popPeer d).answerQuery d src =
        (s.popPeer d).sendTo d src (.identReply ack objects)) : reply ack objects := by
    rw [answer, State.sendTo_of_valid (s := s.popPeer d) valid] at run
    exact ⟨_, run, sentOn_emit (s.popPeer d) _ _, samePortButOut_emit (s.popPeer d) _ _,
      sameOtherPorts_emit (s.popPeer d) _ _, rfl⟩
  refine ⟨fun invalid => ?_, fun valid notUp => ?_, fun valid n up nbr => ?_⟩
  · rw [run, State.answerQuery, State.sendTo_of_invalid (s := s.popPeer d) invalid,
      State.sendTo_of_invalid (s := s.popPeer d) invalid, ite_self]
  · exact replies valid _ _ (if_neg (by rwa [adj]))
  · refine replies valid _ _ ((if_pos (by rwa [adj])).trans ?_)
    rw [State.ackObjects_eq (s := s.popPeer d) (n := n) (by simpa using nbr)]
    rfl

end Sys2Proof.Machine

/-! PROOFS. Lists of checks, and the routes and windows that COMMISSION and OFFER check (R59, R60, R66). -/

namespace Sys2Proof.Machine

open Sys2Proof

/-! ### The first check that fails -/

/-- The code of the first of a list of checks that fails. -/
def firstFailed {α : Type} (checks : List (Bool × α)) : Option α :=
  (checks.find? fun x => !x.1).map Prod.snd

@[simp] theorem firstFailed_nil {α : Type} : firstFailed ([] : List (Bool × α)) = none := rfl

@[simp] theorem firstFailed_cons {α : Type} (b : Bool) (code : α) (checks : List (Bool × α)) :
    firstFailed ((b, code) :: checks) = if b then firstFailed checks else some code := by
  cases b <;> rfl

@[simp] theorem firstFailed_append {α : Type} (xs ys : List (Bool × α)) :
    firstFailed (xs ++ ys) = (firstFailed xs).or (firstFailed ys) := by
  induction xs with
  | nil => rfl
  | cons x xs ih =>
    obtain ⟨passed, code⟩ := x
    cases passed <;> simp [ih]

theorem firstFailed_eq_none_iff {α : Type} (checks : List (Bool × α)) :
    firstFailed checks = none ↔ ∀ x ∈ checks, x.1 = true := by
  simp [firstFailed]

/-! ### Routes (R60, R66) -/

theorem splitLast_concat {α : Type} (xs : List α) (x : α) : splitLast (xs ++ [x]) = some (xs, x) := by
  induction xs with
  | nil => rfl
  | cons y ys ih =>
    cases ys with
    | nil => rfl
    | cons z zs =>
      simp only [List.cons_append] at ih ⊢
      simp [splitLast, ih]

/-- The ports of a route's entries fit when all but the last are line degrees and the last is a drop
group. -/
theorem portsFitRoute_map_iff {α : Type} (port : α → Nat) (route : List α) :
    portsFitRoute (route.map port) = true ↔
      (∀ e ∈ route.dropLast, port e < 8) ∧ ∃ e, route.getLast? = some e ∧ 8 ≤ port e ∧ port e ≤ 11 := by
  rcases route.eq_nil_or_concat with rfl | ⟨inner, last, rfl⟩
  · simp [portsFitRoute, splitLast]
  · simp [portsFitRoute, splitLast_concat, and_assoc]

theorem windowInRange_iff (n lo hi : Nat) : windowInRange n lo hi = true ↔ goodWindow n lo hi := by
  simp only [windowInRange, goodWindow, Bool.and_eq_true, decide_eq_true_eq]
  omega

theorem State.routeWellFormed_iff (s : State) (route : List (Nat × Nat)) :
    s.routeWellFormed route = true ↔ goodRoute s route := by
  simp only [State.routeWellFormed, goodRoute, portsFitRoute_map_iff, nodeInRange, Bool.and_eq_true,
    decide_eq_true_eq, List.all_eq_true, and_assoc]

/-- The first entry of a list that reads as a whole, and the entries after it. -/
theorem readAll_cons {α β : Type} {f : α → Option β} {x : α} {xs : List α} {y : β} {ys : List β}
    (head : f x = some y) (tail : readAll f xs = some ys) : readAll f (x :: xs) = some (y :: ys) := by
  simp [readAll, head, tail]

/-- A list each of whose entries reads is read as a whole. -/
theorem readAll_of_forall {α β : Type} {f : α → Option β} {xs : List α}
    (reads : ∀ x ∈ xs, ∃ y, f x = some y) : ∃ ys, readAll f xs = some ys := by
  induction xs with
  | nil => exact ⟨[], rfl⟩
  | cons x xs ih =>
    obtain ⟨y, head⟩ := reads x (by simp)
    obtain ⟨ys, tail⟩ := ih fun x' mem => reads x' (by simp [mem])
    exact ⟨y :: ys, readAll_cons head tail⟩

theorem readRouteEntry_of_lt {x : Nat × Nat} (node : x.1 < 4096) (port : x.2 < 12) :
    readRouteEntry x = some ⟨BitVec.ofNat 12 x.1, ⟨x.2, port⟩⟩ :=
  dif_pos ⟨node, port⟩

/-- A well-formed route is read as at least two entries, and leaves the head on a line degree (R60). -/
theorem readAll_goodRoute {s : State} {route : List (Nat × Nat)} (good : goodRoute s route) :
    ∃ first next more d, readAll readRouteEntry route = some (first :: next :: more) ∧
      first.port = portOf d := by
  obtain ⟨⟨two, -⟩, nodes, -, -, inner, last, isLast, -, drop⟩ := good
  have reads : ∀ e ∈ route, ∃ y, readRouteEntry e = some y := by
    intro e mem
    have node := (nodes e mem).2
    have port : e.2 < 12 := by
      rw [← List.dropLast_append_getLast? last isLast] at mem
      rcases List.mem_append.1 mem with before | atEnd
      · exact (inner e before).trans (by decide)
      · cases List.mem_singleton.1 atEnd
        omega
    exact ⟨_, readRouteEntry_of_lt (by omega) port⟩
  match route, two with
  | e :: e' :: more, _ =>
    have degree : e.2 < 8 := inner e (by simp)
    have node := (nodes e (by simp)).2
    obtain ⟨next, second⟩ := reads e' (by simp)
    obtain ⟨onward, others⟩ := readAll_of_forall fun x (mem : x ∈ more) => reads x (by simp [mem])
    exact ⟨_, next, onward, ⟨e.2, degree⟩,
      readAll_cons (readRouteEntry_of_lt (by omega) (by omega)) (readAll_cons second others), rfl⟩

/-! ### The next neighbour (R61) -/

theorem State.servesOffers_eq (s : State) (d : DegreeNo) (n : NodeId) :
    (s.neighbourIs d n && s.verified d) = servesOffers s d n := rfl

theorem State.neighbourFree_eq (s : State) (d : DegreeNo) (p : PortNo) :
    s.neighbourFree d p = takesOffers s d p := rfl

end Sys2Proof.Machine

/-! PROOFS. COMMISSION: the order of its checks, and what it holds and offers (R59 to R63). -/

namespace Sys2Proof.Machine

open Sys2Proof

/-! ### The checks (R59) -/

section
variable {s : State} {f : CommissionFields} {first next : RouteEntry} {d : DegreeNo}

/-- Either one of checks 5 to 10 fails, and the first that fails is the refusal and leaves the state, or
none fails and the lowest FREE record takes the path (R59, R63). -/
theorem State.commissionOn_cases (port : first.port = portOf d) (more : List RouteEntry) :
    (∃ code, firstFailed (commissionChecks s f d next) = some code ∧
      s.commissionOn f (first :: next :: more) = (s, .error code)) ∨
    (firstFailed (commissionChecks s f d next) = none ∧ ∃ i, s.lowestFree = some i ∧
      s.commissionOn f (first :: next :: more) =
        (s.offerPath i f ⟨s.nodeId, f.serial⟩ d (next :: more) (commissionCandidates s f (portOf d)),
          .ok (i, ⟨s.nodeId, f.serial⟩))) := by
  simp only [State.commissionOn, commissionChecks, port, degreeOf_portOf, State.servesOffers_eq,
    State.neighbourFree_eq]
  cases s.lookup ⟨s.nodeId, f.serial⟩ with
  | some _ => exact .inl ⟨.duplicate, by simp, by simp⟩
  | none =>
  cases s.lowestFree with
  | none => exact .inl ⟨.tableFull, by simp, by simp⟩
  | some i =>
  cases (s.port (portOf d)).synced with
  | false => exact .inl ⟨.notSynced, by simp, by simp⟩
  | true =>
  cases servesOffers s d next.node with
  | false => exact .inl ⟨.noAdjacency, by simp, by simp⟩
  | true =>
  cases takesOffers s d next.port with
  | false => exact .inl ⟨.neighbourBusy, by simp, by simp⟩
  | true =>
  rw [← commissionCandidates]
  cases commissionCandidates s f (portOf d) with
  | nil => exact .inl ⟨.noSpectrum, by simp, by simp⟩
  | cons _ _ => exact .inr ⟨by simp, i, rfl, by simp⟩

/-- COMMISSION comes to checks 5 to 10 when checks 2 to 4 pass (R59). -/
theorem State.commissionPath_eq {entries : List RouteEntry} (valid : s.identityValid = true)
    (window : goodWindow f.width f.lo f.hi) (route : goodRoute s f.route)
    (read : readAll readRouteEntry f.route = some entries) :
    s.commissionPath f = s.commissionOn f entries := by
  rw [← windowInRange_iff] at window
  rw [← State.routeWellFormed_iff] at route
  simp [State.commissionPath, valid, window, route, read]

/-- Check 2 of R59. -/
theorem State.commissionPath_noIdentity (invalid : s.identityValid = false) :
    s.commissionPath f = (s, .error .noIdentity) := by
  simp [State.commissionPath, invalid]

/-- Check 3 of R59. -/
theorem State.commissionPath_badRange (valid : s.identityValid = true)
    (window : ¬goodWindow f.width f.lo f.hi) : s.commissionPath f = (s, .error .badRange) := by
  rw [← windowInRange_iff] at window
  simp [State.commissionPath, valid, window]

/-- Check 4 of R59. -/
theorem State.commissionPath_badRoute (valid : s.identityValid = true)
    (window : goodWindow f.width f.lo f.hi) (route : ¬goodRoute s f.route) :
    s.commissionPath f = (s, .error .badRoute) := by
  rw [← windowInRange_iff] at window
  rw [← State.routeWellFormed_iff] at route
  simp [State.commissionPath, valid, window, route]

/-- A COMMISSION that one of checks 2 to 10 refuses is answered, and nothing else changes (R59). -/
theorem exec_commission_refused {a b : Byte} {fields : List Byte} {rest : List (List Byte)}
    {code : ResultCode} (waits : s.commandWaits 1 a b fields rest)
    (read : readCommission fields = some f)
    (refused : State.commissionPath { s with commands := rest } f =
      ({ s with commands := rest }, .error code)) :
    exec .commission s = .next (s.answered 1 a b rest code false .none) :=
  onCommand_answered (work := commissionWork) (r := .err code) waits (by decide)
    (by simp [commissionWork, decoded, read, refused])

end

/-- Settles O19, by the checks of R59 in their order. -/
theorem commissionAnswersTheFirstFailedCheck : Obligations.CommissionAnswersTheFirstFailedCheck := by
  intro s a b fields rest waits
  refine ⟨fun unread => ?_, fun f read => ⟨fun invalid => ?_, fun valid window => ?_,
    fun valid window route => ?_, fun valid window route => ?_⟩⟩
  · exact onCommand_answered (work := commissionWork) (r := .err .malformed) waits (by decide)
      (by simp [commissionWork, decoded, unread])
  · exact exec_commission_refused waits read (State.commissionPath_noIdentity invalid)
  · exact exec_commission_refused waits read (State.commissionPath_badRange valid window)
  · exact exec_commission_refused waits read (State.commissionPath_badRoute valid window route)
  · obtain ⟨first, next, more, d, entries, port⟩ := readAll_goodRoute route
    refine ⟨first, next, more, d, entries, port, fun code failed =>
      exec_commission_refused waits read
        ((State.commissionPath_eq (s := { s with commands := rest }) valid window route entries).trans
          ?_)⟩
    rcases State.commissionOn_cases (s := { s with commands := rest }) (f := f) (next := next) port
      more with ⟨code', failed', refused⟩ | ⟨passes, -⟩
    · rw [refused, Option.some.inj (failed'.symm.trans failed)]
    · cases passes.symm.trans failed

/-! ### Holding the candidates (R3, R63) -/

/-- A placement each of whose cells is Free or Held by `i` already is accepted: its cells are Held by
`i`, and the others as they were (R3). -/
theorem cellAt_holdPlacement {m : PortMap} {i : CtxIdx} {first n : Nat}
    (fits : ∀ k, first ≤ k → k < first + n → cellAt m k = some .free ∨ cellAt m k = some (.held i))
    (k : Nat) :
    cellAt (holdPlacement m i first n).1 k =
      if first ≤ k ∧ k < first + n then some (.held i) else cellAt m k := by
  have accepted : rangeAll m first n
      (fun x => decide (x = .free) || decide (x = .held i)) = true := by
    rw [rangeAll_iff]
    intro k low high
    rcases fits k low high with free | held
    · exact ⟨_, free, by simp⟩
    · exact ⟨_, held, by simp⟩
  rw [holdPlacement, if_pos accepted, cellAt_writeRange_entry]
  by_cases inside : first ≤ k ∧ k < first + n
  · rcases fits k inside.1 inside.2 with free | held
    · simp [inside, free]
    · simp [inside, held]
  · simp [inside]

/-- A list of placements each of whose cells is Free or Held by `i` already is held as a whole: the
union of their ranges is Held by `i`, and the other cells are as they were (R3, R63). -/
theorem cellAt_holdPlacements {i : CtxIdx} {n : Nat} (firsts : List Nat) {m : PortMap}
    (fits : ∀ first ∈ firsts, ∀ k, first ≤ k → k < first + n →
      cellAt m k = some .free ∨ cellAt m k = some (.held i)) (k : Nat) :
    cellAt (holdPlacements m i n firsts).1 k =
      if ∃ first ∈ firsts, first ≤ k ∧ k < first + n then some (.held i) else cellAt m k := by
  induction firsts generalizing m with
  | nil => simp [holdPlacements]
  | cons first rest ih =>
    have held := cellAt_holdPlacement (fits first (by simp))
    have fits' : ∀ first' ∈ rest, ∀ k, first' ≤ k → k < first' + n →
        cellAt (holdPlacement m i first n).1 k = some .free ∨
          cellAt (holdPlacement m i first n).1 k = some (.held i) := by
      intro first' mem k low high
      rw [held]
      split
      · exact .inr rfl
      · exact fits first' (by simp [mem]) k low high
    rw [holdPlacements, ih fits', held, ← ite_or]
    simp only [List.mem_cons, exists_eq_or_imp, or_comm]

/-- The window query answers eligible placements only (R10). -/
theorem eligible_of_mem_windowQuery {m : PortMap} {guard n lo hi : Nat} {x : Candidate}
    (mem : x ∈ windowQuery m guard n lo hi) : eligible m guard x.s n = true := by
  obtain ⟨first, -, found⟩ := List.mem_filterMap.1 mem
  obtain ⟨fits, made⟩ := Option.ite_none_right_eq_some.1 found
  cases made
  exact fits

theorem mem_of_mem_chooseCandidates {tie : Tie} {found : List Candidate} {x : Candidate}
    (mem : x ∈ chooseCandidates tie found) : x ∈ found := by
  obtain ⟨cost, -, mem⟩ := List.mem_flatMap.1 (List.mem_of_mem_take mem)
  have leaning := (List.mem_filter.1 mem).1
  cases tie with
  | low => exact leaning
  | high => exact List.mem_reverse.1 leaning

/-- Every cell of an eligible placement is Free (R8). -/
theorem cellAt_of_eligible {m : PortMap} {guard first n : Nat}
    (fits : eligible m guard first n = true) {k : Nat} (low : first ≤ k) (high : k < first + n) :
    cellAt m k = some .free := by
  rw [eligible, Bool.and_eq_true, rangeAll_free_iff] at fits
  exact fits.1 k low high

/-- The map after a COMMISSION's hold: the union of its candidates' ranges (R63). -/
theorem cellAt_hold_commissionCandidates (s : State) (f : CommissionFields) (p : PortNo) (i : CtxIdx)
    (k : Nat) :
    cellAt (holdPlacements (s.port p).map i f.width ((commissionCandidates s f p).map (·.s))).1 k =
      if ∃ c ∈ commissionCandidates s f p, c.s ≤ k ∧ k < c.s + f.width then some (.held i)
      else cellAt (s.port p).map k := by
  rw [cellAt_holdPlacements]
  · simp
  · simp only [List.forall_mem_map]
    intro x mem k low high
    exact .inl (cellAt_of_eligible
      (eligible_of_mem_windowQuery (mem_of_mem_chooseCandidates mem)) low high)

/-! ### A context that holds and offers (R63, R69) -/

/-- A new context whose timer is armed is a context put with its timer (R28, R32). -/
theorem State.armCtx_putCtx (s : State) (i : CtxIdx) (c : Context) (ms : Nat) :
    (s.putCtx i c).armCtx i ms = s.putCtx i { c with timer := some (s.elapsed + ms) } := by
  simp [State.armCtx, State.putCtx, State.onCtx, State.onRecord, State.after, Table.modify, Table.read,
    Table.write]

/-- A timer armed and a change of a port do not meet. -/
theorem State.armCtx_onPort (s : State) (p : PortNo) (f : PortState → PortState) (i : CtxIdx) (ms : Nat) :
    (s.onPort p f).armCtx i ms = (s.armCtx i ms).onPort p f := rfl

/-- Two changes of one port are one change. -/
theorem State.onPort_onPort (s : State) (p : PortNo) (f g : PortState → PortState) :
    (s.onPort p f).onPort p g = s.onPort p fun x => g (f x) := by
  simp [State.onPort, Table.modify, Table.read, Table.write]

/-- On a SYNCED port the hold of a new context writes that port's map (R3, R14). -/
theorem State.mapHold_putCtx {s : State} {c : Context}
    (synced : (s.port c.outPort).synced = true) (i : CtxIdx) (firsts : List Nat) :
    (s.putCtx i c).mapHold i firsts = (s.putCtx i c).onPort c.outPort fun ps =>
      { ps with map := (holdPlacements (s.port c.outPort).map i c.width firsts).1 } := by
  simp [State.mapHold, State.claim, State.withCtx_some (State.ctx_putCtx_same s i c), synced]

/-- The state with context `c` put in record `i`, and with a new map and one more frame on its
out-port. -/
def State.afterHold (s : State) (i : CtxIdx) (c : Context) (m : PortMap) (o : OutFrame) : State :=
  (s.putCtx i c).onPort c.outPort fun ps => { ps with map := m, out := ps.out ++ [o] }

section
variable (s : State) (i : CtxIdx) (c : Context) (m : PortMap) (o : OutFrame)

theorem State.afterHold_ctx : (s.afterHold i c m o).ctx i = some c :=
  State.ctx_putCtx_same s i c

theorem State.afterHold_tag : ((s.afterHold i c m o).record i).tag = (s.record i).tag := by
  simp [State.afterHold, State.putCtx]

theorem State.afterHold_otherRecords : sameOtherRecords s (s.afterHold i c m o) i :=
  fun _ other => State.record_onRecord_other s _ other

variable {c} {p : PortNo} (out : c.outPort = p)
include out

theorem State.afterHold_port :
    (s.afterHold i c m o).port p = { s.port p with map := m, out := (s.port p).out ++ [o] } := by
  rw [← out]
  exact State.port_onPort_same _ _ _

theorem State.afterHold_map : ((s.afterHold i c m o).port p).map = m := by
  rw [State.afterHold_port s i m o out]

theorem State.afterHold_sentOn : sentOn s (s.afterHold i c m o) p [o] := by
  rw [sentOn, State.afterHold_port s i m o out]

theorem State.afterHold_portFrame :
    { (s.afterHold i c m o).port p with map := (s.port p).map, out := (s.port p).out } = s.port p := by
  rw [State.afterHold_port s i m o out]

theorem State.afterHold_otherPorts : sameOtherPorts s (s.afterHold i c m o) p := by
  rw [← out]
  exact fun _ other => State.port_onPort_other _ _ other

end

/-- A new context holds its candidates on a line degree, arms its timer and sends one message on the
degree: the record, and the port's map and frames (R63, R69). -/
theorem State.hold_arm_send {s : State} {d : DegreeNo} {n : NodeId} {c : Context} (i : CtxIdx)
    (firsts : List Nat) (ms : Nat) (m : PeerMsg) (out : c.outPort = portOf d)
    (synced : (s.port (portOf d)).synced = true) (serves : s.servesDegree d n) :
    (((s.putCtx i c).mapHold i firsts).armCtx i ms).sendPath d m =
      s.afterHold i { c with timer := some (s.elapsed + ms) }
        (holdPlacements (s.port (portOf d)).map i c.width firsts).1 (.peer ⟨n, s.nodeId, d, m⟩) := by
  obtain ⟨valid, up, nbr⟩ := serves
  rw [← out] at synced
  rw [State.mapHold_putCtx synced, State.armCtx_onPort, State.armCtx_putCtx,
    State.sendPath_up m (by simpa using valid) (by simpa using up) (by simpa using nbr), State.emit,
    ← out, State.onPort_onPort]
  rfl

/-- The context of an accepted COMMISSION, with its timer armed for the offer (R28, R32, R63). -/
def State.headContext (s : State) (f : CommissionFields) (path : PathId) (d : DegreeNo) (onward : Nat)
    (cands : List Candidate) : Context :=
  { newContext path .head f.cls (.addGroup f.group) (portOf d) f.width .offered s.timeBase with
    tie := some f.tie, hop := some 1, remaining := some onward, candidates := some cands,
    timer := some (s.elapsed + s.part.offerHop * onward) }

/-- The work of an accepted COMMISSION, on a SYNCED degree that serves the next node (R63). -/
theorem State.offerPath_eq {s : State} {d : DegreeNo} {n : NodeId} (i : CtxIdx) (f : CommissionFields)
    (path : PathId) (onward : List RouteEntry) (cands : List Candidate)
    (synced : (s.port (portOf d)).synced = true) (serves : s.servesDegree d n) :
    s.offerPath i f path d onward cands =
      s.afterHold i (s.headContext f path d onward.length cands)
        (holdPlacements (s.port (portOf d)).map i f.width (cands.map (·.s))).1
        (.peer ⟨n, s.nodeId, d, .offer path ⟨f.cls, f.width, f.tie, 2, onward, cands⟩⟩) := by
  rw [State.offerPath, ((Keeps.refl _).mapHold i _).part, State.putCtx_part]
  exact State.hold_arm_send i _ _ _ rfl synced serves

/-- The checks of COMMISSION that its hold and its OFFER rest on: the out-port is SYNCED, and the degree
serves the next node (R59). -/
theorem synced_serves_of_commissionChecks {s : State} {f : CommissionFields} {d : DegreeNo}
    {next : RouteEntry} (valid : s.identityValid = true)
    (passes : ∀ x ∈ commissionChecks s f d next, x.1 = true) :
    (s.port (portOf d)).synced = true ∧ s.servesDegree d next.node := by
  simp only [commissionChecks, servesOffers, List.forall_mem_cons, Bool.and_eq_true,
    decide_eq_true_eq] at passes
  obtain ⟨-, -, synced, ⟨⟨up, nbr⟩, -⟩, -⟩ := passes
  exact ⟨synced, valid, up, nbr⟩

/-- A COMMISSION whose checks pass: the lowest FREE record holds the candidates, and one OFFER leaves
with the answer (R63). -/
theorem exec_commission_passed {s : State} {a b : Byte} {fields : List Byte} {rest : List (List Byte)}
    {f : CommissionFields} {first next : RouteEntry} {more : List RouteEntry} {d : DegreeNo}
    {i : CtxIdx} (waits : s.commandWaits 1 a b fields rest) (read : readCommission fields = some f)
    (path : State.commissionPath { s with commands := rest } f =
      State.commissionOn { s with commands := rest } f (first :: next :: more))
    (port : first.port = portOf d) (free : s.lowestFree = some i)
    (valid : s.identityValid = true) (passes : ∀ x ∈ commissionChecks s f d next, x.1 = true) :
    exec .commission s =
      .next ((s.answered 1 a b rest .ok false (.path i ⟨s.nodeId, f.serial⟩)).afterHold i
        (s.headContext f ⟨s.nodeId, f.serial⟩ d (more.length + 1)
          (commissionCandidates s f (portOf d)))
        (holdPlacements (s.port (portOf d)).map i f.width
          ((commissionCandidates s f (portOf d)).map (·.s))).1
        (.peer ⟨next.node, s.nodeId, d, .offer ⟨s.nodeId, f.serial⟩
          ⟨f.cls, f.width, f.tie, 2, next :: more, commissionCandidates s f (portOf d)⟩⟩)) := by
  obtain ⟨synced, serves⟩ := synced_serves_of_commissionChecks valid passes
  rcases State.commissionOn_cases (s := { s with commands := rest }) (f := f) (next := next) port
    more with ⟨code, failed, -⟩ | ⟨-, j, lowest, done⟩
  · cases ((firstFailed_eq_none_iff _).2 passes).symm.trans failed
  · cases free.symm.trans lowest
    rw [State.offerPath_eq (s := { s with commands := rest }) i f _ _ _ synced serves] at done
    refine (onCommand_eq waits.1 (by decide) waits.2 commissionWork).trans ?_
    simp only [commissionWork, decoded, read, path, done, State.respond_eq]
    rfl

/-- Settles O20: the work of R63 is one new record, and one port's map and frames. -/
theorem commissionHoldsItsCandidatesAndOffers : Obligations.CommissionHoldsItsCandidatesAndOffers := by
  intro s a b fields rest f first next more d i waits read valid window route entries port free passes
    path cands
  have run := exec_commission_passed waits read (State.commissionPath_eq valid window route entries)
    port free valid passes
  refine ⟨_, run, State.afterHold_ctx .., State.afterHold_tag .., State.afterHold_otherRecords _ i _ _ _,
    fun k => ?_, State.afterHold_sentOn _ i _ _ rfl, State.afterHold_portFrame _ i _ _ rfl,
    State.afterHold_otherPorts _ i _ _ rfl, rfl⟩
  rw [State.afterHold_map (p := portOf d) _ _ _ _ rfl]
  exact cellAt_hold_commissionCandidates s f (portOf d) i k

end Sys2Proof.Machine

/-! PROOFS. The OFFER that is refused: the first check that fails and the DECLINE (R66, R67). -/

namespace Sys2Proof.Machine

open Sys2Proof

/-! ### The checks (R66) -/

/-- Check 1 of R66, on a route that starts with `mine`. -/
theorem State.routeFits_eq {s : State} {d : DegreeNo} {f : OfferFields} {mine : RouteEntry}
    {onward : List RouteEntry} (route : f.route = mine :: onward) :
    s.routeFits d f = offerRouteFits s d f.hop mine onward := by
  have ports : portsFitRoute (f.route.map fun e => e.port.val) =
      if onward = [] then decide (8 ≤ mine.port.val)
      else decide (mine.port.val < 8) && onward.dropLast.all (fun e => decide (e.port.val < 8)) &&
        onward.getLast?.any fun e => decide (8 ≤ e.port.val) := by
    have top (e : RouteEntry) : e.port.val ≤ 11 := by omega
    rw [Bool.eq_iff_iff, portsFitRoute_map_iff, route]
    cases onward with
    | nil => simp [top]
    | cons next more => simp [top, Option.any_eq_true, and_assoc]
  simp only [State.routeFits, offerRouteFits, ports]
  simp [route, ← Nat.add_assoc]

/-- Checks 7 to 9 of R66. -/
theorem State.onwardRefusal_eq (s : State) (out : DegreeNo) (next : RouteEntry) :
    s.onwardRefusal out next = firstFailed (transitChecks s out next) := by
  rw [State.onwardRefusal, State.neighbourFree_eq, transitChecks, ← State.neighbourIs, ← State.verified]
  simp only [firstFailed_cons, firstFailed_nil]
  cases s.neighbourIs out next.node with
  | false => rfl
  | true =>
  cases s.verified out with
  | false => rfl
  | true => cases takesOffers s out next.port <;> rfl

/-- The first check of R66 that fails gives the reason of the refusal. -/
theorem State.judgeOffer_refused {s : State} {d : DegreeNo} {path : PathId} {f : OfferFields}
    {mine : RouteEntry} {onward : List RouteEntry} {r : Reason} (route : f.route = mine :: onward)
    (failed : firstFailed (offerChecks s d path f mine onward) = some r) :
    s.judgeOffer d path f = .error r := by
  have loops : onward.any (fun e => decide (e.node = s.nodeId)) =
      !onward.all fun e => decide (e.node ≠ s.nodeId) := by
    simp [List.any_eq_not_all_not]
  revert failed
  simp only [offerChecks, firstFailed_append, firstFailed_cons, firstFailed_nil, State.judgeOffer,
    route, State.routeFits_eq route, loops, State.verified]
  rw [← offerSurvivors]
  cases offerRouteFits s d f.hop mine onward with
  | false => simp
  | true =>
  cases onward.all fun e => decide (e.node ≠ s.nodeId) with
  | false => simp
  | true =>
  cases s.lookup path with
  | some _ => simp
  | none =>
  cases decide ((s.degree d).verif = .verified) with
  | false => simp
  | true =>
  cases s.lowestFree with
  | none => simp
  | some i =>
  cases (s.port mine.port).synced with
  | false => simp
  | true =>
  cases onward with
  | nil => cases offerSurvivors s mine.port f <;> simp [tailChoice]
  | cons next more =>
  cases degreeOf mine.port with
  | none => cases offerSurvivors s mine.port f <;> simp [tailChoice]
  | some out =>
  simp only [State.onwardRefusal_eq]
  cases firstFailed (transitChecks s out next) with
  | some _ => simp
  | none => cases offerSurvivors s mine.port f <;> simp

/-! ### The DECLINE (R67) -/

/-- An OFFER refused is answered by a DECLINE (R67). -/
theorem State.takeOffer_refused {s : State} {d : DegreeNo} {path : PathId} {f : OfferFields} {r : Reason}
    (refused : s.judgeOffer d path f = .error r) :
    s.takeOffer d path f = s.sendPath d (.decline path r s.nodeId) := by
  simp [State.takeOffer, refused]

/-- A frame taken from a degree's queue changes no check of R66. -/
theorem offerChecks_popPeer (s : State) (d : DegreeNo) (path : PathId) (f : OfferFields)
    (mine : RouteEntry) (onward : List RouteEntry) :
    offerChecks (s.popPeer d) d path f mine onward = offerChecks s d path f mine onward := by
  have left (e : DegreeNo) : ∃ queue,
      (s.popPeer d).degree e = { s.degree e with peerQueue := queue } := by
    by_cases same : e = d
    · subst same
      exact ⟨_, s.popPeer_degree e⟩
    · exact ⟨_, State.degree_onDegree_other _ _ same⟩
  have transit (out : DegreeNo) (next : RouteEntry) :
      transitChecks (s.popPeer d) out next = transitChecks s out next := by
    obtain ⟨_, here⟩ := left out
    simp only [transitChecks, takesOffers, here]
  obtain ⟨_, here⟩ := left d
  simp only [offerChecks, transit, here]
  rfl

/-- Settles O28: the DECLINE is the one frame that the refused OFFER forms. -/
theorem offerRefusedIsDeclined : Obligations.OfferRefusedIsDeclined := by
  intro s d deg dest n path f mine onward r waits serves route failed
  have run : exec (.offer d) s = .next ((s.popPeer d).takeOffer d path f) :=
    onPeer_eq waits (offerUse d)
  rw [← offerChecks_popPeer] at failed
  obtain ⟨valid, up, nbr⟩ := serves
  rw [State.takeOffer_refused (State.judgeOffer_refused route failed),
    State.sendPath_up (s := s.popPeer d) (n := n) _ valid (by simpa using up) (by simpa using nbr)] at run
  exact ⟨_, run, sentOn_emit (s.popPeer d) _ _, samePortButOut_emit (s.popPeer d) _ _,
    sameOtherPorts_emit (s.popPeer d) _ _, rfl⟩

end Sys2Proof.Machine

/-! PROOFS. The arithmetic of a target: average density, width allowance, target attenuation and the
live count (R16, R99 to R101). -/

namespace Sys2Proof.Machine

open Sys2Proof

/-! ### The target power (R99, R100) -/

/-- Division toward negative infinity puts the density sum between two multiples of the width (R99). -/
theorem averageDensity_bounds (b : Profile) (first : Nat) {n : Nat} (wide : 1 ≤ n) :
    let sum := ((List.range n).map fun k => densityAt b (first + k)).sum
    n * averageDensity b first n ≤ sum + (n / 2 : Nat) ∧
      sum + (n / 2 : Nat) < n * (averageDensity b first n + 1) := by
  intro sum
  have quotient : averageDensity b first n = (sum + (n / 2 : Nat)) / (n : Int) := by
    rw [averageDensity, cellsOf, List.map_map]
    rfl
  have pos : (0 : Int) < n := by omega
  rw [quotient, Int.mul_add, Int.mul_one]
  exact ⟨Int.mul_ediv_self_le pos.ne', Int.lt_mul_ediv_self_add pos⟩

/-- What the width adds to the average density is its allowance (R100). -/
@[simp] theorem channelTarget_sub_averageDensity (b : Profile) (first n : Nat) :
    channelTarget b first n - averageDensity b first n = widthAllowance n :=
  add_sub_cancel_left _ _

/-- The allowances of the widths from 1 to 16 are the rows of R100. -/
theorem widthAllowances_eq : (List.range' 1 16).map (fun w => (w, widthAllowance w)) =
    [(1, 0), (2, 301), (3, 477), (4, 602), (5, 699), (6, 778), (7, 845), (8, 903), (9, 954),
      (10, 1000), (11, 1041), (12, 1079), (13, 1114), (14, 1146), (15, 1176), (16, 1204)] := rfl

/-- A width has a row of its own when it is from 1 to 16. -/
theorem mem_widthAllowances_iff (n : Nat) :
    (n, widthAllowance n) ∈ (List.range' 1 16).map (fun w => (w, widthAllowance w)) ↔
      1 ≤ n ∧ n ≤ 16 := by
  constructor
  · intro row
    obtain ⟨w, listed, same⟩ := List.mem_map.1 row
    obtain ⟨rfl, -⟩ := Prod.mk.inj same
    have := List.mem_range'_1.1 listed
    omega
  · rintro ⟨low, high⟩
    exact List.mem_map_of_mem (List.mem_range'_1.2 ⟨low, by omega⟩)

/-! ### The target attenuation (R101) -/

@[simp] theorem targetOf_none (power ptgt : Int) : targetOf power none ptgt = .noGain := rfl

section
variable {power ptgt : Int} {g : Nat}

theorem targetOf_short (below : power + g - ptgt < 0) :
    targetOf power (some g) ptgt = .reached 0 true := by
  rw [targetOf, if_neg (by omega), if_pos below]

theorem targetOf_within {t : Nat} (bound : t ≤ 2500) (value : power + g - ptgt = t) :
    targetOf power (some g) ptgt = .reached t false := by
  rw [targetOf, if_neg (by omega), if_neg (by omega), value, Int.toNat_natCast]

theorem targetOf_tooHigh (above : 2500 < power + g - ptgt) :
    targetOf power (some g) ptgt = .inputTooHigh := by
  rw [targetOf, if_pos above]

end

/-! ### The live count (R16) -/

theorem mem_map_iff_cellAt (m : PortMap) (x : Cell) : x ∈ m ↔ ∃ k, cellAt m k = some x := by
  simp [cellAt, Table.read, Vector.mem_iff_getElem]

theorem Cell.openOwner_eq_some_iff (x : Cell) (i : CtxIdx) :
    x.openOwner = some i ↔ x = .opened i := by
  cases x <;> simp [Cell.openOwner]

theorem mem_openOwners_iff (m : PortMap) (i : CtxIdx) :
    i ∈ openOwners m ↔ ∃ k, cellAt m k = some (.opened i) := by
  simp [openOwners, Cell.openOwner_eq_some_iff, mem_map_iff_cellAt]

/-- Any list of the other owners without repetition is as long as the live count (R16). -/
theorem liveCount_eq_length {m : PortMap} {i : CtxIdx} {owners : List CtxIdx} (distinct : owners.Nodup)
    (lists : ∀ j, j ∈ owners ↔ j ≠ i ∧ ∃ k, cellAt m k = some (.opened j)) :
    liveCount m i = owners.length := by
  refine List.Perm.length_eq
    ((List.perm_ext_iff_of_nodup ((List.nodup_dedup _).filter _) distinct).2 fun j => ?_)
  rw [List.mem_filter, ← openOwners, mem_openOwners_iff, lists, decide_eq_true_eq, and_comm]

/-- There are 64 contexts, and one of them is left out. -/
theorem length_le_of_not_mem {i : CtxIdx} {owners : List CtxIdx} (distinct : owners.Nodup)
    (asking : i ∉ owners) : owners.length ≤ 63 :=
  Nat.le_of_succ_le_succ ((List.nodup_cons.2 ⟨asking, distinct⟩).length_le_card)

/-- Settles O45: the bounds of the quotient, the rows of the table, the owners as a list without
repetition, and the branches of `targetOf`. -/
theorem targetArithmetic : Obligations.TargetArithmetic := by
  refine ⟨fun b first n wide _ => averageDensity_bounds b first wide, fun b first n => ?_,
    fun m i owners distinct lists => ?_, fun power g y => ?_⟩
  · rw [channelTarget_sub_averageDensity, ← widthAllowances_eq]
    exact mem_widthAllowances_iff n
  · exact ⟨liveCount_eq_length distinct lists,
      length_le_of_not_mem distinct fun asking => ((lists i).1 asking).1 rfl⟩
  · exact ⟨targetOf_none power y, targetOf_short, fun _ => targetOf_within, targetOf_tooHigh⟩

end Sys2Proof.Machine

/-! PROOFS. The step in flight: ACTUATED for a SET, and the PENDING and CONTINUE that extend its
observation (R89, R91, R123, R124). -/

namespace Sys2Proof.Machine

open Sys2Proof

/-! ### A report taken and matched (R83, R89) -/

@[simp] theorem State.popReport_port (s : State) (p : PortNo) :
    (s.popReport p).port p = { s.port p with reports := (s.port p).reports.drop 1 } :=
  State.port_onPort_same _ _ _

/-- A report that waits is removed from its queue and dealt with by the row for its kind (R83). -/
theorem onReport_eq {s : State} {p : PortNo} {r : Report} {row : Report → Option (State → State)}
    {work : State → State} (waits : s.reportWaits p r) (kind : row r = some work) :
    onReport s p row = .next (work (s.popReport p)) := by
  obtain ⟨running, head⟩ := waits
  obtain ⟨later, queue⟩ := List.head?_eq_some_iff.1 head
  simp [onReport, whileRunning_running running, State.takeReport, queue, kind]

section
variable {s : State} {p : PortNo} {i : CtxIdx} {tag : Byte} {c : Context} {k : ReqKind}

/-- A report taken from the queue leaves every context's request as it was. -/
theorem State.asked_popReport (asked : s.asked p i tag c k) (q : PortNo) :
    (s.popReport q).asked p i tag c k := asked

/-- A report that names the request a context waits for is taken (R89). -/
theorem State.ifMatched_asked (asked : s.asked p i tag c k) {fits : Context → Bool}
    (fit : fits c = true) (work : Context → State) : s.ifMatched p i tag fits work = work c := by
  obtain ⟨ctx, out, sameTag, -⟩ := asked
  have taken : s.matched p i tag fits = some c := by
    rw [State.matched, ctx, Option.filter_some_pos (by simp [out, sameTag, fit])]
  rw [State.ifMatched, taken]

/-- A context waits for its outstanding request and for no other (R31, R89). -/
theorem State.awaits_asked (asked : s.asked p i tag c k) (k' : ReqKind) :
    c.awaits k' = decide (k = k') := by
  obtain ⟨-, -, -, outstanding⟩ := asked
  simp [Context.awaits, outstanding]

/-- ACTUATED fits a SET in ACTUATING (R89). -/
theorem State.fitsActuated_set (asked : s.asked p i tag c .set)
    (phase : (s.port p).phase = .actuating) : s.fitsActuated p c = true := by
  simp [State.fitsActuated, State.awaits_asked asked, phase]

/-- SETTLE fits a SET in OBSERVING (R89). -/
theorem State.fitsSettle_set (asked : s.asked p i tag c .set)
    (phase : (s.port p).phase = .observing) : s.fitsSettle p c = true := by
  simp [State.fitsSettle, State.awaits_asked asked, phase]

/-! ### ACTUATED for a SET (R91, R123) -/

theorem confirmed_iff (done : Bool) (x : Int) (a : Nat) :
    confirmed done x a = true ↔ done = true ∧ x - a ≤ 10 ∧ a - x ≤ 10 := by
  simp [confirmed, and_assoc]

/-- ACTUATED for a SET in ACTUATING confirms the step or fails it (R91, R123, R126). -/
theorem State.actuatedOn_set {a : Nat} (asked : s.asked p i tag c .set)
    (phase : (s.port p).phase = .actuating) (requested : (s.port p).requested = some a)
    (done : Bool) (x : Int) :
    s.actuatedOn p i tag done x =
      if confirmed done x a then s.setConfirmed p i a else s.setFailed p i := by
  have ⟨_, _, _, outstanding⟩ := asked
  rw [State.actuatedOn, State.ifMatched_asked asked (State.fitsActuated_set asked phase)]
  simp only [outstanding, State.actuatedFor, requested]

/-- A changed context keeps its record's request tag. -/
theorem State.record_onCtx_asked (asked : s.asked p i tag c k) (f : Context → Context) :
    (s.onCtx i f).record i = ⟨tag, some (f c)⟩ := by
  obtain ⟨ctx, -, sameTag, -⟩ := asked
  rw [State.onCtx, State.record_onRecord_same, ← State.ctx, ctx, sameTag]
  rfl

/-- A confirmed SET changes its context's attenuation and its port's step (R123). -/
theorem State.setConfirmed_eq {set : StepSettings} (settings : (s.port p).settings = some set)
    (i : CtxIdx) (a : Nat) :
    s.setConfirmed p i a =
      (s.onCtx i fun c => { c with att := some a }).onPort p fun ps =>
        { ps with confirmMark := some s.elapsed, phase := .observing,
                  expiry := some (s.elapsed + set.observation) } := by
  simp [State.setConfirmed, settings, State.after]

/-! ### PENDING and CONTINUE (R124) -/

/-- A grant of extension units changes the port of the step alone (R124). -/
theorem State.extend_frame (s : State) (p : PortNo) (k : Nat) :
    sameOtherPorts s (s.extend p k) p ∧ { s.extend p k with ports := s.ports } = s := by
  unfold State.extend
  split
  next => exact ⟨fun _ _ => rfl, rfl⟩
  next => exact ⟨fun _ other => State.port_onPort_other _ _ other, rfl⟩

/-- The units granted move the expiry and count as used (R124). -/
theorem State.extend_port {set : StepSettings} {due : Nat}
    (settings : (s.port p).settings = some set) (expiry : (s.port p).expiry = some due) (k : Nat) :
    (s.extend p k).port p = { s.port p with
      expiry := some (due + min k (set.extensionCap - (s.port p).unitsUsed) * set.extensionUnit),
      unitsUsed := (s.port p).unitsUsed + min k (set.extensionCap - (s.port p).unitsUsed) } := by
  simp [State.extend, settings, expiry]

/-- A SETTLE report for a SET in OBSERVING, PENDING for `k` units or CONTINUE for one, asks the step
timer for them (R124). -/
theorem exec_extends {row : Instr} {r : Report} {k : Nat}
    (kind : (row = .pendingUnits p ∧ r = .pending i tag k) ∨
      (row = .continueUnit p ∧ r = .continue_ i tag ∧ k = 1))
    (waits : s.reportWaits p r) (asked : s.asked p i tag c .set)
    (phase : (s.port p).phase = .observing) :
    exec row s = .next ((s.popReport p).extend p k) := by
  have still := State.asked_popReport asked p
  have taken (n : Nat) : (s.popReport p).ifMatched p i tag ((s.popReport p).fitsSettle p)
      (fun _ => (s.popReport p).extend p n) = (s.popReport p).extend p n :=
    State.ifMatched_asked still (State.fitsSettle_set still (by simpa using phase)) _
  rcases kind with ⟨rfl, rfl⟩ | ⟨rfl, rfl, rfl⟩
  · exact (onReport_eq (row := pendingRow p) waits rfl).trans (congrArg _ (taken k))
  · exact (onReport_eq (row := continueRow p) waits rfl).trans (congrArg _ (taken 1))

end

/-- Settles O52: the confirmed SET is one context and one port changed, the extension one port. -/
theorem actuatedSetIsObservedAndExtended : Obligations.ActuatedSetIsObservedAndExtended := by
  constructor
  · intro s p i tag c x a set waits asked phase requested settings above below
    have run : exec (.actuated p) s = .next ((s.popReport p).actuatedOn p i tag true x) :=
      onReport_eq (row := actuatedRow p) waits rfl
    rw [State.actuatedOn_set (State.asked_popReport asked p) (by simpa using phase)
        (by simpa using requested), if_pos ((confirmed_iff true x a).2 ⟨rfl, above, below⟩),
      State.setConfirmed_eq (set := set) (by simpa using settings)] at run
    exact ⟨_, run, State.record_onCtx_asked (State.asked_popReport asked p) _,
      fun _ other => State.record_onRecord_other _ _ other, State.port_onPort_same _ _ _,
      fun _ other => (State.port_onPort_other _ _ other).trans (State.port_onPort_other s _ other),
      rfl⟩
  · intro s p i tag c k due set row r kind waits asked phase settings expiry granted
    have port := State.extend_port (s := s.popReport p) (p := p) (set := set) (due := due)
      (by simpa using settings) (by simpa using expiry) k
    have ⟨others, frame⟩ := (s.popReport p).extend_frame p k
    refine ⟨_, exec_extends kind waits asked phase, ?_, ?_, ?_⟩
    · simpa using port
    · exact fun q other => (others q other).trans (State.port_onPort_other s _ other)
    · exact congrArg (fun u : State => { u with ports := s.ports }) frame

end Sys2Proof.Machine

/-! PROOFS. The ring read out: READRPT and the attention line (R177, R178). -/

namespace Sys2Proof.Machine

open Sys2Proof

/-- A largest count from 1 to 8 is read back from its byte (chapter 11). -/
theorem readReadrpt_byteOf {n : Nat} (one : 1 ≤ n) (eight : n ≤ 8) :
    readReadrpt [byteOf n] = some n := by
  have fits : (byteOf n).toNat = n := toNat_byteOf (by omega)
  simp [readReadrpt, fits, one, eight]

/-- READRPT cuts the ring at its count (R177). -/
theorem readrptWork_byteOf {n : Nat} (one : 1 ≤ n) (eight : n ≤ 8) (s : State) :
    readrptWork [byteOf n] s =
      ({ s with ring := s.ring.drop n, lost := false },
        .ok (.ring s.lost (s.ring.drop n).length (s.ring.take n))) := by
  rw [readrptWork, readReadrpt_byteOf one eight]
  rfl

/-- While the part runs, the attention line stands after a cut at `n` when the ring held more than `n`
records (R178). -/
theorem State.attention_of_ring_drop {s t : State} {n : Nat} (running : t.inReset = false)
    (cut : t.ring = s.ring.drop n) : t.attention = decide (n < s.ring.length) := by
  rw [State.attention, running, cut, Bool.eq_iff_iff]
  simp

/-- Settles O17: the ring before is the records answered and the records left, and nothing but the
ring, Lost, the responses and the queue of commands changes. -/
theorem readrptReturnsTheOldestRecords : Obligations.ReadrptReturnsTheOldestRecords := by
  intro s a b n rest one eight waits
  obtain ⟨running, queue⟩ := waits
  have run : exec .readrpt s = _ := onCommand_eq running (by decide) queue readrptWork
  rw [readrptWork_byteOf one eight, State.respond_eq] at run
  exact ⟨_, s.ring.take n, run, (List.take_append_drop n s.ring).symm, List.length_take, rfl, rfl,
    State.attention_of_ring_drop running rfl, rfl, rfl⟩

end Sys2Proof.Machine

/-! PROOFS. The engines as a closure: every operation between the taking of an event and its end is made
of a few updates, so that a law of those updates is a law of every operation. -/

namespace Sys2Proof.Machine

open Sys2Proof

/-- The port at the moment of a swap: the other bank, and nothing pending (R20). -/
def PortState.swapped (q : PortState) : PortState :=
  { q with active := q.active.other, swapPending := false }

/-- What of a port only a swap and a write to its map change: the active selector, the pending flag and
the map. -/
def PortState.bankAndMap (q : PortState) : Bank × Bool × PortMap := (q.active, q.swapPending, q.map)

/-- A map in which `p` gains cells only for contexts whose out-port it is (R2). -/
def State.ownsMore (s : State) (p : PortNo) (m : PortMap) : Prop :=
  ∀ k x i, cellAt m k = some x → x.owner = some i →
    (∃ y, cellAt (s.port p).map k = some y ∧ y.owner = some i) ∨ ∃ c, s.ctx i = some c ∧ c.outPort = p

/-- Context `i` owns no cell of its out-port. -/
def State.ownsNothing (s : State) (i : CtxIdx) : Prop :=
  ∀ c, s.ctx i = some c → ∀ k x, cellAt (s.port c.outPort).map k = some x → x.owner ≠ some i

/-- `t` is reached from `s` by updates that the engines make. A swap is one update, from the flip of the
selector to its SwapDone (R20), and a record becomes FREE only when its context owns nothing (R33). -/
inductive EngineRun : State → State → Prop where
  | refl (s : State) : EngineRun s s
  | onCtx {s t : State} (h : EngineRun s t) (i : CtxIdx) (f : Context → Context)
      (out : ∀ c, (f c).outPort = c.outPort) : EngineRun s (t.onCtx i f)
  | advanceTag {s t : State} (h : EngineRun s t) (i : CtxIdx) : EngineRun s (t.advanceTag i)
  | freeRecord {s t : State} (h : EngineRun s t) (i : CtxIdx) (none : t.ownsNothing i) :
      EngineRun s (t.freeRecord i)
  | onPort {s t : State} (h : EngineRun s t) (p : PortNo) (f : PortState → PortState)
      (same : ∀ q, (f q).bankAndMap = q.bankAndMap) : EngineRun s (t.onPort p f)
  | onMap {s t : State} (h : EngineRun s t) (p : PortNo) (f : PortState → PortMap)
      (owns : t.ownsMore p (f (t.port p))) : EngineRun s (t.onPort p fun ps => { ps with map := f ps })
  | hold {s t : State} (h : EngineRun s t) (d : DegreeNo) :
      EngineRun s (t.onDegree d fun y => { y with lampHold := t.after Config.lampHold })
  | report {s t : State} (h : EngineRun s t) (r : RingRecord) : EngineRun s (t.report r)
  | swap {s t u : State} (h : EngineRun s t) (p : PortNo) (pending : (t.port p).swapPending = true)
      (h' : EngineRun (t.onPort p PortState.swapped) u) : EngineRun s (u.report (.port p .swapDone))

namespace EngineRun

variable {s t : State}

theorem trans {u : State} (h : EngineRun s t) (h' : EngineRun t u) : EngineRun s u := by
  induction h' with
  | refl => exact h
  | onCtx _ i f out ih => exact (ih h).onCtx i f out
  | advanceTag _ i ih => exact (ih h).advanceTag i
  | freeRecord _ i none ih => exact (ih h).freeRecord i none
  | onPort _ p f same ih => exact (ih h).onPort p f same
  | onMap _ p f owns ih => exact (ih h).onMap p f owns
  | hold _ d ih => exact (ih h).hold d
  | report _ r ih => exact (ih h).report r
  | swap _ p pending h' ih _ => exact (ih h).swap p pending h'

/-! ### Composition -/

theorem withCtx (h : EngineRun s t) (i : CtxIdx) {f : Context → State}
    (hf : ∀ c, t.ctx i = some c → EngineRun s (f c)) : EngineRun s (t.withCtx i f) := by
  unfold State.withCtx
  split
  · exact hf _ ‹_›
  · exact h

theorem ite {p : Prop} [Decidable p] {a b : State} (ha : EngineRun s a) (hb : EngineRun s b) :
    EngineRun s (if p then a else b) := by
  split <;> assumption

theorem foldl {α : Type} (h : EngineRun s t) (f : State → α → State)
    (hf : ∀ u a, EngineRun u (f u a)) (l : List α) : EngineRun s (l.foldl f t) := by
  induction l generalizing t with
  | nil => exact h
  | cons a l ih => exact ih (h.trans (hf t a))

/-! ### Sending -/

theorem armCtx (h : EngineRun s t) (i : CtxIdx) (ms : Nat) : EngineRun s (t.armCtx i ms) :=
  h.onCtx i _ fun _ => by rfl

theorem emit (h : EngineRun s t) (p : PortNo) (o : OutFrame) : EngineRun s (t.emit p o) :=
  h.onPort p _ fun _ => by rfl

theorem sendTo (h : EngineRun s t) (d : DegreeNo) (dest : NodeId) (m : PeerMsg) :
    EngineRun s (t.sendTo d dest m) :=
  ite (h.emit _ _) h

theorem sendPath (h : EngineRun s t) (d : DegreeNo) (m : PeerMsg) : EngineRun s (t.sendPath d m) := by
  unfold State.sendPath
  split
  · exact h.sendTo _ _ _
  · exact h

theorem sendUpstream (h : EngineRun s t) (c : Context) (m : PeerMsg) :
    EngineRun s (t.sendUpstream c m) := by
  unfold State.sendUpstream
  split
  · exact h.sendPath _ _
  · exact h

theorem sendDownstream (h : EngineRun s t) (c : Context) (m : PeerMsg) :
    EngineRun s (t.sendDownstream c m) := by
  unfold State.sendDownstream
  split
  · exact h.sendPath _ _
  · exact h

theorem sendRequest (h : EngineRun s t) (i : CtxIdx) (k : ReqKind) (att : Nat) :
    EngineRun s (t.sendRequest i k att) := by
  refine h.withCtx i fun c _ => ?_
  split
  · exact h
  · exact emit (onCtx (h.advanceTag i) i (fun c => { c with outstanding := some k }) fun _ => by rfl) _ _

/-! ### Writes to a map -/

/-- A claim by a live context on its out-port: each cell it writes is owned as before, or by a live
context of that port. -/
theorem claim (h : EngineRun s t) (i : CtxIdx) (write : Context → PortMap → Option PortMap)
    (hw : ∀ c m, t.ctx i = some c → write c (t.port c.outPort).map = some m →
      ∀ k x, cellAt m k = some x → x.owner = some i ∨
        ∀ j, x.owner = some j → ∃ y, cellAt (t.port c.outPort).map k = some y ∧ y.owner = some j) :
    EngineRun s (t.claim i write) := by
  refine h.withCtx i fun c hc => ?_
  split
  · rename_i m hm
    refine h.onMap c.outPort (fun _ => m) fun k x j hx hj => ?_
    rcases hw c m hc hm k x hx with mine | others
    · cases mine.symm.trans hj
      exact .inr ⟨c, hc, rfl⟩
    · exact .inl (others j hj)
  · exact h

/-- A map changed entry by entry, each entry to one of owner `i` or to one that keeps its owner or is
nobody's. -/
theorem owner_mapEntries {m : PortMap} {f : Nat → Cell → Cell} {i : CtxIdx}
    (hf : ∀ k x, (f k x).owner = some i ∨ (f k x).owner = none ∨ (f k x).owner = x.owner)
    {k : Nat} {x : Cell} (hx : cellAt (mapEntries m f) k = some x) :
    x.owner = some i ∨ ∀ j, x.owner = some j → ∃ y, cellAt m k = some y ∧ y.owner = some j := by
  rw [cellAt_mapEntries, Option.map_eq_some_iff] at hx
  obtain ⟨y, hy, rfl⟩ := hx
  rcases hf k y with mine | none | same
  · exact .inl mine
  · exact .inr fun j hj => by simp [none] at hj
  · exact .inr fun j hj => ⟨y, hy, same ▸ hj⟩

theorem owner_writeRange {m : PortMap} {first n : Nat} {test : Cell → Bool} {new : Cell} {i : CtxIdx}
    (hn : new.owner = some i) {k : Nat} {x : Cell}
    (hx : cellAt (writeRange m first n test new) k = some x) :
    x.owner = some i ∨ ∀ j, x.owner = some j → ∃ y, cellAt m k = some y ∧ y.owner = some j := by
  refine owner_mapEntries (fun k x => ?_) hx
  split
  · exact .inl hn
  · exact .inr (.inr rfl)

theorem owner_holdPlacements (i : CtxIdx) (n : Nat) (firsts : List Nat) {m : PortMap} {k : Nat} {x : Cell}
    (hx : cellAt (holdPlacements m i n firsts).1 k = some x) :
    x.owner = some i ∨ ∀ j, x.owner = some j → ∃ y, cellAt m k = some y ∧ y.owner = some j := by
  induction firsts generalizing m with
  | nil => exact .inr fun j hj => ⟨x, hx, hj⟩
  | cons first rest ih =>
    have later : cellAt (holdPlacements (holdPlacement m i first n).1 i n rest).1 k = some x := hx
    rcases ih later with mine | others
    · exact .inl mine
    · refine or_iff_not_imp_left.2 fun notMine j hj => ?_
      obtain ⟨y, hy, hyj⟩ := others j hj
      by_cases fits : rangeAll m first n (fun x => decide (x = .free) || decide (x = .held i)) = true
      · rw [holdPlacement, if_pos fits] at hy
        rcases owner_writeRange (new := .held i) rfl hy with mine | older
        · exact absurd (hj.trans (hyj.symm.trans mine)) notMine
        · exact older j hyj
      · rw [holdPlacement, if_neg fits] at hy
        exact ⟨y, hy, hyj⟩

theorem mapHold (h : EngineRun s t) (i : CtxIdx) (firsts : List Nat) :
    EngineRun s (t.mapHold i firsts) := by
  refine h.claim i _ fun c m _ hm k x hx => ?_
  split at hm
  · cases hm
    exact owner_holdPlacements i c.width firsts hx
  · cases hm

theorem mapReserveFromHold (h : EngineRun s t) (i : CtxIdx) (first : Nat) :
    EngineRun s (t.mapReserveFromHold i first) := by
  refine h.claim i _ fun c m _ hm k x hx => ?_
  split at hm
  · cases hm
    refine owner_mapEntries (fun k x => ?_) hx
    split
    · split
      · exact .inl rfl
      · exact .inr (.inl rfl)
    · exact .inr (.inr rfl)
  · cases hm

theorem mapReserveDirect (h : EngineRun s t) (i : CtxIdx) (first : Nat) :
    EngineRun s (t.mapReserveDirect i first) := by
  refine h.claim i _ fun c m _ hm k x hx => ?_
  split at hm
  · cases hm
    exact owner_writeRange rfl hx
  · cases hm

theorem mapOpen (h : EngineRun s t) (i : CtxIdx) (first : Nat) : EngineRun s (t.mapOpen i first) := by
  refine h.claim i _ fun c m _ hm k x hx => ?_
  split at hm
  · cases hm
    exact owner_writeRange rfl hx
  · cases hm

theorem mapAdopt (h : EngineRun s t) (i : CtxIdx) (first : Nat) : EngineRun s (t.mapAdopt i first) := by
  refine h.claim i _ fun c m _ hm k x hx => ?_
  split at hm
  · cases hm
    exact owner_writeRange rfl hx
  · cases hm

/-- A map in which every cell is nobody's or owned as before. -/
theorem lessOwned (h : EngineRun s t) (p : PortNo) (f : PortState → PortMap)
    (hf : ∀ k x j, cellAt (f (t.port p)) k = some x → x.owner = some j →
      ∃ y, cellAt (t.port p).map k = some y ∧ y.owner = some j) :
    EngineRun s (t.onPort p fun ps => { ps with map := f ps }) :=
  h.onMap p f fun k x j hx hj => .inl (hf k x j hx hj)

theorem owner_freeOwned {m : PortMap} {i j : CtxIdx} {k : Nat} {x : Cell}
    (hx : cellAt (freeOwned m i) k = some x) (hj : x.owner = some j) :
    j ≠ i ∧ cellAt m k = some x := by
  rw [cellAt_freeOwned, Option.map_eq_some_iff] at hx
  obtain ⟨y, hy, rfl⟩ := hx
  split at hj
  · cases hj
  · rename_i other
    rw [if_neg other]
    exact ⟨fun e => other (e ▸ hj), hy⟩

theorem owner_blocked {m : PortMap} {first n : Nat} {test : Cell → Bool} {j : CtxIdx} {k : Nat} {x : Cell}
    (hx : cellAt (writeRange m first n test .blocked) k = some x) (hj : x.owner = some j) :
    cellAt m k = some x := by
  rw [cellAt_writeRange, Option.map_eq_some_iff] at hx
  obtain ⟨y, hy, rfl⟩ := hx
  split at hj
  · cases hj
  · rename_i outside
    rw [if_neg outside]
    exact hy

theorem mapFree (h : EngineRun s t) (i : CtxIdx) (p : PortNo) : EngineRun s (t.mapFree i p) :=
  h.lessOwned p _ fun _ x _ hx hj => ⟨x, (owner_freeOwned hx hj).2, hj⟩

theorem mapBlock (h : EngineRun s t) (i : CtxIdx) (p : PortNo) (first n : Nat) :
    EngineRun s (t.mapBlock i p first n) :=
  h.lessOwned p _ fun _ x _ hx hj => ⟨x, owner_blocked (owner_freeOwned hx hj).2 hj, hj⟩

/-! ### The target calculator -/

theorem chooseBase (h : EngineRun s t) (i : CtxIdx) : EngineRun s (t.chooseBase i) :=
  h.withCtx i fun _ _ => ite (h.onCtx i _ fun _ => by rfl) h

theorem writeTarget (h : EngineRun s t) (i : CtxIdx) (x : Nat) (short : Bool) :
    EngineRun s (t.writeTarget i x short) :=
  h.withCtx i fun _ _ => h.onCtx i _ fun _ => by rfl

/-! ### The arbiter -/

theorem takeStep (h : EngineRun s t) (p : PortNo) : EngineRun s (t.takeStep p) := by
  unfold State.takeStep
  split
  · exact h
  · refine h.withCtx _ fun c hc => ?_
    split
    · exact h
    · refine onCtx (onPort (sendRequest (onPort h p _ ?_) _ _ _) p _ ?_) _ _ ?_ <;> exact fun _ => rfl

theorem setQueue (h : EngineRun s t) (p : PortNo) (q : QueueSel) (f : PortState → List CtxIdx) :
    EngineRun s (t.onPort p fun ps => ps.setQueue q (f ps)) := by
  refine h.onPort p _ fun ps => ?_
  cases q <;> rfl

theorem grantTo (h : EngineRun s t) (p : PortNo) (q : QueueSel) : EngineRun s (t.grantTo p q) := by
  unfold State.grantTo
  split
  · exact h
  · refine takeStep (h.onPort p _ fun ps => ?_) p
    cases q <;> rfl

theorem considerGrant (h : EngineRun s t) (p : PortNo) : EngineRun s (t.considerGrant p) := by
  unfold State.considerGrant
  dsimp only
  split
  · split
    · exact h.grantTo p _
    · exact h
  · exact h

theorem join (h : EngineRun s t) (p : PortNo) (q : QueueSel) (i : CtxIdx) (grant : Bool) :
    EngineRun s (t.join p q i grant) := by
  unfold State.join
  dsimp only
  split
  · exact (h.setQueue p q _).considerGrant p
  · exact h.setQueue p q _

theorem leaveQueues (h : EngineRun s t) (p : PortNo) (i : CtxIdx) : EngineRun s (t.leaveQueues p i) :=
  h.onPort p _ fun _ => by rfl

theorem clearStep (h : EngineRun s t) (p : PortNo) : EngineRun s (t.clearStep p) := by
  have k : EngineRun s (t.onPort p PortState.clearedStep) :=
    h.onPort p _ fun _ => by rfl
  unfold State.clearStep
  dsimp only
  split
  · exact k.hold _
  · exact k

theorem freeSlot (h : EngineRun s t) (p : PortNo) : EngineRun s (t.freeSlot p) :=
  h.onPort p _ fun _ => by rfl

theorem markRetreat (h : EngineRun s t) (p : PortNo) (b : Bool) :
    EngineRun s (t.onPort p fun ps => { ps with retreatDue := b }) :=
  h.onPort p _ fun _ => by rfl

/-! ### Requests, service and trim -/

theorem enterPreparing (h : EngineRun s t) (i : CtxIdx) : EngineRun s (t.enterPreparing i) :=
  h.withCtx i fun _ _ => armCtx (sendRequest (h.onCtx i _ fun _ => by rfl) _ _ _) _ _

theorem sendMeasure (h : EngineRun s t) (i : CtxIdx) (k : Nat) : EngineRun s (t.sendMeasure i k) :=
  armCtx (onCtx (h.sendRequest i _ _) i _ fun _ => by rfl) _ _

theorem sendClose (h : EngineRun s t) (i : CtxIdx) : EngineRun s (t.sendClose i) :=
  h.withCtx i fun _ _ => armCtx (onCtx (h.sendRequest i _ _) i _ fun _ => by rfl) _ _

theorem enterTrimming (h : EngineRun s t) (i : CtxIdx) : EngineRun s (t.enterTrimming i) :=
  sendMeasure (h.onCtx i _ fun _ => by rfl) i _

theorem trimIfDue (h : EngineRun s t) (i : CtxIdx) : EngineRun s (t.trimIfDue i) :=
  h.withCtx i fun _ _ => ite (h.enterTrimming i) h

theorem enterInService (h : EngineRun s t) (i : CtxIdx) : EngineRun s (t.enterInService i) :=
  h.withCtx i fun _ _ => trimIfDue (report (h.onCtx i _ fun _ => by rfl) _) i

theorem haltTrim (h : EngineRun s t) (i : CtxIdx) : EngineRun s (t.haltTrim i) :=
  h.withCtx i fun _ _ => trimIfDue (report (h.onCtx i _ fun _ => by rfl) _) i

theorem finishTrim (h : EngineRun s t) (i : CtxIdx) : EngineRun s (t.finishTrim i) :=
  h.withCtx i fun _ _ => trimIfDue (report (h.onCtx i _ fun _ => by rfl) _) i

theorem completeRamp (h : EngineRun s t) (i : CtxIdx) : EngineRun s (t.completeRamp i) := by
  refine h.withCtx i fun c _ => ?_
  have k : EngineRun s (t.onCtx i fun c => { c with kind := none }) := h.onCtx i _ fun _ => by rfl
  dsimp only
  split
  · exact (k.enterInService i).sendUpstream _ _
  all_goals exact sendDownstream (armCtx (k.onCtx i _ fun _ => by rfl) _ _) _ _

/-! ### Targets and the bank swap -/

theorem recordTeardown (h : EngineRun s t) (i : CtxIdx) (c : Context) (o : TeardownOrder) (w : Way) :
    EngineRun s (t.recordTeardown i c o w) := by
  have k : EngineRun s (t.onCtx i fun c =>
      { c with abortReason := o.reason, origin := some o.origin,
               teardown := some ⟨o.cause, w, o.notice⟩ }) := h.onCtx i _ fun _ => by rfl
  unfold State.recordTeardown
  dsimp only
  split
  · exact ite (k.sendUpstream _ _) (k.sendUpstream _ _)
  · exact k

theorem abortPreparing (h : EngineRun s t) (i : CtxIdx) (r : Reason) :
    EngineRun s (t.abortPreparing i r) := by
  refine h.withCtx i fun c _ => ?_
  have k := h.recordTeardown i c (t.localAbort r) (t.wayFor c (t.localAbort r))
  exact sendClose (ite (k.chooseBase i) k) i

theorem prepareTarget (h : EngineRun s t) (i : CtxIdx) (grant : Bool) :
    EngineRun s (t.prepareTarget i grant) := by
  refine h.withCtx i fun c _ => ?_
  split
  · exact h.abortPreparing i _
  · exact h.abortPreparing i _
  · rename_i x short _
    have k := h.writeTarget i x short
    exact ite (k.completeRamp i) (join (k.onCtx i _ fun _ => by rfl) _ _ _ _)

theorem resumeWaiting (h : EngineRun s t) (grant : Bool) (p : PortNo) (i : CtxIdx) :
    EngineRun s (State.resumeWaiting grant p t i) :=
  h.withCtx i fun _ _ => ite (h.prepareTarget i grant) h

theorem markTrimDue (h : EngineRun s t) (p : PortNo) (i : CtxIdx) :
    EngineRun s (State.markTrimDue p t i) :=
  h.withCtx i fun _ _ => ite (trimIfDue (h.onCtx i _ fun _ => by rfl) i) h

/-- A swap is one update of the closure. -/
theorem swapNow (h : EngineRun s t) (p : PortNo) (pending : (t.port p).swapPending = true)
    (grant : Bool) : EngineRun s (t.swapNow p grant) := by
  refine h.swap p pending (foldl (foldl (.refl _) _ ?_ _) _ ?_ _)
  · exact fun u i => (refl u).resumeWaiting grant p i
  · exact fun u i => (refl u).markTrimDue p i

theorem lookForQuiet (h : EngineRun s t) (p : PortNo) (grant : Bool) :
    EngineRun s (t.lookForQuiet p grant) := by
  unfold State.lookForQuiet
  split
  · rename_i look
    rw [Bool.and_eq_true] at look
    exact h.swapNow p look.1 grant
  · exact h

theorem lookAfter (h : EngineRun s t) (c : Context) : EngineRun s (t.lookAfter c) :=
  ite (h.lookForQuiet _ _) h

theorem trimTarget (h : EngineRun s t) (i : CtxIdx) : EngineRun s (t.trimTarget i) := by
  refine h.withCtx i fun c _ => ?_
  split
  · exact (h.haltTrim i).lookAfter c
  · exact (h.haltTrim i).lookAfter c
  · rename_i x short _
    have k := h.writeTarget i x short
    exact ite (lookAfter (trimIfDue (k.onCtx i _ fun _ => by rfl) i) c)
      (join (k.onCtx i _ fun _ => by rfl) _ _ _ _)

theorem useMeasurement (h : EngineRun s t) (i : CtxIdx) : EngineRun s (t.useMeasurement i) :=
  h.withCtx i fun _ _ => ite (ite h (h.prepareTarget i true)) (ite (h.trimTarget i) h)

theorem spendAttempt (h : EngineRun s t) (i : CtxIdx) : EngineRun s (t.spendAttempt i) := by
  refine h.withCtx i fun c _ => ?_
  have k : EngineRun s (t.onCtx i fun c => { c with outstanding := none, timer := none }) :=
    h.onCtx i _ fun _ => by rfl
  exact ite (h.sendMeasure i _)
    (ite (k.abortPreparing i _) (ite ((k.haltTrim i).lookAfter c) k))

/-! ### Ending a context -/

theorem writePathEnd (h : EngineRun s t) (c : Context) : EngineRun s (t.writePathEnd c) := by
  unfold State.writePathEnd
  split
  · exact h
  · exact h.report _

theorem sendNotice (h : EngineRun s t) (c : Context) : EngineRun s (t.sendNotice c) := by
  unfold State.sendNotice
  split
  · exact h.sendDownstream _ _
  · exact h.sendDownstream _ _
  · exact h
  · exact h

theorem releaseSlot (h : EngineRun s t) (p : PortNo) (i : CtxIdx) : EngineRun s (t.releaseSlot p i) := by
  unfold State.releaseSlot
  split
  · exact markRetreat (freeSlot (ite h (h.clearStep p)) p) p false
  · exact h

end EngineRun

end Sys2Proof.Machine

/-! PROOFS. The engines as a closure, continued: endings, teardown, the step timer, path messages and
reports are made of its updates. -/

namespace Sys2Proof.Machine

open Sys2Proof

/-! ### What an ending does between the map and the record -/

/-- The two states have the same contexts and the same maps. -/
def sameCells (s t : State) : Prop :=
  (∀ j, t.ctx j = s.ctx j) ∧ ∀ p, (t.port p).map = (s.port p).map

namespace sameCells

variable {s t : State}

theorem refl (s : State) : sameCells s s := ⟨fun _ => rfl, fun _ => rfl⟩

theorem trans {u : State} (h : sameCells s t) (h' : sameCells t u) : sameCells s u :=
  ⟨fun j => (h'.1 j).trans (h.1 j), fun p => (h'.2 p).trans (h.2 p)⟩

theorem onPort (h : sameCells s t) (p : PortNo) (f : PortState → PortState)
    (map : ∀ q, (f q).map = q.map) : sameCells s (t.onPort p f) := by
  refine h.trans ⟨fun _ => rfl, fun q => ?_⟩
  by_cases hq : q = p
  · subst hq; simp [map]
  · rw [State.port_onPort_other _ _ hq]

theorem onDegree (h : sameCells s t) (d : DegreeNo) (f : DegreeState → DegreeState) :
    sameCells s (t.onDegree d f) :=
  h.trans ⟨fun _ => rfl, fun _ => rfl⟩

theorem report (h : sameCells s t) (r : RingRecord) : sameCells s (t.report r) :=
  h.trans ⟨fun j => State.report_ctx t r j, fun p => by rw [State.report_port]⟩

theorem ite {p : Prop} [Decidable p] {a b : State} (ha : sameCells s a) (hb : sameCells s b) :
    sameCells s (if p then a else b) := by
  split <;> assumption

theorem sendDownstream (h : sameCells s t) (c : Context) (m : PeerMsg) :
    sameCells s (t.sendDownstream c m) := by
  rcases t.sendDownstream_eq c m with e | ⟨p, f, e⟩
  · rwa [e]
  · rw [e]; exact h.onPort p _ fun _ => by rfl

theorem sendUpstream (h : sameCells s t) (c : Context) (m : PeerMsg) :
    sameCells s (t.sendUpstream c m) := by
  rcases t.sendUpstream_eq c m with e | ⟨p, f, e⟩
  · rwa [e]
  · rw [e]; exact h.onPort p _ fun _ => by rfl

theorem sendNotice (h : sameCells s t) (c : Context) : sameCells s (t.sendNotice c) := by
  unfold State.sendNotice
  split
  · exact h.sendDownstream _ _
  · exact h.sendDownstream _ _
  · exact h
  · exact h

theorem clearStep (h : sameCells s t) (p : PortNo) : sameCells s (t.clearStep p) := by
  unfold State.clearStep
  dsimp only
  split
  · exact (h.onPort p _ fun _ => by rfl).onDegree _ _
  · exact h.onPort p _ fun _ => by rfl

theorem releaseSlot (h : sameCells s t) (p : PortNo) (i : CtxIdx) : sameCells s (t.releaseSlot p i) := by
  unfold State.releaseSlot
  split
  · exact onPort (onPort (ite h (h.clearStep p)) p _ fun _ => by rfl) p _ fun _ => by rfl
  · exact h

theorem writePathEnd (h : sameCells s t) (c : Context) : sameCells s (t.writePathEnd c) := by
  unfold State.writePathEnd
  split
  · exact h
  · exact h.report _

theorem ownsNothing (h : sameCells s t) {i : CtxIdx} (none : s.ownsNothing i) : t.ownsNothing i := by
  intro c hc k x hx
  rw [h.1] at hc
  rw [h.2] at hx
  exact none c hc k x hx

end sameCells

/-- After the free write of `i` on its out-port, `i` owns nothing (R6). -/
theorem State.mapFree_ownsNothing {s : State} {i : CtxIdx} {c : Context} (hc : s.ctx i = some c) :
    (s.mapFree i c.outPort).ownsNothing i := by
  intro c' hc' k x hx hi
  cases hc.symm.trans (show s.ctx i = some c' from hc')
  rw [State.mapFree, State.port_onPort_same] at hx
  exact (EngineRun.owner_freeOwned hx hi).1 rfl

/-- After the block write of `i` on its out-port, `i` owns nothing (R11). -/
theorem State.mapBlock_ownsNothing {s : State} {i : CtxIdx} {c : Context} (hc : s.ctx i = some c)
    (first n : Nat) : (s.mapBlock i c.outPort first n).ownsNothing i := by
  intro c' hc' k x hx hi
  cases hc.symm.trans (show s.ctx i = some c' from hc')
  rw [State.mapBlock, State.port_onPort_same] at hx
  exact (EngineRun.owner_freeOwned hx hi).1 rfl

namespace EngineRun

variable {s t : State}

/-! ### Ending a context -/

theorem finishEnding (h : EngineRun s t) (i : CtxIdx) (c : Context) (none : t.ownsNothing i) :
    EngineRun s (t.finishEnding i c) := by
  refine freeRecord ((((h.sendNotice c).leaveQueues _ i).releaseSlot _ i).writePathEnd c) i ?_
  exact sameCells.ownsNothing (((((sameCells.refl t).sendNotice c).onPort _ _ fun _ => by rfl).releaseSlot _ i).writePathEnd
    c) none

theorem afterEnding (h : EngineRun s t) (i : CtxIdx) (c : Context) (b : PortState) :
    EngineRun s (t.afterEnding i c b) := by
  unfold State.afterEnding
  have k : EngineRun s (if decide (b.holder = some i) = true then t.lookForQuiet c.outPort true
      else t.lookAfter c) := ite (h.lookForQuiet _ _) (h.lookAfter c)
  exact ite (k.considerGrant _) k

theorem endFreed (h : EngineRun s t) (i : CtxIdx) : EngineRun s (t.endFreed i) :=
  h.withCtx i fun c hc =>
    ((h.mapFree i _).finishEnding i c (State.mapFree_ownsNothing hc)).afterEnding i c _

theorem endBlocked (h : EngineRun s t) (i : CtxIdx) : EngineRun s (t.endBlocked i) := by
  refine h.withCtx i fun c hc => ?_
  exact afterEnding (report (finishEnding (mapBlock h i _ _ _) i _
    (State.mapBlock_ownsNothing hc _ _)) _) i _ _

/-! ### Retreat and dark jump -/

theorem beginRetreat (h : EngineRun s t) (i : CtxIdx) : EngineRun s (t.beginRetreat i) := by
  refine h.withCtx i fun c _ => ?_
  have k := (h.leaveQueues c.outPort i).chooseBase i
  exact ite (k.sendClose i) (k.onCtx i _ fun _ => by rfl)

theorem joinRetreat (h : EngineRun s t) (i : CtxIdx) (grant : Bool) :
    EngineRun s (t.joinRetreat i grant) :=
  h.withCtx i fun _ _ => ite (h.join _ _ _ _) h

theorem startRetreat (h : EngineRun s t) (i : CtxIdx) : EngineRun s (t.startRetreat i) := by
  refine h.withCtx i fun c _ => ?_
  have k := ((h.beginRetreat i).lookAfter c).joinRetreat i true
  exact ite (h.chooseBase i) (ite (h.markRetreat _ true) (ite (k.considerGrant _) k))

theorem abandonStep (h : EngineRun s t) (i : CtxIdx) (c : Context) :
    EngineRun s (t.abandonStep i c) := by
  unfold State.abandonStep
  have k := ((h.clearStep c.outPort).markRetreat c.outPort false).lookForQuiet c.outPort true
  refine considerGrant (lookAfter (sendClose (onCtx (freeSlot (onCtx (k.advanceTag i) i _ ?_) _) i _ ?_) i) c) _
  all_goals exact fun _ => rfl

theorem startDarkJump (h : EngineRun s t) (i : CtxIdx) : EngineRun s (t.startDarkJump i) := by
  refine h.withCtx i fun c _ => ?_
  have k := ((h.leaveQueues c.outPort i).sendClose i).lookAfter c
  exact ite h (ite (h.abandonStep i c) (ite (k.considerGrant _) k))

theorem goDark (h : EngineRun s t) (i : CtxIdx) (w : Way) : EngineRun s (t.goDark i w) := by
  unfold State.goDark
  split
  · exact h.endFreed i
  · exact h.startRetreat i
  · exact h.startDarkJump i

theorem decideTeardown (h : EngineRun s t) (i : CtxIdx) (o : TeardownOrder) :
    EngineRun s (t.decideTeardown i o) :=
  h.withCtx i fun c _ => (h.recordTeardown i c o _).goDark i _

theorem secondCause (h : EngineRun s t) (i : CtxIdx) (o : TeardownOrder) :
    EngineRun s (t.secondCause i o) := by
  refine h.withCtx i fun c _ => ?_
  split
  · exact ite (startDarkJump (h.onCtx i _ fun _ => by rfl) i) h
  · exact h

theorem causeReaches (h : EngineRun s t) (i : CtxIdx) (o : TeardownOrder) :
    EngineRun s (t.causeReaches i o) :=
  h.withCtx i fun _ _ => ite (h.secondCause i o) (h.decideTeardown i o)

theorem afterMeasure (h : EngineRun s t) (i : CtxIdx) : EngineRun s (t.afterMeasure i) := by
  refine h.withCtx i fun c _ => ?_
  split
  · exact h.startRetreat i
  · exact h.startDarkJump i
  · exact h
  · exact h

theorem causeOnOutPort (h : EngineRun s t) (p : PortNo) (o : TeardownOrder) :
    EngineRun s (t.causeOnOutPort p o) :=
  h.foldl _ (fun u i => (refl u).withCtx i fun _ _ =>
    ite ((refl u).causeReaches i o) (refl u)) _

theorem causeOnInPort (h : EngineRun s t) (d : DegreeNo) (o : TeardownOrder) :
    EngineRun s (t.causeOnInPort d o) :=
  h.foldl _ (fun u i => (refl u).withCtx i fun _ _ =>
    ite ((refl u).causeReaches i o) (refl u)) _

theorem adjacencyLost (h : EngineRun s t) (d : DegreeNo) : EngineRun s (t.adjacencyLost d) :=
  h.foldl _ (fun u i => (refl u).withCtx i fun _ _ =>
    ite ((refl u).causeReaches i _) (ite ((refl u).causeReaches i _) (refl u))) _

theorem clearContext (h : EngineRun s t) (p : PortNo) (i : CtxIdx) :
    EngineRun s (State.clearContext p t i) :=
  h.withCtx i fun _ _ => ite (h.decideTeardown i _) h

/-! ### The step timer -/

theorem freeze (h : EngineRun s t) (p : PortNo) : EngineRun s (t.freeze p) :=
  ite h (report (h.onPort p _ fun _ => by rfl) _)

theorem freezeIf (h : EngineRun s t) (p : PortNo) (b : Bool) : EngineRun s (t.freezeIf p b) :=
  ite (h.freeze p) h

theorem abortAtStepEnd (h : EngineRun s t) (i : CtxIdx) (r : Reason) :
    EngineRun s (t.abortAtStepEnd i r) := by
  refine h.withCtx i fun c _ => ?_
  have k := h.recordTeardown i c (t.localAbort r) (t.wayFor c (t.localAbort r))
  dsimp only
  split
  · exact (k.beginRetreat i).joinRetreat i false
  · exact k.sendClose i
  · exact k

theorem completeStepping (h : EngineRun s t) (i : CtxIdx) : EngineRun s (t.completeStepping i) := by
  refine h.withCtx i fun c _ => ?_
  split
  · exact h.completeRamp i
  · exact h.finishTrim i
  · exact h.sendClose i
  · exact h

theorem lookThenGrant (h : EngineRun s t) (p : PortNo) : EngineRun s (t.lookThenGrant p) :=
  (h.lookForQuiet p false).considerGrant p

theorem tenureTests (h : EngineRun s t) (p : PortNo) (i : CtxIdx) : EngineRun s (t.tenureTests p i) := by
  refine h.withCtx i fun c _ => ?_
  have k := h.freeSlot p
  exact ite ((k.completeStepping i).lookThenGrant p)
    (ite (lookThenGrant (setQueue k p _ _) p)
      (ite (lookThenGrant (setQueue k p _ _) p) ((h.lookForQuiet p false).takeStep p)))

theorem endStep_of_cleared {p : PortNo} (k : EngineRun s (t.clearStep p)) (i : CtxIdx) (e : StepEnd) (b : Bool) :
    EngineRun s (t.endStep p i e b) := by
  have kf := k.freeSlot p
  have kd := kf.markRetreat p false
  have retreat := (((kd.freezeIf p b).beginRetreat i).joinRetreat i false).lookThenGrant p
  unfold State.endStep
  dsimp only
  split
  · exact lookThenGrant (sendClose (kd.onCtx i _ fun _ => by rfl) i) p
  · exact ((kf.abortAtStepEnd i _).freezeIf p b).lookThenGrant p
  · exact ((kf.haltTrim i).freezeIf p b).lookThenGrant p
  · exact k.tenureTests p i
  · exact retreat

theorem endStep (h : EngineRun s t) (p : PortNo) (i : CtxIdx) (e : StepEnd) (b : Bool) :
    EngineRun s (t.endStep p i e b) :=
  (h.clearStep p).endStep_of_cleared i e b

theorem setAnswered (h : EngineRun s t) (i : CtxIdx) : EngineRun s (t.setAnswered i) :=
  h.onCtx i _ fun _ => by rfl

theorem setConfirmed (h : EngineRun s t) (p : PortNo) (i : CtxIdx) (a : Nat) :
    EngineRun s (t.setConfirmed p i a) :=
  onPort (h.onCtx i _ fun _ => by rfl) p _ fun _ => by rfl

theorem setFailed (h : EngineRun s t) (p : PortNo) (i : CtxIdx) : EngineRun s (t.setFailed p i) :=
  h.withCtx i fun _ _ => (h.setAnswered i).endStep p i _ _

theorem actuationExpired (h : EngineRun s t) (p : PortNo) (i : CtxIdx) :
    EngineRun s (t.actuationExpired p i) :=
  h.withCtx i fun _ _ => endStep (h.onCtx i _ fun _ => by rfl) p i _ _

theorem observationExpired (h : EngineRun s t) (p : PortNo) (i : CtxIdx) :
    EngineRun s (t.observationExpired p i) := by
  refine h.withCtx i fun c _ => ?_
  have k := h.setAnswered i
  exact ite (endStep (k.onCtx i _ fun c => (Context.afterClean_same c).outPort) p i _ _)
    (k.endStep p i _ _)

theorem settle (h : EngineRun s t) (p : PortNo) (i : CtxIdx) (dp : Nat) :
    EngineRun s (t.settle p i dp) := by
  refine h.withCtx i fun c _ => ?_
  have k (time : Nat) (v : Verdict) :
      EngineRun s ((t.onPort p fun ps => { ps with slowest := max ps.slowest time }).onCtx i
        fun c => { c with slowest := max c.slowest time, outstanding := none }.afterVerdict v) :=
    (h.onPort p _ fun _ => by rfl).onCtx i _ fun c => (Context.afterVerdict_same _ v).outPort
  refine ite ?_ ((k _ _).endStep p i _ _)
  split
  · exact (k _ _).endStep p i _ _
  · exact (k _ _).endStep p i _ _
  · exact (k _ _).endStep p i _ _
  · exact (k _ _).endStep p i _ _

theorem extend (h : EngineRun s t) (p : PortNo) (k : Nat) : EngineRun s (t.extend p k) := by
  unfold State.extend
  split
  · exact h
  · exact h.onPort p _ fun _ => by rfl

/-! ### Path messages for a context -/

theorem endOffer (h : EngineRun s t) (i : CtxIdx) (r : Reason) : EngineRun s (t.endOffer i r) :=
  h.withCtx i fun _ _ => endFreed (sendDownstream (sendUpstream (h.onCtx i _ fun _ => by rfl) _ _) _ _) i

theorem acceptRange (h : EngineRun s t) (i : CtxIdx) (first cost : Nat) :
    EngineRun s (t.acceptRange i first cost) := by
  refine h.withCtx i fun c _ => ?_
  have k : EngineRun s ((t.mapReserveFromHold i first).onCtx i fun c =>
      { c with candidates := none, chosen := some first, totalCost := some cost, timer := none }) :=
    (h.mapReserveFromHold i first).onCtx i _ fun _ => by rfl
  dsimp only
  split
  · exact k.enterPreparing i
  all_goals exact sendUpstream (armCtx (k.onCtx i _ fun _ => by rfl) _ _) _ _

theorem takeAccept (h : EngineRun s t) (d : DegreeNo) (path : PathId) (first cost : Nat) :
    EngineRun s (t.takeAccept d path first cost) := by
  unfold State.takeAccept
  split
  · exact h.sendPath d _
  · exact h.withCtx _ fun _ _ => ite (ite (h.acceptRange _ _ _) (h.endOffer _ _)) h

theorem takeDecline (h : EngineRun s t) (d : DegreeNo) (path : PathId) (r : Reason) (o : NodeId) :
    EngineRun s (t.takeDecline d path r o) := by
  unfold State.takeDecline
  split
  · exact h
  · exact h.withCtx _ fun _ _ => ite (sendUpstream (endFreed (h.onCtx _ _ fun _ => by rfl) _) _ _) h

theorem takeLight (h : EngineRun s t) (d : DegreeNo) (path : PathId) :
    EngineRun s (t.takeLight d path) := by
  unfold State.takeLight
  split
  · exact h.sendPath d _
  · exact h.withCtx _ fun _ _ => ite (h.enterPreparing _) h

theorem takeLit (h : EngineRun s t) (d : DegreeNo) (path : PathId) : EngineRun s (t.takeLit d path) := by
  unfold State.takeLit
  split
  · exact h
  · exact h.withCtx _ fun _ _ => ite ((h.enterInService _).sendUpstream _ _) h

theorem takeRelease (h : EngineRun s t) (d : DegreeNo) (path : PathId) :
    EngineRun s (t.takeRelease d path) := by
  unfold State.takeRelease
  split
  · exact h
  · exact h.withCtx _ fun _ _ => ite (h.causeReaches _ _) h

/-! ### Reports -/

theorem openConfirmed (h : EngineRun s t) (i : CtxIdx) : EngineRun s (t.openConfirmed i) :=
  h.withCtx i fun _ _ => sendMeasure ((h.mapOpen i _).onCtx i _ fun _ => by rfl) i _

theorem openFailed (h : EngineRun s t) (i : CtxIdx) (r : Reason) : EngineRun s (t.openFailed i r) :=
  decideTeardown (h.onCtx i _ fun _ => by rfl) i _

theorem closeConfirmed (h : EngineRun s t) (i : CtxIdx) : EngineRun s (t.closeConfirmed i) :=
  endFreed (h.onCtx i _ fun _ => by rfl) i

theorem actuatedOn (h : EngineRun s t) (p : PortNo) (i : CtxIdx) (tag : Byte) (done : Bool) (x : Int) :
    EngineRun s (t.actuatedOn p i tag done x) := by
  unfold State.actuatedOn State.ifMatched
  split
  · dsimp only
    split
    · unfold State.actuatedFor
      split
      · exact ite (h.openConfirmed i) (h.openFailed i _)
      · exact ite (h.closeConfirmed i) (h.endBlocked i)
      · split
        · exact ite (h.setConfirmed p i _) (h.setFailed p i)
        · exact h
      · exact h
    · exact h
  · exact h

theorem attemptEnded (h : EngineRun s t) (i : CtxIdx) : EngineRun s (t.attemptEnded i) :=
  h.withCtx i fun _ _ => ite (afterMeasure (h.onCtx i _ fun _ => by rfl) i) (h.spendAttempt i)

theorem powerFor (h : EngineRun s t) (i : CtxIdx) (x : Int) : EngineRun s (t.powerFor i x) := by
  refine h.withCtx i fun c _ => ?_
  have k : EngineRun s (t.onCtx i fun c =>
      { c with power := some (clampPower x), outstanding := none, timer := none }) :=
    h.onCtx i _ fun _ => by rfl
  exact ite (ite (k.afterMeasure i) (k.useMeasurement i)) (h.attemptEnded i)

end EngineRun

end Sys2Proof.Machine

/-! PROOFS. What every update of the engines keeps, and with it every event: the queues' bounds, the
ranges, the laws of the map and of the table, and what only its own command changes. -/

namespace Sys2Proof.Machine

open Sys2Proof

/-! ### Laws of the engines' updates -/

/-- What a run of the engines may do to the swaps: a flag clears with a flip of the selector and a
SwapDone, and the ring grows by the records written (R19, R20). -/
structure SwapsKept (s t : State) : Prop where
  pending : ∀ p, (t.port p).swapPending = true → (s.port p).swapPending = true
  cleared : ∀ p, (s.port p).swapPending = true → (t.port p).swapPending = false →
    (t.port p).active ≠ (s.port p).active
  flipped : ∀ p, (t.port p).active ≠ (s.port p).active →
    (s.port p).swapPending = true ∧ (t.port p).swapPending = false
  written : ∃ written : List RingRecord, t.ring = (written.foldl State.report s).ring ∧
    t.lost = (written.foldl State.report s).lost ∧
    ∀ p, (t.port p).active ≠ (s.port p).active → .port p .swapDone ∈ written

/-- The records written give the ring and its Lost flag from those before, whatever else there is. -/
theorem foldl_report_congr {s t : State} (ring : t.ring = s.ring) (lost : t.lost = s.lost)
    (rs : List RingRecord) :
    (rs.foldl State.report t).ring = (rs.foldl State.report s).ring ∧
      (rs.foldl State.report t).lost = (rs.foldl State.report s).lost := by
  induction rs generalizing s t with
  | nil => exact ⟨ring, lost⟩
  | cons r rs ih =>
    exact ih (State.report_ring_congr ring r) (by rw [(t.report_ring r).2, (s.report_ring r).2, ring, lost])

theorem Bank.other_ne (bank : Bank) : bank.other ≠ bank := by cases bank <;> decide

namespace SwapsKept

variable {s t u : State}

theorem refl (s : State) : SwapsKept s s where
  pending _ := id
  cleared p h h' := by simp [h] at h'
  flipped p h := absurd rfl h
  written := ⟨[], rfl, rfl, fun _ h => absurd rfl h⟩

theorem trans (h : SwapsKept s t) (h' : SwapsKept t u) : SwapsKept s u := by
  obtain ⟨xs, ring, lost, done⟩ := h.written
  obtain ⟨ys, ring', lost', done'⟩ := h'.written
  have one (p : PortNo) (a : (u.port p).active ≠ (s.port p).active) :
      (t.port p).active ≠ (s.port p).active ∨ (u.port p).active ≠ (t.port p).active := by
    by_contra n
    rw [not_or, not_not, not_not] at n
    exact a (n.2.trans n.1)
  refine ⟨fun p x => h.pending p (h'.pending p x), fun p a b => ?_, fun p a => ?_,
    xs ++ ys, ?_, ?_, fun p a => ?_⟩
  · by_cases mid : (t.port p).swapPending = true
    · have still : (t.port p).active = (s.port p).active := by
        by_contra n
        have := (h.flipped p n).2
        simp [mid] at this
      exact still ▸ h'.cleared p mid b
    · have mid : (t.port p).swapPending = false := by simpa using mid
      have still : (u.port p).active = (t.port p).active := by
        by_contra n
        have := (h'.flipped p n).1
        simp [mid] at this
      exact still ▸ h.cleared p a mid
  · rcases one p a with first | second
    · have ⟨before, after⟩ := h.flipped p first
      refine ⟨before, ?_⟩
      by_contra n
      have := h'.pending p (by simpa using n)
      simp [after] at this
    · have ⟨before, after⟩ := h'.flipped p second
      exact ⟨h.pending p before, after⟩
  · rw [List.foldl_append, ring']
    exact (foldl_report_congr ring lost ys).1
  · rw [List.foldl_append, lost']
    exact (foldl_report_congr ring lost ys).2
  · rw [List.mem_append]
    exact (one p a).imp (done p) (done' p)

/-- An update that leaves the ring, the selectors and the flags. -/
theorem of_same (ring : t.ring = s.ring) (lost : t.lost = s.lost)
    (ports : ∀ p, (t.port p).active = (s.port p).active ∧
      (t.port p).swapPending = (s.port p).swapPending) : SwapsKept s t where
  pending p := by rw [(ports p).2]; exact id
  cleared p h h' := by rw [(ports p).2, h] at h'; cases h'
  flipped p h := absurd (ports p).1 h
  written := ⟨[], ring, lost, fun p h => absurd (ports p).1 h⟩

theorem report (s : State) (r : RingRecord) : SwapsKept s (s.report r) where
  pending p := by rw [State.report_port]; exact id
  cleared p h h' := by rw [State.report_port, h] at h'; cases h'
  flipped p h := absurd (by rw [State.report_port]) h
  written := ⟨[r], rfl, rfl, fun p h => absurd (by rw [State.report_port]) h⟩

theorem onPort (s : State) (p : PortNo) (f : PortState → PortState)
    (active : (f (s.port p)).active = (s.port p).active)
    (pending : (f (s.port p)).swapPending = (s.port p).swapPending) : SwapsKept s (s.onPort p f) := by
  refine of_same rfl rfl fun q => ?_
  by_cases hq : q = p
  · subst hq; rw [State.port_onPort_same]; exact ⟨active, pending⟩
  · rw [State.port_onPort_other _ _ hq]; exact ⟨rfl, rfl⟩

/-- A swap, from its flip to its SwapDone, around updates that keep the swaps. -/
theorem swap {p : PortNo} (pending : (s.port p).swapPending = true)
    (h : SwapsKept (s.onPort p PortState.swapped) t) :
    SwapsKept s (t.report (.port p .swapDone)) := by
  have same : (s.onPort p PortState.swapped).port p = (s.port p).swapped := State.port_onPort_same _ _ _
  have other (q : PortNo) (hq : q ≠ p) : (s.onPort p PortState.swapped).port q = s.port q :=
    State.port_onPort_other _ _ hq
  have off : (t.port p).swapPending = false := by
    by_contra n
    have := h.pending p (by simpa using n)
    rw [same] at this
    cases this
  have flip : (t.port p).active ≠ (s.port p).active := by
    have : (t.port p).active = (s.port p).active.other := by
      by_contra n
      have := (h.flipped p (by rw [same]; exact n)).1
      rw [same] at this
      cases this
    rw [this]
    exact Bank.other_ne _
  obtain ⟨xs, ring, lost, done⟩ := h.written
  refine ⟨fun q x => ?_, fun q x y => ?_, fun q x => ?_, xs ++ [.port p .swapDone], ?_, ?_, fun q x => ?_⟩
  · rw [State.report_port] at x
    by_cases hq : q = p
    · exact hq ▸ pending
    · have := h.pending q x
      rwa [other q hq] at this
  · rw [State.report_port] at y ⊢
    by_cases hq : q = p
    · exact hq ▸ flip
    · have := h.cleared q (by rwa [other q hq]) y
      rwa [other q hq] at this
  · rw [State.report_port] at x ⊢
    by_cases hq : q = p
    · subst hq; exact ⟨pending, off⟩
    · have := h.flipped q (by rwa [other q hq])
      rwa [other q hq] at this
  · rw [List.foldl_append]
    exact State.report_ring_congr (ring.trans (foldl_report_congr (t := s.onPort p PortState.swapped)
      (s := s) rfl rfl xs).1) _
  · rw [List.foldl_append]
    have e := foldl_report_congr (t := s.onPort p PortState.swapped) (s := s) rfl rfl xs
    exact (foldl_report_congr (ring.trans e.1) (lost.trans e.2) [.port p .swapDone]).2
  · rw [State.report_port] at x
    rw [List.mem_append, List.mem_singleton]
    by_cases hq : q = p
    · subst hq; exact .inr rfl
    · exact .inl (done q (by rwa [other q hq]))

end SwapsKept

namespace EngineRun

variable {s t : State}

/-- Every run of the engines keeps the swaps. -/
theorem swapsKept (h : EngineRun s t) : SwapsKept s t := by
  induction h with
  | refl s => exact .refl s
  | onCtx _ i f _ ih => exact ih.trans (.of_same rfl rfl fun _ => ⟨rfl, rfl⟩)
  | advanceTag _ i ih => exact ih.trans (.of_same rfl rfl fun _ => ⟨rfl, rfl⟩)
  | freeRecord _ i _ ih => exact ih.trans (.of_same rfl rfl fun _ => ⟨rfl, rfl⟩)
  | onPort _ p f same ih =>
    exact ih.trans (.onPort _ p f (congrArg (·.1) (same _)) (congrArg (·.2.1) (same _)))
  | onMap _ p f _ ih => exact ih.trans (.onPort _ p _ rfl rfl)
  | hold _ d ih => exact ih.trans (.of_same rfl rfl fun _ => ⟨rfl, rfl⟩)
  | report _ r ih => exact ih.trans (.report _ r)
  | swap _ p pending _ ih ih' => exact ih.trans (.swap pending ih')

/-- Of a degree only the lamp's hold changes. -/
theorem degree (h : EngineRun s t) (d : DegreeNo) :
    { t.degree d with lampHold := (s.degree d).lampHold } = s.degree d := by
  induction h with
  | refl s => rfl
  | onCtx _ i f _ ih => exact ih
  | advanceTag _ i ih => exact ih
  | freeRecord _ i _ ih => exact ih
  | onPort _ p f _ ih => exact ih
  | onMap _ p f _ ih => exact ih
  | hold _ e ih =>
    by_cases he : d = e
    · subst he; rw [State.degree_onDegree_same]; exact ih
    · rw [State.degree_onDegree_other _ _ he]; exact ih
  | report _ r ih => rw [State.report_degree]; exact ih
  | swap _ p _ _ ih ih' =>
    rw [State.report_degree]
    have k := ih'
    rw [State.onPort_degree] at k
    rw [← ih, ← k]

theorem adj (h : EngineRun s t) (d : DegreeNo) : (t.degree d).adj = (s.degree d).adj := by
  have same := congrArg DegreeState.adj (h.degree d)
  exact same

theorem ownersLive_onCtx {s : State} (live : s.ownersLive) (i : CtxIdx) (f : Context → Context)
    (out : ∀ c, (f c).outPort = c.outPort) : (s.onCtx i f).ownersLive := by
  intro p k x j hx hj
  obtain ⟨c, hc, hp⟩ := live p k x j hx hj
  by_cases e : j = i
  · subst e; exact ⟨f c, by simp [hc], (out c).trans hp⟩
  · exact ⟨c, by rwa [State.ctx_onCtx_other _ _ e], hp⟩

theorem ownersLive_onMap {s : State} (live : s.ownersLive) (p : PortNo) (f : PortState → PortState)
    (owns : s.ownsMore p (f (s.port p)).map) : (s.onPort p f).ownersLive := by
  intro q k x j hx hj
  by_cases e : q = p
  · subst e
    rw [State.port_onPort_same] at hx
    rcases owns k x j hx hj with ⟨y, hy, hyj⟩ | here
    · exact live q k y j hy hyj
    · exact here
  · rw [State.port_onPort_other _ _ e] at hx
    exact live q k x j hx hj

/-- Owned cells name live contexts of their port after every run of the engines (R2). -/
theorem ownersLive (h : EngineRun s t) : s.ownersLive → t.ownersLive := by
  induction h with
  | refl s => exact id
  | onCtx _ i f out ih => exact fun live => ownersLive_onCtx (ih live) i f out
  | advanceTag _ i ih =>
    intro live p k x j hx hj
    obtain ⟨c, hc, hp⟩ := ih live p k x j hx hj
    exact ⟨c, by rwa [State.ctx_advanceTag], hp⟩
  | freeRecord _ i none ih =>
    intro live p k x j hx hj
    obtain ⟨c, hc, hp⟩ := ih live p k x j hx hj
    by_cases e : j = i
    · subst e
      exact absurd hj (none c hc k x (hp ▸ hx))
    · refine ⟨c, ?_, hp⟩
      rwa [State.ctx, State.freeRecord, State.record_onRecord_other _ _ e]
  | onPort _ p f same ih =>
    refine fun live => ownersLive_onMap (ih live) p f fun k x i hx hi => .inl ⟨x, ?_, hi⟩
    rwa [show (f _).map = _ from congrArg (·.2.2) (same _)] at hx
  | onMap _ p f owns ih => exact fun live => ownersLive_onMap (ih live) p _ owns
  | hold _ e ih => exact ih
  | report _ r ih =>
    intro live p k x j hx hj
    rw [State.report_port] at hx
    simpa using ih live p k x j hx hj
  | swap _ p _ _ ih ih' =>
    intro live q k x j hx hj
    rw [State.report_port] at hx
    simpa using ih' (ownersLive_onMap (ih live) p _ fun k x i hx hi => .inl ⟨x, hx, hi⟩) q k x j hx hj

end EngineRun

end Sys2Proof.Machine

/-! PROOFS. What every event keeps: one relation between the state before an event and the state after
it, which each update of an event extends. -/

namespace Sys2Proof.Machine

open Sys2Proof

/-- What a port keeps through an event of command `c` on port `p`: what only its own command changes, and
of its map the Blocked cells, the lack of Held cells while UNSYNCED, and the owners. -/
structure PortOwn (c : Instr) (p : PortNo) (q r : PortState) : Prop where
  synced : (q.synced = true → r.synced = true) ∧ (c ≠ .sync → r.synced = q.synced)
  blocked : c ≠ .unblock → ∀ k, cellAt q.map k = some .blocked → cellAt r.map k = some .blocked
  frozen : c ≠ .thaw → q.frozen = true → r.frozen = true
  gain : c ≠ .gain p → r.gain = q.gain
  params : c ≠ .setparam → r.params = q.params
  active : r.active = q.active
  profile : r.profile = q.profile
  pending : c ≠ .swap → r.swapPending = q.swapPending
  reports : q.reports.length ≤ 8 → r.reports.length ≤ 8
  ranges : q.inRange → r.inRange
  held : r.synced = false → (∀ k i, cellAt q.map k ≠ some (.held i)) →
    ∀ k i, cellAt r.map k ≠ some (.held i)
  owners : ∀ k x i, cellAt r.map k = some x → x.owner = some i →
    ∃ y, cellAt q.map k = some y ∧ y.owner = some i

theorem PortOwn.refl (c : Instr) (p : PortNo) (q : PortState) : PortOwn c p q q where
  synced := ⟨id, fun _ => rfl⟩
  blocked _ _ := id
  frozen _ := id
  gain _ := rfl
  params _ := rfl
  active := rfl
  profile := rfl
  pending _ := rfl
  reports := id
  ranges := id
  held _ := id
  owners _ x _ hx hi := ⟨x, hx, hi⟩

/-- What only its own command changes, through an event of command `c` that is no reset. -/
structure Own (c : Instr) (s t : State) : Prop where
  straps : t.straps = s.straps
  elapsed : c ≠ .timeBaseTick → t.elapsed = s.elapsed
  part : c ≠ .setparam → t.part = s.part
  synced : ∀ p, ((s.port p).synced = true → (t.port p).synced = true) ∧
    (c ≠ .sync → (t.port p).synced = (s.port p).synced)
  blocked : c ≠ .unblock → ∀ p k, cellAt (s.port p).map k = some .blocked →
    cellAt (t.port p).map k = some .blocked
  frozen : c ≠ .thaw → ∀ p, (s.port p).frozen = true → (t.port p).frozen = true
  gain : ∀ p, c ≠ .gain p → (t.port p).gain = (s.port p).gain
  params : c ≠ .setparam → ∀ p, (t.port p).params = (s.port p).params
  profile : c ≠ .swap → c ≠ .readrpt → ∀ p, (t.port p).active = (s.port p).active →
    (t.port p).profile = (s.port p).profile
  swaps : c ≠ .swap → c ≠ .readrpt → SwapsKept s t
  contexts : ∀ i x', t.ctx i = some x' → (∃ x, s.ctx i = some x ∧ SameIdentity x x') ∨ s.ctx i = none

/-- What an event of command `c` keeps. -/
structure Event (c : Instr) (s t : State) : Prop where
  pending : t.pending = s.pending
  ranges : s.inRange → t.inRange
  queues : s.queuesBounded → t.queuesBounded
  down : s.downWhileInvalid → t.downWhileInvalid
  law : s.Law → t.Law
  own : (∀ straps, c ≠ .reset straps ∧ c ≠ .resetPinRelease straps) → Own c s t

theorem Own.refl (c : Instr) (s : State) : Own c s s where
  straps := rfl
  elapsed _ := rfl
  part _ := rfl
  synced _ := ⟨id, fun _ => rfl⟩
  blocked _ _ _ := id
  frozen _ _ := id
  gain _ _ := rfl
  params _ _ := rfl
  profile _ _ _ _ := rfl
  swaps _ _ := .refl s
  contexts _ x' h := .inl ⟨x', h, .refl x'⟩

/-- What is kept by one part of an event and by the next. -/
theorem Own.then {c : Instr} {s t u : State} (h : Own c s t) (h' : Own c t u)
    (contexts : ∀ i x', u.ctx i = some x' →
      (∃ x, s.ctx i = some x ∧ SameIdentity x x') ∨ s.ctx i = none) : Own c s u where
  straps := h'.straps.trans h.straps
  elapsed n := (h'.elapsed n).trans (h.elapsed n)
  part n := (h'.part n).trans (h.part n)
  synced p := ⟨fun x => (h'.synced p).1 ((h.synced p).1 x),
    fun n => ((h'.synced p).2 n).trans ((h.synced p).2 n)⟩
  blocked n p k x := h'.blocked n p k (h.blocked n p k x)
  frozen n p x := h'.frozen n p (h.frozen n p x)
  gain p n := (h'.gain p n).trans (h.gain p n)
  params n p := (h'.params n p).trans (h.params n p)
  profile n n' p same := by
    have mid : (t.port p).active = (s.port p).active := by
      by_contra ne
      have off := ((h.swaps n n').flipped p ne).2
      by_cases ne' : (u.port p).active = (t.port p).active
      · exact ne (ne'.symm.trans same)
      · have on := ((h'.swaps n n').flipped p ne').1
        rw [off] at on
        cases on
    exact (h'.profile n n' p (same.trans mid.symm)).trans (h.profile n n' p mid)
  swaps n n' := (h.swaps n n').trans (h'.swaps n n')
  contexts := contexts

/-- What a context is stays through its life (R22). -/
theorem SameIdentity.fields {c c' : Context} (h : SameIdentity c c') :
    c'.path = c.path ∧ c'.role = c.role ∧ c'.cls = c.cls ∧ c'.inPort = c.inPort ∧
      c'.outPort = c.outPort ∧ c'.width = c.width := by
  have e : c'.identity = c.identity := h
  exact ⟨congrArg (·.path) e, congrArg (·.role) e, congrArg (·.cls) e, congrArg (·.inPort) e,
    congrArg (·.outPort) e, congrArg (·.width) e⟩

namespace Event

variable {c : Instr} {s t u : State}

theorem refl (c : Instr) (s : State) : Event c s s := ⟨rfl, id, id, id, id, fun _ => .refl c s⟩

/-- An update that keeps every context, and of every port and degree what an event keeps. -/
theorem step (h : Event c s t) (pending : u.pending = t.pending) (straps : u.straps = t.straps)
    (elapsed : c ≠ .timeBaseTick → u.elapsed = t.elapsed)
    (part : (c ≠ .setparam → u.part = t.part) ∧ (t.part.inRange → u.part.inRange))
    (ring : (t.ring.length ≤ 64 → u.ring.length ≤ 64) ∧
      (c ≠ .readrpt → ∃ written : List RingRecord, u.ring = (written.foldl State.report t).ring ∧
        u.lost = (written.foldl State.report t).lost))
    (commands : t.commands.length ≤ 4 → u.commands.length ≤ 4)
    (contexts : ∀ i, u.ctx i = t.ctx i) (ports : ∀ p, PortOwn c p (t.port p) (u.port p))
    (degrees : ∀ d, ((t.degree d).peerQueue.length ≤ 16 → (u.degree d).peerQueue.length ≤ 16) ∧
      (t.inRange → (u.degree d).inRange) ∧
      ((u.degree d).adj = (t.degree d).adj ∨ (u.degree d).adj = .down ∨
        (t.degree d).adj ≠ .down ∨ t.identityValid = true)) : Event c s u where
  pending := pending.trans h.pending
  ranges x := by
    obtain ⟨r1, r2, r3, r4⟩ := h.ranges x
    exact ⟨part.2 r1, fun i c' hc => r2 i c' (contexts i ▸ hc), fun p => (ports p).ranges (r3 p),
      fun d => (degrees d).2.1 (h.ranges x)⟩
  queues x := by
    obtain ⟨q1, q2, q3, q4⟩ := h.queues x
    exact ⟨ring.1 q1, commands q2, fun p => (ports p).reports (q3 p), fun d => (degrees d).1 (q4 d)⟩
  down x := by
    have before := h.down x
    intro invalid d
    have invalid' : t.identityValid = false := by
      unfold State.identityValid State.nodeId at invalid ⊢
      rwa [straps] at invalid
    rcases (degrees d).2.2 with same | down | up | valid
    · exact same.trans (before invalid' d)
    · exact down
    · exact absurd (before invalid' d) up
    · rw [invalid'] at valid; cases valid
  law x := by
    obtain ⟨held, live, unique⟩ := h.law x
    refine ⟨fun p off => ?_, fun p k x i hx hi => ?_, fun i j c1 c2 h1 h2 => ?_⟩
    · refine (ports p).held off fun k i => ?_
      by_cases was : (t.port p).synced = true
      · have := (ports p).synced.1 was
        rw [off] at this; cases this
      · exact held p (by simpa using was) k i
    · obtain ⟨y, hy, hyi⟩ := (ports p).owners k x i hx hi
      rw [contexts]
      exact live p k y i hy hyi
    · rw [contexts] at h1 h2
      exact unique i j c1 c2 h1 h2
  own n := by
    have active (p : PortNo) : (u.port p).active = (t.port p).active := (ports p).active
    refine (h.own n).then ?_ fun i x' hx => (h.own n).contexts i x' (contexts i ▸ hx)
    refine ⟨straps, elapsed, part.1, fun p => (ports p).synced, fun n p => (ports p).blocked n,
      fun n p => (ports p).frozen n, fun p => (ports p).gain, fun n p => (ports p).params n,
      fun _ _ p _ => (ports p).profile, fun n n' => ?_, fun i x' hx => .inl ⟨x', contexts i ▸ hx, .refl _⟩⟩
    obtain ⟨xs, grown⟩ := ring.2 n'
    refine ⟨fun p x => by rwa [(ports p).pending n] at x, fun p x y => ?_, fun p x => absurd (active p) x,
      xs, grown.1, grown.2, fun p x => absurd (active p) x⟩
    rw [(ports p).pending n, x] at y
    cases y

/-- A run of the engines. -/
theorem engine (h : Event c s t) (k : Keeps t u) (r : EngineRun t u) : Event c s u where
  pending := k.pending.trans h.pending
  ranges x := k.ranges (h.ranges x)
  queues x := by
    obtain ⟨q1, q2, q3, q4⟩ := h.queues x
    exact ⟨k.ring q1, k.commands ▸ q2, fun p => (k.ports p).reports ▸ q3 p,
      fun d => (k.degrees d).peerQueue ▸ q4 d⟩
  down x := by
    intro invalid d
    refine (r.adj d).trans (h.down x ?_ d)
    unfold State.identityValid State.nodeId at invalid ⊢
    rwa [k.straps] at invalid
  law x := by
    obtain ⟨held, live, unique⟩ := h.law x
    refine ⟨fun p off => ?_, r.ownersLive live, fun i j c1 c2 h1 h2 same => ?_⟩
    · rw [(k.ports p).synced] at off
      exact (k.ports p).map.2 off (held p off)
    · obtain ⟨b1, hb1, e1⟩ := k.contexts i c1 h1
      obtain ⟨b2, hb2, e2⟩ := k.contexts j c2 h2
      have p1 := e1.fields.1
      have p2 := e2.fields.1
      exact unique i j b1 b2 hb1 hb2 (p1.symm.trans (same.trans p2))
  own n := by
    have swaps := r.swapsKept
    have profile (p : PortNo) (same : (u.port p).active = (t.port p).active) :
        (u.port p).profile = (t.port p).profile := by
      rw [PortState.profile, PortState.profile, same, (k.ports p).bankA, (k.ports p).bankB]
    have mine : Own c t u :=
      ⟨k.straps, fun _ => k.elapsed, fun _ => k.part,
        fun p => ⟨fun x => (k.ports p).synced.trans x, fun _ => (k.ports p).synced⟩,
        fun _ p => (k.ports p).map.1, fun _ p => (k.ports p).frozen, fun p _ => (k.ports p).gain,
        fun _ p => (k.ports p).params, fun _ _ => profile, fun _ _ => swaps, fun i x' hx => .inl (k.contexts i x' hx)⟩
    refine (h.own n).then mine fun i x' hx => ?_
    obtain ⟨x, hx, e⟩ := k.contexts i x' hx
    exact ((h.own n).contexts i x hx).imp_left fun ⟨x0, h0, e0⟩ => ⟨x0, h0, e0.trans e⟩

/-- An event after a part of it that leaves the contexts. -/
theorem trans (h : Event c s t) (same : ∀ i, t.ctx i = s.ctx i) (h' : Event c t u) : Event c s u where
  pending := h'.pending.trans h.pending
  ranges x := h'.ranges (h.ranges x)
  queues x := h'.queues (h.queues x)
  down x := h'.down (h.down x)
  law x := h'.law (h.law x)
  own n := (h.own n).then (h'.own n) fun i x' hx => same i ▸ (h'.own n).contexts i x' hx

/-- A change of what an event may change beside the table, the ports and the degrees. -/
theorem beside (h : Event c s t) (commands responses mgmtRx freeNext timeBase)
    (bound : t.commands.length ≤ 4 → commands.length ≤ 4) :
    Event c s { t with commands := commands, responses := responses, mgmtRx := mgmtRx,
                       freeNext := freeNext, timeBase := timeBase } :=
  h.step rfl rfl (fun _ => rfl) ⟨fun _ => rfl, id⟩ ⟨id, fun _ => ⟨[], rfl, rfl⟩⟩ bound (fun _ => rfl)
    (fun p => .refl c p _) fun e => ⟨id, fun r => r.2.2.2 e, .inl rfl⟩

/-- A change of one port that keeps what an event keeps of it. -/
theorem onPort (h : Event c s t) (p : PortNo) (f : PortState → PortState)
    (hf : PortOwn c p (t.port p) (f (t.port p))) : Event c s (t.onPort p f) := by
  refine h.step rfl rfl (fun _ => rfl) ⟨fun _ => rfl, id⟩ ⟨id, fun _ => ⟨[], rfl, rfl⟩⟩ id
    (fun _ => rfl) (fun q => ?_) fun e => ⟨id, fun r => r.2.2.2 e, .inl rfl⟩
  by_cases hq : q = p
  · subst hq; rwa [State.port_onPort_same]
  · rw [State.port_onPort_other _ _ hq]; exact .refl c q _

/-- A change of one degree. -/
theorem onDegree (h : Event c s t) (d : DegreeNo) (f : DegreeState → DegreeState)
    (queue : (t.degree d).peerQueue.length ≤ 16 → (f (t.degree d)).peerQueue.length ≤ 16)
    (ranges : t.inRange → (t.degree d).inRange → (f (t.degree d)).inRange)
    (adj : (f (t.degree d)).adj = (t.degree d).adj ∨ (f (t.degree d)).adj = .down ∨
      (t.degree d).adj ≠ .down ∨ t.identityValid = true) : Event c s (t.onDegree d f) := by
  refine h.step rfl rfl (fun _ => rfl) ⟨fun _ => rfl, id⟩ ⟨id, fun _ => ⟨[], rfl, rfl⟩⟩ id
    (fun _ => rfl) (fun q => .refl c q _) fun e => ?_
  by_cases he : e = d
  · subst he; rw [State.degree_onDegree_same]; exact ⟨queue, fun r => ranges r (r.2.2.2 e), adj⟩
  · rw [State.degree_onDegree_other _ _ he]; exact ⟨id, fun r => r.2.2.2 e, .inl rfl⟩

/-- A record created for a path that no context holds. -/
theorem create (h : Event c s t) (i : CtxIdx) (x : Context) (same : ∀ j, t.ctx j = s.ctx j)
    (free : t.ctx i = none) (new : t.lookup x.path = none) (range : t.inRange → x.inRange) :
    Event c s (t.putCtx i x) := by
  have others (j : CtxIdx) (hj : j ≠ i) : (t.putCtx i x).ctx j = t.ctx j := State.ctx_putCtx_other _ _ hj
  rw [State.lookup_none] at new
  refine ⟨h.pending, fun r => ?_, h.queues, h.down, fun l => ?_, fun n => ?_⟩
  · obtain ⟨r1, r2, r3⟩ := h.ranges r
    refine ⟨r1, fun j y hy => ?_, r3⟩
    by_cases e : j = i
    · subst e
      rw [State.ctx_putCtx_same] at hy
      exact Option.some.inj hy ▸ range (h.ranges r)
    · exact r2 j y (others j e ▸ hy)
  · obtain ⟨held, live, unique⟩ := h.law l
    refine ⟨held, fun p k y j hy hj => ?_, fun j j' a b ha hb same => ?_⟩
    · obtain ⟨a, ha, hp⟩ := live p k y j hy hj
      refine ⟨a, ?_, hp⟩
      rw [others j]
      · exact ha
      · rintro rfl
        cases free.symm.trans ha
    · by_cases e : j = i <;> by_cases e' : j' = i
      · rw [e, e']
      · subst e
        rw [State.ctx_putCtx_same] at ha
        rw [others _ e'] at hb
        cases ha
        exact absurd same.symm (new _ _ hb)
      · subst e'
        rw [State.ctx_putCtx_same] at hb
        rw [others _ e] at ha
        cases hb
        exact absurd same (new _ _ ha)
      · exact unique j j' a b (others _ e ▸ ha) (others _ e' ▸ hb) same
  · have o := h.own n
    refine { o with
      swaps := fun n n' => (o.swaps n n').trans (.of_same rfl rfl fun _ => ⟨rfl, rfl⟩), contexts := fun j y hy => ?_ }
    by_cases e : j = i
    · exact .inr (by rw [← same, e]; exact free)
    · exact o.contexts j y (others j e ▸ hy)

theorem ite {q : Prop} [Decidable q] {a b : State} (ha : Event c s a) (hb : Event c s b) :
    Event c s (if q then a else b) := by
  split <;> assumption

/-- A response sent (R172). -/
theorem respond (h : Event c s t) (cmd : List Byte) (r : Reply) : Event c s (t.respond cmd r) := by
  unfold State.respond
  dsimp only
  split
  · exact h.beside t.commands _ t.mgmtRx _ t.timeBase id
  · exact h.beside t.commands _ t.mgmtRx t.freeNext t.timeBase id

/-- A command taken from its queue, carried out and answered (R172). -/
theorem runCommand (s : State) (k : Nat) (work : List Byte → State → State × Reply)
    (does : ∀ fields u, Event c u (work fields u).1) : Event c s (s.runCommand k work) := by
  unfold State.runCommand
  split
  · rename_i cmd rest queue
    have taken : Event c s { s with commands := rest } :=
      (refl c s).beside rest s.responses s.mgmtRx s.freeNext s.timeBase fun bound => by
        rw [queue, List.length_cons] at bound; omega
    refine ite (ite (taken.respond cmd _) ?_) (refl c s)
    exact taken.trans (fun _ => rfl) ((does _ _).respond cmd _)
  · exact refl c s

/-- A degree's frame taken from its queue (R40). -/
theorem popPeer (h : Event c s t) (d : DegreeNo) : Event c s (t.popPeer d) :=
  h.onDegree d _ (fun bound => by rw [List.length_drop]; omega) (fun _ r => r) (.inl rfl)

/-- A port's report taken from its queue (R83). -/
theorem popReport (h : Event c s t) (p : PortNo) : Event c s (t.popReport p) :=
  h.onPort p _ { PortOwn.refl c p (t.port p) with
    reports := fun bound => by rw [List.length_drop]; omega }

theorem takeReport (s : State) (p : PortNo) (row : Report → Option (State → State))
    (does : ∀ r work, row r = some work → ∀ u, Event c u (work u)) : Event c s (s.takeReport p row) := by
  unfold State.takeReport
  split
  · split
    · exact ((refl c s).popReport p).trans (fun _ => rfl) (does _ _ ‹_› _)
    · exact refl c s
  · exact refl c s

end Event

end Sys2Proof.Machine

/-! PROOFS. The adjacency monitor and the creation of contexts keep what every event keeps. -/

namespace Sys2Proof.Machine

open Sys2Proof

namespace Event

variable {c : Instr} {s t : State}

/-! ### The adjacency monitor -/

theorem sendTo (h : Event c s t) (d : DegreeNo) (dest : NodeId) (m : PeerMsg) :
    Event c s (t.sendTo d dest m) :=
  h.engine (Keeps.sendTo (.refl t) d dest m) (EngineRun.sendTo (.refl t) d dest m)

theorem sendPath (h : Event c s t) (d : DegreeNo) (m : PeerMsg) : Event c s (t.sendPath d m) :=
  h.engine (Keeps.sendPath (.refl t) d m) (EngineRun.sendPath (.refl t) d m)

theorem sendHello (h : Event c s t) (d : DegreeNo) : Event c s (t.sendHello d) := by
  unfold State.sendHello
  dsimp only
  split
  · exact h.sendTo _ _ _
  · exact h.sendTo _ _ _
  · exact h

theorem report (h : Event c s t) (r : RingRecord) : Event c s (t.report r) :=
  h.engine (Keeps.report (.refl t) r) (EngineRun.report (.refl t) r)

theorem adjacencyRecord (h : Event c s t) (d : DegreeNo) : Event c s (t.adjacencyRecord d) := h.report _

theorem armHello (h : Event c s t) (d : DegreeNo) : Event c s (t.armHello d) :=
  h.onDegree d _ id (fun _ r => r) (.inl rfl)

/-- A degree enters PROBING under a valid identity, or from a state that is not DOWN (R46). -/
theorem enterProbing (h : Event c s t) (d : DegreeNo)
    (may : (t.degree d).adj ≠ .down ∨ t.identityValid = true) : Event c s (t.enterProbing d) := by
  refine adjacencyRecord (armHello (sendHello (h.onDegree d _ ?_ ?_ ?_) d) d) d
  · exact id
  · exact fun _ r => r
  · exact .inr (.inr may)

theorem enterRecovery (h : Event c s t) (d : DegreeNo) (up : (t.degree d).adj ≠ .down) :
    Event c s (t.enterRecovery d) := by
  refine engine (adjacencyRecord (h.onDegree d _ ?_ ?_ ?_) d) (Keeps.adjacencyLost (.refl _) d)
    (EngineRun.adjacencyLost (.refl _) d)
  · exact id
  · exact fun _ r => ⟨r.1, .nil, r.2.2⟩
  · exact .inr (.inr (.inl up))

theorem enterDown (h : Event c s t) (d : DegreeNo) : Event c s (t.enterDown d) := by
  refine ite h (adjacencyRecord (h.onDegree d _ ?_ ?_ ?_) d)
  · exact id
  · exact fun _ r => ⟨r.1, .nil, r.2.2⟩
  · exact .inr (.inl rfl)

theorem sendQuery (h : Event c s t) (d : DegreeNo) {k : Nat} (hk : t.part.identAttempts ≤ 8 → k ≤ 8) :
    Event c s (t.sendQuery d k) := by
  have part : (t.sendPath d .identQuery).part = t.part := (Keeps.sendPath (.refl t) d .identQuery).part
  refine onDegree (h.sendPath d .identQuery) d _ ?_ ?_ (.inl rfl)
  · exact id
  · intro range r
    obtain ⟨-, -, -, -, ⟨-, attempts⟩, -⟩ := range.1
    exact ⟨r.1, r.2.1, r.2.2.1, hk (part ▸ attempts)⟩

theorem startQuery (h : Event c s t) (d : DegreeNo) : Event c s (t.startQuery d) := by
  refine sendQuery (h.onDegree d _ ?_ ?_ (.inl rfl)) d fun _ => by omega
  · exact id
  · exact fun _ r => r

theorem endQuery (h : Event c s t) (d : DegreeNo) (v : Verif) : Event c s (t.endQuery d v) := by
  refine adjacencyRecord (h.onDegree d _ ?_ ?_ (.inl rfl)) d
  · exact id
  · exact fun _ r => r

theorem spendQuery (h : Event c s t) (d : DegreeNo) : Event c s (t.spendQuery d) := by
  unfold State.spendQuery
  dsimp only
  split
  · exact h.sendQuery d fun _ => by omega
  · exact h.endQuery d _

theorem takeAck (h : Event c s t) (d : DegreeNo) (os : List IdentObject) :
    Event c s (t.takeAck d os) := by
  unfold State.takeAck
  split
  · refine endQuery (h.onDegree d _ ?_ ?_ (.inl rfl)) d _
    · exact id
    · exact fun _ r => ⟨r.1, r.2.1, List.length_take_le _ _, r.2.2.2⟩
  · exact h.endQuery d _

theorem answerQuery (h : Event c s t) (d : DegreeNo) (src : NodeId) :
    Event c s (t.answerQuery d src) :=
  ite (h.sendTo _ _ _) (h.sendTo _ _ _)

theorem refreshNeighbour (h : Event c s t) (d : DegreeNo) (full : Bool) (us : List Nat) :
    Event c s (t.refreshNeighbour d full us) := by
  refine h.onDegree d _ ?_ ?_ (.inl rfl)
  · exact id
  · exact fun _ r => ⟨r.1, Keeps.portSet_ascending us, r.2.2⟩

theorem takeHello (h : Event c s t) (d : DegreeNo) (src : NodeId) (sd : DegreeNo) (sender : AdjState)
    (full : Bool) (us : List Nat) : Event c s (t.takeHello d src sd sender full us) := by
  unfold State.takeHello
  split
  · rename_i valid
    have node : isNode src := by
      simp only [State.helloValid, nodeInRange, Bool.and_eq_true, decide_eq_true_eq] at valid
      exact valid.1.1.1
    split
    · rename_i probing
      refine adjacencyRecord (startQuery (refreshNeighbour (h.onDegree d _ ?_ ?_ ?_) d full us) d) d
      · exact id
      · exact fun _ r => ⟨by intro n hn; cases hn; exact node, r.2.1, Nat.zero_le _, r.2.2.2⟩
      · exact .inr (.inr (.inl (by simp [probing])))
    · rename_i up
      have notDown : (t.degree d).adj ≠ .down := by simp [up]
      refine ite (h.enterRecovery d notDown) (ite (h.enterRecovery d notDown)
        (onDegree (h.refreshNeighbour d full us) d _ ?_ ?_ (.inl rfl)))
      · exact id
      · exact fun _ r => r
    · exact h
    · exact h
  · exact h

end Event

/-! ### The fields of a new context (R22, R23) -/

theorem readAll_length {α β : Type} {f : α → Option β} {xs : List α} {ys : List β}
    (read : readAll f xs = some ys) : ys.length = xs.length := by
  induction xs generalizing ys with
  | nil => cases read; rfl
  | cons x xs ih =>
    unfold readAll at read
    split at read
    · rename_i y zs _ tail
      cases read
      simp [ih tail]
    · cases read

theorem forall_mem_of_readAll {α β : Type} {f : α → Option β} {P : β → Prop}
    (each : ∀ x y, f x = some y → P y) {xs : List α} {ys : List β} (read : readAll f xs = some ys) :
    ∀ y ∈ ys, P y := by
  induction xs generalizing ys with
  | nil => cases read; exact nofun
  | cons x xs ih =>
    unfold readAll at read
    split at read
    · rename_i y zs head tail
      cases read
      exact List.forall_mem_cons.2 ⟨each x y head, ih tail⟩
    · cases read

theorem readPath_isNode {a b c d : Byte} {path : PathId} (read : readPath a b c d = some path) :
    isNode path.head := by
  unfold readPath at read
  split at read
  · rename_i inside
    cases read
    simp only [nodeInRange, Bool.and_eq_true, decide_eq_true_eq] at inside
    simp only [isNode, BitVec.toNat_ofNat]
    omega
  · cases read

/-- What the format of an OFFER gives of its fields (R64). -/
def OfferFields.wellRead (f : OfferFields) : Prop :=
  (1 ≤ f.width ∧ f.width ≤ 16) ∧ (2 ≤ f.hop ∧ f.hop ≤ 16) ∧ f.route.length ≤ 15 ∧
    f.candidates.length ≤ 8 ∧ (f.candidates.map Candidate.s).Nodup ∧
    ∀ x ∈ f.candidates, x.s + f.width ≤ 400 ∧ x.cost ≤ 32

theorem readTriples_length {n : Nat} {bytes rest : List Byte} {xs : List (Nat × Nat)}
    (read : readTriples n bytes = some (xs, rest)) : xs.length = n := by
  induction n generalizing bytes xs with
  | zero => cases read; rfl
  | succ n ih =>
    match bytes, read with
    | a :: b :: c :: more, read =>
      rw [readTriples, Option.map_eq_some_iff] at read
      obtain ⟨⟨ys, left⟩, tail, made⟩ := read
      cases made
      simp [ih tail]

/-- What the format of a message gives of its fields, where a range speaks of them (section 11.3). -/
def PeerMsg.wellRead : PeerMsg → Prop
  | .offer path f => isNode path.head ∧ f.wellRead
  | .accept _ _ cost => cost ≤ 255
  | .identReply _ objects => objects.length ≤ 6
  | _ => True

theorem readOffer_wellRead {path : PathId} {bytes : List Byte} {m : PeerMsg} (node : isNode path.head)
    (read : readOffer path bytes = some m) : m.wellRead := by
  unfold readOffer at read
  split at read
  · split at read
    · rename_i triples
      split at read
      · rename_i candTriples
        split at read
        · rename_i routeRead candsRead
          split at read
          · rename_i ok
            cases read
            obtain ⟨n1, n2, h1, h2, -, e2, -, c2, distinct⟩ := ok
            refine ⟨node, ⟨n1, n2⟩, ⟨h1, h2⟩, ?_, ?_, distinct, ?_⟩
            · rw [readAll_length routeRead, readTriples_length triples]; exact e2
            · rw [readAll_length candsRead, readTriples_length candTriples]; exact c2
            · refine forall_mem_of_readAll (fun x y one => ?_) candsRead
              unfold readCandidate at one
              split at one
              · cases one; assumption
              · cases one
          · cases read
        · cases read
      · cases read
    · cases read
  · cases read

theorem readPathMessage_wellRead {k : Nat} (known : k ≤ 7) {bytes : List Byte} {m : PeerMsg}
    (read : readPathMessage k bytes = some m) : m.wellRead := by
  rcases bytes with _ | ⟨a, _ | ⟨b, _ | ⟨c, _ | ⟨d, fields⟩⟩⟩⟩
  all_goals try cases read
  cases head : readPath a b c d with
  | none =>
    unfold readPathMessage at read
    dsimp only at read
    rw [head] at read
    cases read
  | some path =>
    have node := readPath_isNode head
    interval_cases k <;> unfold readPathMessage at read <;> dsimp only at read <;> rw [head] at read <;>
      dsimp only at read
    -- an OFFER reads by a function of its own
    pick_goal 2
    · exact readOffer_wellRead node read
    all_goals rcases fields with _ | ⟨x, _ | ⟨y, _ | ⟨z, _ | _⟩⟩⟩
    all_goals try cases read
    -- what is left is an ACCEPT, the two messages with a reason and an origin, and those without fields
    all_goals try trivial
    · exact Nat.le_of_lt_succ z.isLt
    · change (match readReason x, readNode y z with
        | some reason, some origin => some (PeerMsg.decline path reason origin)
        | _, _ => none) = some m at read
      split at read <;> cases read
      trivial
    · change (match readReason x, readNode y z with
        | some reason, some origin => some (PeerMsg.abort path reason origin)
        | _, _ => none) = some m at read
      split at read <;> cases read
      trivial

theorem readHello_wellRead {bytes : List Byte} {m : PeerMsg} (read : readHello bytes = some m) :
    m.wellRead := by
  unfold readHello at read
  split at read
  · split at read
    · split at read
      · cases read; trivial
      · split at read <;> cases read
        trivial
    · cases read
  · cases read

theorem readObjects_length {n : Nat} {bytes : List Byte} {xs : List IdentObject}
    (read : readObjects n bytes = some xs) : xs.length = n := by
  induction n generalizing bytes xs with
  | zero =>
    cases bytes with
    | nil => cases read; rfl
    | cons _ _ => cases read
  | succ n ih =>
    match bytes, read with
    | num :: len :: rest, read =>
      rw [readObjects] at read
      split at read
      · cases read
      · rw [Option.map_eq_some_iff] at read
        obtain ⟨ys, tail, made⟩ := read
        cases made
        simp [ih tail]

theorem readIdentReply_wellRead {bytes : List Byte} {m : PeerMsg}
    (read : readIdentReply bytes = some m) : m.wellRead := by
  unfold readIdentReply at read
  split at read
  · split at read
    · rename_i objects
      split at read
      · cases read; exact Nat.zero_le 6
      · split at read
        · rename_i ok
          cases read
          obtain ⟨-, six, -⟩ := ok
          exact (readObjects_length objects).le.trans six
        · cases read
    · cases read
  · cases read

theorem readMessage_wellRead {k : Nat} {bytes : List Byte} {m : PeerMsg}
    (read : readMessage k bytes = some m) : m.wellRead := by
  unfold readMessage at read
  split at read
  · exact readPathMessage_wellRead ‹_› read
  · split at read
    · exact readHello_wellRead read
    · split at read
      · split at read <;> cases read
        trivial
      · split at read
        · exact readIdentReply_wellRead read
        · cases read

/-- A frame that passes check 1 of R41 has the fields of its message's format. -/
theorem readPeerFrame_wellRead {body : List Byte} {fr : PeerFrame}
    (read : readPeerFrame body = some fr) : fr.msg.wellRead := by
  unfold readPeerFrame at read
  split at read
  · split at read
    · rename_i message
      cases read
      exact readMessage_wellRead message
    · cases read
  · cases read

end Sys2Proof.Machine

/-! PROOFS. The contexts that COMMISSION, OFFER and ADOPT create are in range, and their creation keeps
what every event keeps. -/

namespace Sys2Proof.Machine

open Sys2Proof

/-! ### Candidates (R8 to R10, R62, R68, R70) -/

theorem probeScore_le (x : Option Cell) : probeScore x ≤ 1 := by
  unfold probeScore
  split <;> omega

theorem sideCost_le (m : PortMap) (guard first n : Nat) : sideCost m guard first n ≤ 2 :=
  Nat.add_le_add (probeScore_le _) (probeScore_le _)

/-- An eligible placement lies in the band (R8). -/
theorem le_of_eligible {m : PortMap} {guard first n : Nat} (wide : 1 ≤ n)
    (fits : eligible m guard first n = true) : first + n ≤ 400 := by
  have last := cellAt_of_eligible fits (k := first + n - 1) (by omega) (by omega)
  by_contra beyond
  rw [cellAt, dif_neg (by simp only [Config.nCells]; omega)] at last
  cases last

/-- A placement of the window query, with its side cost (R10). -/
theorem mem_windowQuery_iff {m : PortMap} {guard n lo hi : Nat} {x : Candidate} :
    x ∈ windowQuery m guard n lo hi ↔ lo ≤ x.s ∧ x.s + n ≤ hi + 1 ∧ eligible m guard x.s n = true ∧
      x.cost = sideCost m guard x.s n := by
  simp only [windowQuery, List.mem_filterMap, List.mem_map, List.mem_range,
    Option.ite_none_right_eq_some, Option.some.injEq]
  constructor
  · rintro ⟨first, ⟨k, hk, rfl⟩, fits, rfl⟩
    exact ⟨by dsimp only; omega, by dsimp only; omega, fits, rfl⟩
  · rintro ⟨low, high, fits, cost⟩
    exact ⟨x.s, ⟨x.s - lo, by omega, by omega⟩, fits, by rw [← cost]⟩

/-- The window query answers its placements in ascending order (R10). -/
theorem windowQuery_ascending (m : PortMap) (guard n lo hi : Nat) :
    ((windowQuery m guard n lo hi).map Candidate.s).Pairwise (· < ·) := by
  have order : ((List.range (hi + 2 - (lo + n))).map (lo + ·)).Pairwise (· < ·) :=
    List.pairwise_map.2 (List.pairwise_lt_range.imp fun h => by omega)
  rw [List.pairwise_map, windowQuery]
  refine List.Pairwise.filterMap _ (fun a b less x hx y hy => ?_) order
  obtain ⟨-, made⟩ := Option.ite_none_right_eq_some.1 hx
  obtain ⟨-, made'⟩ := Option.ite_none_right_eq_some.1 hy
  cases made
  cases made'
  exact less

/-- The head's candidates are of different first cells (R62). -/
theorem chooseCandidates_distinct (tie : Tie) {found : List Candidate}
    (distinct : (found.map Candidate.s).Nodup) :
    ((chooseCandidates tie found).map Candidate.s).Nodup := by
  have leaning : ∀ l : List Candidate, (l.map Candidate.s).Nodup →
      ((([0, 1, 2].flatMap fun k => l.filter fun c => decide (c.cost = k)).take 8).map
        Candidate.s).Nodup := by
    intro l distinct
    refine (List.Nodup.sublist ((List.take_sublist 8 _).map Candidate.s) ?_)
    have apart (j k : Nat) (ne : j ≠ k) : List.Disjoint
        ((l.filter fun c => decide (c.cost = j)).map Candidate.s)
        ((l.filter fun c => decide (c.cost = k)).map Candidate.s) := by
      intro s hj hk
      obtain ⟨a, ha, rfl⟩ := List.mem_map.1 hj
      obtain ⟨b, hb, same⟩ := List.mem_map.1 hk
      rw [List.mem_filter, decide_eq_true_eq] at ha hb
      have := List.inj_on_of_nodup_map distinct hb.1 ha.1 same
      exact ne (ha.2.symm.trans (this ▸ hb.2))
    have each (k : Nat) : ((l.filter fun c => decide (c.cost = k)).map Candidate.s).Nodup :=
      List.Nodup.sublist (List.filter_sublist.map _) distinct
    simp only [List.flatMap_cons, List.flatMap_nil, List.append_nil, List.map_append,
      List.nodup_append']
    refine ⟨each 0, ⟨each 1, each 2, apart 1 2 (by decide)⟩, ?_⟩
    rw [List.disjoint_append_right]
    exact ⟨apart 0 1 (by decide), apart 0 2 (by decide)⟩
  cases tie with
  | low => exact leaning found distinct
  | high => exact leaning found.reverse (by rw [List.map_reverse, List.nodup_reverse]; exact distinct)

theorem chooseCandidates_length (tie : Tie) (found : List Candidate) :
    (chooseCandidates tie found).length ≤ 8 := by
  unfold chooseCandidates
  rw [List.length_take]
  omega

/-- A survivor of an offer is a candidate that is still eligible, with this node's side cost added
(R68). -/
theorem mem_trimCandidates_iff {m : PortMap} {guard n : Nat} {cands : List Candidate} {x : Candidate} :
    x ∈ trimCandidates m guard n cands ↔
      ∃ c ∈ cands, eligible m guard c.s n = true ∧ x = ⟨c.s, c.cost + sideCost m guard c.s n⟩ := by
  simp only [trimCandidates, List.mem_filterMap, Option.ite_none_right_eq_some, Option.some.injEq]
  exact exists_congr fun c => and_congr_right fun _ => and_congr_right fun _ => eq_comm

theorem trimCandidates_length (m : PortMap) (guard n : Nat) (cands : List Candidate) :
    (trimCandidates m guard n cands).length ≤ cands.length :=
  List.length_filterMap_le _ _

theorem trimCandidates_distinct (m : PortMap) (guard n : Nat) {cands : List Candidate}
    (distinct : (cands.map Candidate.s).Nodup) :
    ((trimCandidates m guard n cands).map Candidate.s).Nodup := by
  rw [List.Nodup, List.pairwise_map] at distinct ⊢
  refine List.Pairwise.filterMap _ (fun a b ne x hx y hy => ?_) distinct
  obtain ⟨-, made⟩ := Option.ite_none_right_eq_some.1 hx
  obtain ⟨-, made'⟩ := Option.ite_none_right_eq_some.1 hy
  cases made
  cases made'
  exact ne

/-- The tail's choice is one of its survivors (R70). -/
theorem mem_of_tailChoice {tie : Tie} {cands : List Candidate} {best : Candidate}
    (chosen : tailChoice tie cands = some best) : best ∈ cands := by
  induction cands generalizing best with
  | nil => cases chosen
  | cons c cs ih =>
    unfold tailChoice at chosen
    split at chosen
    · cases chosen; exact List.mem_cons_self
    · rename_i found
      split at chosen
      · cases chosen; exact List.mem_cons_self
      · cases chosen; exact List.mem_cons_of_mem _ (ih found)

/-! ### An OFFER judged -/

/-- What an OFFER that is taken has passed, and what it does (R66, R69, R70). -/
theorem State.judgeOffer_ok {s t : State} {d : DegreeNo} {path : PathId} {f : OfferFields}
    (ok : s.judgeOffer d path f = .ok t) :
    ∃ mine onward i, f.route = mine :: onward ∧ s.routeFits d f = true ∧ s.lookup path = none ∧
      s.lowestFree = some i ∧ (s.port mine.port).synced = true ∧
      let cands := trimCandidates (s.port mine.port).map (s.port mine.port).params.guard f.width
        f.candidates
      ((∃ next more out, onward = next :: more ∧ degreeOf mine.port = some out ∧ cands ≠ [] ∧
          t = s.offerOnward i d out path f onward cands) ∨
        ∃ best, (onward = [] ∨ degreeOf mine.port = none) ∧ tailChoice f.tie cands = some best ∧
          t = s.acceptAtTail i d mine.port path f best) := by
  unfold State.judgeOffer at ok
  split at ok
  · cases ok
  rename_i mine onward route
  split at ok
  · cases ok
  rename_i fits
  split at ok
  · cases ok
  split at ok
  · cases ok
  rename_i new
  split at ok
  · cases ok
  split at ok
  · cases ok
  rename_i i free
  dsimp only at ok
  split at ok
  · cases ok
  rename_i synced
  refine ⟨mine, onward, i, route, by simpa using fits, by simpa using new, free, by simpa using synced, ?_⟩
  cases onward with
  | nil =>
    dsimp only at ok
    split at ok
    · cases ok
    · rename_i best chosen
      cases ok
      exact .inr ⟨best, .inl rfl, chosen, rfl⟩
  | cons next more =>
    cases here : degreeOf mine.port with
    | none =>
      rw [here] at ok
      dsimp only at ok
      split at ok
      · cases ok
      · rename_i best chosen
        cases ok
        exact .inr ⟨best, .inr rfl, chosen, rfl⟩
    | some out =>
      rw [here] at ok
      dsimp only at ok
      split at ok
      · cases ok
      · split at ok
        · cases ok
        · rename_i some
          cases ok
          exact .inl ⟨next, more, out, rfl, rfl, some, rfl⟩

theorem newContext_powerInRange (path : PathId) (role : Role) (cls : PathClass) (inPort : InPort)
    (outPort : PortNo) (width : Nat) (state : CtxState) (now : BitVec 32) :
    (newContext path role cls inPort outPort width state now).powerInRange := by
  refine ⟨nofun, nofun, nofun, nofun, nofun, ?_⟩
  simp [newContext]

theorem degreeOf_eq_none_iff {p : PortNo} : degreeOf p = none ↔ 8 ≤ p.val := by
  unfold degreeOf
  split <;> simp <;> omega

theorem portOf_val_lt (d : DegreeNo) : (portOf d).val < 8 := d.isLt

/-- The survivors of a well-read OFFER are candidates of a context (R23, log 33). -/
theorem survivors_inRange {f : OfferFields} (good : f.wellRead) (m : PortMap) (guard : Nat) :
    let cands := trimCandidates m guard f.width f.candidates
    cands.length ≤ 8 ∧ (cands.map Candidate.s).Nodup ∧
      ∀ x ∈ cands, x.s + f.width ≤ 400 ∧ x.cost ≤ 34 := by
  obtain ⟨-, -, -, eight, distinct, each⟩ := good
  refine ⟨(trimCandidates_length _ _ _ _).trans eight, trimCandidates_distinct _ _ _ distinct, ?_⟩
  intro x mem
  obtain ⟨c, hc, -, rfl⟩ := mem_trimCandidates_iff.1 mem
  have cost := sideCost_le m guard c.s f.width
  obtain ⟨band, low⟩ := each c hc
  exact ⟨band, by dsimp only; omega⟩

/-- The context that an OFFER makes at a transit. -/
def transitContext (s : State) (d out : DegreeNo) (path : PathId) (f : OfferFields) (onward : Nat)
    (cands : List Candidate) : Context :=
  { newContext path .transit f.cls (.degree d) (portOf out) f.width .offered s.timeBase with
    tie := some f.tie, hop := some f.hop, remaining := some onward, candidates := some cands }

/-- The context that an OFFER makes at a tail. -/
def tailContext (s : State) (d : DegreeNo) (out : PortNo) (path : PathId) (f : OfferFields)
    (best : Candidate) : Context :=
  { newContext path .tail f.cls (.degree d) out f.width .awaitLight s.timeBase with
    tie := some f.tie, hop := some f.hop, remaining := some 0, chosen := some best.s,
    totalCost := some best.cost }

theorem transitContext_inRange {f : OfferFields} (good : f.wellRead) {path : PathId}
    (node : isNode path.head) (s : State) (d out : DegreeNo) {onward : Nat}
    (some : 1 ≤ onward ∧ onward ≤ 15) {cands : List Candidate} (nonempty : cands ≠ [])
    (range : cands.length ≤ 8 ∧ (cands.map Candidate.s).Nodup ∧
      ∀ x ∈ cands, x.s + f.width ≤ 400 ∧ x.cost ≤ 34) :
    (transitContext s d out path f onward cands).inRange := by
  obtain ⟨width, hop, -⟩ := good
  refine ⟨newContext_powerInRange path .transit f.cls (.degree d) (portOf out) f.width .offered s.timeBase,
    ⟨node, ?_, ?_, width, ?_, ?_⟩, ?_, nofun, nofun⟩
  · simp [transitContext, newContext]
  · have := portOf_val_lt out
    simp only [transitContext, newContext, reduceCtorEq, false_iff]
    omega
  · intro h e; cases e; exact hop
  · intro r e; cases e; exact some
  · intro l e
    cases e
    exact ⟨⟨List.length_pos_iff.2 nonempty, range.1⟩, range.2⟩

theorem tailContext_inRange {f : OfferFields} (good : f.wellRead) {path : PathId}
    (node : isNode path.head) (s : State) (d : DegreeNo) {out : PortNo} (drop : 8 ≤ out.val)
    {best : Candidate} (band : best.s + f.width ≤ 400) (cost : best.cost ≤ 34) :
    (tailContext s d out path f best).inRange := by
  obtain ⟨width, hop, -⟩ := good
  refine ⟨newContext_powerInRange path .tail f.cls (.degree d) out f.width .awaitLight s.timeBase,
    ⟨node, ?_, ?_, width, ?_, ?_⟩, nofun, ?_, ?_⟩
  · simp [tailContext, newContext]
  · simpa [tailContext, newContext] using drop
  · intro h e; cases e; exact hop
  · intro r e; cases e; rfl
  · intro h e; cases e; exact band
  · intro h e; cases e; omega

/-- A route of one entry that fits ends on a drop group (R66). -/
theorem State.drop_of_routeFits {s : State} {d : DegreeNo} {f : OfferFields} {mine : RouteEntry}
    (route : f.route = [mine]) (fits : s.routeFits d f = true) : 8 ≤ mine.port.val := by
  simp only [State.routeFits, Bool.and_eq_true, portsFitRoute_map_iff, route] at fits
  obtain ⟨-, -, e, last, drop, -⟩ := fits
  cases last
  exact drop

namespace Event

variable {c : Instr} {s t : State}

theorem armCtx (h : Event c s t) (i : CtxIdx) (ms : Nat) : Event c s (t.armCtx i ms) :=
  h.engine (Keeps.armCtx (.refl t) i ms) (EngineRun.armCtx (.refl t) i ms)

theorem mapHold (h : Event c s t) (i : CtxIdx) (firsts : List Nat) : Event c s (t.mapHold i firsts) :=
  h.engine (Keeps.mapHold (.refl t) i firsts) (EngineRun.mapHold (.refl t) i firsts)

theorem takeOffer (s : State) (d : DegreeNo) {path : PathId} {f : OfferFields}
    (node : isNode path.head) (good : f.wellRead) : Event c s (s.takeOffer d path f) := by
  unfold State.takeOffer
  split
  · rename_i u ok
    obtain ⟨mine, onward, i, route, fits, new, free, -, what⟩ := State.judgeOffer_ok ok
    have len : onward.length + 1 ≤ 15 := by
      have := good.2.2.1
      rwa [route] at this
    have range := survivors_inRange good (s.port mine.port).map (s.port mine.port).params.guard
    have vacant := State.lowestFree_some free
    rcases what with ⟨next, more, out, rfl, -, nonempty, rfl⟩ | ⟨best, tail, chosen, rfl⟩
    · refine sendPath (armCtx (mapHold (create (refl c s) i _ (fun _ => rfl) vacant new fun _ => ?_) _ _)
        _ _) _ _
      exact transitContext_inRange good node s d out ⟨by simp, by omega⟩ nonempty range
    · have drop : 8 ≤ mine.port.val := by
        rcases tail with rfl | none
        · exact State.drop_of_routeFits route fits
        · exact degreeOf_eq_none_iff.1 none
      obtain ⟨band, cost⟩ := range.2.2 best (mem_of_tailChoice chosen)
      have made : Event c s (s.putCtx i (tailContext s d mine.port path f best)) :=
        create (refl c s) i _ (fun _ => rfl) vacant new fun _ =>
          tailContext_inRange good node s d drop band cost
      exact sendPath (armCtx (made.engine (Keeps.mapReserveDirect (.refl _) _ _)
        (EngineRun.mapReserveDirect (.refl _) _ _)) _ _) _ _
  · exact (refl c s).sendPath _ _

end Event

/-! ### COMMISSION and ADOPT -/

/-- What a COMMISSION that is taken has passed, and what it does (R59, R63). -/
theorem State.commissionPath_ok {s t : State} {f : CommissionFields} {i : CtxIdx} {path : PathId}
    (ok : s.commissionPath f = (t, .ok (i, path))) :
    ∃ d onward cands, path = ⟨s.nodeId, f.serial⟩ ∧ s.identityValid = true ∧
      windowInRange f.width f.lo f.hi = true ∧ (1 ≤ onward.length ∧ onward.length ≤ 15) ∧
      s.lookup path = none ∧ s.lowestFree = some i ∧ (s.port (portOf d)).synced = true ∧
      chooseCandidates f.tie (windowQuery (s.port (portOf d)).map (s.port (portOf d)).params.guard
        f.width f.lo f.hi) = cands ∧ cands ≠ [] ∧ t = s.offerPath i f path d onward cands := by
  unfold State.commissionPath at ok
  split at ok
  · cases ok
  rename_i valid
  split at ok
  · cases ok
  rename_i window
  split at ok
  · cases ok
  rename_i route
  split at ok
  · rename_i entries read
    have len := readAll_length read
    have good := (State.routeWellFormed_iff s f.route).1 (by simpa using route)
    unfold State.commissionOn at ok
    dsimp only at ok
    split at ok
    · rename_i first next more
      split at ok
      · cases ok
      rename_i d here
      split at ok
      · cases ok
      rename_i new
      split at ok
      · cases ok
      rename_i j free
      split at ok
      · cases ok
      rename_i synced
      split at ok
      · cases ok
      split at ok
      · cases ok
      split at ok
      · cases ok
      rename_i cand cands found
      cases ok
      have out := portOf_of_degreeOf here
      rw [← out] at synced found
      obtain ⟨⟨-, sixteen⟩, -⟩ := good
      rw [← len] at sixteen
      exact ⟨d, next :: more, cand :: cands, rfl, by simpa using valid, by simpa using window,
        ⟨by simp, by simpa [List.length_cons] using Nat.le_of_succ_le_succ sixteen⟩, by simpa using new, free, by simpa using synced, found,
        by simp, rfl⟩
    · cases ok
  · cases ok

/-- What a COMMISSION that is refused leaves: everything (R59). -/
theorem State.commissionPath_error {s t : State} {f : CommissionFields} {e : ResultCode}
    (refused : s.commissionPath f = (t, .error e)) : t = s := by
  unfold State.commissionPath State.commissionOn at refused
  dsimp only at refused
  split at refused
  · cases refused; rfl
  split at refused
  · cases refused; rfl
  split at refused
  · cases refused; rfl
  split at refused
  swap
  · cases refused; rfl
  split at refused
  swap
  · cases refused; rfl
  split at refused
  · cases refused; rfl
  split at refused
  · cases refused; rfl
  split at refused
  · cases refused; rfl
  split at refused
  · cases refused; rfl
  split at refused
  · cases refused; rfl
  split at refused
  · cases refused; rfl
  split at refused
  · cases refused; rfl
  · cases refused

/-- The context that a COMMISSION makes. -/
def commissionContext (s : State) (f : CommissionFields) (path : PathId) (d : DegreeNo) (onward : Nat)
    (cands : List Candidate) : Context :=
  { newContext path .head f.cls (.addGroup f.group) (portOf d) f.width .offered s.timeBase with
    tie := some f.tie, hop := some 1, remaining := some onward, candidates := some cands }

theorem State.isNode_of_identityValid {s : State} (valid : s.identityValid = true) :
    isNode s.nodeId := by
  simp only [State.identityValid, Bool.and_eq_true, decide_eq_true_eq] at valid
  exact ⟨valid.1.2, valid.2⟩

theorem commissionContext_inRange {s : State} {f : CommissionFields} {path : PathId} {d : DegreeNo}
    {onward : Nat} {m : PortMap} {guard : Nat} {cands : List Candidate} (node : isNode path.head)
    (window : windowInRange f.width f.lo f.hi = true) (some : 1 ≤ onward ∧ onward ≤ 15)
    (found : chooseCandidates f.tie (windowQuery m guard f.width f.lo f.hi) = cands)
    (nonempty : cands ≠ []) : (commissionContext s f path d onward cands).inRange := by
  have ⟨n1, n2, _⟩ := (windowInRange_iff _ _ _).1 window
  refine ⟨newContext_powerInRange path .head f.cls (.addGroup f.group) (portOf d) f.width .offered s.timeBase,
    ⟨node, ?_, ?_, ⟨n1, n2⟩, ?_, ?_⟩, ?_, nofun, nofun⟩
  · simp [commissionContext, newContext]
  · have := portOf_val_lt d
    simp only [commissionContext, newContext, reduceCtorEq, false_iff]
    omega
  · intro h e; cases e; rfl
  · intro r e; cases e; exact some
  · intro l e
    cases e
    subst found
    refine ⟨⟨List.length_pos_iff.2 nonempty, chooseCandidates_length _ _⟩,
      chooseCandidates_distinct _ ((windowQuery_ascending _ _ _ _ _).imp ne_of_lt), fun x mem => ?_⟩
    obtain ⟨-, -, fits, cost⟩ := mem_windowQuery_iff.1 (mem_of_mem_chooseCandidates mem)
    have := sideCost_le m guard x.s f.width
    exact ⟨le_of_eligible n1 fits, by omega⟩

theorem adoptedContext_inRange {f : AdoptFields} {inPort : InPort} {outPort : PortNo} {now : BitVec 32}
    (node : isNode f.path.head) (width : 1 ≤ f.n ∧ f.n ≤ 16 ∧ f.s + f.n ≤ 400)
    (ports : adoptPorts f = some (inPort, outPort)) :
    (adoptedContext f inPort outPort now).inRange := by
  obtain ⟨n1, n2, band⟩ := width
  have att : clampAtt f.att ≤ 2500 := by unfold clampAtt Config.dark; omega
  obtain ⟨h1, h2⟩ := newContext_powerInRange f.path f.role .normal inPort outPort f.n .inService now
  refine ⟨⟨by intro a e; cases e; exact att, h2⟩, ⟨node, ?_, ?_, ⟨n1, n2⟩, nofun, nofun⟩, nofun,
    by intro a e; cases e; exact band, nofun⟩
  all_goals
    simp only [adoptedContext, newContext]
    unfold adoptPorts at ports
    split at ports
    all_goals
      rename_i role
      simp only [role]
      split at ports
      · cases ports
        simp [portOf] <;> omega
      · cases ports

theorem readAdopt_isNode {bytes : List Byte} {f : AdoptFields} (read : readAdopt bytes = some f) :
    isNode f.path.head := by
  unfold readAdopt at read
  split at read
  · split at read
    · rename_i head _
      cases read
      exact readPath_isNode head
    · cases read
  · cases read

namespace Event

variable {c : Instr}

/-- Fields read, or nothing changes (R173). -/
theorem decoded {α : Type} {s : State} (x : Option α) (work : α → State × Reply)
    (does : ∀ a, x = some a → Event c s (work a).1) : Event c s (decoded x s work).1 := by
  unfold Machine.decoded
  split
  · exact does _ rfl
  · exact refl c s

theorem commissionWork (fields : List Byte) (s : State) : Event c s (commissionWork fields s).1 := by
  refine decoded _ _ fun f _ => ?_
  split
  · rename_i t i path ok
    obtain ⟨d, onward, cands, rfl, valid, window, len, new, free, -, found, nonempty, rfl⟩ :=
      State.commissionPath_ok ok
    refine sendPath (armCtx (mapHold (create (refl c s) i _ (fun _ => rfl)
      (State.lowestFree_some free) new fun _ => ?_) _ _) _ _) _ _
    exact commissionContext_inRange (State.isNode_of_identityValid valid) window len found nonempty
  · rename_i t e refused
    rw [State.commissionPath_error refused]
    exact refl c s

theorem adoptWork (fields : List Byte) (s : State) : Event c s (adoptWork fields s).1 := by
  refine decoded _ _ fun f read => ?_
  split
  · exact refl c s
  rename_i width
  split
  · exact refl c s
  rename_i inPort outPort ports
  split
  · exact refl c s
  split
  · exact refl c s
  rename_i new
  split
  · exact refl c s
  rename_i i free
  split
  · exact refl c s
  have made : Event c s (s.putCtx i (adoptedContext f inPort outPort s.timeBase)) :=
    create (refl c s) i _ (fun _ => rfl) (State.lowestFree_some free)
      (by simpa [adoptedContext, newContext] using new) fun _ =>
      adoptedContext_inRange (readAdopt_isNode read) (not_not.1 width) ports
  exact made.engine (Keeps.mapAdopt (.refl _) i f.s) (EngineRun.mapAdopt (.refl _) i f.s)

end Event

end Sys2Proof.Machine

/-! PROOFS. Every command answers a next state and keeps what every event keeps, and a reset meets the
invariants (R182). -/

namespace Sys2Proof.Machine

open Sys2Proof

/-! ### The state after a reset (R182) -/

section
variable (straps : BitVec 13)

@[simp] theorem State.resetWith_record (i : CtxIdx) : (State.resetWith straps).record i = ⟨0, none⟩ :=
  Table.read_all _ i

@[simp] theorem State.resetWith_ctx (i : CtxIdx) : (State.resetWith straps).ctx i = none := by
  rw [State.ctx, State.resetWith_record]

@[simp] theorem State.resetWith_port (p : PortNo) : (State.resetWith straps).port p = .reset :=
  Table.read_all _ p

@[simp] theorem State.resetWith_degree (d : DegreeNo) : (State.resetWith straps).degree d = .reset :=
  Table.read_all _ d

theorem cellAt_reset {k : Nat} (band : k < 400) : cellAt PortState.reset.map k = some .free := by
  rw [cellAt, dif_pos band]
  exact congrArg some (Table.read_all _ _)

theorem cellAt_reset_free {k : Nat} {x : Cell} (hx : cellAt PortState.reset.map k = some x) :
    x = .free := by
  by_cases band : k < 400
  · rw [cellAt_reset band] at hx
    exact (Option.some.inj hx).symm
  · rw [cellAt, dif_neg band] at hx
    cases hx

theorem PortState.reset_inRange : PortState.reset.inRange := by
  have bank : bankInRange (Table.all (-300)) := fun k => by rw [Table.read_all]; omega
  refine ⟨?_, bank, bank, nofun, nofun, Nat.zero_le _, Nat.zero_le _, nofun, Nat.zero_le _⟩
  unfold PortParams.inRange
  decide

theorem State.resetWith_inRange : (State.resetWith straps).inRange := by
  refine ⟨?_, fun i c hc => ?_, fun p => ?_, fun d => ?_⟩
  · change PartParams.default.inRange
    unfold PartParams.inRange
    decide
  · rw [State.resetWith_ctx] at hc; cases hc
  · rw [State.resetWith_port]; exact PortState.reset_inRange
  · rw [State.resetWith_degree]; exact ⟨nofun, .nil, Nat.zero_le _, Nat.zero_le _⟩

theorem State.resetWith_queuesBounded : (State.resetWith straps).queuesBounded := by
  refine ⟨Nat.zero_le _, Nat.zero_le _, fun p => ?_, fun d => ?_⟩
  · rw [State.resetWith_port]; exact Nat.zero_le _
  · rw [State.resetWith_degree]; exact Nat.zero_le _

theorem State.resetWith_law : (State.resetWith straps).Law := by
  refine ⟨fun p _ k i hx => ?_, fun p k x i hx hi => ?_, fun i j c c' hc => ?_⟩
  · rw [State.resetWith_port] at hx; cases cellAt_reset_free hx
  · rw [State.resetWith_port] at hx; rw [cellAt_reset_free hx] at hi; cases hi
  · rw [State.resetWith_ctx] at hc; cases hc

theorem State.resetWith_downWhileInvalid : (State.resetWith straps).downWhileInvalid := by
  intro _ d
  rw [State.resetWith_degree]
  rfl

theorem State.resetWith_stepLaw : (State.resetWith straps).stepLaw := by
  refine ⟨fun i c hc => ?_, fun p => ?_⟩
  · rw [State.resetWith_ctx] at hc; cases hc
  · rw [State.resetWith_port]
    exact ⟨⟨rfl, rfl, rfl, rfl, rfl, rfl, rfl, rfl⟩, .nil, Nat.zero_le _, nofun, nofun, nofun, nofun⟩

end

/-- Settles O59: after a reset no context lives, every cell is Free, and every port and degree is as it is
made. -/
theorem resetMeetsTheInvariants : Obligations.ResetMeetsTheInvariants := by
  intro straps
  refine ⟨State.resetWith_inRange straps, State.resetWith_queuesBounded straps,
    State.resetWith_law straps, State.resetWith_downWhileInvalid straps, State.resetWith_stepLaw straps,
    fun i c hc => ?_, fun p on => ?_⟩
  · rw [State.resetWith_ctx] at hc; cases hc
  · rw [State.resetWith_port] at on; cases on

namespace Event

variable {c : Instr} {s t : State}

/-- The state after a reset keeps what an event keeps, and nothing is said of what a reset changes. -/
theorem afterReset (s : State) (straps : BitVec 13)
    (reset : ¬∀ straps, c ≠ .reset straps ∧ c ≠ .resetPinRelease straps) :
    Event c s (s.afterReset straps) where
  pending := rfl
  ranges _ := State.resetWith_inRange straps
  queues _ := State.resetWith_queuesBounded straps
  down _ := State.resetWith_downWhileInvalid straps
  law _ := State.resetWith_law straps
  own n := absurd n reset

theorem foldl {α : Type} (h : Event c s t) (f : State → α → State)
    (hf : ∀ u a, Event c s u → Event c s (f u a)) (l : List α) : Event c s (l.foldl f t) := by
  induction l generalizing t with
  | nil => exact h
  | cons a l ih => exact ih (hf t a h)

/-! ### Management commands -/

theorem withPort {b : Byte} {work : PortNo → State × Reply} (does : ∀ p, Event c s (work p).1) :
    Event c s (withPort b s work).1 := by
  unfold Machine.withPort
  split
  · exact does _
  · exact refl c s

theorem withDegree {b : Byte} {work : DegreeNo → State × Reply} (does : ∀ d, Event c s (work d).1) :
    Event c s (withDegree b s work).1 := by
  unfold Machine.withDegree
  split
  · exact does _
  · exact refl c s

theorem onPortCommand {fields : List Byte} {work : PortNo → State × Reply}
    (does : ∀ p, Event c s (work p).1) : Event c s (onPortCommand fields s work).1 :=
  decoded _ _ fun _ _ => withPort does

theorem withPath {path : PathId} {work : CtxIdx → Context → State × Reply}
    (does : ∀ i x, s.ctx i = some x → Event c s (work i x).1) : Event c s (withPath path s work).1 := by
  unfold Machine.withPath
  split
  · split
    · exact does _ _ ‹_›
    · exact refl c s
  · exact refl c s

theorem releaseWork (fields : List Byte) (s : State) : Event c s (releaseWork fields s).1 := by
  refine decoded _ _ fun path _ => withPath fun i x _ => ?_
  split
  · exact refl c s
  · split
    · exact refl c s
    · exact (refl c s).engine (Keeps.decideTeardown (.refl s) i _) (EngineRun.decideTeardown (.refl s) i _)

theorem retrimWork (fields : List Byte) (s : State) : Event c s (retrimWork fields s).1 := by
  refine decoded _ _ fun path _ => withPath fun i x _ => ?_
  split
  · exact (refl c s).engine (Keeps.trimIfDue (Keeps.quietly (.refl s) i _ (by exact fun _ => rfl)) i)
      (EngineRun.trimIfDue (EngineRun.onCtx (.refl s) i _ fun _ => by rfl) i)
  · exact refl c s

theorem syncWork (fields : List Byte) (s : State) : Event .sync s (syncWork fields s).1 := by
  refine onPortCommand fun p => (refl _ s).onPort p _ { PortOwn.refl .sync p (s.port p) with
    synced := ⟨fun _ => rfl, absurd rfl⟩, held := nofun }

theorem blockWork (fields : List Byte) (s : State) : Event .block s (blockWork fields s).1 := by
  refine decoded _ _ fun f _ => withPort fun p => ?_
  split
  · exact refl _ s
  split
  swap
  · exact refl _ s
  rename_i free
  refine (refl _ s).onPort p _ { PortOwn.refl .block p (s.port p) with
    blocked := fun _ => (MapKeeps.writeWhole (b := true) free (by simp) (by simp)).1
    held := fun off => (MapKeeps.writeWhole free (by simp) (by simp)).2 off
    owners := fun k x i hx hi => ⟨x, EngineRun.owner_blocked hx hi, hi⟩ }

/-- Unblocking leaves the owners, and makes no cell Held (R13). -/
theorem unblocked_cell {m : PortMap} {first n k : Nat} {x : Cell}
    (hx : cellAt (writeRange m first n (fun x => decide (x = .blocked)) .free) k = some x) :
    x = .free ∨ cellAt m k = some x := by
  rw [cellAt_writeRange_entry] at hx
  split at hx
  · exact .inl (Option.some.inj hx).symm
  · exact .inr hx

theorem unblockWork (fields : List Byte) (s : State) : Event .unblock s (unblockWork fields s).1 := by
  refine decoded _ _ fun f _ => withPort fun p => ?_
  split
  · exact refl _ s
  refine (refl _ s).onPort p _ { PortOwn.refl .unblock p (s.port p) with
    blocked := absurd rfl
    held := fun _ none k i hx => (unblocked_cell hx).elim nofun (none k i)
    owners := fun k x i hx hi => ?_ }
  rcases unblocked_cell hx with rfl | same
  · cases hi
  · exact ⟨x, same, hi⟩

theorem clampDensity_range (x : Int) : -2000 ≤ clampDensity x ∧ clampDensity x ≤ 1000 := by
  unfold clampDensity
  omega

theorem writeDensities_inRange {b : Profile} (range : bankInRange b) (first : Nat) (ds : List Int) :
    bankInRange (writeDensities b first ds) := by
  intro k
  rw [writeDensities, read_mapEntries]
  split
  · cases ds[k.val - first]? with
    | none => exact range k
    | some x => exact clampDensity_range x
  · exact range k

theorem profileWork (fields : List Byte) (s : State) : Event c s (profileWork fields s).1 := by
  refine decoded _ _ fun f _ => ?_
  obtain ⟨b, bank, first, ds⟩ := f
  refine withPort fun p => ?_
  split
  · exact refl _ s
  split
  · exact refl _ s
  rename_i inactive
  have others : PortOwn c p (s.port p) (s.port p) := .refl c p _
  cases bank with
  | a =>
    refine (refl _ s).onPort p _ { others with profile := ?_, ranges := fun r => ?_ }
    · simp only [PortState.writeBank, PortState.profile]
      cases active : (s.port p).active with
      | a => exact absurd active inactive
      | b => rfl
    · exact ⟨r.1, writeDensities_inRange r.2.1 _ _, r.2.2⟩
  | b =>
    refine (refl _ s).onPort p _ { others with profile := ?_, ranges := fun r => ?_ }
    · simp only [PortState.writeBank, PortState.profile]
      cases active : (s.port p).active with
      | a => rfl
      | b => exact absurd active inactive
    · exact ⟨r.1, r.2.1, writeDensities_inRange r.2.2.1 _ _, r.2.2.2⟩

theorem swapWork (fields : List Byte) (s : State) : Event .swap s (swapWork fields s).1 := by
  refine onPortCommand fun p => ?_
  have marked : Event .swap s (s.onPort p fun ps => { ps with swapPending := true }) :=
    (refl _ s).onPort p _ { PortOwn.refl .swap p (s.port p) with pending := absurd rfl }
  exact marked.engine (Keeps.lookForQuiet (.refl _) p true) (EngineRun.lookForQuiet (.refl _) p true)

theorem thawWork (fields : List Byte) (s : State) : Event .thaw s (thawWork fields s).1 := by
  refine onPortCommand fun p => ?_
  have thawed : Event .thaw s (s.onPort p fun ps => { ps with frozen := false }) :=
    (refl _ s).onPort p _ { PortOwn.refl .thaw p (s.port p) with frozen := absurd rfl }
  exact thawed.engine (Keeps.considerGrant (.refl _) p) (EngineRun.considerGrant (.refl _) p)

theorem portclearWork (fields : List Byte) (s : State) : Event c s (portclearWork fields s).1 := by
  refine onPortCommand fun p => ?_
  dsimp only
  generalize allContexts = is
  exact (refl c s).foldl _
    (fun u i h => h.engine (Keeps.clearContext (.refl u) p i) (EngineRun.clearContext (.refl u) p i)) is

/-- The value that a numeric parameter is written with lies in its range (R174). -/
theorem fit_clamp {lo hi v : Int} {x : Nat} (low : 0 ≤ lo) (order : lo ≤ hi)
    (fit : (ParamRange.clamp lo hi).fit v = some x) : lo ≤ (x : Int) ∧ (x : Int) ≤ hi := by
  cases fit
  omega

theorem PortParams.write_inRange {q : PortParams} (range : q.inRange) {k x : Nat} {v : Int}
    (fit : (paramRange k).fit v = some x) : (q.write k x).inRange := by
  unfold PortParams.inRange at range ⊢
  unfold PortParams.write
  split
  case h_11 => exact range
  case h_13 => exact range
  all_goals
    have bounds := fit_clamp (by decide) (by decide) fit
    dsimp only
    omega

theorem PartParams.write_inRange {q : PartParams} (range : q.inRange) {k x : Nat} {v : Int}
    (fit : (paramRange k).fit v = some x) : (q.write k x).inRange := by
  unfold PartParams.inRange at range ⊢
  unfold PartParams.write
  split
  case h_10 => exact range
  case h_11 => exact range
  case h_13 => exact range
  all_goals
    have bounds := fit_clamp (by decide) (by decide) fit
    dsimp only
    omega

theorem setparamWork (fields : List Byte) (s : State) :
    Event .setparam s (setparamWork fields s).1 := by
  refine decoded _ _ fun f _ => ?_
  obtain ⟨k, b, v⟩ := f
  refine decoded _ _ fun x fit => ?_
  dsimp only
  split
  · refine (refl _ s).step rfl rfl (fun _ => rfl) ⟨absurd rfl, fun r => PartParams.write_inRange r fit⟩
      ⟨id, fun _ => ⟨[], rfl, rfl⟩⟩ id (fun _ => rfl) (fun p => .refl _ p _)
      fun e => ⟨id, fun r => r.2.2.2 e, .inl rfl⟩
  · refine withPort fun p => (refl _ s).onPort p _ { PortOwn.refl .setparam p (s.port p) with
      params := absurd rfl, ranges := fun r => ⟨PortParams.write_inRange r.1 fit, r.2⟩ }
  · refine withDegree fun d => (refl _ s).onDegree d _ ?_ ?_ (.inl rfl)
    · exact id
    · exact fun _ r => r
  · exact refl _ s
  · exact refl _ s

theorem getparamWork (fields : List Byte) (s : State) : Event c s (getparamWork fields s).1 := by
  refine decoded _ _ fun f _ => ?_
  obtain ⟨k, b⟩ := f
  dsimp only
  split
  · exact refl c s
  · exact withPort fun p => refl c s
  · exact withDegree fun d => refl c s
  · exact refl c s
  · exact refl c s

theorem readctxWork (fields : List Byte) (s : State) : Event c s (readctxWork fields s).1 := by
  refine decoded _ _ fun sel _ => ?_
  split
  · split
    · exact refl c s
    · exact refl c s
  · exact withPath fun i x _ => refl c s

theorem readmapWork (fields : List Byte) (s : State) : Event c s (readmapWork fields s).1 :=
  onPortCommand fun _ => refl c s

theorem readnbrWork (fields : List Byte) (s : State) : Event c s (readnbrWork fields s).1 := by
  refine decoded _ _ fun b _ => withDegree fun d => (refl c s).onDegree d _ ?_ ?_ (.inl rfl)
  · exact id
  · exact fun _ r => r

theorem readportWork (fields : List Byte) (s : State) : Event c s (readportWork fields s).1 := by
  refine onPortCommand fun p => (refl c s).onPort p _ { PortOwn.refl c p (s.port p) with ranges := ?_ }
  rintro ⟨r1, r2, r3, r4, r5, r6, -, r7⟩
  exact ⟨r1, r2, r3, r4, r5, r6, Nat.zero_le _, r7⟩

theorem readrptWork (fields : List Byte) (s : State) : Event .readrpt s (readrptWork fields s).1 := by
  refine decoded _ _ fun k _ => (refl _ s).step rfl rfl (fun _ => rfl) ⟨fun _ => rfl, id⟩
    ⟨fun bound => ?_, absurd rfl⟩ id (fun _ => rfl) (fun p => .refl _ p _)
    fun e => ⟨id, fun r => r.2.2.2 e, .inl rfl⟩
  rw [List.length_drop]
  omega

theorem identqWork (fields : List Byte) (s : State) : Event c s (identqWork fields s).1 := by
  refine decoded _ _ fun b _ => withDegree fun d => ?_
  split
  · exact ite ((refl c s).startQuery d) (((refl c s).startQuery d).adjacencyRecord d)
  · exact refl c s

theorem settimeWork (fields : List Byte) (s : State) : Event c s (settimeWork fields s).1 :=
  decoded _ _ fun _ _ => (refl c s).beside s.commands s.responses s.mgmtRx s.freeNext _ id

theorem runReset (s : State) (straps : BitVec 13) : Event (.reset straps) s (s.runReset straps) := by
  have reset : ¬∀ y, Instr.reset straps ≠ .reset y ∧ Instr.reset straps ≠ .resetPinRelease y :=
    fun n => (n straps).1 rfl
  unfold State.runReset
  split
  · rename_i cmd rest queue
    have taken : Event (.reset straps) s { s with commands := rest } :=
      (refl _ s).beside rest s.responses s.mgmtRx s.freeNext s.timeBase fun bound => by
        rw [queue, List.length_cons] at bound; omega
    refine ite (ite ?_ (taken.respond cmd _)) (refl _ s)
    have pending : (({ s with commands := rest } : State).respond cmd (.ok .none)).pending = s.pending :=
      (taken.respond cmd _).pending
    exact { afterReset (State.respond { s with commands := rest } cmd (.ok .none)) straps reset with
      pending := pending
      ranges := fun _ => State.resetWith_inRange straps
      queues := fun _ => State.resetWith_queuesBounded straps
      down := fun _ => State.resetWith_downWhileInvalid straps
      law := fun _ => State.resetWith_law straps
      own := fun n => absurd n reset }
  · exact refl _ s

theorem runUnknown (s : State) : Event c s s.runUnknown := by
  unfold State.runUnknown
  split
  · rename_i cmd rest queue
    refine ite (refl c s) (respond ((refl c s).beside rest s.responses s.mgmtRx s.freeNext s.timeBase
      fun bound => ?_) cmd _)
    rw [queue, List.length_cons] at bound
    omega
  · exact refl c s

end Event

end Sys2Proof.Machine

/-! PROOFS. Every command is an event: what one step keeps, whatever the command. -/

namespace Sys2Proof.Machine

open Sys2Proof

theorem State.clearReceivers_port (s : State) (p : PortNo) :
    s.clearReceivers.port p = { s.port p with rx := [] } := by
  simp [State.clearReceivers, State.port, Table.read]

namespace Event

variable {c : Instr} {s t : State}

/-! ### Arrivals and the reset pin -/

theorem acceptCommand (h : Event c s t) (f : GoodFrame) : Event c s (t.acceptCommand f) := by
  unfold State.acceptCommand
  split
  · rename_i room
    refine h.beside _ t.responses t.mgmtRx t.freeNext t.timeBase fun _ => ?_
    rw [List.length_append, List.length_singleton]
    exact room
  · exact h

theorem acceptPeer (h : Event c s t) (d : DegreeNo) (body : List Byte) :
    Event c s (t.acceptPeer d body) := by
  refine ite (h.onDegree d _ ?_ ?_ ?_) h
  · intro bound
    split
    · rename_i room
      rw [List.length_append, List.length_singleton]
      exact room
    · exact bound
  · intro _ r
    split <;> exact r
  · exact .inl (by split <;> rfl)

theorem acceptReport (h : Event c s t) (p : PortNo) (body : List Byte) :
    Event c s (t.acceptReport p body) := by
  unfold State.acceptReport
  split
  · refine h.onPort p _ ?_
    split
    · rename_i r _ room
      refine { PortOwn.refl c p (t.port p) with reports := fun _ => ?_ }
      rw [List.length_append, List.length_singleton]
      exact room
    · exact { PortOwn.refl c p (t.port p) with }
  · exact h

theorem acceptOnLink (p : PortNo) (h : Event c s t) (f : GoodFrame) :
    Event c s (t.acceptOnLink p f) := by
  refine ite (h.acceptReport p _) ?_
  split
  · exact h.acceptPeer _ _
  · exact h

theorem receiveOnLink (s : State) (p : PortNo) (bytes : List Byte) :
    Event c s (s.receiveOnLink p bytes) :=
  foldl ((refl c s).onPort p _ { PortOwn.refl c p (s.port p) with }) _
    (fun _ f h => h.acceptOnLink p f) _

theorem clearReceivers (s : State) : Event c s { s.clearReceivers with inReset := true } := by
  refine (refl c s).step rfl rfl (fun _ => rfl) ⟨fun _ => rfl, id⟩ ⟨id, fun _ => ⟨[], rfl, rfl⟩⟩ id
    (fun _ => rfl) (fun p => ?_) fun e => ⟨id, fun r => r.2.2.2 e, .inl rfl⟩
  have port : State.port { s.clearReceivers with inReset := true } p = { s.port p with rx := [] } :=
    s.clearReceivers_port p
  rw [port]
  exact { PortOwn.refl c p (s.port p) with }

theorem timeBaseTick (s : State) :
    Event .timeBaseTick s { s with timeBase := s.timeBase + 1, elapsed := s.elapsed + 1 } :=
  (refl _ s).step rfl rfl (absurd rfl) ⟨fun _ => rfl, id⟩ ⟨id, fun _ => ⟨[], rfl, rfl⟩⟩ id
    (fun _ => rfl) (fun p => .refl _ p _) fun e => ⟨id, fun r => r.2.2.2 e, .inl rfl⟩

/-! ### Peer messages -/

/-- A frame that passes its checks has the fields of its format when it is used (R41). -/
theorem takePeer (s : State) (d : DegreeNo) (k : Nat) (use : PeerFrame → State → State)
    (does : ∀ f, f.msg.wellRead → ∀ u, Event c u (use f u)) : Event c s (s.takePeer d k use) := by
  unfold State.takePeer
  split
  · refine ite ?_ (refl c s)
    split
    · rename_i f admitted
      have read := (Option.filter_eq_some_iff.1 admitted).1
      exact ((refl c s).popPeer d).trans (fun _ => rfl) (does f (readPeerFrame_wellRead read) _)
    · exact (refl c s).popPeer d
  · exact refl c s

theorem offerUse (d : DegreeNo) (f : PeerFrame) (good : f.msg.wellRead) (u : State) :
    Event c u (offerUse d f u) := by
  unfold Machine.offerUse
  split
  · rename_i msg
    rw [msg] at good
    exact takeOffer u d good.1 good.2
  · exact refl c u

theorem acceptUse (d : DegreeNo) (f : PeerFrame) (good : f.msg.wellRead) (u : State) :
    Event c u (acceptUse d f u) := by
  unfold Machine.acceptUse
  split
  · rename_i msg
    rw [msg] at good
    exact (refl c u).engine (Keeps.takeAccept (.refl u) d _ _ good)
      (EngineRun.takeAccept (.refl u) d _ _ _)
  · exact refl c u

theorem declineUse (d : DegreeNo) (f : PeerFrame) (u : State) : Event c u (declineUse d f u) := by
  unfold Machine.declineUse
  split
  · exact (refl c u).engine (Keeps.takeDecline (.refl u) d _ _ _)
      (EngineRun.takeDecline (.refl u) d _ _ _)
  · exact refl c u

theorem lightUse (d : DegreeNo) (f : PeerFrame) (u : State) : Event c u (lightUse d f u) := by
  unfold Machine.lightUse
  split
  · exact (refl c u).engine (Keeps.takeLight (.refl u) d _) (EngineRun.takeLight (.refl u) d _)
  · exact refl c u

theorem litUse (d : DegreeNo) (f : PeerFrame) (u : State) : Event c u (litUse d f u) := by
  unfold Machine.litUse
  split
  · exact (refl c u).engine (Keeps.takeLit (.refl u) d _) (EngineRun.takeLit (.refl u) d _)
  · exact refl c u

theorem releaseUse (d : DegreeNo) (f : PeerFrame) (u : State) : Event c u (releaseUse d f u) := by
  unfold Machine.releaseUse
  split
  · exact (refl c u).engine (Keeps.takeRelease (.refl u) d _) (EngineRun.takeRelease (.refl u) d _)
  · exact refl c u

theorem abortDownUse (d : DegreeNo) (f : PeerFrame) (u : State) : Event c u (abortDownUse d f u) := by
  unfold Machine.abortDownUse
  split
  · split
    · exact (refl c u).engine (Keeps.causeReaches (.refl u) _ _) (EngineRun.causeReaches (.refl u) _ _)
    · exact refl c u
  · exact refl c u

theorem abortUpUse (d : DegreeNo) (f : PeerFrame) (u : State) : Event c u (abortUpUse d f u) := by
  unfold Machine.abortUpUse
  split
  · split
    · exact (refl c u).engine (Keeps.causeReaches (.refl u) _ _) (EngineRun.causeReaches (.refl u) _ _)
    · exact refl c u
  · exact refl c u

theorem helloUse (d : DegreeNo) (f : PeerFrame) (u : State) : Event c u (helloUse d f u) := by
  unfold Machine.helloUse
  split
  · exact (refl c u).takeHello d _ _ _ _ _
  · exact refl c u

theorem identQueryUse (d : DegreeNo) (f : PeerFrame) (u : State) : Event c u (identQueryUse d f u) := by
  unfold Machine.identQueryUse
  split
  · exact (refl c u).answerQuery d _
  · exact refl c u

theorem identReplyUse (d : DegreeNo) (f : PeerFrame) (u : State) : Event c u (identReplyUse d f u) := by
  unfold Machine.identReplyUse
  split
  · exact ite (ite ((refl c u).takeAck d _) ((refl c u).spendQuery d)) (refl c u)
  · exact refl c u

theorem dropUnknown (s : State) (d : DegreeNo) : Event c s (s.dropUnknown d) := by
  unfold State.dropUnknown
  split
  · exact ite (refl c s) ((refl c s).popPeer d)
  · exact refl c s

/-! ### Controller reports -/

theorem lineUpOn (u : State) (p : PortNo) : Event c u (u.lineUpOn p) := by
  have up : Event c u (u.onPort p fun ps => { ps with lineIsUp := true }) :=
    (refl c u).onPort p _ { PortOwn.refl c p (u.port p) with }
  unfold State.lineUpOn
  dsimp only
  split
  · split
    · rename_i valid
      exact up.enterProbing _ (.inr valid.2)
    · exact up
  · exact up

theorem lineDownOn (u : State) (p : PortNo) : Event c u (u.lineDownOn p) := by
  have down : Event c u (u.onPort p fun ps => { ps with lineIsUp := false }) :=
    (refl c u).onPort p _ { PortOwn.refl c p (u.port p) with }
  refine ite ?_ (refl c u)
  dsimp only
  split
  · rename_i d _
    exact ((down.enterDown d).engine (Keeps.causeOnOutPort (.refl _) p _)
      (EngineRun.causeOnOutPort (.refl _) p _)).engine (Keeps.causeOnInPort (.refl _) d _)
        (EngineRun.causeOnInPort (.refl _) d _)
  · exact down.engine (Keeps.causeOnOutPort (.refl _) p _) (EngineRun.causeOnOutPort (.refl _) p _)

theorem gainTaken (u : State) (p : PortNo) (x : Int) :
    Event (.gain p) u (u.onPort p fun ps => { ps with gain := some (clampGain x) }) := by
  refine (refl _ u).onPort p _ { PortOwn.refl (.gain p) p (u.port p) with
    gain := absurd rfl, ranges := ?_ }
  rintro ⟨r1, r2, r3, -, r5⟩
  refine ⟨r1, r2, r3, fun g hg => ?_, r5⟩
  cases hg
  exact Nat.min_le_right _ _

/-- A report that matches is dealt with, and a stray changes nothing (R89). -/
theorem ifMatched (u : State) (p : PortNo) (i : CtxIdx) (tag : Byte) (fits : Context → Bool)
    (work : Context → State) (does : ∀ x, Event c u (work x)) :
    Event c u (u.ifMatched p i tag fits work) := by
  unfold State.ifMatched
  split
  · exact does _
  · exact refl c u

/-! ### Expiries -/

theorem onContextTimer (s : State) (i : CtxIdx) (here : Context → Bool) (work : State → State)
    (does : Event c s (work s)) : Event c s (s.onContextTimer i here work) := by
  unfold State.onContextTimer State.withCtx
  split
  · exact ite does (refl c s)
  · exact refl c s

theorem onStepTimer (s : State) (p : PortNo) (phase : Phase) (work : CtxIdx → State)
    (does : ∀ i, Event c s (work i)) : Event c s (s.onStepTimer p phase work) := by
  refine ite ?_ (refl c s)
  split
  · exact does _
  · exact refl c s

end Event

end Sys2Proof.Machine

/-! PROOFS. What every step keeps: the obligations that hold over every command. -/

namespace Sys2Proof.Machine

open Sys2Proof

/-! ### Every command is an event -/

section
variable {c : Instr} {s : State}

theorem Event.whileRunning {work : State → State} (does : Event c s (work s)) :
    ∃ t, whileRunning s work = .next t ∧ Event c s t :=
  ⟨_, rfl, (refl c s).ite does⟩

theorem Event.onCommand {k : Nat} {work : List Byte → State → State × Reply}
    (does : ∀ fields u, Event c u (work fields u).1) : ∃ t, onCommand s k work = .next t ∧ Event c s t :=
  Event.whileRunning (runCommand s k work does)

theorem Event.onPeer {d : DegreeNo} {k : Nat} {use : PeerFrame → State → State}
    (does : ∀ f, f.msg.wellRead → ∀ u, Event c u (use f u)) :
    ∃ t, onPeer s d k use = .next t ∧ Event c s t :=
  Event.whileRunning (takePeer s d k use does)

theorem Event.onReport {p : PortNo} {row : Report → Option (State → State)}
    (does : ∀ r work, row r = some work → ∀ u, Event c u (work u)) :
    ∃ t, onReport s p row = .next t ∧ Event c s t :=
  Event.whileRunning (takeReport s p row does)

theorem Event.expiry {i : CtxIdx} {here : Context → Bool} {work : State → State}
    (does : Event c s (work s)) :
    ∃ t, Machine.whileRunning s (fun s => s.onContextTimer i here work) = .next t ∧ Event c s t :=
  Event.whileRunning (onContextTimer s i here work does)

end

/-! ### The rows of the reports -/

section
variable {c : Instr} {r : Report} {work : State → State}

theorem actuatedRow_event {p : PortNo} (row : actuatedRow p r = some work) (u : State) :
    Event c u (work u) := by
  unfold actuatedRow at row
  split at row
  · cases row
    exact (Event.refl c u).engine (Keeps.actuatedOn (.refl u) p _ _ _ _)
      (EngineRun.actuatedOn (.refl u) p _ _ _ _)
  · cases row

theorem powerRow_event {p : PortNo} (row : powerRow p r = some work) (u : State) :
    Event c u (work u) := by
  unfold powerRow at row
  split at row
  · cases row
    exact .ifMatched u p _ _ _ _ fun _ => (Event.refl c u).engine (Keeps.powerFor (.refl u) _ _)
      (EngineRun.powerFor (.refl u) _ _)
  · cases row

theorem settledRow_event {p : PortNo} (row : settledRow p r = some work) (u : State) :
    Event c u (work u) := by
  unfold settledRow at row
  split at row
  · cases row
    exact .ifMatched u p _ _ _ _ fun _ => (Event.refl c u).engine (Keeps.settle (.refl u) p _ _)
      (EngineRun.settle (.refl u) p _ _)
  · cases row

theorem pendingRow_event {p : PortNo} (row : pendingRow p r = some work) (u : State) :
    Event c u (work u) := by
  unfold pendingRow at row
  split at row
  · cases row
    exact .ifMatched u p _ _ _ _ fun _ => (Event.refl c u).engine (Keeps.extend (.refl u) p _)
      (EngineRun.extend (.refl u) p _)
  · cases row

theorem continueRow_event {p : PortNo} (row : continueRow p r = some work) (u : State) :
    Event c u (work u) := by
  unfold continueRow at row
  split at row
  · cases row
    exact .ifMatched u p _ _ _ _ fun _ => (Event.refl c u).engine (Keeps.extend (.refl u) p _)
      (EngineRun.extend (.refl u) p _)
  · cases row

theorem gainRow_event {p : PortNo} (row : gainRow p r = some work) (u : State) :
    Event (.gain p) u (work u) := by
  unfold gainRow at row
  split at row
  · cases row
    exact .gainTaken u p _
  · cases row

theorem lineUpRow_event {p : PortNo} (row : lineUpRow p r = some work) (u : State) :
    Event c u (work u) := by
  unfold lineUpRow at row
  split at row
  · cases row
    exact .lineUpOn u p
  · cases row

theorem lineDownRow_event {p : PortNo} (row : lineDownRow p r = some work) (u : State) :
    Event c u (work u) := by
  unfold lineDownRow at row
  split at row
  · cases row
    exact .lineDownOn u p
  · cases row

end

/-- Every command answers a next state, and what it does is an event. -/
theorem exec_event (c : Instr) (s : State) : ∃ t, exec c s = .next t ∧ Event c s t := by
  have start {c : Instr} : Event c s s := .refl c s
  cases c with
  | commission => exact Event.onCommand Event.commissionWork
  | release => exact Event.onCommand Event.releaseWork
  | retrim => exact Event.onCommand Event.retrimWork
  | adopt => exact Event.onCommand Event.adoptWork
  | sync => exact Event.onCommand Event.syncWork
  | block => exact Event.onCommand Event.blockWork
  | unblock => exact Event.onCommand Event.unblockWork
  | profile => exact Event.onCommand Event.profileWork
  | swap => exact Event.onCommand Event.swapWork
  | thaw => exact Event.onCommand Event.thawWork
  | portclear => exact Event.onCommand Event.portclearWork
  | setparam => exact Event.onCommand Event.setparamWork
  | getparam => exact Event.onCommand Event.getparamWork
  | readctx => exact Event.onCommand Event.readctxWork
  | readmap => exact Event.onCommand Event.readmapWork
  | readport => exact Event.onCommand Event.readportWork
  | readnbr => exact Event.onCommand Event.readnbrWork
  | readrpt => exact Event.onCommand Event.readrptWork
  | identq => exact Event.onCommand Event.identqWork
  | settime => exact Event.onCommand Event.settimeWork
  | reset straps =>
    refine ⟨_, rfl, .ite start ?_⟩
    exact .runReset s straps
  | commandArrival bytes =>
    refine ⟨_, rfl, .ite start ?_⟩
    exact .foldl (start.beside s.commands s.responses _ s.freeNext s.timeBase id)
      State.acceptCommand (fun _ f h => h.acceptCommand f) _
  | peerFrameArrival link bytes =>
    refine ⟨_, rfl, .ite start ?_⟩
    exact .receiveOnLink s link bytes
  | controllerFrameArrival link bytes =>
    refine ⟨_, rfl, .ite start ?_⟩
    exact .receiveOnLink s link bytes
  | offer d => exact Event.onPeer (Event.offerUse d)
  | accept d => exact Event.onPeer (Event.acceptUse d)
  | decline d => exact Event.onPeer fun f _ => .declineUse d f
  | light d => exact Event.onPeer fun f _ => .lightUse d f
  | lit d => exact Event.onPeer fun f _ => .litUse d f
  | releaseFromUpstream d => exact Event.onPeer fun f _ => .releaseUse d f
  | abortFromDownstream d =>
    refine ⟨_, rfl, .ite start ?_⟩
    exact .ite (.takePeer s d 7 _ fun f _ => .abortDownUse d f) start
  | abortFromUpstream d =>
    refine ⟨_, rfl, .ite start ?_⟩
    exact .ite (.takePeer s d 7 _ fun f _ => .abortUpUse d f) start
  | hello d => exact Event.onPeer fun f _ => .helloUse d f
  | identQuery d => exact Event.onPeer fun f _ => .identQueryUse d f
  | identReply d => exact Event.onPeer fun f _ => .identReplyUse d f
  | actuated p => exact Event.onReport fun _ _ => actuatedRow_event
  | power p => exact Event.onReport fun _ _ => powerRow_event
  | settled p => exact Event.onReport fun _ _ => settledRow_event
  | pendingUnits p => exact Event.onReport fun _ _ => pendingRow_event
  | continueUnit p => exact Event.onReport fun _ _ => continueRow_event
  | gain p => exact Event.onReport fun _ _ => gainRow_event
  | lineUp p => exact Event.onReport fun _ _ => lineUpRow_event
  | lineDown p => exact Event.onReport fun _ _ => lineDownRow_event
  | offerTimeout i =>
    exact Event.expiry (start.engine (Keeps.endOffer (.refl s) i _) (EngineRun.endOffer (.refl s) i _))
  | lightTimeout i =>
    exact Event.expiry (start.engine (Keeps.decideTeardown (.refl s) i _) (EngineRun.decideTeardown (.refl s) i _))
  | openTimeout i =>
    exact Event.expiry (start.engine (Keeps.openFailed (.refl s) i _) (EngineRun.openFailed (.refl s) i _))
  | measureTimeout i =>
    exact Event.expiry (start.engine (Keeps.attemptEnded (.refl s) i) (EngineRun.attemptEnded (.refl s) i))
  | litTimeout i =>
    exact Event.expiry (start.engine (Keeps.decideTeardown (.refl s) i _) (EngineRun.decideTeardown (.refl s) i _))
  | closeTimeout i =>
    exact Event.expiry (start.engine (Keeps.endBlocked (.refl s) i) (EngineRun.endBlocked (.refl s) i))
  | actuationWindowExpiry p =>
    refine ⟨_, rfl, .ite start ?_⟩
    exact .onStepTimer s p _ _ fun i =>
      start.engine (Keeps.actuationExpired (.refl s) p i) (EngineRun.actuationExpired (.refl s) p i)
  | observationWindowExpiry p =>
    refine ⟨_, rfl, .ite start ?_⟩
    exact .onStepTimer s p _ _ fun i =>
      start.engine (Keeps.observationExpired (.refl s) p i) (EngineRun.observationExpired (.refl s) p i)
  | helloTimerExpiry d =>
    refine ⟨_, rfl, .ite start ?_⟩
    exact .ite ((start.sendHello d).armHello d) start
  | deadTimerExpiry d =>
    refine ⟨_, rfl, .ite start ?_⟩
    dsimp only
    split
    · rename_i out
      exact start.enterRecovery d (by simp_all)
    · exact start
  | recoveryTimerExpiry d =>
    refine ⟨_, rfl, .ite start ?_⟩
    dsimp only
    split
    · rename_i out
      exact start.enterProbing d (.inl (by simp_all))
    · exact start
  | identTimerExpiry d =>
    refine ⟨_, rfl, .ite start ?_⟩
    exact .ite (start.spendQuery d) start
  | lampFastHoldExpiry d =>
    refine ⟨_, rfl, .ite start ?_⟩
    refine .ite (start.onDegree d _ ?_ ?_ (.inl rfl)) start
    · exact id
    · exact fun _ r => r
  | timeBaseTick => exact ⟨_, rfl, .timeBaseTick s⟩
  | resetPinAssert => exact ⟨_, rfl, .ite start (.clearReceivers s)⟩
  | resetPinRelease straps =>
    exact ⟨_, rfl, .ite (.afterReset s straps fun n => (n straps).2 rfl) start⟩
  | unknownPeerKindTaken d =>
    refine ⟨_, rfl, .ite start ?_⟩
    exact .dropUnknown s d
  | unknownCommandKind =>
    refine ⟨_, rfl, .ite start ?_⟩
    exact .runUnknown s

/-- Settles O2: every command is an event, and an event leaves the queue of commands. -/
theorem everyCommandAnswersANextState : Obligations.EveryCommandAnswersANextState := by
  intro c s
  obtain ⟨t, run, e⟩ := exec_event c s
  exact ⟨t, run, e.pending⟩

/-- Settles O1, by the definition of the step. -/
theorem stepRunsTheFrontCommand : Obligations.StepRunsTheFrontCommand := by
  unfold Obligations.StepRunsTheFrontCommand step
  refine ⟨fun s c rest front => ?_, fun s empty => ?_⟩
  · rw [front]
  · rw [empty]

/-- A step is an event from the state with the queue's rest, or leaves the state (log 2). -/
theorem step_event {s t : State} (run : step s = .next t) :
    t = s ∨ ∃ c rest, s.pending = c :: rest ∧ Event c { s with pending := rest } t := by
  unfold step at run
  split at run
  · rename_i c rest front
    obtain ⟨u, run', e⟩ := exec_event c { s with pending := rest }
    cases run'.symm.trans run
    exact .inr ⟨c, rest, front, e⟩
  · cases run
    exact .inl rfl

/-- Settles O55: the ranges are kept by every event. -/
theorem rangesArePreserved : Obligations.RangesArePreserved := by
  intro s t range run
  rcases step_event run with rfl | ⟨c, rest, -, e⟩
  · exact range
  · exact e.ranges range

/-- Settles O57: the bounds of the queues, and the adjacencies under an invalid identity, are kept by every
event. -/
theorem queuesStayBoundedAndDegreesDown : Obligations.QueuesStayBoundedAndDegreesDown := by
  refine ⟨fun s t bounded run => ?_, fun s t down run => ?_⟩ <;>
    rcases step_event run with rfl | ⟨c, rest, -, e⟩
  · exact bounded
  · exact e.queues bounded
  · exact down
  · exact e.down down

/-- The laws of the map and the table are kept by every step (R14, R2, R29). -/
theorem step_law {s t : State} (law : s.Law) (run : step s = .next t) : t.Law := by
  rcases step_event run with rfl | ⟨c, rest, -, e⟩
  · exact law
  · exact e.law law

/-! ### What only its own commands change -/

/-- How an event treats the swaps: a bank in use stays what it is, and a selector flips only from a flag
that was set, or at a SWAP of its port, with the flag clear afterwards and a SwapDone written. -/
structure SwapsFair (c : Instr) (s t : State) : Prop where
  profile : ∀ p, (t.port p).active = (s.port p).active → (t.port p).profile = (s.port p).profile
  pending : c ≠ .swap → ∀ p, (t.port p).swapPending = true → (s.port p).swapPending = true
  cleared : ∀ p, (s.port p).swapPending = true → (t.port p).swapPending = false →
    (t.port p).active ≠ (s.port p).active
  flipped : ∀ p, (t.port p).active ≠ (s.port p).active →
    ((s.port p).swapPending = true ∨
      (c = .swap ∧ ∃ a b rest, s.commandWaits 9 a b [byteOf p.val] rest)) ∧
    (t.port p).swapPending = false ∧
    ∃ written : List RingRecord, .port p .swapDone ∈ written ∧
      t.ring = (written.foldl State.report s).ring ∧ t.lost = (written.foldl State.report s).lost

section
variable {c : Instr} {s t : State}

theorem SwapsFair.of_ports (same : t.ports = s.ports) : SwapsFair c s t := by
  have port (p : PortNo) : t.port p = s.port p := by rw [State.port, State.port, same]
  refine ⟨fun p _ => ?_, fun _ p on => ?_, fun p on off => ?_, fun p ne => ?_⟩
  · rw [port]
  · rwa [port] at on
  · rw [port, on] at off
    cases off
  · exact absurd (by rw [port]) ne

/-- A command other than SWAP and READRPT. -/
theorem SwapsFair.of_own (o : Own c s t) (n : c ≠ .swap) (n' : c ≠ .readrpt) : SwapsFair c s t := by
  obtain ⟨pending, cleared, flipped, written, ring, lost, done⟩ := o.swaps n n'
  exact ⟨o.profile n n', fun _ => pending, cleared, fun p ne =>
    ⟨.inl (flipped p ne).1, (flipped p ne).2, written, done p ne, ring, lost⟩⟩

/-- What a management command does: nothing where its kind does not wait, and otherwise an answer to the
malformed header or its work and an answer (R172, R173). -/
theorem onCommand_cases {k : Nat} {work : List Byte → State → State × Reply}
    (run : onCommand s k work = .next t) : t = s ∨
      ∃ cmd rest, s.inReset = false ∧ s.commands = cmd :: rest ∧ commandKind cmd = some k ∧
        (t = { s with commands := rest }.respond cmd (.err .malformed) ∨
          3 ≤ cmd.length ∧ t = (work (cmd.drop 3) { s with commands := rest }).1.respond cmd
            (work (cmd.drop 3) { s with commands := rest }).2) := by
  cases run
  split
  · exact .inl rfl
  · rename_i running
    unfold State.runCommand
    dsimp only
    split
    · rename_i cmd rest queue
      split
      · rename_i kind
        refine .inr ⟨cmd, rest, by simpa using running, queue, kind, ?_⟩
        split
        · exact .inl rfl
        · exact .inr ⟨by omega, rfl⟩
      · exact .inl rfl
    · exact .inl rfl

theorem State.respond_ports (s : State) (cmd : List Byte) (r : Reply) :
    (s.respond cmd r).ports = s.ports ∧ (s.respond cmd r).ring = s.ring ∧
      (s.respond cmd r).lost = s.lost := by
  unfold State.respond
  dsimp only
  split <;> exact ⟨rfl, rfl, rfl⟩

theorem readrptWork_ports (fields : List Byte) (s : State) :
    (readrptWork fields s).1.ports = s.ports := by
  unfold readrptWork decoded
  split <;> rfl

theorem SwapsFair.readrpt (run : exec .readrpt s = .next t) : SwapsFair .readrpt s t := by
  refine .of_ports ?_
  obtain rfl | ⟨cmd, rest, -, -, -, rfl | ⟨-, rfl⟩⟩ := onCommand_cases run
  · rfl
  · exact (State.respond_ports _ _ _).1
  · exact (State.respond_ports _ _ _).1.trans (readrptWork_ports _ _)

/-- The port of a field that reads as one. -/
theorem readPort_eq {b : Byte} {p : PortNo} (read : readPort b = some p) : b = byteOf p.val := by
  unfold readPort at read
  split at read
  · cases read
    simp [byteOf]
  · cases read

/-- A SWAP whose field names no port does nothing, and another marks its port and looks for quiet (R19). -/
theorem swapWork_cases (fields : List Byte) (s : State) : (swapWork fields s).1 = s ∨
    ∃ p : PortNo, fields = [byteOf p.val] ∧
      (swapWork fields s).1 = (s.onPort p fun ps => { ps with swapPending := true }).lookForQuiet p true := by
  unfold swapWork onPortCommand decoded
  split
  · rename_i b read
    unfold withPort
    dsimp only
    split
    · rename_i p port
      refine .inr ⟨p, ?_, rfl⟩
      rw [← readPort_eq port]
      unfold readPortField at read
      split at read <;> cases read
      rfl
    · exact .inl rfl
  · exact .inl rfl

/-- A waiting command is its kind, two bytes and its fields. -/
theorem commandWaits_of_kind {k : Nat} {cmd : List Byte} {rest : List (List Byte)}
    (running : s.inReset = false) (queue : s.commands = cmd :: rest) (kind : commandKind cmd = some k)
    (long : 3 ≤ cmd.length) : ∃ a b, s.commandWaits k a b (cmd.drop 3) rest := by
  match cmd, long with
  | x :: a :: b :: fields, _ =>
    refine ⟨a, b, running, ?_⟩
    have : x.toNat = k := by simpa [commandKind] using kind
    rw [queue, ← this]
    simp [byteOf]

/-- Marking a port and looking for quiet is fair, at a SWAP of the port. -/
theorem SwapsFair.marked {p : PortNo} {u : State} (ports : u.ports = s.ports) (ring : u.ring = s.ring)
    (lost : u.lost = s.lost) (waits : ∃ a b rest, s.commandWaits 9 a b [byteOf p.val] rest)
    (same : t.ports = ((u.onPort p fun ps => { ps with swapPending := true }).lookForQuiet p true).ports ∧
      t.ring = ((u.onPort p fun ps => { ps with swapPending := true }).lookForQuiet p true).ring ∧
      t.lost = ((u.onPort p fun ps => { ps with swapPending := true }).lookForQuiet p true).lost) :
    SwapsFair .swap s t := by
  generalize hm : (u.onPort p fun ps => { ps with swapPending := true }) = m at same
  have marked (q : PortNo) : m.port q = if q = p then { s.port q with swapPending := true } else s.port q := by
    have port : u.port q = s.port q := by rw [State.port, State.port, ports]
    rw [← hm]
    split
    · rename_i e
      subst e
      rw [State.port_onPort_same, port]
    · rename_i e
      rw [State.port_onPort_other _ _ e, port]
  have active (q : PortNo) : (m.port q).active = (s.port q).active := by rw [marked]; split <;> rfl
  have profile (q : PortNo) : (m.port q).profile = (s.port q).profile := by rw [marked]; split <;> rfl
  have keeps := Keeps.lookForQuiet (.refl m) p true
  obtain ⟨-, cleared, flipped, written, ring', lost', done⟩ :=
    (EngineRun.lookForQuiet (.refl m) p true).swapsKept
  generalize m.lookForQuiet p true = v at *
  have port (q : PortNo) : t.port q = v.port q := by rw [State.port, State.port, same.1]
  have congr := foldl_report_congr (s := s) (t := m) (by rw [← hm]; exact ring) (by rw [← hm]; exact lost) written
  refine ⟨fun q sel => ?_, absurd rfl, fun q on off => ?_, fun q ne => ?_⟩
  · rw [port, ← active] at sel
    rw [port, ← profile, PortState.profile, PortState.profile, sel, (keeps.ports q).bankA, (keeps.ports q).bankB]
  · rw [port] at off ⊢
    rw [← active]
    refine cleared q ?_ off
    rw [marked]
    split
    · rfl
    · exact on
  · rw [port, ← active] at ne
    rw [port]
    obtain ⟨on, off⟩ := flipped q ne
    refine ⟨?_, off, written, done q ne, same.2.1.trans (ring'.trans congr.1),
      same.2.2.trans (lost'.trans congr.2)⟩
    rw [marked] at on
    split at on
    · rename_i e
      exact .inr ⟨rfl, e ▸ waits⟩
    · exact .inl on

theorem SwapsFair.swap (run : exec .swap s = .next t) : SwapsFair .swap s t := by
  obtain rfl | ⟨cmd, rest, running, queue, kind, rfl | ⟨long, rfl⟩⟩ := onCommand_cases run
  · exact .of_ports rfl
  · exact .of_ports (State.respond_ports _ _ _).1
  · rcases swapWork_cases (cmd.drop 3) { s with commands := rest } with none | ⟨p, field, some⟩
    · refine .of_ports ((State.respond_ports _ _ _).1.trans ?_)
      rw [none]
    · obtain ⟨a, b, waits⟩ := commandWaits_of_kind running queue kind long
      rw [field] at waits
      refine .marked (u := { s with commands := rest }) rfl rfl rfl ⟨a, b, rest, waits⟩ ?_
      rw [← some]
      exact State.respond_ports _ _ _

theorem SwapsFair.of_exec (run : exec c s = .next t) (o : Own c s t) : SwapsFair c s t := by
  by_cases n : c = .swap
  · subst n; exact .swap run
  · by_cases n' : c = .readrpt
    · subst n'; exact .readrpt run
    · exact .of_own o n n'

end

/-- Settles O60: each event changes only what its own command changes, and SWAP and READRPT are the two
whose bearing on the swaps is seen from their work. -/
theorem onlyTheirOwnCommandsChange : Obligations.OnlyTheirOwnCommandsChange := by
  intro c s t run noReset
  obtain ⟨t', run', e⟩ := exec_event c s
  cases run'.symm.trans run
  have own := e.own noReset
  obtain ⟨profile, pending, cleared, flipped⟩ := SwapsFair.of_exec run own
  refine ⟨own.straps, fun p => (own.synced p).1, fun n p => (own.synced p).2 n, own.blocked, own.frozen,
    own.gain, fun n => ⟨own.part n, own.params n⟩, profile, pending, cleared, flipped, own.elapsed,
    fun i x x' before after => ?_⟩
  rcases own.contexts i x' after with ⟨y, hy, same⟩ | none
  · cases hy.symm.trans before
    exact same.fields
  · cases none.symm.trans before

end Sys2Proof.Machine

/-! PROOFS. The reset, the time base, and the management commands of ports, parameters and reads. -/

namespace Sys2Proof.Machine

open Sys2Proof

/-! ### The reset and the time base -/

/-- Settles O3, by the values that the tables of a reset hold everywhere. -/
theorem resetValuesOfTheManual : Obligations.ResetValuesOfTheManual := by
  intro straps
  have lamp (d : DegreeNo) : (State.resetWith straps).lamp d = .dark := by
    have none (states : List CtxState) : (State.resetWith straps).anyOnDegree d states = false := by
      simp [State.anyOnDegree]
    have running : (State.resetWith straps).inReset = false := rfl
    simp [State.lamp, State.autoLamp, none, running, PortState.reset, DegreeState.reset]
  have bank (k : Fin 400) : Table.read PortState.reset.bankA k = -300 ∧
      Table.read PortState.reset.bankB k = -300 := ⟨Table.read_all _ k, Table.read_all _ k⟩
  have port := State.resetWith_port straps
  have degree := State.resetWith_degree straps
  refine ⟨fun p k band => ?_, fun p => ?_, fun p => ?_, rfl, fun p k => ?_, fun p => ?_, fun i => ?_,
    fun p => ?_, fun p => ?_, fun p => ?_, fun d => ?_, fun d => ?_, fun d => ?_, fun p => ?_,
    rfl, rfl, rfl, fun d => ?_, rfl, rfl, rfl⟩
  · rw [port]; exact cellAt_reset band
  · rw [port]; exact ⟨rfl, rfl⟩
  · rw [port]; rfl
  · rw [port]; exact bank k
  · rw [port]; exact ⟨rfl, rfl⟩
  · rw [State.resetWith_ctx, State.resetWith_record]; exact ⟨rfl, rfl⟩
  · rw [port]; exact ⟨rfl, rfl, rfl, rfl, rfl, rfl⟩
  · rw [port]; exact ⟨rfl, rfl, rfl, rfl, rfl, rfl, rfl, rfl⟩
  · rw [port]; exact ⟨rfl, rfl⟩
  · rw [degree]; exact ⟨rfl, rfl, rfl⟩
  · rw [degree]; exact ⟨rfl, rfl, rfl, rfl, rfl, rfl, rfl, rfl, rfl, rfl⟩
  · rw [degree]; exact ⟨rfl, rfl⟩
  · rw [port]; exact ⟨rfl, rfl⟩
  · rw [degree]; exact ⟨rfl, lamp d⟩

/-- Settles O4: what the pin and the command do, by their definitions. -/
theorem thePinAndTheCommandResetThePart : Obligations.ThePinAndTheCommandResetThePart := by
  refine ⟨⟨fun s running => ?_, fun s p bytes held => ?_, fun s straps held => ?_⟩,
    fun s straps a b rest => ⟨fun waits => ?_, fun fields more waits => ?_⟩⟩
  · have run : exec .resetPinAssert s = .next { s.clearReceivers with inReset := true } := by
      rw [exec, execResetPinAssert, running]
      rfl
    refine ⟨_, run, rfl, rfl, fun d => rfl, rfl, fun p => s.clearReceivers_port p, ?_⟩
    rw [← running]
    rfl
  · simp [exec, execCommandArrival, execPeerFrameArrival, execControllerFrameArrival, whileRunning, held]
  · rw [exec, execResetPinRelease, if_pos held]
    rfl
  · obtain ⟨running, queue⟩ := waits
    simp [exec, execReset, whileRunning, running, State.runReset, queue, commandKind, byteOf,
      State.respond_eq, State.afterReset, Reply.ok]
  · obtain ⟨running, queue⟩ := waits
    have long : (byteOf 21 :: a :: b :: fields).length ≠ 3 := by
      have := List.length_pos_iff.2 more
      simp only [List.length_cons]
      omega
    simp [exec, execReset, whileRunning, running, State.runReset, queue, commandKind,
      State.respond_eq, State.answered, Reply.err, more, byteOf]

/-- Two fields side by side, read as one number. -/
theorem toNat_append_eq {m n : Nat} (x : BitVec m) (y : BitVec n) :
    (x ++ y).toNat = x.toNat * 2 ^ n + y.toNat := by
  rw [BitVec.toNat_append, ← Nat.shiftLeft_add_eq_or_of_lt y.isLt, Nat.shiftLeft_eq]

/-- Settles O5: the tick adds one to a word of 32 bits, and SETTIME writes it. -/
theorem timeBaseTicksAndIsSet : Obligations.TimeBaseTicksAndIsSet := by
  refine ⟨fun s => ⟨_, rfl, ?_, rfl, rfl⟩, fun s a b w x y z rest waits => ?_⟩
  · have := s.timeBase.isLt
    have one : (1 : BitVec 32).toNat = 1 := rfl
    rw [BitVec.toNat_add, one]
    split <;> omega
  · have word : BitVec.ofNat 32 (be4 w x y z) = w ++ x ++ y ++ z := by
      apply BitVec.eq_of_toNat_eq
      simp only [BitVec.toNat_ofNat, toNat_append_eq, be4, be2]
      omega
    have run := onCommand_eq waits.1 (by decide) waits.2 settimeWork
    refine ⟨_, run, ?_⟩
    rw [State.respond_eq, settimeWork, readSettime, word]
    exact ⟨rfl, rfl, rfl, rfl⟩

/-! ### Commands on a port or a degree -/

section
variable {s : State} {k : Nat} {a b : Byte} {fields : List Byte} {rest : List (List Byte)}
  {work : List Byte → State → State × Reply} {r : Reply}

/-- A command whose work updates one port is answered, and nothing else changes (R172). -/
theorem onCommand_onPort {p : PortNo} {f : PortState → PortState}
    (waits : s.commandWaits k a b fields rest) (hk : k < 256)
    (does : work fields { s with commands := rest } = (State.onPort { s with commands := rest } p f, r)) :
    ∃ t, onCommand s k work = .next t ∧ t.port p = f (s.port p) ∧ sameOtherPorts s t p ∧
      { t with ports := s.ports } = s.answered k a b rest r.code r.clamped r.body := by
  refine ⟨(s.answered k a b rest r.code r.clamped r.body).onPort p f, ?_, State.port_onPort_same _ _ _,
    fun q hq => State.port_onPort_other _ _ hq, rfl⟩
  rw [onCommand_eq waits.1 hk waits.2, does, State.respond_eq]
  rfl

/-- A command whose work updates one degree is answered, and nothing else changes (R172). -/
theorem onCommand_onDegree {d : DegreeNo} {f : DegreeState → DegreeState}
    (waits : s.commandWaits k a b fields rest) (hk : k < 256)
    (does : work fields { s with commands := rest } =
      (State.onDegree { s with commands := rest } d f, r)) :
    ∃ t, onCommand s k work = .next t ∧ t.degree d = f (s.degree d) ∧ sameOtherDegrees s t d ∧
      { t with degrees := s.degrees } = s.answered k a b rest r.code r.clamped r.body := by
  refine ⟨(s.answered k a b rest r.code r.clamped r.body).onDegree d f, ?_,
    State.degree_onDegree_same _ _ _, fun e he => State.degree_onDegree_other _ _ he, rfl⟩
  rw [onCommand_eq waits.1 hk waits.2, does, State.respond_eq]
  rfl

end

@[simp] theorem withDegree_byteOf (d : DegreeNo) (s : State) (work : DegreeNo → State × Reply) :
    withDegree (byteOf d.val) s work = work d := by
  simp [withDegree]

theorem withPort_outside {x : Byte} (outside : 12 ≤ x.toNat) (s : State)
    (work : PortNo → State × Reply) : withPort x s work = (s, .err .badPort) := by
  simp [withPort, readPort, Nat.not_lt.2 outside]

theorem withDegree_outside {x : Byte} (outside : 8 ≤ x.toNat) (s : State)
    (work : DegreeNo → State × Reply) : withDegree x s work = (s, .err .badPort) := by
  simp [withDegree, readDegree, Nat.not_lt.2 outside]

theorem withPath_unknown {s : State} {path : PathId}
    (unknown : ∀ i c, s.ctx i = some c → c.path ≠ path) (work : CtxIdx → Context → State × Reply) :
    withPath path s work = (s, .err .unknownPath) := by
  rw [withPath, State.lookup_none.2 unknown]

theorem withPath_known {s : State} {path : PathId} {i : CtxIdx} {c : Context} (hc : s.ctx i = some c)
    (hp : c.path = path) (only : ∀ j c', s.ctx j = some c' → c'.path = path → j = i)
    (work : CtxIdx → Context → State × Reply) : withPath path s work = work i c := by
  rw [withPath, State.lookup_of_unique hc hp only]
  dsimp only
  rw [hc]

/-- Settles O7: SYNC sets one flag of one port. -/
theorem syncMakesThePortSynced : Obligations.SyncMakesThePortSynced := fun _ _ _ p _ waits =>
  onCommand_onPort (work := syncWork) (r := .ok .none) waits (by decide) (onPortCommand_byteOf p _ _)

/-- Settles O16: READPORT and READNBR clear two flags and answer the view. -/
theorem readportAndReadnbrClearWhatTheyReturn : Obligations.ReadportAndReadnbrClearWhatTheyReturn := by
  refine ⟨fun s a b p rest waits => ?_, fun s a b d rest waits => ?_⟩
  · exact onCommand_onPort (work := readportWork) waits (by decide) (onPortCommand_byteOf p _ _)
  · exact onCommand_onDegree (work := readnbrWork) waits (by decide) (withDegree_byteOf d _ _)

/-! ### PROFILE (R18) -/

theorem PortState.bankOf_writeBank (q : PortState) (bank : Bank) (first : Nat) (ds : List Int) :
    (q.writeBank bank first ds).bankOf bank = writeDensities (q.bankOf bank) first ds ∧
      (q.writeBank bank first ds).bankOf bank.other = q.bankOf bank.other ∧
      { q.writeBank bank first ds with bankA := q.bankA, bankB := q.bankB } = q := by
  cases bank <;> exact ⟨rfl, rfl, rfl⟩

/-- A density written at the nearer bound lies at its cell, and every other cell keeps its own. -/
theorem read_writeDensities (b : Profile) (first : Nat) (ds : List Int) {k : Nat} (hk : k < 400) :
    Table.read (writeDensities b first ds) ⟨k, hk⟩ =
      if first ≤ k ∧ k < first + ds.length then max (-2000) (min ((ds[k - first]?).getD 0) 1000)
      else Table.read b ⟨k, hk⟩ := by
  rw [writeDensities, read_mapEntries]
  by_cases low : first ≤ k
  · by_cases high : k < first + ds.length
    · have within : k - first < ds.length := by omega
      simp [low, high, List.getElem?_eq_getElem within, clampDensity]
    · have outside : ds.length ≤ k - first := by omega
      simp [low, high, List.getElem?_eq_none outside]
  · simp [low]

theorem clamped_iff (ds : List Int) :
    (ds.any fun x => decide (x ≠ clampDensity x)) = decide (∃ x ∈ ds, x < -2000 ∨ 1000 < x) := by
  have one (x : Int) : x ≠ clampDensity x ↔ x < -2000 ∨ 1000 < x := by unfold clampDensity; omega
  simp [List.any_eq, one]

/-- Settles O9: PROFILE's tests in order, and the cells that it writes. -/
theorem profileWritesTheInactiveBank : Obligations.ProfileWritesTheInactiveBank := by
  intro s a b fields rest p bank first ds read waits
  have does : profileWork fields { s with commands := rest } =
      if first + ds.length > 400 then ({ s with commands := rest }, .err .badRange)
      else if (s.port p).active = bank then ({ s with commands := rest }, .err .wrongBank)
      else (State.onPort { s with commands := rest } p fun ps => ps.writeBank bank first ds,
        .okClamped .none (ds.any fun x => decide (x ≠ clampDensity x))) := by
    simp only [profileWork, decoded, read, withPort_byteOf] <;> rfl
  refine ⟨fun long => ?_, fun fits active => ?_, fun fits inactive => ?_⟩
  · exact onCommand_answered waits (by decide) (does.trans (if_pos long))
  · rw [if_neg (by omega), if_pos active] at does
    exact onCommand_answered waits (by decide) does
  · rw [if_neg (by omega), if_neg inactive] at does
    obtain ⟨t, run, port, others, frame⟩ := onCommand_onPort waits (by decide) does
    obtain ⟨written, other, same⟩ := (s.port p).bankOf_writeBank bank first ds
    refine ⟨t, run, fun k hk => ?_, port ▸ other, port ▸ same, others, ?_⟩
    · rw [port, written, read_writeDensities]
    · rw [frame, ← clamped_iff]
      rfl

/-! ### Parameters (R174) -/

/-- The range of an enumerated parameter. -/
theorem toNat_decide_one {v : Nat} (small : v ≤ 1) : (decide (v = 1)).toNat = v := by
  interval_cases v <;> rfl

/-- A code of an enumerated parameter that is written is one of the set. -/
theorem le_one_of_fit {v : Nat} {given : Int} (fit : (ParamRange.codes 0 1).fit given = some v) : v ≤ 1 := by
  unfold ParamRange.fit at fit
  dsimp only at fit
  split at fit
  · cases fit
    omega
  · cases fit

theorem PartParams.read_write (q : PartParams) {k j v : Nat} {given : Int}
    (fit : (paramRange k).fit given = some v) (hk : 20 ≤ k) (hk' : k ≤ 31) (hj : 20 ≤ j) (hj' : j ≤ 31) :
    (q.write k v).read j = if j = k then v else q.read j := by
  have code (h : k = 29 ∨ k = 30) : (decide (v = 1)).toNat = v := by
    refine toNat_decide_one (le_one_of_fit (given := given) ?_)
    rcases h with rfl | rfl <;> exact fit
  clear fit
  interval_cases k <;> interval_cases j <;> simp [PartParams.read, PartParams.write, code]

theorem PortParams.read_write (q : PortParams) {k j v : Nat} {given : Int}
    (fit : (paramRange k).fit given = some v) (hk : 1 ≤ k) (hk' : k ≤ 12) (hj : 1 ≤ j) (hj' : j ≤ 12) :
    (q.write k v).read j = if j = k then v else q.read j := by
  have code (h : k = 11) : (decide (v = 1)).toNat = v := by
    subst h
    exact toNat_decide_one (le_one_of_fit (given := given) fit)
  clear fit
  interval_cases k <;> interval_cases j <;> simp [PortParams.read, PortParams.write, code]

section
variable {k : Nat}

theorem paramScope_part (h : 20 ≤ k) (h' : k ≤ 31) : paramScope k = some .part := by
  unfold paramScope
  rw [if_neg (by omega), if_neg (by omega), if_pos ⟨h, h'⟩]

theorem paramScope_port (h : 1 ≤ k) (h' : k ≤ 12) : paramScope k = some .port := if_pos ⟨h, h'⟩

theorem paramScope_readOnly (h : 40 ≤ k) (h' : k ≤ 43) : paramScope k = some .readOnly := by
  unfold paramScope
  rw [if_neg (by omega), if_neg (by omega), if_neg (by omega), if_pos ⟨h, h'⟩]

theorem paramScope_unlisted (h : ¬listedItem k) : paramScope k = none := by
  unfold listedItem at h
  unfold paramScope
  rw [if_neg (by omega), if_neg (by omega), if_neg (by omega), if_neg (by omega)]

end

/-- SETPARAM of a number and a value that its range takes, by the scope of the number. -/
theorem setparamWork_fit {fields : List Byte} {k v : Nat} {x : Byte} {given : Int}
    (read : readSetparam fields = some (k, x, given)) (fit : (paramRange k).fit given = some v) (s : State) :
    setparamWork fields s =
      match paramScope k with
      | some .part => ({ s with part := s.part.write k v }, .okClamped .none (decide ((v : Int) ≠ given)))
      | some .port => withPort x s fun p =>
        (s.onPort p fun ps => { ps with params := ps.params.write k v },
          .okClamped .none (decide ((v : Int) ≠ given)))
      | some .degree => withDegree x s fun d =>
        (s.onDegree d fun ds => { ds with lampMode := lampModeOf v },
          .okClamped .none (decide ((v : Int) ≠ given)))
      | some .readOnly => (s, .err .malformed)
      | none => (s, .err .malformed) := by
  simp only [setparamWork, decoded, read, fit] <;> rfl

/-- Settles O13: SETPARAM writes by the scope of its number. -/
theorem setparamWritesOneParameter : Obligations.SetparamWritesOneParameter := by
  intro s a b x fields rest k v given read fit waits
  have does := setparamWork_fit read fit { s with commands := rest }
  refine ⟨fun low high => ?_, fun low high p field => ?_, fun lamp d field => ?_⟩
  · rw [paramScope_part low high] at does
    refine ⟨_, onCommand_eq waits.1 (by decide) waits.2 setparamWork, ?_⟩
    rw [does, State.respond_eq]
    exact ⟨fun j hj hj' => PartParams.read_write _ fit low high hj hj', rfl⟩
  · subst field
    simp only [paramScope_port low high, withPort_byteOf] at does
    obtain ⟨t, run, port, others, frame⟩ := onCommand_onPort waits (by decide) does
    refine ⟨t, run, fun j hj hj' => ?_, ?_, others, frame⟩
    · rw [port]
      exact PortParams.read_write _ fit low high hj hj'
    · rw [port]
  · subst field lamp
    simp only [show paramScope 13 = some .degree from rfl, withDegree_byteOf] at does
    exact onCommand_onDegree waits (by decide) does

/-! ### GETPARAM and READCTX -/

@[simp] theorem readIndex_byteOf (i : CtxIdx) : readIndex (byteOf i.val) = some i := by
  have fits : (byteOf i.val).toNat = i.val := toNat_byteOf (by omega)
  simp [readIndex, fits]

/-- GETPARAM by the scope of its number. -/
theorem getparamWork_eq (y x : Byte) (s : State) :
    getparamWork [y, x] s =
      match paramScope y.toNat with
      | some .part => (s, .ok (.value (s.part.read y.toNat)))
      | some .port => withPort x s fun p => (s, .ok (.value ((s.port p).params.read y.toNat)))
      | some .degree => withDegree x s fun d => (s, .ok (.value (s.degree d).lampMode.code))
      | some .readOnly => (s, .ok (.value (s.readOnlyItem y.toNat)))
      | none => (s, .err .malformed) := rfl

/-- Settles O14: GETPARAM reads by the scope of its number, and READCTX one record. -/
theorem getparamAndReadctxAnswer : Obligations.GetparamAndReadctxAnswer := by
  refine ⟨fun s a b x k rest waits small => ?_, fun s a b x rest waits => ?_,
    fun s a b h1 h0 n1 n0 rest path waits read => ?_⟩
  · have does := getparamWork_eq (byteOf k) x { s with commands := rest }
    rw [toNat_byteOf small] at does
    have item (code : 40 ≤ k ∧ k ≤ 43) : exec .getparam s = .next (s.answered 13 a b rest .ok false
        (.value (State.readOnlyItem { s with commands := rest } k))) := by
      rw [paramScope_readOnly code.1 code.2] at does
      exact onCommand_answered waits (by decide) does
    refine ⟨fun low high => ?_, fun low high p field => ?_, fun lamp d field => ?_, fun e => ?_,
      fun e => ?_, fun e => ?_, fun e => ?_⟩
    · rw [paramScope_part low high] at does
      exact onCommand_answered waits (by decide) does
    · subst field
      simp only [paramScope_port low high, withPort_byteOf] at does
      exact onCommand_answered waits (by decide) does
    · subst field lamp
      simp only [show paramScope 13 = some .degree from rfl, withDegree_byteOf] at does
      exact onCommand_answered waits (by decide) does
    · subst e
      exact item (by decide)
    · subst e
      have bit (v : Bool) : (v.toNat : Int) = if v then 1 else 0 := by cases v <;> rfl
      rw [item (by decide), ← bit]
      rfl
    · subst e
      exact item (by decide)
    · subst e
      exact item (by decide)
  · refine ⟨fun outside => ?_, fun i field => ?_⟩
    · refine onCommand_answered (work := readctxWork) (r := .err .badRange) waits (by decide) ?_
      simp [readctxWork, decoded, readReadctx, readIndex, Nat.not_lt.2 outside]
    · subst field
      refine onCommand_answered (work := readctxWork) (r := s.contextReply i) waits (by decide) ?_
      simp [readctxWork, decoded, readReadctx]
      rfl
  · have does (u : State) : readctxWork [2, h1, h0, n1, n0] u =
        withPath path u fun i _ => (u, u.contextReply i) := by
      simp [readctxWork, decoded, readReadctx, readPathField, read]
    refine ⟨fun unknown => ?_, fun i c hc hp only => ?_⟩
    · refine onCommand_answered (work := readctxWork) (r := .err .unknownPath) waits (by decide) ?_
      rw [does]
      exact withPath_unknown (s := { s with commands := rest }) unknown _
    · refine onCommand_answered (work := readctxWork)
        (r := .ok (.context i (s.record i) (c.timer.map (· - s.elapsed)))) waits (by decide) ?_
      rw [does]
      refine (withPath_known (s := { s with commands := rest }) hc hp only _).trans ?_
      rw [State.contextReply, show State.ctx { s with commands := rest } i = some c from hc]
      rfl

end Sys2Proof.Machine

/-! PROOFS. The refusals of commands by their decoding (R173, R174). -/

namespace Sys2Proof.Machine

open Sys2Proof

section
variable {s : State} {k : Nat} {a b : Byte} {fields : List Byte} {rest : List (List Byte)}

/-- A command whose fields fail check 1 is answered MALFORMED (R173). -/
theorem onCommand_undecoded {α : Type} {x : Option α} {work : List Byte → State → State × Reply}
    (waits : s.commandWaits k a b fields rest) (hk : k < 256) (fails : x.isSome = false)
    (does : α → State × Reply)
    (is : work fields { s with commands := rest } = decoded x { s with commands := rest } does) :
    onCommand s k work = .next (s.answered k a b rest .malformed false .none) := by
  rw [Option.isSome_eq_false_iff, Option.isNone_iff_eq_none] at fails
  subst fails
  exact onCommand_answered (r := .err .malformed) waits hk is

/-- A command with a port outside those that it accepts is answered BADPORT (R173). -/
theorem onCommand_badPort (work : List Byte → State → State × Reply)
    (waits : s.commandWaits k a b fields rest) (hk : k < 256)
    (is : work fields { s with commands := rest } = ({ s with commands := rest }, .err .badPort)) :
    onCommand s k work = .next (s.answered k a b rest .badPort false .none) :=
  onCommand_answered (r := .err .badPort) waits hk is

end

/-- A value outside the set of an enumerated parameter fits no range (R174). -/
theorem fit_eq_none {k : Nat} {given : Int} (outside : outsideItsSet k given) :
    (paramRange k).fit given = none := by
  rcases outside with ⟨rfl | rfl | rfl, zero, one⟩ | ⟨rfl, range⟩ <;>
    simp only [paramRange, ParamRange.fit] <;> exact if_neg (by omega)

/-- A value inside the set of its parameter fits. -/
theorem fit_isSome {k : Nat} {given : Int} (listed : 1 ≤ k ∧ k ≤ 13) (inside : ¬outsideItsSet k given) :
    ∃ v, (paramRange k).fit given = some v := by
  unfold outsideItsSet at inside
  obtain ⟨low, high⟩ := listed
  interval_cases k <;> simp only [paramRange, ParamRange.fit] <;>
    first
    | exact ⟨_, rfl⟩
    | exact ⟨_, if_pos (by omega)⟩

/-- A number with no scope, or a read-only item, is not written. -/
theorem setparamWork_malformed {fields : List Byte} {k : Nat} {x : Byte} {given : Int}
    (read : readSetparam fields = some (k, x, given))
    (bad : ¬listedItem k ∨ 40 ≤ k ∨ outsideItsSet k given) (s : State) :
    setparamWork fields s = (s, .err .malformed) := by
  cases fit : (paramRange k).fit given with
  | none =>
    simp only [setparamWork, decoded, read, fit]
  | some v =>
    have scope : paramScope k = some .readOnly ∨ paramScope k = none := by
      rcases bad with unlisted | item | outside
      · exact .inr (paramScope_unlisted unlisted)
      · by_cases high : k ≤ 43
        · exact .inl (paramScope_readOnly item high)
        · exact .inr (paramScope_unlisted (by unfold listedItem; omega))
      · rw [fit_eq_none outside] at fit
        cases fit
    rw [setparamWork_fit read fit]
    rcases scope with scope | scope <;> rw [scope]

theorem setparamWork_badPort {fields : List Byte} {k : Nat} {x : Byte} {given : Int}
    (read : readSetparam fields = some (k, x, given)) (scope : outsideItsScope k x)
    (inside : ¬outsideItsSet k given) (s : State) : setparamWork fields s = (s, .err .badPort) := by
  have listed : 1 ≤ k ∧ k ≤ 13 := by unfold outsideItsScope at scope; omega
  obtain ⟨v, fit⟩ := fit_isSome listed inside
  rw [setparamWork_fit read fit]
  rcases scope with ⟨low, high, outside⟩ | ⟨rfl, outside⟩
  · rw [paramScope_port low high]
    exact withPort_outside outside _ _
  · exact withDegree_outside outside _ _

/-- Settles O6: each command's fields are read by check 1 and its port by check 2 before anything else. -/
theorem commandsThatFailDecodingAreRefused : Obligations.CommandsThatFailDecodingAreRefused := by
  refine ⟨⟨fun s c k limit a b x rest mem outside waits => ?_,
    fun s c k a b x f1 f0 n1 n0 rest mem outside waits => ?_⟩,
    fun s a b x fields rest bank first ds read outside waits => ?_,
    fun s a b x fields rest k given read waits => ⟨fun bad => ?_, fun scope inside => ?_⟩,
    fun s a b k x rest waits => ⟨fun unlisted => ?_, fun scope => ?_⟩,
    fun s c k a b fields rest mem waits => ?_, fun s k a b fields rest unknown waits => ?_⟩
  · simp only [portCommands, List.mem_cons, Prod.mk.injEq, List.not_mem_nil, or_false] at mem
    rcases mem with ⟨rfl, rfl, rfl⟩ | ⟨rfl, rfl, rfl⟩ | ⟨rfl, rfl, rfl⟩ | ⟨rfl, rfl, rfl⟩ | ⟨rfl, rfl, rfl⟩ |
      ⟨rfl, rfl, rfl⟩ | ⟨rfl, rfl, rfl⟩ | ⟨rfl, rfl, rfl⟩
    · exact onCommand_badPort syncWork waits (by decide) (withPort_outside outside _ _)
    · exact onCommand_badPort swapWork waits (by decide) (withPort_outside outside _ _)
    · exact onCommand_badPort thawWork waits (by decide) (withPort_outside outside _ _)
    · exact onCommand_badPort portclearWork waits (by decide) (withPort_outside outside _ _)
    · exact onCommand_badPort readmapWork waits (by decide) (withPort_outside outside _ _)
    · exact onCommand_badPort readportWork waits (by decide) (withPort_outside outside _ _)
    · exact onCommand_badPort readnbrWork waits (by decide) (withDegree_outside outside _ _)
    · exact onCommand_badPort identqWork waits (by decide) (withDegree_outside outside _ _)
  · simp only [List.mem_cons, Prod.mk.injEq, List.not_mem_nil, or_false] at mem
    rcases mem with ⟨rfl, rfl⟩ | ⟨rfl, rfl⟩
    · exact onCommand_badPort blockWork waits (by decide) (withPort_outside outside _ _)
    · exact onCommand_badPort unblockWork waits (by decide) (withPort_outside outside _ _)
  · refine onCommand_answered (work := profileWork) (r := .err .badPort) waits (by decide) ?_
    simp only [profileWork, decoded, read]
    exact withPort_outside outside _ _
  · exact onCommand_answered (r := .err .malformed) waits (by decide) (setparamWork_malformed read bad _)
  · exact onCommand_answered (r := .err .badPort) waits (by decide) (setparamWork_badPort read scope inside _)
  · refine onCommand_answered (work := getparamWork) (r := .err .malformed) waits (by decide) ?_
    rw [getparamWork_eq, paramScope_unlisted unlisted]
  · refine onCommand_answered (work := getparamWork) (r := .err .badPort) waits (by decide) ?_
    rw [getparamWork_eq]
    rcases scope with ⟨low, high, outside⟩ | ⟨lamp, outside⟩
    · rw [paramScope_port low high]
      exact withPort_outside outside _ _
    · rw [lamp]
      exact withDegree_outside outside _ _
  · simp only [decodings, List.mem_cons, Prod.mk.injEq, List.not_mem_nil, or_false] at mem
    rcases mem with ⟨rfl, rfl, fails⟩ | ⟨rfl, rfl, fails⟩ | ⟨rfl, rfl, fails⟩ | ⟨rfl, rfl, fails⟩ |
      ⟨rfl, rfl, fails⟩ | ⟨rfl, rfl, fails⟩ | ⟨rfl, rfl, fails⟩ | ⟨rfl, rfl, fails⟩ | ⟨rfl, rfl, fails⟩ |
      ⟨rfl, rfl, fails⟩ | ⟨rfl, rfl, fails⟩ | ⟨rfl, rfl, fails⟩ | ⟨rfl, rfl, fails⟩ | ⟨rfl, rfl, fails⟩ |
      ⟨rfl, rfl, fails⟩ | ⟨rfl, rfl, fails⟩ | ⟨rfl, rfl, fails⟩ | ⟨rfl, rfl, fails⟩ | ⟨rfl, rfl, fails⟩ |
      ⟨rfl, rfl, fails⟩
    all_goals exact onCommand_undecoded waits (by decide) fails.symm _ rfl
  · obtain ⟨running, queue⟩ := waits
    have kind : commandKind (byteOf k.toNat :: a :: b :: fields) = some k.toNat := by
      simp [commandKind, byteOf]
    have notKnown : kindKnown (some k.toNat) = false := by
      simp only [kindKnown, Option.any_some, Bool.and_eq_false_iff, decide_eq_false_iff_not]
      omega
    simp [exec, execUnknownCommandKind, whileRunning, running, State.runUnknown, queue, kind, notKnown,
      State.respond_eq, State.answered, Reply.err]

end Sys2Proof.Machine

/-! PROOFS. A state that meets the laws of the step machine, the map and the table, and a step from it
that breaks them: the laws leave the way of an OFFERED context's teardown open, and under the retreat way
LINE DOWN starts a dark jump (R170), which is for contexts that hold a range. -/

namespace Sys2Proof.Machine

open Sys2Proof

/-- A transit in OFFERED whose teardown has been decided along the retreat way. -/
def offeredInRetreat : Context :=
  { newContext ⟨2, 9⟩ .transit .normal (.degree 0) 1 2 .offered 0 with
    candidates := some [⟨10, 0⟩], teardown := some ⟨.localAbort, .retreat, .none⟩ }

/-- Port 1 with its line up, the cells of `offeredInRetreat` Held, and a report that the line is down. -/
def losingLine : PortState :=
  { PortState.reset with
    synced := true, lineIsUp := true, reports := [.lineDown],
    map := writeRange PortState.reset.map 10 2 (fun _ => true) (.held 0) }

/-- After a reset, with `offeredInRetreat` as context 0 on the port `losingLine`. -/
def offerLosingLine : State :=
  { ((State.resetWith 1).putCtx 0 offeredInRetreat).onPort 1 (fun _ => losingLine) with
    pending := [.lineDown 1] }

theorem offerLosingLine_context : offerLosingLine.ctx 0 = some offeredInRetreat :=
  State.ctx_putCtx_same (State.resetWith 1) 0 offeredInRetreat

theorem offerLosingLine_contexts {i : CtxIdx} {c : Context} (held : offerLosingLine.ctx i = some c) :
    i = 0 ∧ c = offeredInRetreat := by
  by_cases first : i = 0
  · subst first
    exact ⟨rfl, Option.some.inj (held.symm.trans offerLosingLine_context)⟩
  · have other : offerLosingLine.ctx i = none :=
      (State.ctx_putCtx_other _ _ first).trans (State.resetWith_ctx 1 i)
    cases held.symm.trans other

theorem offerLosingLine_port_one : offerLosingLine.port 1 = losingLine :=
  State.port_onPort_same _ 1 _

theorem offerLosingLine_port_other {p : PortNo} (other : p ≠ 1) : offerLosingLine.port p = .reset :=
  (State.port_onPort_other _ _ other).trans (State.resetWith_port 1 p)

theorem offerLosingLine_cell (p : PortNo) (k : Nat) : cellAt (offerLosingLine.port p).map k =
    if k < 400 then some (if p = 1 ∧ 10 ≤ k ∧ k < 12 then .held 0 else .free) else none := by
  have reset : cellAt PortState.reset.map k = if k < 400 then some .free else none := by
    split
    · exact cellAt_reset ‹_›
    · rw [cellAt, dif_neg ‹_›]
  by_cases one : p = 1
  · subst one
    rw [offerLosingLine_port_one, losingLine, cellAt_writeRange, reset]
    by_cases band : k < 400 <;> by_cases r : 10 ≤ k ∧ k < 12 <;> simp [band, r, inRange]
  · rw [offerLosingLine_port_other one, reset]
    simp [one]

theorem offerLosingLine_inRange : offerLosingLine.inRange := by
  obtain ⟨part, -, -, degrees⟩ := State.resetWith_inRange 1
  obtain ⟨params, bankA, bankB, gain, requested, tenure, slowest, settings, units⟩ :=
    PortState.reset_inRange
  refine ⟨part, fun i c held => ?_, fun p => ?_, degrees⟩
  · rw [(offerLosingLine_contexts held).2]
    simp [Context.inRange, Context.powerInRange, Context.pathInRange, Context.spectrumInRange, isNode,
      offeredInRetreat, newContext]
  · by_cases one : p = 1
    · rw [one, offerLosingLine_port_one]
      exact ⟨params, bankA, bankB, gain, requested, tenure, slowest, settings, units⟩
    · rw [offerLosingLine_port_other one]
      exact ⟨params, bankA, bankB, gain, requested, tenure, slowest, settings, units⟩

theorem offerLosingLine_stepLaw : offerLosingLine.stepLaw := by
  have idle : ∀ p, (offerLosingLine.port p).stepFits ∧ (offerLosingLine.port p).retreatQ = [] ∧
      (offerLosingLine.port p).restoreQ = [] ∧ (offerLosingLine.port p).normalQ = [] ∧
      (offerLosingLine.port p).holder = none := by
    intro p
    by_cases one : p = 1
    · rw [one, offerLosingLine_port_one]
      exact ⟨⟨rfl, rfl, rfl, rfl, rfl, rfl, rfl, rfl⟩, rfl, rfl, rfl, rfl⟩
    · rw [offerLosingLine_port_other one]
      exact ⟨⟨rfl, rfl, rfl, rfl, rfl, rfl, rfl, rfl⟩, rfl, rfl, rfl, rfl⟩
  refine ⟨fun i c held => ?_, fun p => ?_⟩
  · rw [(offerLosingLine_contexts held).2]
    simp [Context.fieldsFit, offeredInRetreat, newContext]
  · obtain ⟨fits, retreats, restores, normals, holder⟩ := idle p
    simp [fits, PortState.members, retreats, restores, normals, holder]

theorem offerLosingLine_law : offerLosingLine.Law := by
  refine ⟨fun p unsynced k i held => ?_, fun p k x i cell owner => ?_, fun i j c c' hc hc' _ => ?_⟩
  · by_cases one : p = 1
    · subst one
      rw [offerLosingLine_port_one] at unsynced
      cases unsynced
    · rw [offerLosingLine_cell] at held
      simp [one] at held
  · rw [offerLosingLine_cell] at cell
    by_cases r : p = 1 ∧ 10 ≤ k ∧ k < 12
    · have band : k < 400 := by omega
      rw [if_pos band, if_pos r] at cell
      cases cell
      cases owner
      exact ⟨_, offerLosingLine_context, r.1.symm⟩
    · rw [if_neg r] at cell
      split at cell <;> cases cell
      cases owner
  · rw [(offerLosingLine_contexts hc).1, (offerLosingLine_contexts hc').1]

theorem offerLosingLine_cellsFit : offerLosingLine.cellsFit := by
  intro i c held k x owner
  obtain ⟨rfl, rfl⟩ := offerLosingLine_contexts held
  have owns : offeredInRetreat.ownsAt 0 k = if 10 ≤ k ∧ k < 12 then some (.held 0) else none := by
    simp [Context.ownsAt, offeredInRetreat, newContext]
  have port : offeredInRetreat.outPort = 1 := rfl
  rw [offerLosingLine_cell, owns, port]
  by_cases r : 10 ≤ k ∧ k < 12
  · simp [r, show k < 400 by omega]
  · have notFree : x ≠ .free := fun free => by rw [free] at owner; cases owner
    simp [r, notFree.symm]

/-- The state after LINE DOWN has been taken on port 1. -/
def lineLost : State := { offerLosingLine with pending := [] }.takeReport 1 (lineDownRow 1)

theorem step_lineDown {s : State} {p : PortNo} {rest : List Instr} (front : s.pending = .lineDown p :: rest)
    (running : s.inReset = false) :
    step s = .next ({ s with pending := rest }.takeReport p (lineDownRow p)) := by
  rw [stepRunsTheFrontCommand.1 _ s rest front]
  exact whileRunning_running (s := { s with pending := rest }) running (·.takeReport p (lineDownRow p))

theorem step_offerLosingLine : step offerLosingLine = .next lineLost :=
  step_lineDown rfl rfl

/-- LINE DOWN leaves the context CLOSING with no range chosen, and its cells Held. -/
theorem lineLost_closing : (∃ c, lineLost.ctx 0 = some c ∧ c.state = .closing ∧ c.chosen = none ∧
    c.outPort = 1) ∧ cellAt (lineLost.port 1).map 10 = some (.held 0) := by
  have context : (lineLost.ctx 0).map (fun c => (c.state, c.chosen, c.outPort)) =
      some (.closing, none, 1) := by decide +kernel
  obtain ⟨c, held, fields⟩ := Option.map_eq_some_iff.mp context
  simp only [Prod.mk.injEq] at fields
  exact ⟨⟨c, held, fields⟩, by decide +kernel⟩

/-- Refutes O58: from `offerLosingLine`, whose fields are in range and which meets the laws of the step
machine, a step leads to a CLOSING context with no range chosen. -/
theorem not_stepMachineLawsArePreserved : ¬ Obligations.StepMachineLawsArePreserved := by
  intro claim
  obtain ⟨⟨c, held, closing, unchosen, -⟩, -⟩ := lineLost_closing
  obtain ⟨⟨contexts, -⟩, -⟩ :=
    claim _ _ offerLosingLine_inRange offerLosingLine_stepLaw step_offerLosingLine
  obtain ⟨⟨-, chosen, -⟩, -⟩ := contexts 0 c held
  have isChosen : c.chosen.isSome := chosen.mpr (by simp [closing])
  rw [unchosen] at isChosen
  cases isChosen

/-- Refutes O56, in its second half: from `offerLosingLine`, which also meets the laws of the map and the
table and owns exactly its candidates' cells, a step leads to a CLOSING context that owns a Held cell. -/
theorem not_mapAndTableLawsArePreserved : ¬ Obligations.MapAndTableLawsArePreserved := by
  intro claim
  obtain ⟨⟨c, held, closing, unchosen, port⟩, cell⟩ := lineLost_closing
  have fits := claim.2 _ _ offerLosingLine_inRange offerLosingLine_stepLaw offerLosingLine_law
    offerLosingLine_cellsFit step_offerLosingLine
  have owned : c.ownsAt 0 10 = some (.held 0) := (fits 0 c held 10 _ rfl).mp (port ▸ cell)
  simp [Context.ownsAt, closing, unchosen] at owned

end Sys2Proof.Machine

/-! PROOFS. A SWAP on a quiet port after which a context that waited on it has neither a target nor a
teardown: its record stands in a queue already, and a grant gives it a step before its turn comes. -/

namespace Sys2Proof.Machine

open Sys2Proof

/-- A transit in PREPARING that waits on a swap, of the kind `kind`. -/
def waitingContext (kind : Option RampKind) : Context :=
  { newContext ⟨2, 9⟩ .transit .normal (.degree 0) 1 2 .preparing 0 with
    chosen := some 10, att := some 2500, power := some 0, kind := kind, stepSize := some 100 }

/-- After a reset, with two waiting contexts on port 1: the second is of kind RETREAT and stands in the
RETREAT queue. A SWAP of the port waits. -/
def swapWithRetreat : State :=
  { (((State.resetWith 1).putCtx 0 (waitingContext none)).putCtx 1
      (waitingContext (some .retreat))).onPort 1 fun x => { x with gain := some 1000, retreatQ := [1] } with
    commands := [[9, 0, 0, 1]] }

/-- What is left for the SWAP's work once the command has been taken. -/
def swapMade : State :=
  (swapWork [byteOf 1] { swapWithRetreat with commands := [] }).1

theorem swapWithRetreat_waits : swapWithRetreat.commandWaits 9 0 0 [byteOf 1] [] := ⟨rfl, rfl⟩

theorem swapWithRetreat_quiet : swapWithRetreat.quiet 1 = true := by decide +kernel

theorem swapWithRetreat_context : swapWithRetreat.ctx 1 = some (waitingContext (some .retreat)) :=
  State.ctx_putCtx_same ((State.resetWith 1).putCtx 0 (waitingContext none)) 1 _

/-- The first context joins its queue, and the grant that follows is the second's. -/
theorem swapMade_context : (swapMade.ctx 1).map (fun c => (c.target, c.teardown, c.outstanding)) =
    some (none, none, some .set) := by decide +kernel

theorem State.respond_ctx (s : State) (k a b : Byte) (fields : List Byte) (r : Reply) (i : CtxIdx) :
    (s.respond (k :: a :: b :: fields) r).ctx i = s.ctx i := by
  rw [State.respond_eq]
  rfl

/-- Refutes O10, in what it says of the contexts that waited. -/
theorem not_swapWaitsForQuietOrIsMade : ¬ Obligations.SwapWaitsForQuietOrIsMade := by
  intro claim
  obtain ⟨t, made, -, -, -, -, -, -, -, -, waited, -⟩ :=
    (claim swapWithRetreat 0 0 1 [] swapWithRetreat_waits).2 swapWithRetreat_quiet
  obtain ⟨c, held, decided⟩ := waited 1 _ swapWithRetreat_context rfl rfl
  have answered : t.ctx 1 = swapMade.ctx 1 := by
    have run := onCommand_eq swapWithRetreat_waits.1 (by decide) swapWithRetreat_waits.2 swapWork
    rw [Host.Outcome.next.inj (made.symm.trans run)]
    exact State.respond_ctx swapMade _ _ _ _ _ _
  have context := swapMade_context
  rw [← answered, held] at context
  simp only [Option.map_some, Option.some.injEq, Prod.mk.injEq] at context
  simp [context] at decided

end Sys2Proof.Machine

/-! PROOFS. Reports that match no request, and the reports of a port's own: GAIN and LINE UP (R89, R95,
R96). -/

namespace Sys2Proof.Machine

open Sys2Proof

/-! ### Stray reports (R89) -/

section
variable {s : State} {p : PortNo} {i : CtxIdx} {tag : Byte}

/-- A report that names no context it fits does nothing (R89). -/
theorem State.ifMatched_stray {fits : Context → Bool}
    (stray : ∀ c, s.ctx i = some c → c.outPort ≠ p ∨ (s.record i).tag ≠ tag ∨ fits c = false)
    (work : Context → State) : s.ifMatched p i tag fits work = s := by
  have unmatched : s.matched p i tag fits = none := by
    rw [State.matched, Option.filter_eq_none_iff]
    intro c held taken
    simp only [Bool.and_eq_true, decide_eq_true_eq] at taken
    obtain ⟨⟨port, sameTag⟩, fit⟩ := taken
    rcases stray c held with no | no | no
    · exact no port
    · exact no sameTag
    · simp [no] at fit
  rw [State.ifMatched, unmatched]

/-- ACTUATED fits a context by the requests and the phase that R89 names. -/
theorem State.fitsActuated_iff (s : State) (p : PortNo) (c : Context) :
    s.fitsActuated p c = true ↔ c.outstanding = some .openBand ∨ c.outstanding = some .close ∨
      (c.outstanding = some .set ∧ (s.port p).phase = .actuating) := by
  simp [State.fitsActuated, Context.awaits, or_assoc]

theorem State.fitsSettle_iff (s : State) (p : PortNo) (c : Context) :
    s.fitsSettle p c = true ↔ c.outstanding = some .set ∧ (s.port p).phase = .observing := by
  simp [State.fitsSettle, Context.awaits]

/-- The row of a stray report only takes it from the queue. -/
theorem exec_stray {row : Instr} {is : Report → Prop} {fits : Context → Phase → Prop} {r : Report}
    (named : (row, is, fits) ∈ namedReports p i tag) (report : is r) (waits : s.reportWaits p r)
    (stray : ∀ c, s.ctx i = some c → c.outPort ≠ p ∨ (s.record i).tag ≠ tag ∨ ¬fits c (s.port p).phase) :
    exec row s = .next (s.popReport p) := by
  have phase : ((s.popReport p).port p).phase = (s.port p).phase := by simp
  have none_fits {fit : Context → Bool} (same : ∀ c, fit c = true ↔ fits c (s.port p).phase)
      (work : Context → State) :
      (s.popReport p).ifMatched p i tag fit work = s.popReport p :=
    State.ifMatched_stray (s := s.popReport p) (fun c held => (stray c held).imp_right (.imp_right fun no =>
      Bool.eq_false_iff.2 fun fit => no ((same c).1 fit))) work
  simp only [namedReports, List.mem_cons, Prod.mk.injEq, List.not_mem_nil, or_false] at named
  rcases named with ⟨rfl, rfl, rfl⟩ | ⟨rfl, rfl, rfl⟩ | ⟨rfl, rfl, rfl⟩ | ⟨rfl, rfl, rfl⟩ | ⟨rfl, rfl, rfl⟩
  · obtain ⟨done, x, rfl⟩ := report
    exact (onReport_eq (row := actuatedRow p) waits rfl).trans (congrArg _ (none_fits (fun c => by
      rw [State.fitsActuated_iff, phase]) _))
  · obtain ⟨x, rfl⟩ := report
    exact (onReport_eq (row := powerRow p) waits rfl).trans (congrArg _ (none_fits (fun c => by
      simp [Context.awaits]) _))
  · obtain ⟨x, rfl⟩ := report
    exact (onReport_eq (row := settledRow p) waits rfl).trans (congrArg _ (none_fits (fun c => by
      rw [State.fitsSettle_iff, phase]) _))
  · obtain ⟨k, rfl⟩ := report
    exact (onReport_eq (row := pendingRow p) waits rfl).trans (congrArg _ (none_fits (fun c => by
      rw [State.fitsSettle_iff, phase]) _))
  · obtain rfl := report
    exact (onReport_eq (row := continueRow p) waits rfl).trans (congrArg _ (none_fits (fun c => by
      rw [State.fitsSettle_iff, phase]) _))

end

/-- Settles O41: a report that matches no context leaves its queue, and that is all. -/
theorem strayReportsHaveNoEffect : Obligations.StrayReportsHaveNoEffect := by
  intro s p i tag row is fits r named report waits stray
  exact ⟨_, exec_stray named report waits stray, s.popReport_port p,
    fun _ other => State.port_onPort_other _ _ other, rfl⟩

/-! ### Entry to PROBING (R46) -/

section
variable {s : State} {d : DegreeNo}

theorem State.lowestFree_isNone (s : State) : s.lowestFree.isNone = decide (∀ i, s.ctx i ≠ none) := by
  rw [Bool.eq_iff_iff, decide_eq_true_iff, Option.isNone_iff_eq_none, State.lowestFree,
    List.find?_eq_none]
  simp [mem_allContexts]

/-- The HELLO of a degree in PROBING, and of a degree in UP with its neighbour (R44). -/
theorem State.sendHello_eq {dst : NodeId} (valid : s.identityValid = true)
    (sends : ((s.degree d).adj = .probing ∧ dst = 0) ∨
      ((s.degree d).adj = .up ∧ (s.degree d).nbrId = some dst)) :
    s.sendHello d = s.emit (portOf d) (.peer ⟨dst, s.nodeId, d,
      .hello (s.degree d).adj (decide (∀ i, s.ctx i ≠ none))
        (((List.finRange 12).filter fun p => !(s.port p).synced).map (·.val))⟩) := by
  rw [← State.lowestFree_isNone]
  rcases sends with ⟨adj, rfl⟩ | ⟨adj, nbr⟩
  · simp only [State.sendHello, adj, State.sendTo_of_valid valid]
    rfl
  · simp only [State.sendHello, adj, nbr, State.sendTo_of_valid valid]
    rfl

end

section
variable {s : State} {d : DegreeNo} {p : PortNo}

/-- A port written as it stands is unchanged. -/
theorem State.onPort_eq_self {f : PortState → PortState} (same : f (s.port p) = s.port p) :
    s.onPort p f = s := by
  have ports : Table.modify s.ports p f = s.ports := by
    refine Table.ext fun q => ?_
    by_cases e : q = p
    · subst e
      rw [Table.read_modify_same]
      exact same
    · exact Table.read_modify_other _ f e
  rw [State.onPort, ports]

/-- Frames formed for a port's link, after those it had (R186). -/
def State.sends (s : State) (p : PortNo) (fs : List OutFrame) : State :=
  s.onPort p fun x => { x with out := x.out ++ fs }

theorem State.sends_nil (s : State) (p : PortNo) : s.sends p [] = s :=
  State.onPort_eq_self (by simp)

theorem State.sendTo_sends (s : State) (d : DegreeNo) (dest : NodeId) (m : PeerMsg) :
    ∃ fs, s.sendTo d dest m = s.sends (portOf d) fs := by
  rcases s.sendTo_eq d dest m with e | e
  · exact ⟨[], e.trans (s.sends_nil _).symm⟩
  · exact ⟨_, e⟩

theorem State.sendPath_sends (s : State) (d : DegreeNo) (m : PeerMsg) :
    ∃ fs, s.sendPath d m = s.sends (portOf d) fs := by
  rcases s.sendPath_eq d m with e | ⟨f, e⟩
  · exact ⟨[], e.trans (s.sends_nil _).symm⟩
  · exact ⟨_, e⟩

theorem State.sendHello_sends (s : State) (d : DegreeNo) :
    ∃ fs, s.sendHello d = s.sends (portOf d) fs := by
  unfold State.sendHello
  dsimp only
  split
  · exact s.sendTo_sends _ _ _
  · exact s.sendTo_sends _ _ _
  · exact ⟨[], (s.sends_nil _).symm⟩

theorem sentOn_sends (s : State) (p : PortNo) (fs : List OutFrame) : sentOn s (s.sends p fs) p fs := by
  simp [sentOn, State.sends]

theorem samePortButOut_sends (s : State) (p q : PortNo) (fs : List OutFrame) :
    samePortButOut (s.port q) ((s.sends p fs).port q) := by
  by_cases e : q = p
  · subst e; simp [samePortButOut, State.sends]
  · rw [State.sends, State.port_onPort_other _ _ e]; rfl

theorem sameOtherPorts_sends (s : State) (p : PortNo) (fs : List OutFrame) :
    sameOtherPorts s (s.sends p fs) p :=
  fun _ other => State.port_onPort_other _ _ other

/-- A degree that enters PROBING, before its HELLO leaves (R46). -/
def State.probing (s : State) (d : DegreeNo) : State :=
  s.onDegree d fun x => { x with adj := .probing, seenUp := false, verif := .none, recoveryTimer := none }

theorem State.enterProbing_entersProbing (u : State) (d : DegreeNo) :
    entersProbing u (u.enterProbing d) d := by
  obtain ⟨fs, sent⟩ := (u.probing d).sendHello_sends d
  have before : (u.probing d).degree d =
      { u.degree d with adj := .probing, seenUp := false, verif := .none, recoveryTimer := none } :=
    State.degree_onDegree_same _ _ _
  have after : (((u.probing d).sends (portOf d) fs).armHello d).degree d =
      { (u.probing d).degree d with helloTimer := some (u.elapsed + u.part.helloInterval) } :=
    State.degree_onDegree_same _ _ _
  have enters : u.enterProbing d = (((u.probing d).sends (portOf d) fs).armHello d).adjacencyRecord d := by
    rw [← sent]; rfl
  rw [enters, State.adjacencyRecord, after, before]
  refine ⟨?_, fun e other => ?_, fun valid => ?_, ?_, fun q other => ?_, ?_, ?_⟩
  · rw [State.report_degree, after, before]
  · rw [State.report_degree]
    exact (State.degree_onDegree_other _ _ other).trans (State.degree_onDegree_other _ _ other)
  · have hello := State.sendHello_eq (s := u.probing d) (d := d) valid (.inl ⟨by rw [before], rfl⟩)
    rw [before, sent] at hello
    unfold sentOn
    rw [State.report_port]
    exact (congrArg (fun t : State => (t.port (portOf d)).out) hello).trans
      (sentOn_emit (u.probing d) _ _)
  · rw [State.report_port]
    exact samePortButOut_sends u (portOf d) (portOf d) fs
  · rw [State.report_port]
    exact sameOtherPorts_sends u (portOf d) fs q other
  · exact State.report_ring_congr (s := u) (t := ((u.probing d).sends (portOf d) fs).armHello d) rfl _
  · rw [State.report_eq]
    rfl

end

/-! ### GAIN and LINE UP (R95, R96) -/

theorem clampGain_eq (x : Int) :
    clampGain x = if x < 0 then 0 else if 3500 < x then 3500 else x.toNat := by
  unfold clampGain
  split
  · omega
  · split <;> omega

/-- Settles O53, by the port's one field and by the entry to PROBING. -/
theorem gainAndLineUpAreTaken : Obligations.GainAndLineUpAreTaken := by
  constructor
  · intro s p x waits
    refine ⟨_, onReport_eq (row := gainRow p) waits rfl, ?_, fun q other => ?_, rfl⟩
    · rw [State.port_onPort_same, clampGain_eq]
    · rw [State.port_onPort_other _ _ other]
      exact State.port_onPort_other _ _ other
  intro s p waits u
  refine ⟨fun stays => ?_, fun d port down valid => ?_⟩
  · have run : exec (.lineUp p) s = .next ((s.popReport p).lineUpOn p) :=
      onReport_eq (row := lineUpRow p) waits rfl
    rw [run, State.lineUpOn]
    split
    · rename_i d degree
      have stay : ¬((u.degree d).adj = .down ∧ u.identityValid = true) := by
        rcases stays d (portOf_of_degreeOf degree).symm with adj | invalid
        · exact fun both => adj both.1
        · exact fun both => Bool.false_ne_true (invalid.symm.trans both.2)
      exact congrArg _ (if_neg stay)
    · rfl
  · subst port
    have run : exec (.lineUp (portOf d)) s = .next ((s.popReport (portOf d)).lineUpOn (portOf d)) :=
      onReport_eq (row := lineUpRow (portOf d)) waits rfl
    have enters : (s.popReport (portOf d)).lineUpOn (portOf d) = u.enterProbing d := by
      rw [State.lineUpOn, degreeOf_portOf]
      exact if_pos ⟨down, valid⟩
    exact ⟨_, run.trans (congrArg _ enters), u.enterProbing_entersProbing d⟩

end Sys2Proof.Machine

/-! PROOFS. The answer to an identity query and its attempts (R53, R54), and the peer frames that are
discarded (R41, R78, R79). -/

namespace Sys2Proof.Machine

open Sys2Proof

/-! ### A query's attempts (R53) -/

section
variable {s : State} {d : DegreeNo}

/-- A query that ends with a verdict changes its degree and writes its Adjacency record (R52, R54). -/
theorem State.endQuery_eq (s : State) (d : DegreeNo) (v : Verif) :
    s.endQuery d v = (s.onDegree d fun x => { x with verif := v, identTimer := none }).report
      (.adjacency d (s.degree d).adj (s.degree d).nbrId v) := by
  rw [State.endQuery, State.adjacencyRecord, State.degree_onDegree_same]

theorem State.spendQuery_spent (u : State) (d : DegreeNo) : querySpent u (u.spendQuery d) d := by
  refine ⟨fun left => ?_, fun none_left => ?_⟩
  · obtain ⟨fs, sent⟩ := u.sendPath_sends d .identQuery
    have spent : u.spendQuery d = (u.sends (portOf d) fs).onDegree d fun x =>
        { x with queryAttempts := (u.degree d).queryAttempts + 1,
                 identTimer := some (u.elapsed + u.part.identTimeout) } := by
      rw [State.spendQuery, if_pos left, State.sendQuery, sent]
      rfl
    rw [spent]
    refine ⟨State.degree_onDegree_same _ _ _, fun n serves => ?_,
      samePortButOut_sends u (portOf d) (portOf d) fs, sameOtherPorts_sends u (portOf d) fs,
      fun e other => State.degree_onDegree_other _ _ other, rfl⟩
    obtain ⟨valid, up, nbr⟩ := serves
    have query := State.sendPath_up .identQuery valid up nbr
    rw [sent] at query
    exact (congrArg (fun t : State => (t.port (portOf d)).out) query).trans (sentOn_emit u _ _)
  · have spent : u.spendQuery d = u.endQuery d .unverified := if_neg (Nat.not_lt.2 none_left)
    rw [spent, State.endQuery_eq]
    refine ⟨?_, fun e other => ?_, State.report_ring_congr ?_ _, ?_⟩
    · rw [State.report_degree]
      exact State.degree_onDegree_same _ _ _
    · rw [State.report_degree]
      exact State.degree_onDegree_other _ _ other
    · rfl
    · rw [State.report_eq]
      rfl

/-! ### IDENT-REPLY (R54) -/

/-- A frame that waits has been read from a body. -/
theorem State.peerWaits_read {f : PeerFrame} (waits : s.peerWaits d f) : f.msg.wellRead := by
  obtain ⟨body, -, admitted⟩ := Option.bind_eq_some_iff.1 waits.2
  obtain ⟨-, admitted⟩ := Option.ite_none_right_eq_some.1 admitted
  exact readPeerFrame_wellRead (Option.filter_eq_some_iff.1 admitted).1

theorem DegreeState.objectsMatch_iff (x : DegreeState) (guard : Nat) (num1 num2 n1 n0 e g k : Byte)
    (more1 more2 : List Byte) :
    x.objectsMatch guard ⟨num1, n1 :: n0 :: more1⟩ ⟨num2, e :: g :: k :: more2⟩ = true ↔
      some (be2 n1 n0) = x.nbrId.map (·.toNat) ∧ some e.toNat = x.nbrDegree.map (·.val) ∧ g = 1 ∧
        k.toNat = guard := by
  have grid : g.toNat = 1 ↔ g = 1 := BitVec.toNat_inj (y := 1)
  simp [DegreeState.objectsMatch, IdentObject.field1, IdentObject.field2, Config.gridCode, and_assoc,
    grid]

/-- An ACK of two objects or more is held and judged (R54). -/
theorem State.takeAck_eq (s : State) (d : DegreeNo) (o1 o2 : IdentObject) (more : List IdentObject)
    (six : (o1 :: o2 :: more).length ≤ 6) :
    s.takeAck d (o1 :: o2 :: more) =
      (s.onDegree d fun x => { x with objects := o1 :: o2 :: more }).endQuery d
        (if (s.degree d).objectsMatch (s.port (portOf d)).params.guard o1 o2 then .verified
          else .mismatched) := by
  rw [State.takeAck, List.take_of_length_le six]

end

/-- Settles O38, by the shape of the answer: none expected, a NAK, and an ACK by its objects. -/
theorem identReplyGivesTheVerdict : Obligations.IdentReplyGivesTheVerdict := by
  intro s d deg dest src ack objects waits x ends
  have run : exec (.identReply d) s = .next ((s.popPeer d).takeReply d ack objects) :=
    onPeer_eq waits (identReplyUse d)
  have verif : ((s.popPeer d).degree d).verif = x.verif := by rw [State.popPeer_degree]
  have pending (is : x.verif = .pending) : (s.popPeer d).takeReply d ack objects =
      if ack then (s.popPeer d).takeAck d objects else (s.popPeer d).spendQuery d :=
    if_pos (verif.trans is)
  have acked (held : List IdentObject) (v : Verif) (is : x.verif = .pending) (ok : ack = true)
      (takes : (s.popPeer d).takeAck d objects =
        ((s.popPeer d).onDegree d fun y => { y with objects := held }).endQuery d v) : ends v held := by
    rw [pending is, if_pos ok, takes, State.endQuery_eq, State.degree_onDegree_same,
      State.onDegree_onDegree] at run
    refine ⟨_, run, ?_, fun e other => ?_, ?_, ?_⟩
    · rw [State.report_degree]
      exact State.degree_onDegree_same _ _ _
    · rw [State.report_degree]
      exact (State.degree_onDegree_other _ _ other).trans (State.degree_onDegree_other _ _ other)
    · rw [State.popPeer_degree]
      refine State.report_ring_congr ?_ _
      rfl
    · rw [State.report_eq]
      rfl
  refine ⟨fun other => ?_, fun is nak => ?_, fun is ok short => ?_, ?_⟩
  · rw [run, State.takeReply, verif, if_neg other]
  · rw [pending is, if_neg (by simp [nak])] at run
    exact ⟨_, run, (s.popPeer d).spendQuery_spent d⟩
  · refine acked _ _ is ok ?_
    have keep : ((s.popPeer d).onDegree d fun y => { y with objects := x.objects }) = s.popPeer d := by
      rw [State.popPeer, State.onDegree_onDegree]
      rfl
    rw [keep]
    match objects, short with
    | [], _ => rfl
    | [_], _ => rfl
  · rintro num1 num2 n1 n0 e g guard more1 more2 more is ok rfl
    have six := State.peerWaits_read waits
    have judged := (s.popPeer d).takeAck_eq d _ _ more six
    have agree := DegreeState.objectsMatch_iff ((s.popPeer d).degree d)
      ((s.popPeer d).port (portOf d)).params.guard num1 num2 n1 n0 e g guard more1 more2
    rw [State.popPeer_degree] at agree judged
    refine ⟨fun id degree grid same => ?_, fun differs => ?_⟩
    · rw [if_pos (agree.2 ⟨id.symm, degree.symm, grid, same.symm⟩)] at judged
      exact acked _ _ is ok judged
    · rw [if_neg (fun all => ?_)] at judged
      · exact acked _ _ is ok judged
      · obtain ⟨id, degree, grid, same⟩ := agree.1 all
        rcases differs with no | no | no | no
        · exact no id.symm
        · exact no degree.symm
        · exact no grid
        · exact no same.symm

end Sys2Proof.Machine

/-! PROOFS. The peer frames that are discarded: those that fail a check, and the messages out of place
(R41, R78, R79, R144). -/

namespace Sys2Proof.Machine

open Sys2Proof

/-! ### Taking a frame (R41) -/

section
variable {s : State} {d : DegreeNo} {k : Nat} {use : PeerFrame → State → State} {body : List Byte}
  {bodies : List (List Byte)}

/-- Without a frame of the row's kind at the head, the row does not arise (log 1). -/
theorem State.takePeer_of_otherKind
    (other : ∀ body rest, (s.degree d).peerQueue = body :: rest → peerKind body ≠ some k) :
    s.takePeer d k use = s := by
  unfold State.takePeer
  split
  · rename_i body rest queue
    exact if_neg (other body rest queue)
  · rfl

/-- A frame that fails the checks leaves its queue (R41). -/
theorem State.takePeer_of_notAdmitted (queue : (s.degree d).peerQueue = body :: bodies)
    (kind : peerKind body = some k) (fails : s.admitted d body = none) :
    s.takePeer d k use = s.popPeer d := by
  simp [State.takePeer, queue, kind, fails]

theorem State.admitted_eq_none (fails : failsPeerChecks (s.degree d) body) : s.admitted d body = none := by
  rw [State.admitted, Option.filter_eq_none_iff]
  intro f read
  obtain ⟨path, wrong⟩ := fails f read
  have notMonitor : f.msg.ofMonitor = false := by
    cases e : f.msg <;> simp_all [PeerMsg.ofMonitor, PeerMsg.kindCode]
  simp only [DegreeState.admits, notMonitor, Bool.false_or, Bool.and_eq_true, decide_eq_true_eq]
  rintro ⟨⟨up, nbr⟩, degree⟩
  rcases wrong with no | no | no
  · exact no up
  · exact no nbr
  · exact no degree

/-- The rows of the peer messages take a frame of their kind; the two rows of an ABORT leave to each other
what is for the other side (log 24). -/
theorem exec_peerRow {c : Instr} (running : s.inReset = false) (row : (c, k) ∈ peerRows d) :
    ∃ use, exec c s = .next (s.takePeer d k use) ∨
      (k = 7 ∧ ∃ side, exec c s = .next (if s.abortIsFor d side then s.takePeer d k use else s)) := by
  have plain (k : Nat) (use : PeerFrame → State → State) :
      onPeer s d k use = .next (s.takePeer d k use) := whileRunning_running running _
  simp only [peerRows, List.mem_cons, Prod.mk.injEq, List.not_mem_nil, or_false] at row
  rcases row with ⟨rfl, rfl⟩ | ⟨rfl, rfl⟩ | ⟨rfl, rfl⟩ | ⟨rfl, rfl⟩ | ⟨rfl, rfl⟩ | ⟨rfl, rfl⟩ |
    ⟨rfl, rfl⟩ | ⟨rfl, rfl⟩ | ⟨rfl, rfl⟩ | ⟨rfl, rfl⟩ | ⟨rfl, rfl⟩
  · exact ⟨_, .inl (plain 1 (offerUse d))⟩
  · exact ⟨_, .inl (plain 2 (acceptUse d))⟩
  · exact ⟨_, .inl (plain 3 (declineUse d))⟩
  · exact ⟨_, .inl (plain 4 (lightUse d))⟩
  · exact ⟨_, .inl (plain 5 (litUse d))⟩
  · exact ⟨_, .inl (plain 6 (releaseUse d))⟩
  · exact ⟨abortDownUse d, .inr ⟨rfl, .downstream, whileRunning_running running _⟩⟩
  · exact ⟨abortUpUse d, .inr ⟨rfl, .upstream, whileRunning_running running _⟩⟩
  · exact ⟨_, .inl (plain 8 (helloUse d))⟩
  · exact ⟨_, .inl (plain 9 (identQueryUse d))⟩
  · exact ⟨_, .inl (plain 10 (identReplyUse d))⟩

/-- A frame that fails the checks is for either row of an ABORT (log 24). -/
theorem State.abortIsFor_of_notAdmitted (queue : (s.degree d).peerQueue = body :: bodies)
    (fails : s.admitted d body = none) (side : AbortSide) : s.abortIsFor d side = true := by
  simp [State.abortIsFor, queue, fails]

theorem peerKindKnown_iff (kind : Option Nat) :
    peerKindKnown kind = true ↔ ∃ k, kind = some k ∧ 1 ≤ k ∧ k ≤ 10 := by
  simp [peerKindKnown, Option.any_eq_true]

end

/-- Settles O27: what fails leaves its queue, and a row without its frame does not arise. -/
theorem peerFramesThatFailAreDiscarded : Obligations.PeerFramesThatFailAreDiscarded := by
  intro s d c k running row
  have popped {body : List Byte} {rest : List (List Byte)}
      (queue : (s.degree d).peerQueue = body :: rest) :
      (s.popPeer d).degree d = { s.degree d with peerQueue := rest } ∧
        sameOtherDegrees s (s.popPeer d) d ∧ { s.popPeer d with degrees := s.degrees } = s := by
    refine ⟨?_, fun e other => State.degree_onDegree_other _ _ other, rfl⟩
    rw [State.popPeer_degree, queue]
    rfl
  have unknown : exec (.unknownPeerKindTaken d) s = .next (s.dropUnknown d) :=
    whileRunning_running running (·.dropUnknown d)
  refine ⟨fun body rest queue kind fails => ?_, fun other => ?_, fun body rest queue => ⟨fun strange => ?_,
    fun k' kind one ten => ?_⟩⟩
  · have notAdmitted := State.admitted_eq_none fails
    refine ⟨_, ?_, popped queue⟩
    obtain ⟨use, run | ⟨rfl, side, run⟩⟩ := exec_peerRow running row
    · rw [run, State.takePeer_of_notAdmitted queue kind notAdmitted]
    · rw [run, if_pos (State.abortIsFor_of_notAdmitted queue notAdmitted side),
        State.takePeer_of_notAdmitted queue kind notAdmitted]
  · obtain ⟨use, run | ⟨rfl, side, run⟩⟩ := exec_peerRow running row
    · rw [run, State.takePeer_of_otherKind other]
    · rw [run, State.takePeer_of_otherKind other, ite_self]
  · refine ⟨_, unknown.trans ?_, popped queue⟩
    have notKnown : ¬peerKindKnown (peerKind body) = true := fun known => by
      obtain ⟨k', kind, one, ten⟩ := (peerKindKnown_iff _).1 known
      have := strange k' kind
      omega
    simp [State.dropUnknown, queue, notKnown]
  · have known := (peerKindKnown_iff _).2 ⟨k', kind, one, ten⟩
    simp [unknown, State.dropUnknown, queue, known]

/-! ### An ABORT and its side (R164, R165) -/

section
variable {s : State} {d : DegreeNo} {f : PeerFrame}

/-- A frame that waits is taken by the row of its kind (R41). -/
theorem State.takePeer_waits (waits : s.peerWaits d f) (use : PeerFrame → State → State) :
    s.takePeer d f.msg.kindCode use = use f (s.popPeer d) :=
  Host.Outcome.next.inj ((whileRunning_running waits.1 _).symm.trans (onPeer_eq waits use))

/-- Which of the two rows a waiting ABORT is for (log 24). -/
theorem State.abortIsFor_waits (waits : s.peerWaits d f) (side : AbortSide) :
    s.abortIsFor d side = (decide (s.abortSide d f = side) || decide (s.abortSide d f = .neither)) := by
  obtain ⟨body, head, admitted⟩ := Option.bind_eq_some_iff.1 waits.2
  obtain ⟨bodies, queue⟩ := List.head?_eq_some_iff.1 head
  obtain ⟨-, admitted⟩ := Option.ite_none_right_eq_some.1 admitted
  simp [State.abortIsFor, queue, admitted]

variable {dest n : NodeId} {deg : DegreeNo} {path : PathId} {r : Reason} {origin : NodeId}

/-- An ABORT from neither side of a context is discarded by either row (R78, R79, log 24). -/
theorem exec_abort_neither (waits : s.peerWaits d ⟨dest, n, deg, .abort path r origin⟩)
    (side : s.abortSide d ⟨dest, n, deg, .abort path r origin⟩ = .neither) :
    exec (.abortFromDownstream d) s = .next (s.popPeer d) ∧
      exec (.abortFromUpstream d) s = .next (s.popPeer d) := by
  have still : (s.popPeer d).abortSide d ⟨dest, n, deg, .abort path r origin⟩ = .neither := side
  have isFor (row : AbortSide) : s.abortIsFor d row = true := by
    simp [State.abortIsFor_waits waits, side]
  have down : abortDownUse d ⟨dest, n, deg, .abort path r origin⟩ (s.popPeer d) = s.popPeer d := by
    simp only [abortDownUse, still]
    cases (s.popPeer d).lookup path <;> rfl
  have up : abortUpUse d ⟨dest, n, deg, .abort path r origin⟩ (s.popPeer d) = s.popPeer d := by
    simp only [abortUpUse, still]
    cases (s.popPeer d).lookup path <;> rfl
  refine ⟨(whileRunning_running waits.1 _).trans (congrArg _ ?_),
    (whileRunning_running waits.1 _).trans (congrArg _ ?_)⟩
  · exact (if_pos (isFor _)).trans ((State.takePeer_waits waits (abortDownUse d)).trans down)
  · exact (if_pos (isFor _)).trans ((State.takePeer_waits waits (abortUpUse d)).trans up)

theorem State.abortSide_unknown (unknown : s.lookup path = none) :
    s.abortSide d ⟨dest, n, deg, .abort path r origin⟩ = .neither := by
  simp [State.abortSide, unknown]

theorem State.abortSide_known {i : CtxIdx} {c : Context} (found : s.lookup path = some i)
    (held : s.ctx i = some c) : s.abortSide d ⟨dest, n, deg, .abort path r origin⟩ =
      if c.fromDownstream d then .downstream else if c.fromUpstream d then .upstream else .neither := by
  simp [State.abortSide, found, held]

end

/-- Settles O30: what each row does with a path that no context holds, and with a context that its message
does not fit. -/
theorem pathMessagesOutOfPlaceAreDiscarded : Obligations.PathMessagesOutOfPlaceAreDiscarded := by
  intro s d deg dest n path first cost r origin waits dropped
  have accept (w : waits (.accept path first cost)) :
      exec (.accept d) s = .next ((s.popPeer d).takeAccept d path first cost) :=
    onPeer_eq w (acceptUse d)
  have decline (w : waits (.decline path r origin)) :
      exec (.decline d) s = .next ((s.popPeer d).takeDecline d path r origin) :=
    onPeer_eq w (declineUse d)
  have light (w : waits (.light path)) :
      exec (.light d) s = .next ((s.popPeer d).takeLight d path) := onPeer_eq w (lightUse d)
  have lit (w : waits (.lit path)) :
      exec (.lit d) s = .next ((s.popPeer d).takeLit d path) := onPeer_eq w (litUse d)
  have release (w : waits (.release path)) :
      exec (.releaseFromUpstream d) s = .next ((s.popPeer d).takeRelease d path) :=
    onPeer_eq w (releaseUse d)
  have sameLookup : (s.popPeer d).lookup path = s.lookup path := rfl
  refine ⟨fun unknown serves row m either w => ?_, fun unknown => ⟨?_, ?_, ?_, ?_⟩, fun i c found held => ?_⟩
  · obtain ⟨valid, up, nbr⟩ := serves
    have reply : exec row s = .next ((s.popPeer d).unknownPath d path) := by
      simp only [List.mem_cons, Prod.mk.injEq, List.not_mem_nil, or_false] at either
      rcases either with ⟨rfl, rfl⟩ | ⟨rfl, rfl⟩
      · rw [accept w, State.takeAccept, sameLookup, unknown]
      · rw [light w, State.takeLight, sameLookup, unknown]
    rw [State.unknownPath, State.sendPath_up (s := s.popPeer d) _ valid (n := n) (by simpa using up)
      (by simpa using nbr)] at reply
    exact ⟨_, reply, sentOn_emit (s.popPeer d) _ _, samePortButOut_emit (s.popPeer d) _ _,
      sameOtherPorts_emit (s.popPeer d) _ _, rfl⟩
  · exact fun w => (decline w).trans (by rw [State.takeDecline, sameLookup, unknown])
  · exact fun w => (lit w).trans (by rw [State.takeLit, sameLookup, unknown])
  · exact fun w => (release w).trans (by rw [State.takeRelease, sameLookup, unknown])
  · exact fun w => exec_abort_neither w (State.abortSide_unknown unknown)
  · have context (f : Context → State) : (s.popPeer d).withCtx i f = f c := State.withCtx_some (s := s.popPeer d) held f
    refine ⟨fun off => ?_, fun off w => ?_, fun off w => ?_, fun off w => ?_, fun notOut notIn w => ?_⟩
    · have no : (c.fromDownstream d && decide (c.state = .offered)) = false := by
        simpa [Context.fromDownstream, Decidable.or_iff_not_imp_left] using off
      exact ⟨fun w => (accept w).trans (by
        rw [State.takeAccept, sameLookup, found]
        exact congrArg Host.Outcome.next ((context _).trans (if_neg (ne_true_of_eq_false no)))),
        fun w => (decline w).trans (by
        rw [State.takeDecline, sameLookup, found]
        exact congrArg Host.Outcome.next ((context _).trans (if_neg (ne_true_of_eq_false no))))⟩
    · have no : (c.fromUpstream d && decide (c.state = .awaitLight)) = false := by
        simpa [Context.fromUpstream, Decidable.or_iff_not_imp_left] using off
      exact (light w).trans (by
        rw [State.takeLight, sameLookup, found]
        exact congrArg Host.Outcome.next ((context _).trans (if_neg (ne_true_of_eq_false no))))
    · have no : (c.fromDownstream d && decide (c.state = .litWait)) = false := by
        simpa [Context.fromDownstream, Decidable.or_iff_not_imp_left] using off
      exact (lit w).trans (by
        rw [State.takeLit, sameLookup, found]
        exact congrArg Host.Outcome.next ((context _).trans (if_neg (ne_true_of_eq_false no))))
    · have no : c.fromUpstream d = false := by simpa [Context.fromUpstream] using off
      exact (release w).trans (by
        rw [State.takeRelease, sameLookup, found]
        exact congrArg Host.Outcome.next ((context _).trans (if_neg (ne_true_of_eq_false no))))
    · refine exec_abort_neither w ?_
      rw [State.abortSide_known found held]
      simp [Context.fromDownstream, Context.fromUpstream, notOut, notIn]

end Sys2Proof.Machine

/-! PROOFS. What the requests of the lighting logic do to the one record they are for, and RETRIM, ADOPT
and THAW (R36, R37, R118, R133, R135, R147, R148). -/

namespace Sys2Proof.Machine

open Sys2Proof

/-! ### One record written -/

/-- Record `i` written whole. -/
def State.setRecord (s : State) (i : CtxIdx) (r : Record) : State := s.onRecord i fun _ => r

section
variable {s : State} {i : CtxIdx} {tag : Byte} {c : Context}

theorem State.onRecord_setRecord (s : State) (i : CtxIdx) (r : Record) (f : Record → Record) :
    (s.setRecord i r).onRecord i f = s.setRecord i (f r) := by
  simp [State.setRecord, State.onRecord, Table.modify, Table.read, Table.write]

theorem State.onCtx_setRecord (s : State) (i : CtxIdx) (tag : Byte) (c : Context) (f : Context → Context) :
    (s.setRecord i ⟨tag, some c⟩).onCtx i f = s.setRecord i ⟨tag, some (f c)⟩ :=
  s.onRecord_setRecord i _ _

theorem State.advanceTag_setRecord (s : State) (i : CtxIdx) (tag : Byte) (x : Option Context) :
    (s.setRecord i ⟨tag, x⟩).advanceTag i = s.setRecord i ⟨tag + 1, x⟩ :=
  s.onRecord_setRecord i _ _

/-- A record written as it stands changes nothing. -/
theorem State.setRecord_self (held : s.ctx i = some c) :
    s.setRecord i ⟨(s.record i).tag, some c⟩ = s := by
  have same : (⟨(s.record i).tag, some c⟩ : Record) = s.record i := by rw [← held]; rfl
  have records : Table.modify s.records i (fun _ => s.record i) = s.records := by
    refine Table.ext fun j => ?_
    by_cases e : j = i
    · subst e; exact Table.read_modify_same _ _ _
    · exact Table.read_modify_other _ _ e
  rw [same, State.setRecord, State.onRecord, records]

theorem State.onCtx_eq_setRecord (held : s.ctx i = some c) (f : Context → Context) :
    s.onCtx i f = s.setRecord i ⟨(s.record i).tag, some (f c)⟩ := by
  conv_lhs => rw [← State.setRecord_self held]
  exact s.onCtx_setRecord i _ c f

@[simp] theorem State.record_setRecord (s : State) (i : CtxIdx) (r : Record) :
    (s.setRecord i r).record i = r :=
  State.record_onRecord_same _ _ _

@[simp] theorem State.ctx_setRecord (s : State) (i : CtxIdx) (r : Record) :
    (s.setRecord i r).ctx i = r.ctx := by
  rw [State.ctx, State.record_setRecord]

theorem sameOtherRecords_setRecord (s : State) (i : CtxIdx) (r : Record) :
    sameOtherRecords s (s.setRecord i r) i :=
  fun _ other => State.record_onRecord_other _ _ other

/-! ### Requests (R84) -/

/-- A request is formed for the context's port, and becomes the outstanding one under the next tag
(R30, R31). -/
theorem State.sendRequest_setRecord (s : State) {first : Nat} (chosen : c.chosen = some first) (k : ReqKind)
    (att : Nat) : (s.setRecord i ⟨tag, some c⟩).sendRequest i k att =
      (s.setRecord i ⟨tag + 1, some { c with outstanding := some k }⟩).emit c.outPort
        (.request ⟨k, i, tag + 1, first, c.width, att⟩) := by
  have tags : ((s.setRecord i ⟨tag, some c⟩).record i).tag = tag := by rw [State.record_setRecord]
  rw [State.sendRequest_eq (s := s.setRecord i ⟨tag, some c⟩) (State.ctx_setRecord _ _ _) chosen,
    State.advanceTag_setRecord, State.onCtx_setRecord, tags]

/-- A MEASURE sent as attempt `k` (R88, R93). -/
theorem State.sendMeasure_setRecord (s : State) {first : Nat} (chosen : c.chosen = some first) (k : Nat) :
    (s.setRecord i ⟨tag, some c⟩).sendMeasure i k =
      (s.setRecord i ⟨tag + 1, some { c with
        outstanding := some .measure, attempts := k,
        timer := some (s.elapsed + s.part.measureTimeout) }⟩).emit c.outPort
        (.request ⟨.measure, i, tag + 1, first, c.width, 0⟩) := by
  rw [State.sendMeasure, State.sendRequest_setRecord s chosen]
  exact congrArg (fun t : State => t.emit c.outPort _)
    ((congrArg (State.armCtx · i s.part.measureTimeout) (s.onCtx_setRecord i _ _ _)).trans
      (s.onCtx_setRecord i _ _ _))

/-- Entry to PREPARING: OPEN is sent (R135). -/
theorem State.enterPreparing_setRecord (s : State) {first : Nat} (chosen : c.chosen = some first) :
    (s.setRecord i ⟨tag, some c⟩).enterPreparing i =
      (s.setRecord i ⟨tag + 1, some { c with
        state := .preparing, attempts := 0, outstanding := some .openBand,
        timer := some (s.elapsed + (s.port c.outPort).params.actuationWindow) }⟩).emit c.outPort
        (.request ⟨.openBand, i, tag + 1, first, c.width, 2500⟩) := by
  rw [State.enterPreparing, State.withCtx_some (s := s.setRecord i ⟨tag, some c⟩) (c := c)
    (State.ctx_setRecord _ _ _)]
  dsimp only
  rw [State.onCtx_setRecord, State.sendRequest_setRecord s (c := { c with state := .preparing, attempts := 0 })
    chosen]
  have params : (((s.setRecord i ⟨tag + 1, some { c with
      state := .preparing, attempts := 0, outstanding := some .openBand }⟩).emit c.outPort
      (.request ⟨.openBand, i, tag + 1, first, c.width, Config.dark⟩)).port c.outPort).params =
        (s.port c.outPort).params := by
    rw [State.port_emit_same]; rfl
  rw [params]
  exact congrArg (fun t : State => t.emit c.outPort _) (s.onCtx_setRecord i _ _ _)

/-- Entry to TRIMMING: the mark clears and the first MEASURE is sent (R148). -/
theorem State.enterTrimming_setRecord (s : State) {first : Nat} (chosen : c.chosen = some first) :
    (s.setRecord i ⟨tag, some c⟩).enterTrimming i =
      (s.setRecord i ⟨tag + 1, some { c with
        state := .trimming, kind := none, flags := { c.flags with trimDue := false },
        attempts := 1, outstanding := some .measure,
        timer := some (s.elapsed + s.part.measureTimeout) }⟩).emit c.outPort
        (.request ⟨.measure, i, tag + 1, first, c.width, 0⟩) := by
  rw [State.enterTrimming, State.onCtx_setRecord]
  exact State.sendMeasure_setRecord s (c := { c with
    state := .trimming, kind := none, flags := { c.flags with trimDue := false } }) chosen 1

theorem State.trimIfDue_setRecord (s : State) (i : CtxIdx) (tag : Byte) (c : Context) :
    (s.setRecord i ⟨tag, some c⟩).trimIfDue i =
      if (decide (c.state = .inService) && c.flags.trimDue && !(s.port c.outPort).swapPending) = true then
        (s.setRecord i ⟨tag, some c⟩).enterTrimming i
      else s.setRecord i ⟨tag, some c⟩ :=
  State.withCtx_some (State.ctx_setRecord _ _ _) _

end

/-! ### RETRIM -/

/-- A command on a path whose lookup finds its context (R35, R153, R163). -/
theorem withPath_lookup {s : State} {path : PathId} {i : CtxIdx} {c : Context}
    (found : s.lookup path = some i) (held : s.ctx i = some c) (work : CtxIdx → Context → State × Reply) :
    withPath path s work = work i c := by
  rw [withPath, found]
  simp only [held]

/-- Settles O23: RETRIM's work on its one context. -/
theorem retrimMarksAndMeasures : Obligations.RetrimMarksAndMeasures := by
  intro s a b fields rest path read waits
  have work (s : State) : retrimWork fields s = withPath path s fun i c =>
      if c.state = .inService ∧ c.tornDown = false then
        ((s.onCtx i fun c => { c with flags := { c.flags with trimDue := true } }).trimIfDue i, .ok .none)
      else (s, .err .wrongState) := by
    rw [retrimWork, read]
    rfl
  refine ⟨fun unknown => onCommand_answered (work := retrimWork) waits (by decide)
    ((work _).trans (withPath_unknown (s := { s with commands := rest }) unknown _)), fun i c found held => ?_⟩
  have known (f : CtxIdx → Context → State × Reply) :
      withPath path { s with commands := rest } f = f i c :=
    withPath_lookup (s := { s with commands := rest }) found held f
  have run : exec .retrim s = _ := onCommand_eq waits.1 (by decide) waits.2 retrimWork
  have marked : State.onCtx { s with commands := rest } i
      (fun c => { c with flags := { c.flags with trimDue := true } }) =
        State.setRecord { s with commands := rest } i
          ⟨(s.record i).tag, some { c with flags := { c.flags with trimDue := true } }⟩ :=
    State.onCtx_eq_setRecord (s := { s with commands := rest }) held _
  have standing (service : c.state = .inService) (undecided : c.teardown = none) :
      c.state = .inService ∧ c.tornDown = false := ⟨service, by simp [Context.tornDown, service, undecided]⟩
  refine ⟨fun off => ?_, fun service undecided pending => ?_, fun service undecided quiet first chosen => ?_⟩
  · refine onCommand_answered (work := retrimWork) (r := .err .wrongState) waits (by decide)
      ((work _).trans ((known _).trans ?_))
    refine if_neg fun both => ?_
    rcases off with off | torn
    · exact off both.1
    · simp [Context.tornDown, torn] at both
  · rw [work, known, if_pos (standing service undecided), marked, State.trimIfDue_setRecord, if_neg,
      State.respond_eq] at run
    · exact ⟨_, run, State.record_setRecord s _ _, sameOtherRecords_setRecord s _ _, rfl⟩
    · have stays : (State.port { s with commands := rest } c.outPort).swapPending = true := pending
      simp [stays]
  · rw [work, known, if_pos (standing service undecided), marked, State.trimIfDue_setRecord, if_pos,
      State.enterTrimming_setRecord _ (c := { c with flags := { c.flags with trimDue := true } }) chosen,
      State.respond_eq] at run
    · exact ⟨_, run, State.record_setRecord s _ _, sameOtherRecords_setRecord s _ _, sentOn_emit s _ _,
        samePortButOut_emit s _ _, sameOtherPorts_emit s _ _, rfl⟩
    · have stays : (State.port { s with commands := rest } c.outPort).swapPending = false := quiet
      simp [stays, service]

end Sys2Proof.Machine

/-! PROOFS. The step that a grant starts, and THAW (R117, R118, R133). -/

namespace Sys2Proof.Machine

open Sys2Proof

/-! ### A step taken (R118) -/

section
variable {s t : State} {p : PortNo} {i : CtxIdx} {c : Context}

/-- What the sending of a step writes into the port: the attenuation `a` requested, the settings latched,
the phase and its window, and the frame. -/
def PortState.stepping (q : PortState) (a now : Nat) (o : OutFrame) : PortState :=
  { q with requested := some a, settings := some q.params.latch, unitsUsed := 0, phase := .actuating,
           expiry := some (now + q.params.actuationWindow), tenure := min (q.tenure + 1) 65535,
           out := q.out ++ [o] }

/-- A queue set changes the queues alone. -/
theorem PortState.setQueue_eq (x : PortState) (q : QueueSel) (xs : List CtxIdx) :
    x.setQueue q xs = { x with retreatQ := (x.setQueue q xs).retreatQ,
                               restoreQ := (x.setQueue q xs).restoreQ,
                               normalQ := (x.setQueue q xs).normalQ } := by
  cases q <;> rfl

/-- A change of a port is what it makes of the port as it stands. -/
theorem State.onPort_congr {f g : PortState → PortState} (same : f (s.port p) = g (s.port p)) :
    s.onPort p f = s.onPort p g := by
  rw [State.port] at same
  rw [State.onPort, State.onPort, Table.modify, Table.modify, same]

theorem State.onPort_advanceTag (s : State) (p : PortNo) (f : PortState → PortState) (i : CtxIdx) :
    (s.onPort p f).advanceTag i = (s.advanceTag i).onPort p f := rfl

theorem State.onPort_onCtx (s : State) (p : PortNo) (f : PortState → PortState) (i : CtxIdx)
    (g : Context → Context) : (s.onPort p f).onCtx i g = (s.onCtx i g).onPort p f := rfl

/-- The step of a holder with a range: one record and one port are written (R118). -/
theorem State.takeStep_eq {a first : Nat} (holder : (s.port p).holder = some i) (held : s.ctx i = some c)
    (out : c.outPort = p) (next : c.next = some a) (chosen : c.chosen = some first) :
    s.takeStep p =
      (s.setRecord i ⟨(s.record i).tag + 1,
        some { c with outstanding := some .set, steps := min (c.steps + 1) 65535 }⟩).onPort p fun q =>
          q.stepping a s.elapsed (.request ⟨.set, i, (s.record i).tag + 1, first, c.width, a⟩) := by
  subst out
  have request := State.sendRequest_eq (s := s.onPort c.outPort fun q =>
    { q with requested := some a, settings := some (s.port c.outPort).params.latch, unitsUsed := 0 })
    held chosen .set a
  rw [State.takeStep, holder]
  dsimp only
  rw [State.withCtx_some held]
  simp only [next]
  rw [request]
  have record : s.setRecord i ⟨(s.record i).tag + 1,
      some { c with outstanding := some .set, steps := min (c.steps + 1) 65535 }⟩ =
        ((s.advanceTag i).onCtx i fun x => { x with outstanding := some .set }).onCtx i
          fun x => { x with steps := saturate (x.steps + 1) } := by
    conv_rhs => rw [← State.setRecord_self held]
    rw [State.advanceTag_setRecord, State.onCtx_setRecord, State.onCtx_setRecord]
    rfl
  rw [record]
  simp only [State.onPort_advanceTag, State.onPort_onCtx, State.emit, State.onPort_onPort]
  exact State.onPort_congr rfl

/-- The grant to the head of a queue: the slot is its, and it takes its first step (R117). -/
theorem State.considerGrant_takeStep (free : (s.port p).holder = none) (idle : (s.port p).phase = .idle)
    (head : (s.port p).served.head? = some i) : ∃ q rest, (s.port p).queue q = i :: rest ∧
      s.considerGrant p = (s.onPort p fun x =>
        { x.setQueue q rest with holder := some i, tenure := 0 }).takeStep p := by
  have granted {q : QueueSel} {rest : List CtxIdx} (queue : (s.port p).queue q = i :: rest)
      (next : (s.port p).nextQueue = some q) :
      s.considerGrant p = (s.onPort p fun x =>
        { x.setQueue q rest with holder := some i, tenure := 0 }).takeStep p := by
    simp [State.considerGrant, free, idle, next, State.grantTo, queue]
  simp only [PortState.served] at head
  rcases hr : (s.port p).retreatQ with _ | ⟨j, rest⟩
  · cases hf : (s.port p).frozen with
    | true => simp [hr, hf] at head
    | false =>
      rcases ho : (s.port p).restoreQ with _ | ⟨j, rest⟩
      · rcases hn : (s.port p).normalQ with _ | ⟨j, rest⟩
        · simp [hr, hf, ho, hn] at head
        · obtain rfl : j = i := by simpa [hr, hf, ho, hn] using head
          exact ⟨.normal, rest, hn, granted hn (by
            simp [PortState.nextQueue, PortState.serves, PortState.queue, hr, hf, ho, hn])⟩
      · obtain rfl : j = i := by simpa [hr, hf, ho] using head
        exact ⟨.restore, rest, ho, granted ho (by
          simp [PortState.nextQueue, PortState.serves, PortState.queue, hr, hf, ho])⟩
  · obtain rfl : j = i := by simpa [hr] using head
    exact ⟨.retreat, rest, hr, granted hr (by
      simp [PortState.nextQueue, PortState.serves, PortState.queue, hr])⟩

/-- A grant considered after a command has been answered is a grant considered before. -/
theorem afterGrant_respond (grant : afterGrant s t p) (answers : List Response) :
    afterGrant { s with responses := answers } { t with responses := answers } p := by
  obtain ⟨stays, holder, records, contexts, port, others, outside⟩ := grant
  exact ⟨fun held => by rw [stays held], holder, records, contexts, port, others,
    congrArg (fun u : State => { u with responses := answers }) outside⟩

end

/-- Settles O11: THAW's work is the flag and a grant, and the grant's step is `takeStep`'s. -/
theorem thawClearsTheFreezeAndGrants : Obligations.ThawClearsTheFreezeAndGrants := by
  intro s a b p rest waits u
  set v := State.onPort { s with commands := rest } p fun ps => { ps with frozen := false } with hv
  have port : v.port p = { s.port p with frozen := false } := State.port_onPort_same _ _ _
  have keeps := Keeps.considerGrant (.refl v) p
  have run : exec .thaw s = .next { v.considerGrant p with
      responses := s.responses ++ [⟨10, a, b, .ok, false, s.timeBase, .none⟩] } := by
    have answered : exec .thaw s = _ := onCommand_eq waits.1 (by decide) waits.2 thawWork
    rw [thawWork, onPortCommand_byteOf, State.respond_eq] at answered
    have same : (v.considerGrant p).responses ++
        [⟨10, a, b, .ok, false, (v.considerGrant p).timeBase, .none⟩] =
          s.responses ++ [⟨10, a, b, .ok, false, s.timeBase, .none⟩] := by
      rw [keeps.responses, keeps.timeBase]
      rfl
    exact answered.trans
      (congrArg (fun r => Host.Outcome.next { v.considerGrant p with responses := r }) same)
  have grant := v.considerGrant_afterGrant p
  have ⟨_, _, _, _, steps, _, outside⟩ := grant
  have frozen : ((v.considerGrant p).port p).frozen = (v.port p).frozen := by
    have same := congrArg PortState.frozen steps
    exact same
  have ring : (v.considerGrant p).ring = s.ring := by
    have same := congrArg State.ring outside
    exact same
  refine ⟨_, run, ?_, ring, afterGrant_respond grant _, ?_⟩
  · exact frozen.trans (by rw [port])
  · intro i c x first free idle head held out next chosen
    obtain ⟨q, queue, -, made⟩ := State.considerGrant_takeStep (s := v) (by rw [port]; exact free)
      (by rw [port]; exact idle) head
    have granted : (v.onPort p fun x => { x.setQueue q queue with holder := some i, tenure := 0 }).port p =
        { ({ s.port p with frozen := false } : PortState).setQueue q queue with
          holder := some i, tenure := 0 } := by
      rw [State.port_onPort_same, port]
    have step := State.takeStep_eq (s := v.onPort p fun x =>
      { x.setQueue q queue with holder := some i, tenure := 0 }) (p := p) (c := c) (a := x) (first := first)
      (by rw [granted]) held out next chosen
    rw [made, step]
    set w := v.onPort p fun x => { x.setQueue q queue with holder := some i, tenure := 0 } with hw
    have record (r : Record) : (w.setRecord i r).record i = r := State.record_setRecord _ _ _
    have after (r : Record) (o : OutFrame) :
        ((w.setRecord i r).onPort p fun q => q.stepping x w.elapsed o).port p =
          ({ ({ s.port p with frozen := false } : PortState).setQueue q queue with
            holder := some i, tenure := 0 } : PortState).stepping x s.elapsed o := by
      rw [State.port_onPort_same, ← granted]
      rfl
    rw [PortState.setQueue_eq] at after
    refine ⟨congrArg Record.ctx (record _), congrArg Record.tag (record _), ?_, ?_, ?_, ?_, ?_, ?_, ?_⟩
    · exact congrArg PortState.out (after _ _)
    · exact congrArg PortState.phase (after _ _)
    · exact congrArg PortState.requested (after _ _)
    · exact congrArg PortState.expiry (after _ _)
    · exact congrArg PortState.settings (after _ _)
    · exact congrArg PortState.unitsUsed (after _ _)
    · exact congrArg PortState.tenure (after _ _)

end Sys2Proof.Machine

/-! PROOFS. ADOPT: its checks in order and the context it makes (R5, R36, R37). -/

namespace Sys2Proof.Machine

open Sys2Proof

/-! ### The ports and the role (R36) -/

/-- The branches of the port check of an adoption at a head. -/
theorem adoptPorts_head {f : AdoptFields} (role : f.role = .head) (g : AddGroup) (e : DegreeNo) :
    adoptPorts f = some (.addGroup g, portOf e) ↔ f.inPort = g.val ∧ f.outPort = e.val := by
  have := g.isLt
  have := e.isLt
  simp only [adoptPorts, role, portOf]
  split
  next fits => simp [Fin.ext_iff]
  next outside =>
    simp only [reduceCtorEq, false_iff]
    omega

theorem adoptPorts_transit {f : AdoptFields} (role : f.role = .transit) (d e : DegreeNo) :
    adoptPorts f = some (.degree d, portOf e) ↔ f.inPort = d.val ∧ f.outPort = e.val ∧ d ≠ e := by
  have := d.isLt
  have := e.isLt
  simp only [adoptPorts, role, portOf, ne_eq, Fin.ext_iff]
  split
  next fits =>
    simp only [Option.some.injEq, Prod.mk.injEq, InPort.degree.injEq, Fin.ext_iff]
    omega
  next outside =>
    simp only [reduceCtorEq, false_iff]
    omega

theorem adoptPorts_tail {f : AdoptFields} (role : f.role = .tail) (d : DegreeNo) (q : PortNo) :
    adoptPorts f = some (.degree d, q) ↔ f.inPort = d.val ∧ f.outPort = q.val ∧ 8 ≤ q.val := by
  have := d.isLt
  have := q.isLt
  simp only [adoptPorts, role]
  split
  next fits =>
    simp only [Option.some.injEq, Prod.mk.injEq, InPort.degree.injEq, Fin.ext_iff]
    omega
  next outside =>
    simp only [reduceCtorEq, false_iff]
    omega

theorem State.adoptRoleFits_iff (s : State) (f : AdoptFields) : s.adoptRoleFits f = true ↔
    (f.role = .head → s.identityValid = true ∧ f.path.head = s.nodeId) ∧
    (f.role ≠ .head → s.identityValid = true → f.path.head ≠ s.nodeId) := by
  cases role : f.role <;> cases valid : s.identityValid <;> simp [State.adoptRoleFits, role, valid]

/-! ### A claim that is taken -/

/-- A claim that its write takes is one map written (R2). -/
theorem State.claim_eq {s : State} {i : CtxIdx} {c : Context} {m : PortMap}
    {write : Context → PortMap → Option PortMap} (held : s.ctx i = some c)
    (taken : write c (s.port c.outPort).map = some m) :
    s.claim i write = s.onPort c.outPort fun p => { p with map := m } := by
  rw [State.claim, State.withCtx_some held]
  simp only [taken]

/-! ### The checks in order -/

section
variable {s : State} {fields : List Byte} {f : AdoptFields}

/-- The last check of an adoption, cell by cell, for a range of the band. -/
theorem rangeAll_free_iff_entries (m : PortMap) {first n : Nat} (band : first + n ≤ 400) :
    rangeAll m first n (fun x => decide (x = .free)) = true ↔
      ∀ k : Fin 400, first ≤ k.val → k.val < first + n → Table.read m k = .free := by
  rw [rangeAll_free_iff]
  constructor
  · intro free k low high
    have cell := free k.val low high
    rw [cellAt, dif_pos k.isLt] at cell
    exact Option.some.inj cell
  · intro free k low high
    rw [cellAt, dif_pos (show k < 400 by omega)]
    exact congrArg some (free ⟨k, by omega⟩ low high)

/-- ADOPT is the list of its checks, and the writes of the context when they all pass. -/
theorem adoptWork_eq (read : readAdopt fields = some f) :
    adoptWork fields s = match firstFailed (adoptChecks s f) with
      | some code => (s, .err code)
      | none => match adoptPorts f, s.lowestFree with
        | some (inPort, outPort), some i =>
          ((s.putCtx i (adoptedContext f inPort outPort s.timeBase)).mapAdopt i f.s,
            .okClamped (.index i) (decide (f.att < 0) || decide (2500 < f.att)))
        | _, _ => (s, .err .badPort) := by
  simp only [adoptWork, decoded, read, adoptChecks, firstFailed_cons, firstFailed_nil, Config.nCells]
  by_cases range : 1 ≤ f.n ∧ f.n ≤ 16 ∧ f.s + f.n ≤ 400
  · rcases adoptPorts f with _ | ⟨inPort, outPort⟩
    · simp [range]
    · have last := rangeAll_free_iff_entries (s.port outPort).map range.2.2
      cases s.adoptRoleFits f
      · simp [range]
      · rcases s.lookup f.path with _ | j
        · rcases s.lowestFree with _ | i
          · simp [range]
          · by_cases all : rangeAll (s.port outPort).map f.s f.n (fun x => decide (x = .free)) = true
            · simp only [range, all, decide_eq_true (last.1 all), Option.any_some, and_self]
              rfl
            · simp only [range, all, decide_eq_false (mt last.2 all), Option.any_some, and_self]
              rfl
        · simp [range]
  · simp [range]

end

theorem clampAtt_eq (x : Int) :
    clampAtt x = if x < 0 then 0 else if 2500 < x then 2500 else x.toNat := by
  simp only [clampAtt, Config.dark]
  split
  · omega
  · split <;> omega

/-- Settles O24, on the checks in order and the two writes of an adoption. -/
theorem adoptMakesAnOpenContext : Obligations.AdoptMakesAnOpenContext := by
  refine ⟨⟨fun f g d e q => ⟨fun role => adoptPorts_head role g e, fun role => adoptPorts_transit role d e,
    fun role => adoptPorts_tail role d q, fun role off => ?_, fun role off => ?_, fun role off => ?_⟩,
    State.adoptRoleFits_iff⟩, fun s a b fields rest f read waits => ⟨fun code failed => ?_, ?_⟩⟩
  · simp only [adoptPorts, role]
    exact dif_neg (by omega)
  · simp only [adoptPorts, role]
    exact dif_neg (by omega)
  · simp only [adoptPorts, role]
    exact dif_neg (by omega)
  · have first : firstFailed (adoptChecks { s with commands := rest } f) = some code := failed
    refine onCommand_answered (work := adoptWork) (r := .err code) waits (by decide) ?_
    rw [adoptWork_eq read, first]
  · intro passes i inPort outPort free ports
    have none : firstFailed (adoptChecks { s with commands := rest } f) = none :=
      (firstFailed_eq_none_iff _).2 passes
    have lowest : State.lowestFree { s with commands := rest } = some i := free
    set u : State := { s with commands := rest }
    have band : f.s + f.n ≤ 400 := by
      have check := passes _ (List.mem_cons_self ..)
      exact (of_decide_eq_true check).2.2
    have range : rangeAll (s.port outPort).map f.s f.n (fun x => decide (x = .free)) = true := by
      rw [rangeAll_free_iff_entries _ band]
      have check := passes _ (List.getLast_mem (l := adoptChecks s f) (by simp [adoptChecks]))
      simpa [adoptChecks, ports] using check
    have does : adoptWork fields u = ((u.putCtx i (adoptedContext f inPort outPort u.timeBase)).mapAdopt i f.s,
        .okClamped (.index i) (decide (f.att < 0) || decide (2500 < f.att))) := by
      rw [adoptWork_eq read, none, ports, lowest]
    have written : (u.putCtx i (adoptedContext f inPort outPort u.timeBase)).mapAdopt i f.s =
        (u.setRecord i ⟨(s.record i).tag, some (adoptedContext f inPort outPort u.timeBase)⟩).onPort outPort
          fun ps => { ps with map := writeRange (s.port outPort).map f.s f.n (fun _ => true) (.opened i) } :=
      State.claim_eq (c := adoptedContext f inPort outPort u.timeBase) (State.ctx_setRecord u i _) (if_pos range)
    have run : exec .adopt s = _ := onCommand_eq waits.1 (by decide) waits.2 adoptWork
    rw [does, written, State.respond_eq] at run
    have port : ((u.setRecord i ⟨(s.record i).tag, some (adoptedContext f inPort outPort u.timeBase)⟩).onPort
        outPort fun ps =>
          { ps with map := writeRange (s.port outPort).map f.s f.n (fun _ => true) (.opened i) }).port outPort =
            { s.port outPort with
              map := writeRange (s.port outPort).map f.s f.n (fun _ => true) (.opened i) } :=
      State.port_onPort_same _ _ _
    refine ⟨_, run, ?_, sameOtherRecords_setRecord s _ _, fun k => ?_, ?_, ?_, ?_⟩
    · refine (State.record_setRecord u i _).trans ?_
      rw [adoptedContext, clampAtt_eq]
    · exact (congrArg (fun p : PortState => cellAt p.map k) port).trans (cellAt_writeRange_whole _ band _ k)
    · exact congrArg (fun p : PortState => { p with map := (s.port outPort).map }) port
    · exact fun q other => State.port_onPort_other _ _ other
    · simp only [State.answered, Reply.okClamped, Bool.decide_or]
      rfl

end Sys2Proof.Machine

/-! PROOFS. The OFFER that is taken: a transit that holds and offers on, and a tail that reserves and
accepts (R65, R69, R70). -/

namespace Sys2Proof.Machine

open Sys2Proof

section
variable {s : State} {d : DegreeNo} {path : PathId} {f : OfferFields} {mine : RouteEntry} {i : CtxIdx}

/-- The checks before the survivors, of an OFFER that passes: its place on the route, the table and the
out-port (R66). -/
theorem offerChecks_passed {onward : List RouteEntry}
    (passes : ∀ x ∈ offerChecks s d path f mine onward, x.1 = true) :
    offerRouteFits s d f.hop mine onward = true ∧
      (onward.all fun e => decide (e.node ≠ s.nodeId)) = true ∧ s.lookup path = none ∧
      (s.degree d).verif = .verified ∧ (s.port mine.port).synced = true ∧
      offerSurvivors s mine.port f ≠ [] := by
  have last := passes (!(offerSurvivors s mine.port f).isEmpty, .noSpectrum) (by simp [offerChecks])
  simp only [offerChecks, List.forall_mem_append, List.forall_mem_cons] at passes
  obtain ⟨⟨⟨fits, loops, new, verified, -, synced, -⟩, -⟩, -⟩ := passes
  exact ⟨fits, loops, by simpa using new, by simpa using verified, synced, by simpa using last⟩

/-- An OFFER that passes at a transit (R69). -/
theorem State.judgeOffer_transit {out : DegreeNo} {next : RouteEntry} {more : List RouteEntry}
    (route : f.route = mine :: next :: more) (port : mine.port = portOf out) (free : s.lowestFree = some i)
    (passes : ∀ x ∈ offerChecks s d path f mine (next :: more), x.1 = true) :
    s.judgeOffer d path f =
      .ok (s.offerOnward i d out path f (next :: more) (offerSurvivors s (portOf out) f)) := by
  obtain ⟨fits, loops, new, verified, synced, some⟩ := offerChecks_passed passes
  have onward : firstFailed (transitChecks s out next) = none := by
    refine (firstFailed_eq_none_iff _).2 fun x mem => passes x ?_
    simp only [offerChecks, port, degreeOf_portOf, List.mem_append]
    exact .inl (.inr mem)
  have apart : (next :: more).any (fun e => decide (e.node = s.nodeId)) = false := by
    rw [List.any_eq_not_all_not]
    simpa using loops
  rw [port] at synced some
  rw [← State.routeFits_eq route] at fits
  have answer (cands : List Candidate) (nonempty : cands ≠ []) {refused accepted : Except Reason State} :
      (if cands = [] then refused else accepted) = accepted := if_neg nonempty
  simp only [State.judgeOffer, route, fits, apart, new, State.verified, verified, free, port, synced,
    degreeOf_portOf, State.onwardRefusal_eq, onward]
  exact answer _ some

/-- An OFFER that passes at a tail (R70). -/
theorem State.judgeOffer_tail {best : Candidate} (route : f.route = [mine]) (free : s.lowestFree = some i)
    (passes : ∀ x ∈ offerChecks s d path f mine [], x.1 = true)
    (chosen : tailChoice f.tie (offerSurvivors s mine.port f) = some best) :
    s.judgeOffer d path f = .ok (s.acceptAtTail i d mine.port path f best) := by
  obtain ⟨fits, -, new, verified, synced, -⟩ := offerChecks_passed passes
  rw [← State.routeFits_eq route] at fits
  rw [offerSurvivors] at chosen
  simp only [State.judgeOffer, route, fits, new, State.verified, verified, free, synced, chosen]
  rfl

/-- A transit that offers on serves the next node of the route (check 7 of R66). -/
theorem State.serves_of_offerChecks {out : DegreeNo} {next : RouteEntry} {more : List RouteEntry}
    (port : mine.port = portOf out) (valid : s.identityValid = true)
    (passes : ∀ x ∈ offerChecks s d path f mine (next :: more), x.1 = true) :
    s.servesDegree out next.node := by
  have adjacency := passes
    (decide ((s.degree out).adj = .up) && decide ((s.degree out).nbrId = some next.node), .noAdjacency)
    (by simp [offerChecks, port, degreeOf_portOf, transitChecks])
  simp only [Bool.and_eq_true, decide_eq_true_eq] at adjacency
  exact ⟨valid, adjacency⟩

/-- The survivors of an OFFER are Free on the out-port (R8, R68). -/
theorem cellAt_of_survivor {p : PortNo} {x : Candidate} (mem : x ∈ offerSurvivors s p f) {k : Nat}
    (low : x.s ≤ k) (high : k < x.s + f.width) : cellAt (s.port p).map k = some .free := by
  obtain ⟨c, -, fits, rfl⟩ := mem_trimCandidates_iff.1 mem
  exact cellAt_of_eligible fits low high

/-- The map after a transit's hold: the union of the survivors' ranges (R69). -/
theorem cellAt_hold_survivors (s : State) (p : PortNo) (f : OfferFields) (i : CtxIdx) (k : Nat) :
    cellAt (holdPlacements (s.port p).map i f.width ((offerSurvivors s p f).map (·.s))).1 k =
      if ∃ c ∈ offerSurvivors s p f, c.s ≤ k ∧ k < c.s + f.width then some (.held i)
      else cellAt (s.port p).map k := by
  rw [cellAt_holdPlacements]
  · simp
  · simp only [List.forall_mem_map]
    exact fun x mem k low high => .inl (cellAt_of_survivor mem low high)

/-- The work of a transit on a SYNCED degree that serves the next node (R69). -/
theorem State.offerOnward_eq {out : DegreeNo} {n : NodeId} (i : CtxIdx) (f : OfferFields)
    (onward : List RouteEntry) (cands : List Candidate) (synced : (s.port (portOf out)).synced = true)
    (serves : s.servesDegree out n) :
    s.offerOnward i d out path f onward cands =
      s.afterHold i { transitContext s d out path f onward.length cands with
          timer := some (s.elapsed + s.part.offerHop * onward.length) }
        (holdPlacements (s.port (portOf out)).map i f.width (cands.map (·.s))).1
        (.peer ⟨n, s.nodeId, out, .offer path ⟨f.cls, f.width, f.tie, f.hop + 1, onward, cands⟩⟩) := by
  rw [State.offerOnward, ((Keeps.refl _).mapHold i _).part, State.putCtx_part]
  exact State.hold_arm_send i _ _ _ rfl synced serves

/-- The work of a tail on a SYNCED port (R70). -/
theorem State.acceptAtTail_eq {out : PortNo} {n : NodeId} {best : Candidate} (i : CtxIdx) (f : OfferFields)
    (synced : (s.port out).synced = true) (serves : s.servesDegree d n)
    (free : ∀ k, best.s ≤ k → k < best.s + f.width → cellAt (s.port out).map k = some .free) :
    s.acceptAtTail i d out path f best =
      ((s.setRecord i ⟨(s.record i).tag, some { tailContext s d out path f best with
          timer := some (s.elapsed + s.part.litHop * (f.hop - 1)) }⟩).onPort out fun ps =>
            { ps with map := writeRange (s.port out).map best.s f.width (fun _ => true) (.reserved i) }).emit
        (portOf d) (.peer ⟨n, s.nodeId, d, .accept path best.s best.cost⟩) := by
  obtain ⟨valid, up, nbr⟩ := serves
  have range : rangeAll (s.port out).map best.s f.width (fun x => decide (x = .free)) = true :=
    (rangeAll_free_iff _ _ _).2 free
  have claimed : (s.putCtx i (tailContext s d out path f best)).mapReserveDirect i best.s =
      (s.putCtx i (tailContext s d out path f best)).onPort out fun ps =>
        { ps with map := writeRange (s.port out).map best.s f.width (fun _ => true) (.reserved i) } :=
    State.claim_eq (c := tailContext s d out path f best) (State.ctx_putCtx_same s i _)
      (if_pos (Bool.and_eq_true_iff.2 ⟨synced, range⟩))
  have unfolded : s.acceptAtTail i d out path f best =
      ((((s.putCtx i (tailContext s d out path f best)).mapReserveDirect i best.s).armCtx i
        (((s.putCtx i (tailContext s d out path f best)).mapReserveDirect i best.s).part.litHop *
          (f.hop - 1))).sendPath d (.accept path best.s best.cost)) := rfl
  rw [unfolded, claimed, State.armCtx_onPort, State.armCtx_putCtx,
    State.sendPath_up (n := n) _ (by exact valid) (by exact up) (by exact nbr)]
  rfl

end

/-- Settles O29, from the judgement of an OFFER that passes and the work of its node. -/
theorem offerMakesAContext : Obligations.OfferMakesAContext := by
  constructor
  · intro s d out deg dest n path f mine next more i waits serves route port free passes cands
    have run : exec (.offer d) s = .next ((s.popPeer d).takeOffer d path f) := onPeer_eq waits (offerUse d)
    rw [← offerChecks_popPeer] at passes
    have judged := State.judgeOffer_transit (s := s.popPeer d) route port free passes
    obtain ⟨-, -, -, -, synced, -⟩ := offerChecks_passed passes
    rw [port] at synced
    obtain ⟨valid, -, -⟩ := serves
    have here := State.serves_of_offerChecks (s := s.popPeer d) port valid passes
    rw [State.takeOffer, judged, State.offerOnward_eq (s := s.popPeer d) i f _ _ synced here] at run
    refine ⟨_, run, ?_, State.afterHold_otherRecords _ i _ _ _, fun k => ?_,
      State.afterHold_sentOn (s.popPeer d) i _ _ rfl, State.afterHold_portFrame (s.popPeer d) i _ _ rfl,
      State.afterHold_otherPorts (s.popPeer d) i _ _ rfl, rfl⟩
    · exact State.record_setRecord (s.popPeer d) i _
    · rw [State.afterHold_map (p := portOf out) _ _ _ _ rfl]
      exact cellAt_hold_survivors (s.popPeer d) (portOf out) f i k
  · intro s d deg dest n path f mine i best waits serves route free passes chosen
    have run : exec (.offer d) s = .next ((s.popPeer d).takeOffer d path f) := onPeer_eq waits (offerUse d)
    rw [← offerChecks_popPeer] at passes
    obtain ⟨fits, -, -, -, synced, -⟩ := offerChecks_passed passes
    have judged := State.judgeOffer_tail (s := s.popPeer d) route free passes chosen
    have drop : 8 ≤ mine.port.val := by simpa [offerRouteFits] using (Bool.and_eq_true_iff.1 fits).2
    have apart : mine.port ≠ portOf d := by
      intro same
      have := portOf_val_lt d
      rw [← same] at this
      omega
    obtain ⟨valid, up, nbr⟩ := serves
    have within {k : Nat} (low : best.s ≤ k) (high : k < best.s + f.width) :
        cellAt (s.port mine.port).map k = some .free :=
      cellAt_of_survivor (s := s.popPeer d) (mem_of_tailChoice chosen) low high
    have does := State.acceptAtTail_eq (s := s.popPeer d) (d := d) (path := path) (n := n) (best := best) i f synced
      ⟨valid, by simpa using up, by simpa using nbr⟩
      fun k low high => within low high
    rw [State.takeOffer, judged, does] at run
    set v := ((s.popPeer d).setRecord i _).onPort mine.port _ with hv
    have reserved : v.port mine.port = { s.port mine.port with
        map := writeRange (s.port mine.port).map best.s f.width (fun _ => true) (.reserved i) } :=
      State.port_onPort_same _ _ _
    have others {q : PortNo} (other : q ≠ mine.port) : v.port q = s.port q := State.port_onPort_other _ _ other
    have kept (o : OutFrame) : (v.emit (portOf d) o).port mine.port = v.port mine.port :=
      State.port_onPort_other _ _ apart
    refine ⟨_, run, State.record_setRecord (s.popPeer d) i _, sameOtherRecords_setRecord (s.popPeer d) i _,
      fun k => ?_, ?_, ?_, ?_, ?_, rfl⟩
    · rw [kept, reserved, cellAt_writeRange]
      by_cases inside : best.s ≤ k ∧ k < best.s + f.width
      · simp [inside, within inside.1 inside.2]
      · simp [inside]
    · rw [kept, reserved]
    · have sent := sentOn_emit v (portOf d) (.peer ⟨n, s.nodeId, d, .accept path best.s best.cost⟩)
      rw [sentOn, others apart.symm] at sent
      exact sent
    · have frame := samePortButOut_emit v (portOf d) (.peer ⟨n, s.nodeId, d, .accept path best.s best.cost⟩)
      rw [others apart.symm] at frame
      exact frame
    · exact fun q other link => (State.port_onPort_other _ _ link).trans (others other)

end Sys2Proof.Machine

/-! PROOFS. ACCEPT, LIGHT and LIT: the messages that move a path to its light (R71, R72, R136, R144). -/

namespace Sys2Proof.Machine

open Sys2Proof

/-! ### Messages along a path (R42, R156) -/

/-- A message upstream is frames on one link, the message itself when the in-port's degree serves a
neighbour. -/
theorem State.sendUpstream_sends (s : State) (c : Context) (m : PeerMsg) :
    ∃ p fs, s.sendUpstream c m = s.sends p fs ∧ ∀ e n, c.inPort = .degree e → s.servesDegree e n →
      p = portOf e ∧ fs = [.peer ⟨n, s.nodeId, e, m⟩] := by
  rcases hin : c.inPort with g | e
  · exact ⟨0, [], by rw [State.sendUpstream, hin, State.sends_nil], nofun⟩
  · have here : s.sendUpstream c m = s.sendPath e m := by rw [State.sendUpstream, hin]
    by_cases serves : ∃ n, s.servesDegree e n
    · obtain ⟨n, valid, up, nbr⟩ := serves
      refine ⟨portOf e, _, here.trans (State.sendPath_up m valid up nbr), ?_⟩
      rintro e' n' ⟨⟩ ⟨-, -, nbr'⟩
      cases nbr.symm.trans nbr'
      exact ⟨rfl, rfl⟩
    · obtain ⟨fs, sent⟩ := s.sendPath_sends e m
      refine ⟨portOf e, fs, here.trans sent, ?_⟩
      rintro e' n' ⟨⟩ serves'
      exact absurd ⟨n', serves'⟩ serves

/-- A frame taken from a degree's queue changes no neighbour. -/
theorem State.servesDegree_popPeer (s : State) (d e : DegreeNo) (n : NodeId) :
    (s.popPeer d).servesDegree e n ↔ s.servesDegree e n := by
  by_cases same : e = d
  · subst same
    simp only [State.servesDegree, State.popPeer_degree]
    rfl
  · have here : (s.popPeer d).degree e = s.degree e := State.degree_onDegree_other _ _ same
    simp only [State.servesDegree, here]
    rfl

theorem State.port_sends (s : State) (p q : PortNo) (fs : List OutFrame) :
    ∃ gs, (s.sends p fs).port q = { s.port q with out := (s.port q).out ++ gs } := by
  by_cases e : q = p
  · subst e; exact ⟨fs, State.port_onPort_same _ _ _⟩
  · exact ⟨[], by rw [State.sends, State.port_onPort_other _ _ e, List.append_nil]⟩

/-! ### ACCEPT (R71, R72) -/

section
variable {s : State} {i : CtxIdx} {c : Context} {first cost : Nat}

/-- The map after reserve from hold (R4). -/
def reservedMap (m : PortMap) (i : CtxIdx) (first n : Nat) : PortMap :=
  mapEntries m fun k x =>
    if x = .held i then (if inRange first n k then .reserved i else .free) else x

/-- Reserve from hold, of a range that is Held (R4). -/
theorem State.mapReserveFromHold_eq (held : s.ctx i = some c)
    (range : ∀ k, first ≤ k → k < first + c.width → cellAt (s.port c.outPort).map k = some (.held i)) :
    s.mapReserveFromHold i first =
      s.onPort c.outPort fun ps => { ps with map := reservedMap (s.port c.outPort).map i first c.width } := by
  refine State.claim_eq held (if_pos ((rangeAll_iff _ _ _ _).2 fun k low high => ?_))
  exact ⟨_, range k low high, decide_eq_true rfl⟩

theorem cellAt_reservedMap (m : PortMap) (i : CtxIdx) (first n k : Nat) :
    cellAt (reservedMap m i first n) k = (cellAt m k).map fun x =>
      if x = .held i then (if first ≤ k ∧ k < first + n then .reserved i else .free) else x := by
  simp only [reservedMap, cellAt_mapEntries, inRange_iff]

/-- The part with the chosen range reserved on the context's out-port (R4). -/
def State.reserving (s : State) (i : CtxIdx) (c : Context) (first : Nat) : State :=
  s.onPort c.outPort fun ps => { ps with map := reservedMap (s.port c.outPort).map i first c.width }

/-- A good ACCEPT past the head: AWAIT_LIGHT, and the ACCEPT goes on (R71). -/
theorem State.acceptRange_onward (held : s.ctx i = some c) (onward : c.role ≠ .head)
    (range : ∀ k, first ≤ k → k < first + c.width → cellAt (s.port c.outPort).map k = some (.held i)) :
    s.acceptRange i first cost =
      ((s.reserving i c first).setRecord i ⟨(s.record i).tag, some { c with
        candidates := none, chosen := some first, totalCost := some cost, state := .awaitLight,
        timer := some (s.elapsed + s.part.litHop * (c.hop.getD 1 - 1)) }⟩).sendUpstream c
          (.accept c.path first cost) := by
  rw [State.acceptRange, State.withCtx_some held]
  dsimp only
  rw [State.mapReserveFromHold_eq held range, ← State.reserving,
    State.onCtx_eq_setRecord (s := s.reserving i c first) (c := c) held]
  cases role : c.role with
  | head => exact absurd role onward
  | transit | tail =>
    dsimp only
    rw [State.onCtx_setRecord, State.armCtx, State.onCtx_setRecord]
    rfl

/-- A good ACCEPT at a head: PREPARING, with its OPEN sent (R72, R135). -/
theorem State.acceptRange_head (held : s.ctx i = some c) (role : c.role = .head)
    (range : ∀ k, first ≤ k → k < first + c.width → cellAt (s.port c.outPort).map k = some (.held i)) :
    s.acceptRange i first cost =
      ((s.reserving i c first).setRecord i ⟨(s.record i).tag + 1, some { c with
        candidates := none, chosen := some first, totalCost := some cost, state := .preparing, attempts := 0,
        outstanding := some .openBand,
        timer := some (s.elapsed + (s.port c.outPort).params.actuationWindow) }⟩).sends c.outPort
          [.request ⟨.openBand, i, (s.record i).tag + 1, first, c.width, 2500⟩] := by
  have params : ((s.reserving i c first).port c.outPort).params = (s.port c.outPort).params := by
    rw [State.reserving, State.port_onPort_same]
  rw [State.acceptRange, State.withCtx_some held]
  dsimp only
  rw [State.mapReserveFromHold_eq held range, ← State.reserving,
    State.onCtx_eq_setRecord (s := s.reserving i c first) (c := c) held, role]
  dsimp only
  rw [State.enterPreparing_setRecord (first := first) _ rfl]
  dsimp only
  rw [params]
  rfl

/-- What a good ACCEPT leaves: one record, one map, and frames (R71, R72). -/
theorem State.reserving_frame (s : State) (i : CtxIdx) (c : Context) (first : Nat) (r : Record) (p : PortNo)
    (fs : List OutFrame) :
    let t := ((s.reserving i c first).setRecord i r).sends p fs
    t.record i = r ∧ sameOtherRecords s t i ∧
      (∀ k, cellAt (t.port c.outPort).map k = (cellAt (s.port c.outPort).map k).map fun x =>
        if x = .held i then (if first ≤ k ∧ k < first + c.width then .reserved i else .free) else x) ∧
      { t.port c.outPort with map := (s.port c.outPort).map, out := (s.port c.outPort).out } =
        s.port c.outPort ∧
      (∀ q, q ≠ c.outPort → samePortButOut (s.port q) (t.port q)) ∧ sentOn s t p fs ∧
      { t with records := s.records, ports := s.ports } = s := by
  set v := (s.reserving i c first).setRecord i r with hv
  have here : v.port c.outPort =
      { s.port c.outPort with map := reservedMap (s.port c.outPort).map i first c.width } :=
    State.port_onPort_same _ _ _
  have elsewhere (q : PortNo) (other : q ≠ c.outPort) : v.port q = s.port q := State.port_onPort_other _ _ other
  obtain ⟨gs, sent⟩ := v.port_sends p c.outPort fs
  refine ⟨State.record_setRecord _ i r, sameOtherRecords_setRecord s i r, fun k => ?_, ?_, fun q other => ?_,
    ?_, rfl⟩
  · rw [sent, here]
    exact cellAt_reservedMap _ _ _ _ _
  · rw [sent, here]
  · have frame := samePortButOut_sends v p q fs
    rw [elsewhere q other] at frame
    exact frame
  · have out : (v.port p).out = (s.port p).out := by
      by_cases e : p = c.outPort
      · rw [e, here]
      · rw [elsewhere p e]
    have formed := sentOn_sends v p fs
    rw [sentOn, out] at formed
    exact formed

end

/-- Settles O31, on the two forms of a good ACCEPT. -/
theorem acceptReservesTheChosenRange : Obligations.AcceptReservesTheChosenRange := by
  intro s d deg dest n path first cost i c cands waits found held out offered candidates among range c1
  have run : exec (.accept d) s = .next ((s.popPeer d).takeAccept d path first cost) :=
    onPeer_eq waits (acceptUse d)
  obtain ⟨c', held', same⟩ := State.lookup_some found
  obtain rfl : c = c' := Option.some.inj (held.symm.trans held')
  have chosen : ((c.candidates.getD []).any fun x => decide (x.s = first)) = true := by
    obtain ⟨x, mem, fits⟩ := among
    rw [candidates]
    exact List.any_eq_true.2 ⟨x, mem, decide_eq_true fits⟩
  have does : (s.popPeer d).takeAccept d path first cost = (s.popPeer d).acceptRange i first cost := by
    have here : (s.popPeer d).lookup path = some i := found
    rw [State.takeAccept, here]
    dsimp only
    rw [State.withCtx_some (s := s.popPeer d) (c := c) held]
    simp [Context.fromDownstream, out, offered, chosen]
  rw [does] at run
  by_cases head : c.role = .head
  · rw [State.acceptRange_head (s := s.popPeer d) held head range] at run
    obtain ⟨record, others, map, port, ports, sent, frame⟩ :=
      (s.popPeer d).reserving_frame i c first _ c.outPort _
    exact ⟨_, run, others, map, port, ports, frame, fun role => (nomatch head.symm.trans role),
      fun _ => ⟨record, sent⟩⟩
  · rw [State.acceptRange_onward (s := s.popPeer d) held head range] at run
    set v := ((s.popPeer d).reserving i c first).setRecord i _
    obtain ⟨p, fs, up, message⟩ := v.sendUpstream_sends c (.accept c.path first cost)
    rw [up] at run
    obtain ⟨record, others, map, port, ports, sent, frame⟩ := (s.popPeer d).reserving_frame i c first _ p fs
    refine ⟨_, run, others, map, port, ports, frame, fun role h hop => ⟨record.trans ?_, ?_⟩,
      fun role => absurd role head⟩
    · rw [hop]
      rfl
    · intro e m inPort serves
      obtain ⟨rfl, rfl⟩ := message e m inPort ((State.servesDegree_popPeer s d e m).2 serves)
      rw [← same]
      exact sent

end Sys2Proof.Machine

/-! PROOFS. LIGHT and LIT: a path is prepared, and comes into service (R135, R136, R144, R145). -/

namespace Sys2Proof.Machine

open Sys2Proof

/-! ### Entry to service (R145) -/

section
variable {s : State} {i : CtxIdx} {c : Context}

/-- A record that joins the ring and a record of the table do not meet. -/
theorem State.report_setRecord (s : State) (i : CtxIdx) (r : Record) (x : RingRecord) :
    (s.setRecord i r).report x = (s.report x).setRecord i r := by
  unfold State.report
  by_cases room : s.ring.length < Config.ringCapacity
  · rw [if_pos room]; exact if_pos room
  · rw [if_neg room]; exact if_neg room

/-- A context in IN_SERVICE for the first time (R145). -/
def State.served (s : State) (c : Context) : Context :=
  { c with state := .inService, timer := none, serviceTag := some s.timeBase }

/-- Whether a context that comes into service starts its trim at once (R147). -/
def State.trimsAtOnce (s : State) (c : Context) : Bool := c.flags.trimDue && !(s.port c.outPort).swapPending

/-- First entry to IN_SERVICE: one record in the ring, and the context with its MEASURE when it trims
(R145, R147). -/
theorem State.enterInService_eq {a first : Nat} (held : s.ctx i = some c) (att : c.att = some a)
    (chosen : c.chosen = some first) : s.enterInService i =
      ((s.report (.inService c.path c.role s.timeBase a c.flags)).setRecord i
        (if s.trimsAtOnce c then ⟨(s.record i).tag + 1, some { s.served c with
            state := .trimming, kind := none, flags := { c.flags with trimDue := false },
            attempts := 1, outstanding := some .measure,
            timer := some (s.elapsed + s.part.measureTimeout) }⟩
          else ⟨(s.record i).tag, some (s.served c)⟩)).sends c.outPort
        (if s.trimsAtOnce c then [.request ⟨.measure, i, (s.record i).tag + 1, first, c.width, 0⟩]
          else []) := by
  set u := s.report (.inService c.path c.role s.timeBase a c.flags) with hu
  have marked : (s.onCtx i fun c =>
      { c with state := .inService, timer := none, serviceTag := some s.timeBase }) =
        s.setRecord i ⟨(s.record i).tag, some (s.served c)⟩ := State.onCtx_eq_setRecord held _
  rw [State.enterInService, State.withCtx_some held]
  dsimp only
  rw [marked, att, Option.getD_some, State.report_setRecord]
  have reported : s.report (.inService c.path c.role (s.setRecord i
      ⟨(s.record i).tag, some (s.served c)⟩).timeBase a c.flags) = u := rfl
  rw [reported, State.trimIfDue_setRecord]
  have trims : (decide ((s.served c).state = .inService) && (s.served c).flags.trimDue &&
      !(u.port (s.served c).outPort).swapPending) = s.trimsAtOnce c := by
    simp [State.trimsAtOnce, State.served, hu]
  rw [trims]
  cases s.trimsAtOnce c with
  | false =>
    simp only [Bool.false_eq_true, if_false, State.sends_nil]
  | true =>
    simp only [if_true]
    have elapsed : u.elapsed = s.elapsed := by
      have e := congrArg State.elapsed (s.report_frame (.inService c.path c.role s.timeBase a c.flags))
      exact e
    have part : u.part = s.part := by
      have e := congrArg State.part (s.report_frame (.inService c.path c.role s.timeBase a c.flags))
      exact e
    rw [State.enterTrimming_setRecord u (c := s.served c) chosen, elapsed, part]
    rfl

/-- Frames formed in two goes, on a state with a record in its ring and one in its table: what they leave
is the record, the ring, and the frames of each link. -/
theorem State.sends_sends_frame (s : State) (x : RingRecord) (i : CtxIdx) (r : Record) (p q : PortNo)
    (fs gs : List OutFrame) :
    let t := (((s.report x).setRecord i r).sends p fs).sends q gs
    t.record i = r ∧ sameOtherRecords s t i ∧ t.ring = (s.report x).ring ∧
      (∃ hs, (t.port p).out = (s.port p).out ++ fs ++ hs) ∧
      (∃ hs, (t.port q).out = (s.port q).out ++ hs ++ gs) ∧ (∀ q, samePortButOut (s.port q) (t.port q)) ∧
      { t with records := s.records, ports := s.ports, ring := s.ring, lost := s.lost } = s := by
  set v := ((s.report x).setRecord i r).sends p fs with hv
  have before (k : PortNo) : ((s.report x).setRecord i r).port k = s.port k := s.report_port x k
  have first : (v.port p).out = (s.port p).out ++ fs := by
    have sent := sentOn_sends ((s.report x).setRecord i r) p fs
    rwa [sentOn, before] at sent
  obtain ⟨hs, second⟩ := ((s.report x).setRecord i r).port_sends p q fs
  obtain ⟨hs', third⟩ := v.port_sends q p gs
  refine ⟨State.record_setRecord _ i r, fun j other => ?_, rfl, ⟨hs', ?_⟩, ⟨hs, ?_⟩, fun k => ?_, ?_⟩
  · exact (sameOtherRecords_setRecord (s.report x) i r j other).trans (s.report_record x j)
  · rw [third, first]
  · have sent := sentOn_sends v q gs
    rwa [sentOn, second, before] at sent
  · obtain ⟨as, one⟩ := ((s.report x).setRecord i r).port_sends p k fs
    obtain ⟨bs, two⟩ := v.port_sends q k gs
    rw [samePortButOut, two, one, before]
  · have frame := congrArg (fun t : State => { t with records := s.records, ports := s.ports })
      (s.report_frame x)
    exact frame

/-- A neighbour is served by what a degree holds and the part's own identity (R42). -/
theorem State.servesDegree_congr {t : State} {d : DegreeNo} (straps : t.straps = s.straps)
    (degree : t.degree d = s.degree d) (n : NodeId) : t.servesDegree d n ↔ s.servesDegree d n := by
  have identity : t.identityValid = s.identityValid := by
    unfold State.identityValid State.nodeId
    rw [straps]
  rw [State.servesDegree, identity, degree]
  rfl

/-- Entry to PREPARING of a context with a range: its OPEN is sent (R135). -/
theorem State.enterPreparing_eq {first : Nat} (held : s.ctx i = some c) (chosen : c.chosen = some first) :
    s.enterPreparing i = (s.setRecord i ⟨(s.record i).tag + 1, some { c with
      state := .preparing, attempts := 0, outstanding := some .openBand,
      timer := some (s.elapsed + (s.port c.outPort).params.actuationWindow) }⟩).emit c.outPort
      (.request ⟨.openBand, i, (s.record i).tag + 1, first, c.width, 2500⟩) := by
  conv_lhs => rw [← State.setRecord_self held]
  exact State.enterPreparing_setRecord s chosen

end

/-- Settles O33, on the entry to PREPARING and the entry to service. -/
theorem lightPreparesAndLitServes : Obligations.LightPreparesAndLitServes := by
  constructor
  · intro s d deg dest n path i c first waits found held up state chosen
    have run : exec (.light d) s = .next ((s.popPeer d).takeLight d path) := onPeer_eq waits (lightUse d)
    have does : (s.popPeer d).takeLight d path = (s.popPeer d).enterPreparing i := by
      have here : (s.popPeer d).lookup path = some i := found
      rw [State.takeLight, here]
      dsimp only
      rw [State.withCtx_some (s := s.popPeer d) (c := c) held]
      simp [Context.fromUpstream, up, state]
    rw [does, State.enterPreparing_eq (s := s.popPeer d) held chosen] at run
    exact ⟨_, run, State.record_setRecord (s.popPeer d) i _, sameOtherRecords_setRecord (s.popPeer d) i _,
      sentOn_emit (s.popPeer d) _ _, samePortButOut_emit (s.popPeer d) _ _,
      sameOtherPorts_emit (s.popPeer d) _ _, rfl⟩
  · intro s d deg dest n path i c a first waits found held out state att chosen trims served
    have run : exec (.lit d) s = .next ((s.popPeer d).takeLit d path) := onPeer_eq waits (litUse d)
    obtain ⟨c', held', same⟩ := State.lookup_some found
    obtain rfl : c = c' := Option.some.inj (held.symm.trans held')
    have does : (s.popPeer d).takeLit d path =
        ((s.popPeer d).enterInService i).sendUpstream c (.lit path) := by
      have here : (s.popPeer d).lookup path = some i := found
      rw [State.takeLit, here]
      dsimp only
      rw [State.withCtx_some (s := s.popPeer d) (c := c) held]
      simp [Context.fromDownstream, out, state]
    rw [does, State.enterInService_eq (s := s.popPeer d) held att chosen] at run
    set x := RingRecord.inService c.path c.role (s.popPeer d).timeBase a c.flags
    set v := (((s.popPeer d).report x).setRecord i _).sends c.outPort _
    obtain ⟨q, gs, up, message⟩ := v.sendUpstream_sends c (.lit path)
    rw [up] at run
    obtain ⟨record, others, ring, measured, sent, ports, frame⟩ :=
      (s.popPeer d).sends_sends_frame x i _ c.outPort q _ gs
    refine ⟨_, run, record, others, ?_, fun e m inPort serves => ?_, fun trims => ?_, ports, frame⟩
    · rw [← same]
      exact ring.trans (State.report_ring_congr (s := s) (t := s.popPeer d) rfl _)
    · have straps : v.straps = (s.popPeer d).straps := by
        have e := congrArg State.straps frame
        exact e
      have degree : v.degree e = (s.popPeer d).degree e := (s.popPeer d).report_degree x e
      obtain ⟨rfl, rfl⟩ := message e m inPort
        ((State.servesDegree_congr straps degree m).2 ((State.servesDegree_popPeer s d e m).2 serves))
      obtain ⟨hs, out⟩ := sent
      have node : v.nodeId = s.nodeId := by rw [State.nodeId, straps]; rfl
      refine ⟨hs, [], out.trans ?_⟩
      rw [node]
      rfl
    · obtain ⟨hs, out⟩ := measured
      have once : (s.popPeer d).trimsAtOnce c = true := trims
      refine ⟨hs, out.trans ?_⟩
      rw [once, if_pos rfl, List.append_assoc]
      rfl

end Sys2Proof.Machine

/-! PROOFS. The window query's answers, the head's best eight and the tail's choice (R8 to R10, R62, R68,
R70). -/

namespace Sys2Proof.Machine

open Sys2Proof

/-! ### Eligible placements and their costs (R8, R9) -/

/-- A guard cell is an obstacle exactly when a context owns it (R8). -/
theorem guardClear_iff (m : PortMap) (k : Nat) : guardClear (cellAt m k) = true ↔ ¬barred m k := by
  cases cell : cellAt m k with
  | none => simp [guardClear, barred, cell]
  | some x => cases x <;> simp [guardClear, barred, cell, Cell.owner]

/-- The cell below the band is none (R8, R9). -/
theorem cellBelow_of_lt (m : PortMap) {first back : Nat} (below : first < back) :
    cellBelow m first back = none := if_pos below

theorem cellBelow_of_le (m : PortMap) {first back : Nat} (within : back ≤ first) :
    cellBelow m first back = cellAt m (first - back) := if_neg (by omega)

/-- Eligibility in the words of R8. -/
theorem eligible_iff {m : PortMap} {g first n : Nat} (guard : g ≤ 1) : eligible m g first n = true ↔
    (∀ k, first ≤ k → k < first + n → cellAt m k = some .free) ∧
      (g = 1 → (first = 0 ∨ ¬barred m (first - 1)) ∧ ¬barred m (first + n)) := by
  have below : guardClear (cellBelow m first 1) = true ↔ first = 0 ∨ ¬barred m (first - 1) := by
    rcases Nat.eq_zero_or_pos first with rfl | positive
    · simp [cellBelow_of_lt m (show (0 : Nat) < 1 by decide), guardClear]
    · rw [cellBelow_of_le m positive, guardClear_iff]
      simp only [or_iff_right (show first ≠ 0 by omega)]
  rw [eligible, Bool.and_eq_true, rangeAll_free_iff, Bool.or_eq_true, Bool.and_eq_true, decide_eq_true_eq,
    below, guardClear_iff]
  refine and_congr_right fun _ => ?_
  obtain rfl | rfl : g = 0 ∨ g = 1 := by omega
  · simp
  · simp

/-- The side cost in the words of R9. -/
theorem sideCost_eq (m : PortMap) (g first n : Nat) :
    sideCost m g first n = probe m ((first : Int) - (g + 1)) + probe m ((first : Int) + n + g) := by
  have above : probeScore (cellAt m (first + n + g)) = probe m ((first : Int) + n + g) := by
    have index : ((first : Int) + n + g).toNat = first + n + g := by omega
    have band : 0 ≤ (first : Int) + n + g := by omega
    simp only [probeScore, probe, index, band, true_and]
  have below : probeScore (cellBelow m first (g + 1)) = probe m ((first : Int) - (g + 1)) := by
    by_cases outside : first < g + 1
    · have band : ¬0 ≤ (first : Int) - (g + 1) := by omega
      simp only [cellBelow_of_lt m outside, probeScore, probe, band, false_and, if_false, reduceCtorEq]
    · have index : ((first : Int) - (g + 1)).toNat = first - (g + 1) := by omega
      have band : 0 ≤ (first : Int) - (g + 1) := by omega
      simp only [cellBelow_of_le m (Nat.le_of_not_lt outside), probeScore, probe, index, band, true_and]
  rw [sideCost, below, above]

/-! ### The head's best eight (R62) -/

/-- The query's answers as the tie direction leans. -/
def leaning (tie : Tie) (found : List Candidate) : List Candidate :=
  match tie with
  | .low => found
  | .high => found.reverse

/-- The answers by cost, and leaning within a cost. -/
def byCost (tie : Tie) (found : List Candidate) : List Candidate :=
  [0, 1, 2].flatMap fun k => (leaning tie found).filter fun c => decide (c.cost = k)

theorem chooseCandidates_eq (tie : Tie) (found : List Candidate) :
    chooseCandidates tie found = (byCost tie found).take 8 := rfl

theorem mem_leaning_iff (tie : Tie) (found : List Candidate) (x : Candidate) :
    x ∈ leaning tie found ↔ x ∈ found := by
  cases tie <;> simp [leaning]

theorem mem_byCost_iff {tie : Tie} {found : List Candidate} (low : ∀ x ∈ found, x.cost ≤ 2) (x : Candidate) :
    x ∈ byCost tie found ↔ x ∈ found := by
  simp only [byCost, List.mem_flatMap, List.mem_filter, decide_eq_true_eq, mem_leaning_iff]
  constructor
  · rintro ⟨_, -, mem, -⟩
    exact mem
  · intro mem
    have := low x mem
    exact ⟨x.cost, by simp only [List.mem_cons, List.not_mem_nil]; omega, mem, rfl⟩

theorem byCost_length {tie : Tie} {found : List Candidate} (low : ∀ x ∈ found, x.cost ≤ 2) :
    (byCost tie found).length = found.length := by
  have classes (xs : List Candidate) (low : ∀ x ∈ xs, x.cost ≤ 2) :
      ([0, 1, 2].flatMap fun k => xs.filter fun c => decide (c.cost = k)).length = xs.length := by
    induction xs with
    | nil => rfl
    | cons x xs ih =>
      have rest := ih fun y mem => low y (List.mem_cons_of_mem _ mem)
      have cost := low x List.mem_cons_self
      simp only [List.flatMap_cons, List.flatMap_nil, List.length_append, List.length_nil,
        List.filter_cons, List.length_cons, decide_eq_true_eq] at rest ⊢
      obtain e | e | e : x.cost = 0 ∨ x.cost = 1 ∨ x.cost = 2 := by omega
      all_goals
        simp only [e, List.length_cons, reduceIte, OfNat.ofNat_ne_zero, OfNat.ofNat_ne_one, zero_ne_one,
          one_ne_zero, OfNat.zero_ne_ofNat, OfNat.one_ne_ofNat]
        omega
  rw [byCost, classes _ fun x mem => low x ((mem_leaning_iff tie found x).1 mem)]
  cases tie <;> simp [leaning]

/-- The order of the list is the order of R62. -/
theorem byCost_pairwise {tie : Tie} {found : List Candidate}
    (ascending : (found.map Candidate.s).Pairwise (· < ·)) : (byCost tie found).Pairwise (better tie) := by
  have leans : (leaning tie found).Pairwise fun x y =>
      match tie with | .low => x.s < y.s | .high => y.s < x.s := by
    rw [List.pairwise_map] at ascending
    cases tie with
    | low => exact ascending
    | high => exact List.pairwise_reverse.2 ascending
  have within (k : Nat) :
      ((leaning tie found).filter fun c => decide (c.cost = k)).Pairwise (better tie) := by
    refine (List.Pairwise.and_mem.1 (leans.filter _)).imp fun {x y} both => ?_
    obtain ⟨hx, hy, order⟩ := both
    rw [List.mem_filter, decide_eq_true_eq] at hx hy
    exact .inr ⟨hx.2.trans hy.2.symm, order⟩
  have across {j k : Nat} (less : j < k) :
      ∀ x ∈ (leaning tie found).filter (fun c => decide (c.cost = j)),
        ∀ y ∈ (leaning tie found).filter (fun c => decide (c.cost = k)), better tie x y := by
    intro x hx y hy
    rw [List.mem_filter, decide_eq_true_eq] at hx hy
    exact .inl (by omega)
  simp only [byCost, List.flatMap_cons, List.flatMap_nil, List.append_nil, List.pairwise_append,
    List.mem_append]
  exact ⟨within 0, ⟨within 1, within 2, across (by decide)⟩, fun x hx y hy =>
    hy.elim (across (by decide) x hx y) (across (by decide) x hx y)⟩

/-! ### The tail's choice (R70) -/

theorem preferred_iff (tie : Tie) (x y : Candidate) : preferred tie x y = true ↔ ¬better tie y x := by
  cases tie <;> simp only [preferred, better, Bool.or_eq_true, Bool.and_eq_true, decide_eq_true_eq] <;> omega

theorem better_asymm {tie : Tie} {x y : Candidate} (less : better tie x y) : ¬better tie y x := by
  cases tie <;> simp only [better] at less ⊢ <;> omega

theorem not_better_trans {tie : Tie} {x y z : Candidate} (xy : ¬better tie x y) (yz : ¬better tie y z) :
    ¬better tie x z := by
  cases tie <;> simp only [better] at xy yz ⊢ <;> omega

theorem tailChoice_eq_none_iff (tie : Tie) (cands : List Candidate) :
    tailChoice tie cands = none ↔ cands = [] := by
  cases cands with
  | nil => simp [tailChoice]
  | cons c cs =>
    simp only [tailChoice, reduceCtorEq, iff_false]
    split
    · simp
    · split <;> simp

/-- No survivor is better than the tail's choice (R70). -/
theorem not_better_tailChoice {tie : Tie} {cands : List Candidate} {best : Candidate}
    (chosen : tailChoice tie cands = some best) : ∀ y ∈ cands, ¬better tie y best := by
  induction cands generalizing best with
  | nil => nofun
  | cons c cs ih =>
    have self (x : Candidate) : ¬better tie x x := fun less => better_asymm less less
    simp only [List.forall_mem_cons]
    unfold tailChoice at chosen
    split at chosen
    next alone =>
      cases chosen
      obtain rfl := (tailChoice_eq_none_iff tie cs).1 alone
      exact ⟨self c, by simp⟩
    next rest found =>
      split at chosen
      next first =>
        cases chosen
        exact ⟨self c, fun y mem => not_better_trans (ih found y mem) ((preferred_iff tie c rest).1 first)⟩
      next later =>
        cases chosen
        rw [preferred_iff, not_not] at later
        exact ⟨better_asymm later, ih found⟩

theorem trimCandidates_eq (m : PortMap) (g n : Nat) (cands : List Candidate) :
    trimCandidates m g n cands = (cands.filter fun c => eligible m g c.s n).map
      (fun c => ⟨c.s, c.cost + sideCost m g c.s n⟩) := by
  induction cands with
  | nil => rfl
  | cons c cs ih =>
    rw [trimCandidates] at ih ⊢
    by_cases fits : eligible m g c.s n = true
    · simp [fits, ih]
    · simp [fits, ih]

/-- Settles O21, on the order of the query's answers by cost and the choice among the survivors. -/
theorem theBestPlacementsAreOfferedAndChosen : Obligations.TheBestPlacementsAreOfferedAndChosen := by
  constructor
  · intro m g n lo hi tie guard window found kept
    have low : ∀ x ∈ found, x.cost ≤ 2 := by
      intro x mem
      obtain ⟨-, -, -, cost⟩ := mem_windowQuery_iff.1 mem
      rw [cost]
      exact sideCost_le m g x.s n
    have order := byCost_pairwise (tie := tie) (windowQuery_ascending m g n lo hi)
    have split : byCost tie found = kept ++ (byCost tie found).drop 8 :=
      (List.take_append_drop 8 (byCost tie found)).symm
    rw [split, List.pairwise_append] at order
    obtain ⟨sorted, -, best⟩ := order
    refine ⟨fun x => ?_, windowQuery_ascending m g n lo hi, ?_, sorted, fun x => mem_of_mem_chooseCandidates,
      fun x mem out y hy => best y hy x ?_⟩
    · rw [mem_windowQuery_iff, eligible_iff guard, sideCost_eq]
      simp only [and_assoc]
    · rw [← byCost_length (tie := tie) low]
      exact List.length_take
    · have listed := (mem_byCost_iff (tie := tie) low x).2 mem
      rw [split, List.mem_append] at listed
      exact listed.resolve_left out
  · intro m g n tie cands guard survivors
    exact ⟨trimCandidates_eq m g n cands, tailChoice_eq_none_iff tie survivors, fun x chosen =>
      ⟨mem_of_tailChoice chosen, not_better_tailChoice chosen⟩⟩

end Sys2Proof.Machine

/-! PROOFS. The receiver of a link: bytes in pieces, bad frames and whole frames (R172, R184, R185). -/

namespace Sys2Proof.Machine

open Sys2Proof

/-! ### The search for a marker (R184) -/

theorem seekMarker_length_le (bytes : List Byte) : (seekMarker bytes).length ≤ bytes.length := by
  induction bytes using seekMarker.induct with
  | case1 => simp [seekMarker]
  | case2 => simp [seekMarker]
  | case3 b other => rw [seekMarker, if_neg other]; simp
  | case4 a b rest marker => simp [seekMarker, marker]
  | case5 a b rest other ih =>
    rw [seekMarker, if_neg other]
    exact ih.trans (by simp)

/-- A byte that begins no marker is passed over. -/
theorem seekMarker_cons_of_ne {b : Byte} (other : b ≠ marker1) (bytes : List Byte) :
    seekMarker (b :: bytes) = seekMarker bytes := by
  cases bytes with
  | nil => exact if_neg other
  | cons c rest => rw [seekMarker, if_neg fun both => other both.1]

/-- Bytes none of which begins a marker are passed over. -/
theorem seekMarker_of_forall_ne {bytes : List Byte} (none : ∀ x ∈ bytes, x ≠ marker1) :
    seekMarker bytes = [] := by
  induction bytes with
  | nil => rfl
  | cons b rest ih =>
    rw [List.forall_mem_cons] at none
    rw [seekMarker_cons_of_ne none.1, ih none.2]

theorem seekMarker_marker (bytes : List Byte) :
    seekMarker (marker1 :: marker2 :: bytes) = marker1 :: marker2 :: bytes :=
  if_pos ⟨rfl, rfl⟩

/-- The two bytes that the search stops at are the marker. -/
theorem marker_of_seekMarker {bytes rest : List Byte} {a b : Byte} (found : seekMarker bytes = a :: b :: rest) :
    a = marker1 ∧ b = marker2 := by
  induction bytes using seekMarker.induct with
  | case1 => simp [seekMarker] at found
  | case2 => simp [seekMarker] at found
  | case3 c other =>
    rw [seekMarker, if_neg other] at found
    cases found
  | case4 c d more marker =>
    rw [seekMarker, if_pos marker] at found
    cases found
    exact marker
  | case5 c d more other ih =>
    rw [seekMarker, if_neg other] at found
    exact ih found

/-- The bytes passed over play no part in what the search finds after them. -/
theorem seekMarker_append (xs ys : List Byte) : seekMarker (xs ++ ys) = seekMarker (seekMarker xs ++ ys) := by
  induction xs using seekMarker.induct with
  | case1 => simp [seekMarker]
  | case2 => simp [seekMarker]
  | case3 b other =>
    rw [List.cons_append, seekMarker_cons_of_ne other, seekMarker_cons_of_ne other]
    rfl
  | case4 a b rest marker => rw [seekMarker, if_pos marker]
  | case5 a b rest other ih =>
    rw [List.cons_append, List.cons_append, seekMarker, if_neg other, seekMarker, if_neg other]
    exact ih

/-- Bytes that hold a length field after a marker. -/
theorem four_of_length {bytes : List Byte} (long : ¬bytes.length < 4) :
    ∃ m1 m2 hi lo rest, bytes = m1 :: m2 :: hi :: lo :: rest := by
  rcases bytes with _ | ⟨m1, _ | ⟨m2, _ | ⟨hi, _ | ⟨lo, rest⟩⟩⟩⟩
  · simp at long
  · simp at long
  · simp at long
  · simp at long
  · exact ⟨m1, m2, hi, lo, rest, rfl⟩

/-! ### The receiver (R184) -/

section
variable (rule : LinkRule)

/-- The receiver over bytes, with fuel for all of them. -/
def scan (bytes : List Byte) : List GoodFrame × List Byte := receive rule (bytes.length + 1) bytes

theorem receiveAll_eq (held arrived : List Byte) : receiveAll rule held arrived = scan rule (held ++ arrived) := rfl

/-- Fuel beyond the number of bytes changes nothing: each round consumes a marker. -/
theorem receive_of_lt {fuel : Nat} {bytes : List Byte} (enough : bytes.length < fuel) :
    receive rule fuel bytes = scan rule bytes := by
  induction fuel using Nat.strong_induction_on generalizing bytes with
  | _ fuel ih =>
    obtain ⟨fuel, rfl⟩ : ∃ k, fuel = k + 1 := ⟨fuel - 1, by omega⟩
    by_cases same : fuel = bytes.length
    · rw [scan, same]
    · have shorter := seekMarker_length_le bytes
      rw [scan, receive, receive]
      split
      next m1 m2 hi lo rest found =>
        rw [found] at shorter
        simp only [List.length_cons] at shorter
        have next {more : List Byte} (less : more.length < bytes.length) :
            receive rule fuel more = receive rule bytes.length more := by
          rw [ih fuel (by omega) (by omega), ih bytes.length (by omega) less]
        have drop : (rest.drop (be2 hi lo + 2)).length ≤ rest.length := by simp
        dsimp only
        rw [next (more := rest.drop (be2 hi lo + 2)) (by omega),
          next (more := hi :: lo :: rest) (by simp only [List.length_cons]; omega)]
      next => rfl

/-- One round on a whole frame. -/
theorem scan_whole {bytes rest : List Byte} {m1 m2 hi lo : Byte}
    (found : seekMarker bytes = m1 :: m2 :: hi :: lo :: rest) (whole : be2 hi lo + 2 ≤ rest.length) :
    scan rule bytes =
      (judgeFrame rule hi lo (rest.take (be2 hi lo)) ((rest.drop (be2 hi lo)).take 2)).elim
        (scan rule (hi :: lo :: rest)) fun f =>
          (f :: (scan rule (rest.drop (be2 hi lo + 2))).1, (scan rule (rest.drop (be2 hi lo + 2))).2) := by
  have shorter := seekMarker_length_le bytes
  rw [found] at shorter
  simp only [List.length_cons] at shorter
  have drop : (rest.drop (be2 hi lo + 2)).length ≤ rest.length := by simp
  rw [scan, receive, found]
  simp only [if_neg (show ¬rest.length < be2 hi lo + 2 by omega)]
  rw [receive_of_lt rule (bytes := rest.drop (be2 hi lo + 2)) (by omega),
    receive_of_lt rule (bytes := hi :: lo :: rest) (by simp only [List.length_cons]; omega)]
  cases judgeFrame rule hi lo (rest.take (be2 hi lo)) ((rest.drop (be2 hi lo)).take 2) <;> rfl

/-- A frame that is not yet whole: its bytes are held. -/
theorem scan_partial {bytes rest : List Byte} {m1 m2 hi lo : Byte}
    (found : seekMarker bytes = m1 :: m2 :: hi :: lo :: rest) (short : rest.length < be2 hi lo + 2) :
    scan rule bytes = ([], seekMarker bytes) := by
  rw [scan, receive, found]
  exact if_pos short

/-- Too few bytes to hold a length: they are held. -/
theorem scan_short {bytes : List Byte} (few : (seekMarker bytes).length < 4) :
    scan rule bytes = ([], seekMarker bytes) := by
  rw [scan, receive]
  split
  next found => rw [found] at few; simp only [List.length_cons] at few; omega
  next => rfl

/-- What the receiver makes of bytes is what it makes of them from the marker on. -/
theorem scan_seekMarker_append (xs ys : List Byte) : scan rule (xs ++ ys) = scan rule (seekMarker xs ++ ys) := by
  have same := seekMarker_append xs ys
  by_cases few : (seekMarker (xs ++ ys)).length < 4
  · rw [scan_short rule few, scan_short rule (same ▸ few), same]
  · obtain ⟨m1, m2, hi, lo, rest, found⟩ := four_of_length few
    by_cases short : rest.length < be2 hi lo + 2
    · rw [scan_partial rule found short, scan_partial rule (same ▸ found) short, same]
    · exact (scan_whole rule found (by omega)).trans (scan_whole rule (same ▸ found) (by omega)).symm

/-- Bytes may arrive in pieces (R184). -/
theorem scan_append (xs ys : List Byte) : scan rule (xs ++ ys) =
    ((scan rule xs).1 ++ (scan rule ((scan rule xs).2 ++ ys)).1, (scan rule ((scan rule xs).2 ++ ys)).2) := by
  induction h : xs.length using Nat.strong_induction_on generalizing xs with
  | _ n ih =>
    subst h
    have waits (held : scan rule xs = ([], seekMarker xs)) : scan rule (xs ++ ys) =
        ((scan rule xs).1 ++ (scan rule ((scan rule xs).2 ++ ys)).1,
          (scan rule ((scan rule xs).2 ++ ys)).2) := by
      rw [held, scan_seekMarker_append]
      rfl
    by_cases few : (seekMarker xs).length < 4
    · exact waits (scan_short rule few)
    · obtain ⟨m1, m2, hi, lo, rest, found⟩ := four_of_length few
      by_cases short : rest.length < be2 hi lo + 2
      · exact waits (scan_partial rule found short)
      · have shorter := seekMarker_length_le xs
        rw [found] at shorter
        simp only [List.length_cons] at shorter
        obtain ⟨rfl, rfl⟩ := marker_of_seekMarker found
        have found' : seekMarker (xs ++ ys) = marker1 :: marker2 :: hi :: lo :: (rest ++ ys) := by
          rw [seekMarker_append, found]
          exact seekMarker_marker _
        rw [scan_whole rule found' (by rw [List.length_append]; omega), scan_whole rule found (by omega),
          List.take_append_of_le_length (by omega), List.drop_append_of_le_length (by omega),
          List.take_append_of_le_length (by rw [List.length_drop]; omega),
          List.drop_append_of_le_length (by omega)]
        cases judgeFrame rule hi lo (rest.take (be2 hi lo)) ((rest.drop (be2 hi lo)).take 2) with
        | some f =>
          rw [ih (rest.drop (be2 hi lo + 2)).length (by rw [List.length_drop]; omega) _ rfl]
          rfl
        | none => exact ih (hi :: lo :: rest).length (by simp only [List.length_cons]; omega) _ rfl

/-- Bytes none of which begins a marker leave nothing. -/
theorem scan_of_forall_ne {bytes : List Byte} (none : ∀ x ∈ bytes, x ≠ marker1) :
    scan rule bytes = ([], []) := by
  have sought := seekMarker_of_forall_ne none
  rw [scan_short rule (by rw [sought]; decide), sought]

/-! ### One frame (R184, R185) -/

variable {hi lo flag c1 c0 : Byte} {body : List Byte} (length : be2 hi lo = body.length + 1)
include length

/-- A whole frame and its judgement. -/
theorem scan_frame : scan rule (marker1 :: marker2 :: hi :: lo :: flag :: body ++ [c1, c0]) =
    (judgeFrame rule hi lo (flag :: body) [c1, c0]).elim (scan rule (hi :: lo :: flag :: body ++ [c1, c0]))
      fun f => ([f], []) := by
  have size : (flag :: body ++ [c1, c0]).length = be2 hi lo + 2 := by simp [length]
  have content : (flag :: body ++ [c1, c0]).take (be2 hi lo) = flag :: body := by
    rw [length]
    exact List.take_left' (by simp)
  have check : (flag :: body ++ [c1, c0]).drop (be2 hi lo) = [c1, c0] := by
    rw [length]
    exact List.drop_left' (by simp)
  have after : (flag :: body ++ [c1, c0]).drop (be2 hi lo + 2) = [] :=
    List.drop_eq_nil_of_le size.le
  have nothing : scan rule [] = ([], []) := scan_of_forall_ne rule (by simp)
  refine (scan_whole rule (rest := flag :: body ++ [c1, c0]) (seekMarker_marker _) size.ge).trans ?_
  rw [content, check, after, nothing]
  rfl

/-- A bad frame does what the bytes after its start marker do (R184). -/
theorem scan_bad (bad : judgeFrame rule hi lo (flag :: body) [c1, c0] = none) :
    scan rule (marker1 :: marker2 :: hi :: lo :: flag :: body ++ [c1, c0]) =
      scan rule (hi :: lo :: flag :: body ++ [c1, c0]) := by
  rw [scan_frame rule length, bad]
  rfl

end

end Sys2Proof.Machine

/-! PROOFS. What arrives on the links: pieces of a stream, bad frames, and frames that join their queues
(R38 to R40, R83, R172, R184, R185). -/

namespace Sys2Proof.Machine

open Sys2Proof

/-! ### The judgement of a frame (R184, R185) -/

section
variable {rule : LinkRule} {hi lo flag c1 c0 : Byte} {body : List Byte}

/-- A frame is good when its length, check, stream and body are. -/
theorem judgeFrame_eq_none_iff : judgeFrame rule hi lo (flag :: body) [c1, c0] = none ↔
    ¬(1 ≤ be2 hi lo ∧ be2 hi lo ≤ rule.maxLength ∧
      crc (hi :: lo :: flag :: body) = BitVec.ofNat 16 (be2 c1 c0) ∧ flag ∈ rule.flags ∧
      rule.bodyPasses flag body = true) := by
  rw [judgeFrame]
  exact ite_eq_right_iff.trans (by simp only [reduceCtorEq, imp_false])

/-- The frame that the part itself would form for a body is good on a link that carries its stream, its
length and its body (R184, R186). -/
theorem judgeFrame_formed (fits : body.length + 1 ≤ rule.maxLength) (small : body.length + 1 < 65536)
    (stream : flag ∈ rule.flags) (passes : rule.bodyPasses flag body = true) :
    judgeFrame rule (byteOf ((body.length + 1) / 256)) (byteOf (body.length + 1)) (flag :: body)
      (put2 (crc (put2 (body.length + 1) ++ flag :: body)).toNat) = some ⟨flag, body⟩ := by
  have length := be2_byteOf small
  have check := be2_byteOf (crc (put2 (body.length + 1) ++ flag :: body)).isLt
  refine if_pos ⟨by omega, by omega, ?_, stream, passes⟩
  rw [check, BitVec.ofNat_toNat, BitVec.setWidth_eq]
  rfl

/-- The receiver takes one whole good frame and holds nothing after it. -/
theorem scan_frameBytes (fits : body.length + 1 ≤ rule.maxLength) (small : body.length + 1 < 65536)
    (stream : flag ∈ rule.flags) (passes : rule.bodyPasses flag body = true) :
    scan rule (frameBytes flag body) = ([⟨flag, body⟩], []) := by
  have whole := scan_frame rule (c1 := byteOf ((crc (put2 (body.length + 1) ++ flag :: body)).toNat / 256))
    (c0 := byteOf (crc (put2 (body.length + 1) ++ flag :: body)).toNat) (flag := flag) (be2_byteOf small)
  have good := judgeFrame_formed fits small stream passes
  exact whole.trans (congrArg (fun x => Option.elim x _ _) good)

end

/-! ### Arrivals on a link (R184) -/

/-- A link: its rule, the bytes that its receiver holds, and what is done with a good frame. -/
structure Link where
  rule : LinkRule
  held : State → List Byte
  hold : State → List Byte → State
  accept : State → GoodFrame → State

/-- What an arrival on a link does. -/
def Link.arrive (l : Link) (s : State) (bytes : List Byte) : State :=
  (scan l.rule (l.held s ++ bytes)).1.foldl l.accept (l.hold s (scan l.rule (l.held s ++ bytes)).2)

/-- The bytes held and the frames taken do not meet. -/
structure Link.Apart (l : Link) : Prop where
  held_hold : ∀ s left, l.held (l.hold s left) = left
  hold_hold : ∀ s left left', l.hold (l.hold s left) left' = l.hold s left'
  held_accept : ∀ s f, l.held (l.accept s f) = l.held s
  hold_accept : ∀ s f left, l.hold (l.accept s f) left = l.accept (l.hold s left) f
  inReset_accept : ∀ s f, (l.accept s f).inReset = s.inReset
  inReset_hold : ∀ s left, (l.hold s left).inReset = s.inReset

namespace Link

variable {l : Link}

theorem held_accepts (apart : l.Apart) (fs : List GoodFrame) (s : State) :
    l.held (fs.foldl l.accept s) = l.held s := by
  induction fs generalizing s with
  | nil => rfl
  | cons f fs ih => exact (ih _).trans (apart.held_accept s f)

theorem hold_accepts (apart : l.Apart) (fs : List GoodFrame) (s : State) (left : List Byte) :
    l.hold (fs.foldl l.accept s) left = fs.foldl l.accept (l.hold s left) := by
  induction fs generalizing s with
  | nil => rfl
  | cons f fs ih => exact (ih _).trans (congrArg (fs.foldl l.accept) (apart.hold_accept s f left))

theorem inReset_arrive (apart : l.Apart) (s : State) (bytes : List Byte) :
    (l.arrive s bytes).inReset = s.inReset := by
  have accepts (fs : List GoodFrame) (s : State) : (fs.foldl l.accept s).inReset = s.inReset := by
    induction fs generalizing s with
    | nil => rfl
    | cons f fs ih => exact (ih _).trans (apart.inReset_accept s f)
  exact (accepts _ _).trans (apart.inReset_hold _ _)

/-- Two arrivals on a link do what one does (R184). -/
theorem arrive_arrive (apart : l.Apart) (s : State) (xs ys : List Byte) :
    l.arrive (l.arrive s xs) ys = l.arrive s (xs ++ ys) := by
  have held : l.held (l.arrive s xs) = (scan l.rule (l.held s ++ xs)).2 := by
    rw [arrive, held_accepts apart, apart.held_hold]
  rw [arrive, held, arrive, hold_accepts apart, apart.hold_hold, arrive, ← List.append_assoc,
    scan_append l.rule (l.held s ++ xs), List.foldl_append]

/-- Two arrivals by rows of one link do what one does, also while the reset pin is asserted (R182,
R184). -/
theorem arrival_append (apart : l.Apart) {s t : State} {xs ys : List Byte}
    (run : whileRunning s (l.arrive · xs) = .next t) :
    whileRunning t (l.arrive · ys) = whileRunning s (l.arrive · (xs ++ ys)) := by
  cases running : s.inReset with
  | true =>
    obtain rfl := Host.Outcome.next.inj ((whileRunning_inReset running (l.arrive · xs)).symm.trans run)
    rw [whileRunning_inReset running, whileRunning_inReset running]
  | false =>
    obtain rfl := Host.Outcome.next.inj ((whileRunning_running running (l.arrive · xs)).symm.trans run)
    rw [whileRunning_running ((inReset_arrive apart s xs).trans running), whileRunning_running running,
      arrive_arrive apart]

/-- A bad frame on an idle receiver does what the bytes after its start marker do, and nothing when none
of them begins another marker (R184, R185). -/
theorem arrive_bad {s : State} {hi lo flag c1 c0 : Byte} {body : List Byte} (idle : l.held s = [])
    (length : be2 hi lo = body.length + 1) (empty : l.hold s [] = s)
    (bad : judgeFrame l.rule hi lo (flag :: body) [c1, c0] = none) :
    l.arrive s (marker1 :: marker2 :: (hi :: lo :: flag :: body ++ [c1, c0])) =
        l.arrive s (hi :: lo :: flag :: body ++ [c1, c0]) ∧
      ((∀ x ∈ hi :: lo :: flag :: body ++ [c1, c0], x ≠ marker1) →
        l.arrive s (marker1 :: marker2 :: (hi :: lo :: flag :: body ++ [c1, c0])) = s) := by
  have same := scan_bad l.rule length bad
  constructor
  · rw [arrive, arrive, idle]
    exact congrArg (fun r : List GoodFrame × List Byte => r.1.foldl l.accept (l.hold s r.2)) same
  · intro none
    rw [arrive, idle]
    have nothing := same.trans (scan_of_forall_ne l.rule none)
    exact (congrArg (fun r : List GoodFrame × List Byte => r.1.foldl l.accept (l.hold s r.2)) nothing).trans empty

/-- A whole good frame on an idle receiver is accepted (R184). -/
theorem arrive_frameBytes {s : State} {flag : Byte} {body : List Byte} (idle : l.held s = [])
    (empty : l.hold s [] = s) (fits : body.length + 1 ≤ l.rule.maxLength) (small : body.length + 1 < 65536)
    (stream : flag ∈ l.rule.flags) (passes : l.rule.bodyPasses flag body = true) :
    l.arrive s (frameBytes flag body) = l.accept s ⟨flag, body⟩ := by
  rw [arrive, idle, List.nil_append, scan_frameBytes fits small stream passes]
  exact congrArg (l.accept · _) empty

end Link

/-! ### The management link and the port links -/

/-- The management link (R172, R184). -/
def mgmtLink : Link where
  rule := mgmtLinkRule
  held := State.mgmtRx
  hold s left := { s with mgmtRx := left }
  accept := State.acceptCommand

/-- The link of a port, whose two streams share one receiver (R38, R184). -/
def portLink (p : PortNo) : Link where
  rule := portLinkRule p
  held s := (s.port p).rx
  hold s left := s.onPort p fun ps => { ps with rx := left }
  accept := State.acceptOnLink p

theorem exec_commandArrival (bytes : List Byte) (s : State) :
    exec (.commandArrival bytes) s = whileRunning s (mgmtLink.arrive · bytes) := rfl

theorem exec_peerFrameArrival (p : PortNo) (bytes : List Byte) (s : State) :
    exec (.peerFrameArrival p bytes) s = whileRunning s ((portLink p).arrive · bytes) := rfl

theorem exec_controllerFrameArrival (p : PortNo) (bytes : List Byte) (s : State) :
    exec (.controllerFrameArrival p bytes) s = whileRunning s ((portLink p).arrive · bytes) := rfl

theorem mgmtLink_apart : mgmtLink.Apart where
  held_hold _ _ := rfl
  hold_hold _ _ _ := rfl
  held_accept s f := by
    change (s.acceptCommand f).mgmtRx = s.mgmtRx
    unfold State.acceptCommand
    split <;> rfl
  hold_accept s f left := by
    change { s.acceptCommand f with mgmtRx := left } = State.acceptCommand { s with mgmtRx := left } f
    unfold State.acceptCommand
    by_cases room : s.commands.length < Config.commandQueueCapacity
    · rw [if_pos room]; exact (if_pos room).symm
    · rw [if_neg room]; exact (if_neg room).symm
  inReset_accept s f := by
    change (s.acceptCommand f).inReset = s.inReset
    unfold State.acceptCommand
    split <;> rfl
  inReset_hold _ _ := rfl

/-- A report joins a port's queue, or sets its overflow flag (R83). -/
def PortState.takeReport (q : PortState) (r : Report) : PortState :=
  if q.reports.length < 8 then { q with reports := q.reports ++ [r] } else { q with overflow := true }

/-- A peer frame joins a degree's queue, or sets its overflow flag (R40). -/
def DegreeState.takeFrame (x : DegreeState) (body : List Byte) : DegreeState :=
  if x.peerQueue.length < 16 then { x with peerQueue := x.peerQueue ++ [body] } else { x with overflow := true }

theorem State.acceptReport_none (s : State) (p : PortNo) {body : List Byte} (read : readReport body = none) :
    s.acceptReport p body = s := by
  simp only [State.acceptReport, read]

theorem State.acceptReport_some (s : State) (p : PortNo) {body : List Byte} {r : Report}
    (read : readReport body = some r) : s.acceptReport p body = s.onPort p (·.takeReport r) := by
  simp only [State.acceptReport, read]
  rfl

/-- Whether a peer frame is for this part (R38, R39). -/
def State.takesFrame (s : State) (body : List Byte) : Bool :=
  s.identityValid && (peerDest body).any s.acceptsDest

theorem State.acceptPeer_eq (s : State) (d : DegreeNo) (body : List Byte) :
    s.acceptPeer d body = if s.takesFrame body then s.onDegree d (·.takeFrame body) else s := rfl

/-- The three things that a frame of a port link may come to (R38, R83, R184). -/
theorem State.acceptOnLink_cases (p : PortNo) (f : GoodFrame) :
    (∀ s : State, s.acceptOnLink p f = s) ∨ (∃ r, ∀ s : State, s.acceptOnLink p f = s.onPort p (·.takeReport r)) ∨
      ∃ d, ∀ s : State, s.acceptOnLink p f = if s.takesFrame f.body then s.onDegree d (·.takeFrame f.body) else s := by
  by_cases controller : f.flag = flagController
  · have here (s : State) : s.acceptOnLink p f = s.acceptReport p f.body := if_pos controller
    cases read : readReport f.body with
    | none => exact .inl fun s => (here s).trans (s.acceptReport_none p read)
    | some r => exact .inr (.inl ⟨r, fun s => (here s).trans (s.acceptReport_some p read)⟩)
  · have here (s : State) : s.acceptOnLink p f = match degreeOf p with
        | some d => s.acceptPeer d f.body
        | none => s := if_neg controller
    cases degree : degreeOf p with
    | none => exact .inl fun s => by rw [here, degree]
    | some d => exact .inr (.inr ⟨d, fun s => by rw [here, degree]; rfl⟩)

theorem PortState.takeReport_rx (q : PortState) (r : Report) : (q.takeReport r).rx = q.rx := by
  unfold PortState.takeReport
  split <;> rfl

theorem portLink_apart (p : PortNo) : (portLink p).Apart where
  held_hold s left := congrArg PortState.rx (State.port_onPort_same s p _)
  hold_hold s left left' := State.onPort_onPort s p _ _
  held_accept s f := by
    change ((s.acceptOnLink p f).port p).rx = (s.port p).rx
    rcases State.acceptOnLink_cases p f with stays | ⟨r, joins⟩ | ⟨d, joins⟩
    · rw [stays]
    · rw [joins, State.port_onPort_same, PortState.takeReport_rx]
    · rw [joins]
      split <;> rfl
  hold_accept s f left := by
    change (s.acceptOnLink p f).onPort p (fun ps => { ps with rx := left }) =
      (s.onPort p fun ps => { ps with rx := left }).acceptOnLink p f
    rcases State.acceptOnLink_cases p f with stays | ⟨r, joins⟩ | ⟨d, joins⟩
    · rw [stays, stays]
    · rw [joins, joins, State.onPort_onPort, State.onPort_onPort]
      refine State.onPort_congr ?_
      unfold PortState.takeReport
      split <;> rfl
    · rw [joins, joins]
      have same : State.takesFrame (s.onPort p fun ps => { ps with rx := left }) f.body = s.takesFrame f.body := rfl
      rw [same]
      split <;> rfl
  inReset_accept s f := by
    change (s.acceptOnLink p f).inReset = s.inReset
    rcases State.acceptOnLink_cases p f with stays | ⟨r, joins⟩ | ⟨d, joins⟩
    · rw [stays]
    · rw [joins]; rfl
    · rw [joins]
      split <;> rfl
  inReset_hold _ _ := rfl

theorem portLink_idle {s : State} {p : PortNo} (idle : (s.port p).rx = []) : (portLink p).hold s [] = s :=
  State.onPort_eq_self (by rw [← idle])

/-- The streams of a port link (R184). -/
theorem mem_portLink_flags_iff (p : PortNo) (flag : Byte) :
    flag ∈ (portLink p).rule.flags ↔ flag = 1 ∨ flag = 2 ∧ p.val < 8 := by
  change flag ∈ (if p.val < 8 then [flagController, flagPeer] else [flagController]) ↔ _
  by_cases degree : p.val < 8
  · simp [degree]
  · simp [degree]

/-- A part takes the peer frames for itself, for all while it accepts them, and for its group while it
accepts them (R38, R39). -/
theorem State.takesFrame_iff (s : State) (body : List Byte) : s.takesFrame body = true ↔
    s.identityValid = true ∧ ∃ x, peerDest body = some x ∧ (x = s.nodeId.toNat ∨
      (x = 0 ∧ s.part.acceptAll = true) ∨ (x = s.part.groupId ∧ s.part.groupAccept = true)) := by
  simp only [State.takesFrame, Bool.and_eq_true, Option.any_eq_true, State.acceptsDest, Bool.or_eq_true,
    decide_eq_true_eq, or_assoc, and_comm (a := s.part.groupAccept = true)]

/-! ### The obligations -/

/-- A management frame that arrives whole (R172). -/
theorem exec_commandArrival_frameBytes {s : State} {body : List Byte} (running : s.inReset = false)
    (idle : s.mgmtRx = []) (short : body.length ≤ 4095) :
    exec (.commandArrival (frameBytes 3 body)) s = .next (s.acceptCommand ⟨3, body⟩) := by
  have empty : mgmtLink.hold s [] = s := by rw [← idle]; rfl
  have taken := Link.arrive_frameBytes (l := mgmtLink) (flag := 3) (body := body) idle empty
    (show body.length + 1 ≤ 4096 by omega) (by omega) (List.mem_singleton_self _) rfl
  exact (whileRunning_running running (mgmtLink.arrive · _)).trans (congrArg Host.Outcome.next taken)

/-- A frame of a port link that arrives whole and passes (R184, R185). -/
theorem portLink_arrive_frameBytes {s : State} {p : PortNo} {flag : Byte} {body : List Byte}
    (idle : (s.port p).rx = []) (short : body.length ≤ 255) (stream : flag = 1 ∨ flag = 2 ∧ p.val < 8)
    (passes : portBodyPasses flag body = true) :
    (portLink p).arrive s (frameBytes flag body) = s.acceptOnLink p ⟨flag, body⟩ :=
  Link.arrive_frameBytes (l := portLink p) idle (portLink_idle idle) (show body.length + 1 ≤ 256 by omega)
    (by omega) ((mem_portLink_flags_iff p flag).2 stream) passes

/-- Settles O25, on the arrival of one whole frame on each kind of link. -/
theorem framesJoinTheirQueues : Obligations.FramesJoinTheirQueues := by
  refine ⟨fun s body running idle short => ?_, ?_, ?_⟩
  · rw [exec_commandArrival_frameBytes running idle short]
    exact ⟨fun room => congrArg Host.Outcome.next (if_pos room),
      fun full => congrArg Host.Outcome.next (if_neg (Nat.not_lt.2 full))⟩
  · intro s d body running idle short mine result
    have run : result = .next (if s.takesFrame body then s.onDegree d (·.takeFrame body) else s) := by
      have taken := portLink_arrive_frameBytes idle short (.inr ⟨rfl, portOf_val_lt d⟩)
        (show portBodyPasses 2 body = true by simp [portBodyPasses])
      refine (whileRunning_running running ((portLink (portOf d)).arrive · _)).trans ?_
      rw [taken, State.acceptOnLink, if_neg (by simp), degreeOf_portOf]
      rfl
    constructor
    · intro valid dest
      rw [if_pos ((s.takesFrame_iff body).2 ⟨valid, dest⟩)] at run
      exact ⟨_, run, fun e other => State.degree_onDegree_other _ _ other, rfl,
        State.degree_onDegree_same _ _ _⟩
    · intro other
      rw [if_neg] at run
      · exact run
      · rw [State.takesFrame_iff]
        rintro ⟨valid, x, dest, fits⟩
        rcases other with invalid | none
        · cases invalid.symm.trans valid
        · exact none x dest fits
  · intro s p body running idle short result
    constructor
    · intro unread none
      have judged : judgeFrame (portLink p).rule (byteOf ((body.length + 1) / 256)) (byteOf (body.length + 1))
          (1 :: body) (put2 (crc (put2 (body.length + 1) ++ 1 :: body)).toNat) = Option.none := by
        refine judgeFrame_eq_none_iff.2 ?_
        rintro ⟨-, -, -, -, passes⟩
        have reads : (decide ((1 : Byte) ≠ 1) || (readReport body).isSome) = true := passes
        simp [unread] at reads
      have nothing := (Link.arrive_bad (l := portLink p) idle (be2_byteOf (show body.length + 1 < 65536 by omega))
        (portLink_idle idle) judged).2 none
      exact (whileRunning_running running ((portLink p).arrive · _)).trans (congrArg Host.Outcome.next nothing)
    · intro r read
      have taken := portLink_arrive_frameBytes idle short (.inl rfl)
        (show portBodyPasses 1 body = true by simp [portBodyPasses, read])
      have run : result = .next (s.onPort p (·.takeReport r)) := by
        refine (whileRunning_running running ((portLink p).arrive · _)).trans ?_
        rw [taken, State.acceptOnLink, if_pos rfl, State.acceptReport_some s p read]
      exact ⟨_, run, fun q other => State.port_onPort_other _ _ other, rfl, State.port_onPort_same _ _ _⟩

/-- Settles O26, on the arrival of any link. -/
theorem arrivalsMayBeCutAndBadFramesAreLost : Obligations.ArrivalsMayBeCutAndBadFramesAreLost := by
  constructor
  · intro s t p xs ys
    exact ⟨Link.arrival_append mgmtLink_apart, Link.arrival_append (portLink_apart p),
      Link.arrival_append (portLink_apart p)⟩
  · intro s hi lo flag c1 c0 body running length rest wrong lost
    have bad {l : Link} (idle : l.held s = []) (empty : l.hold s [] = s) (row : List Byte → Instr)
        (does : ∀ bytes, exec (row bytes) s = whileRunning s (l.arrive · bytes))
        (judged : judgeFrame l.rule hi lo (flag :: body) [c1, c0] = none) : lost row := by
      obtain ⟨same, nothing⟩ := Link.arrive_bad idle length empty judged
      simp only [lost, does, whileRunning_running running]
      exact ⟨congrArg Host.Outcome.next same, fun none => congrArg Host.Outcome.next (nothing none)⟩
    refine ⟨fun idle fails => bad (l := mgmtLink) idle (by rw [← idle]; rfl) _ (fun _ => rfl)
      (judgeFrame_eq_none_iff.2 ?_), fun p idle fails => ?_⟩
    · rintro ⟨-, short, check, stream, -⟩
      rcases fails with differs | other | long
      · exact differs check
      · exact other (List.mem_singleton.1 stream)
      · have : be2 hi lo ≤ 4096 := short
        omega
    · have judged : judgeFrame (portLink p).rule hi lo (flag :: body) [c1, c0] = none := by
        refine judgeFrame_eq_none_iff.2 ?_
        rintro ⟨-, short, check, stream, passes⟩
        rcases fails with differs | other | ⟨controller, unread⟩ | long
        · exact differs check
        · have carried : flag = 1 ∨ flag = 2 ∧ p.val < 8 := (mem_portLink_flags_iff p flag).1 stream
          rcases carried with one | ⟨two, degree⟩
          · exact other.1 one
          · exact other.2.elim (· two) fun beyond => by omega
        · have reads : (decide (flag ≠ 1) || (readReport body).isSome) = true := passes
          simp [controller, unread] at reads
        · have : be2 hi lo ≤ 256 := short
          omega
      exact ⟨bad (l := portLink p) idle (portLink_idle idle) _ (fun _ => rfl) judged,
        bad (l := portLink p) idle (portLink_idle idle) _ (fun _ => rfl) judged⟩

end Sys2Proof.Machine

/-! PROOFS. What an event that is about other contexts does to a context that has ended or is on its way
to dark: its record stays, but for a step of its own (R19, R20, R117, R118). -/

namespace Sys2Proof.Machine

open Sys2Proof

/-- A context on its way to dark, with no swap and no target before it. -/
def Context.leaving (c : Context) : Prop := c.state = .retreating ∨ c.state = .closing

theorem Context.leaving_of_stepless {c c' : Context} (same : c'.stepless = c.stepless) (h : c.leaving) :
    c'.leaving := by
  have state : c'.state = c.state := by have e := congrArg Context.state same; exact e
  simpa only [Context.leaving, state] using h

/-- What of a context outlasts its steps and its requests: its identity, its levels and its cause. -/
def Context.lasting (c : Context) : Context :=
  { c with state := .offered, kind := none, flags := { c.flags with trimDue := false }, outstanding := none,
           timer := none, attempts := 0, base := none, stepSize := none, clean := 0, steps := 0 }

/-- The two contexts differ at most in their steps and their requests. -/
def Context.SameCause (c c' : Context) : Prop := c'.lasting = c.lasting

namespace Context.SameCause

variable {c c' : Context}

theorem refl (c : Context) : c.SameCause c := rfl

theorem trans {c'' : Context} (h : c.SameCause c') (h' : c'.SameCause c'') : c.SameCause c'' := Eq.trans h' h

theorem teardown (h : c.SameCause c') : c'.teardown = c.teardown := by
  have e := congrArg Context.teardown h
  exact e

theorem reason (h : c.SameCause c') : c'.abortReason = c.abortReason := by
  have e := congrArg Context.abortReason h
  exact e

theorem origin (h : c.SameCause c') : c'.origin = c.origin := by
  have e := congrArg Context.origin h
  exact e

theorem chosen (h : c.SameCause c') : c'.chosen = c.chosen := by
  have e := congrArg Context.chosen h
  exact e

theorem att (h : c.SameCause c') : c'.att = c.att := by
  have e := congrArg Context.att h
  exact e

theorem power (h : c.SameCause c') : c'.power = c.power := by
  have e := congrArg Context.power h
  exact e

theorem halted (h : c.SameCause c') : c'.flags.trimHalted = c.flags.trimHalted := by
  have e := congrArg (fun x => x.flags.trimHalted) h
  exact e

theorem forced (h : c.SameCause c') : c'.flags.closeForced = c.flags.closeForced := by
  have e := congrArg (fun x => x.flags.closeForced) h
  exact e

end Context.SameCause

theorem Context.sameCause_of_stepless {c c' : Context} (same : c'.stepless = c.stepless) : c.SameCause c' := by
  have e := congrArg Context.lasting same
  exact e

/-- A lit context without a kind: it steps not at all, and a swap marks it TrimDue at most (R20, R107). -/
def Context.rests (c : Context) : Prop := (c.state = .inService ∨ c.state = .trimming) ∧ c.kind = none

theorem Context.rests_of_stepless {c c' : Context} (same : c'.stepless = c.stepless) (rests : c.rests) :
    c'.rests := by
  have state : c'.state = c.state := by have e := congrArg Context.state same; exact e
  have kind : c'.kind = c.kind := by have e := congrArg Context.kind same; exact e
  rw [Context.rests, state, kind]
  exact rests

/-! ### Requests of one context -/

section
variable {s : State} {i : CtxIdx} {c : Context}

/-- A request is outstanding for a context with a range, and changes no other field of it (R30, R31). -/
theorem State.sendRequest_ctx (held : s.ctx i = some c) (k : ReqKind) (att : Nat) : ∃ k',
    (s.sendRequest i k att).ctx i = some { c with outstanding := k' } ∧ (c.chosen.isSome → k' = some k) := by
  rcases Option.eq_none_or_eq_some c.chosen with chosen | ⟨first, chosen⟩
  · refine ⟨c.outstanding, ?_, by simp [chosen]⟩
    have stays : s.sendRequest i k att = s := by
      rw [State.sendRequest, State.withCtx_some held]
      simp only [chosen]
    rw [stays]
    exact held
  · refine ⟨some k, ?_, fun _ => rfl⟩
    conv_lhs => rw [← State.setRecord_self held]
    rw [State.sendRequest_setRecord s chosen]
    exact State.ctx_setRecord s i ⟨(s.record i).tag + 1, some { c with outstanding := some k }⟩

theorem State.ctx_onCtx (held : s.ctx i = some c) (f : Context → Context) :
    (s.onCtx i f).ctx i = some (f c) := by
  rw [State.ctx_onCtx_same, held]
  rfl

/-- A MEASURE sent (R88, R93). -/
theorem State.sendMeasure_ctx (held : s.ctx i = some c) (k : Nat) : ∃ k' timer,
    (s.sendMeasure i k).ctx i = some { c with outstanding := k', attempts := k, timer := timer } := by
  obtain ⟨k', asked, -⟩ := State.sendRequest_ctx held .measure 0
  exact ⟨k', _, State.ctx_onCtx (State.ctx_onCtx asked _) _⟩

/-- A CLOSE sent: the context is CLOSING, with the CLOSE outstanding where it has a range (R160). -/
theorem State.sendClose_ctx (held : s.ctx i = some c) : ∃ k timer, (s.sendClose i).ctx i = some { c with
    state := .closing, kind := none, outstanding := k, timer := timer } ∧
      (c.chosen.isSome → k = some .close) := by
  obtain ⟨k, asked, close⟩ := State.sendRequest_ctx held .close Config.dark
  have sent : s.sendClose i = _ := State.withCtx_some held _
  exact ⟨k, _, (congrArg (State.ctx · i) sent).trans (State.ctx_onCtx (State.ctx_onCtx asked _) _), close⟩

/-- A trim that is due changes neither the teardown nor the range, and the context rests on. -/
theorem State.trimIfDue_sameCause (held : s.ctx i = some c) :
    ∃ c', (s.trimIfDue i).ctx i = some c' ∧ c.SameCause c' ∧ (c.rests → c'.rests) := by
  rw [State.trimIfDue, State.withCtx_some held]
  split
  · obtain ⟨k, timer, after⟩ := State.sendMeasure_ctx (State.ctx_onCtx held fun c =>
      { c with state := .trimming, kind := none, flags := { c.flags with trimDue := false } }) 1
    exact ⟨_, after, rfl, fun _ => ⟨.inr rfl, rfl⟩⟩
  · exact ⟨c, held, .refl c, id⟩

end

/-- What of a port only its cells' owners and a freeze change. -/
def PortState.laid (q : PortState) : PortMap × Bool := (q.map, q.frozen)

/-- What the work on other contexts does to record `i` when it is FREE or its context is leaving, to the
maps and to the freezes: nothing, but for a step of context `i`; a teardown decided stays as it is, and a
context that rests goes on resting. -/
structure Aside (i : CtxIdx) (s t : State) : Prop where
  free : s.ctx i = none → t.record i = s.record i
  leaving : ∀ c, s.ctx i = some c → c.leaving →
    (∃ c', t.ctx i = some c' ∧ c'.stepless = c.stepless) ∧ (c.kind = none → t.record i = s.record i)
  torn : ∀ c, s.ctx i = some c → c.teardown.isSome → ∃ c', t.ctx i = some c' ∧ c.SameCause c'
  rests : ∀ c, s.ctx i = some c → c.rests → ∃ c', t.ctx i = some c' ∧ c'.rests ∧ c.SameCause c'
  ports : ∀ p, (t.port p).laid = (s.port p).laid

namespace Aside

variable {s t : State} {i j : CtxIdx}

theorem map (h : Aside i s t) (p : PortNo) : (t.port p).map = (s.port p).map := congrArg Prod.fst (h.ports p)

theorem frozen (h : Aside i s t) (p : PortNo) : (t.port p).frozen = (s.port p).frozen :=
  congrArg Prod.snd (h.ports p)

theorem of_record (record : t.record i = s.record i) (map : ∀ p, (t.port p).laid = (s.port p).laid) :
    Aside i s t :=
  have stands {c : Context} (held : s.ctx i = some c) : t.ctx i = some c := by
    rw [State.ctx, record]; exact held
  ⟨fun _ => record, fun c held _ => ⟨⟨c, stands held, rfl⟩, fun _ => record⟩,
    fun c held _ => ⟨c, stands held, .refl c⟩, fun c held rests => ⟨c, stands held, rests, .refl c⟩, map⟩

theorem refl (i : CtxIdx) (s : State) : Aside i s s := of_record rfl fun _ => rfl

theorem trans {u : State} (h : Aside i s t) (h' : Aside i t u) : Aside i s u where
  free none := by
    have here := h.free none
    exact (h'.free (by rw [State.ctx, here]; exact none)).trans here
  leaving c held leaves := by
    obtain ⟨⟨c', held', same⟩, kindless⟩ := h.leaving c held leaves
    obtain ⟨⟨c'', held'', same'⟩, kindless'⟩ := h'.leaving c' held' (Context.leaving_of_stepless same leaves)
    refine ⟨⟨c'', held'', same'.trans same⟩, fun none => ?_⟩
    have kind : c'.kind = c.kind := by have e := congrArg Context.kind same; exact e
    exact (kindless' (kind.trans none)).trans (kindless none)
  torn c held some := by
    obtain ⟨c', held', same⟩ := h.torn c held some
    obtain ⟨c'', held'', same'⟩ := h'.torn c' held' (by rw [same.teardown]; exact some)
    exact ⟨c'', held'', same.trans same'⟩
  rests c held rests := by
    obtain ⟨c', held', rests', same⟩ := h.rests c held rests
    obtain ⟨c'', held'', rests'', same'⟩ := h'.rests c' held' rests'
    exact ⟨c'', held'', rests'', same.trans same'⟩
  ports p := (h'.ports p).trans (h.ports p)

/-! ### The updates -/

theorem onRecord (h : Aside i s t) (other : j ≠ i) (f : Record → Record) : Aside i s (t.onRecord j f) :=
  h.trans (of_record (State.record_onRecord_other _ _ other.symm) fun _ => rfl)

theorem onCtx (h : Aside i s t) (other : j ≠ i) (f : Context → Context) : Aside i s (t.onCtx j f) :=
  h.onRecord other _

theorem onPort (h : Aside i s t) (p : PortNo) (f : PortState → PortState) (map : ∀ q, (f q).laid = q.laid) :
    Aside i s (t.onPort p f) := by
  refine h.trans (of_record rfl fun q => ?_)
  by_cases e : q = p
  · subst e; rw [State.port_onPort_same, map]
  · rw [State.port_onPort_other _ _ e]

theorem report (h : Aside i s t) (r : RingRecord) : Aside i s (t.report r) :=
  h.trans (of_record (t.report_record r i) fun p => by rw [t.report_port r p])

theorem withCtx (h : Aside i s t) (j : CtxIdx) {f : Context → State}
    (hf : ∀ c, t.ctx j = some c → Aside i s (f c)) : Aside i s (t.withCtx j f) := by
  cases held : t.ctx j with
  | none => rwa [State.withCtx, held]
  | some c =>
    rw [State.withCtx_some held]
    exact hf c held

theorem ite {p : Prop} [Decidable p] {a b : State} (ha : Aside i s a) (hb : Aside i s b) :
    Aside i s (if p then a else b) := by
  split <;> assumption

/-! ### Sending -/

theorem emit (h : Aside i s t) (p : PortNo) (o : OutFrame) : Aside i s (t.emit p o) :=
  h.onPort p _ fun _ => by rfl

theorem sendUpstream (h : Aside i s t) (c : Context) (m : PeerMsg) : Aside i s (t.sendUpstream c m) := by
  rcases t.sendUpstream_eq c m with e | ⟨p, f, e⟩
  · rwa [e]
  · rw [e]; exact h.emit p f

theorem sendDownstream (h : Aside i s t) (c : Context) (m : PeerMsg) : Aside i s (t.sendDownstream c m) := by
  rcases t.sendDownstream_eq c m with e | ⟨p, f, e⟩
  · rwa [e]
  · rw [e]; exact h.emit p f

theorem sendRequest (h : Aside i s t) (other : j ≠ i) (k : ReqKind) (att : Nat) :
    Aside i s (t.sendRequest j k att) := by
  refine h.withCtx j fun c _ => ?_
  dsimp only
  split
  · exact h
  · exact emit (onCtx (onRecord h other _) other _) _ _

/-! ### Lighting and teardown of another context -/

theorem armCtx (h : Aside i s t) (other : j ≠ i) (ms : Nat) : Aside i s (t.armCtx j ms) := h.onCtx other _

theorem sendMeasure (h : Aside i s t) (other : j ≠ i) (k : Nat) : Aside i s (t.sendMeasure j k) :=
  armCtx (onCtx (sendRequest h other _ _) other _) other _

theorem sendClose (h : Aside i s t) (other : j ≠ i) : Aside i s (t.sendClose j) :=
  h.withCtx j fun _ _ => armCtx (onCtx (sendRequest h other _ _) other _) other _

theorem trimIfDue (h : Aside i s t) (other : j ≠ i) : Aside i s (t.trimIfDue j) :=
  h.withCtx j fun _ _ => ite (sendMeasure (h.onCtx other _) other _) h

theorem enterInService (h : Aside i s t) (other : j ≠ i) : Aside i s (t.enterInService j) :=
  h.withCtx j fun _ _ => trimIfDue (report (h.onCtx other _) _) other

theorem completeRamp (h : Aside i s t) (other : j ≠ i) : Aside i s (t.completeRamp j) := by
  refine h.withCtx j fun c _ => ?_
  have kindless : Aside i s (t.onCtx j fun c => { c with kind := none }) := h.onCtx other _
  dsimp only
  split
  · exact (kindless.enterInService other).sendUpstream _ _
  · exact sendDownstream (armCtx (kindless.onCtx other _) other _) _ _
  · exact sendDownstream (armCtx (kindless.onCtx other _) other _) _ _

theorem chooseBase (h : Aside i s t) (other : j ≠ i) : Aside i s (t.chooseBase j) :=
  h.withCtx j fun _ _ => ite (h.onCtx other _) h

theorem recordTeardown (h : Aside i s t) (other : j ≠ i) (c : Context) (o : TeardownOrder) (w : Way) :
    Aside i s (t.recordTeardown j c o w) := by
  unfold State.recordTeardown
  dsimp only
  split
  · exact ite (sendUpstream (h.onCtx other _) _ _) (sendUpstream (h.onCtx other _) _ _)
  · exact h.onCtx other _

theorem abortPreparing (h : Aside i s t) (other : j ≠ i) (r : Reason) : Aside i s (t.abortPreparing j r) :=
  h.withCtx j fun _ _ => sendClose (ite ((recordTeardown h other _ _ _).chooseBase other)
    (recordTeardown h other _ _ _)) other

/-! ### A grant, to any context -/

theorem takeStep (h : Aside i s t) (p : PortNo) : Aside i s (t.takeStep p) := by
  refine h.trans ?_
  cases holder : (t.port p).holder with
  | none => rw [State.takeStep, holder]; exact refl i t
  | some j =>
    obtain ⟨frame, -⟩ := t.takeStep_frame p holder
    have map (q : PortNo) : ((t.takeStep p).port q).laid = (t.port q).laid := by
      by_cases e : q = p
      · subst e; have same := congrArg PortState.laid frame.port; exact same
      · have same := congrArg PortState.laid (frame.others.1 q e); exact same
    by_cases e : j = i
    · subst e
      have idle (stays : t.takeStep p = t) : Aside j t (t.takeStep p) := by rw [stays]; exact refl j t
      cases held : t.ctx j with
      | none => exact idle (by rw [State.takeStep, holder]; simp only [State.withCtx, held])
      | some c =>
        have stepped {c' : Context} (held' : t.ctx j = some c') :
            ∃ c'', (t.takeStep p).ctx j = some c'' ∧ c''.stepless = c'.stepless := by
          have same := frame.contexts j
          rw [held', Option.map_some, Option.map_eq_some_iff] at same
          exact same
        refine ⟨fun none => absurd (held.symm.trans none) (by simp), fun c' held' _ =>
          ⟨stepped held', fun kindless => ?_⟩, fun c' held' _ => ?_, fun c' held' rests => ?_, map⟩
        · cases held.symm.trans held'
          have stays : t.takeStep p = t := by
            rw [State.takeStep, holder]
            simp only [State.withCtx_some held]
            rw [Context.next, kindless]
          rw [stays]
        · obtain ⟨c'', after, same⟩ := stepped held'
          exact ⟨c'', after, Context.sameCause_of_stepless same⟩
        · obtain ⟨c'', after, same⟩ := stepped held'
          exact ⟨c'', after, Context.rests_of_stepless same rests, Context.sameCause_of_stepless same⟩
    · exact of_record (frame.records i fun same => e same.symm) map

theorem considerGrant (h : Aside i s t) (p : PortNo) : Aside i s (t.considerGrant p) := by
  unfold State.considerGrant
  refine ite ?_ h
  split
  next q _ =>
    unfold State.grantTo
    split
    · exact h
    · exact takeStep (h.onPort p _ fun _ => by cases q <;> rfl) p
  · exact h

theorem setQueue (h : Aside i s t) (p : PortNo) (q : QueueSel) (f : PortState → List CtxIdx) :
    Aside i s (t.onPort p fun ps => ps.setQueue q (f ps)) :=
  h.onPort p _ fun _ => by cases q <;> rfl

theorem join (h : Aside i s t) (p : PortNo) (q : QueueSel) (j : CtxIdx) (grant : Bool) :
    Aside i s (t.join p q j grant) :=
  ite ((h.setQueue p q _).considerGrant p) (h.setQueue p q _)

/-! ### A swap (R20) -/

theorem writeTarget (h : Aside i s t) (other : j ≠ i) (x : Nat) (short : Bool) :
    Aside i s (t.writeTarget j x short) :=
  h.withCtx j fun _ _ => h.onCtx other _

theorem prepareTarget (h : Aside i s t) (other : j ≠ i) (grant : Bool) :
    Aside i s (t.prepareTarget j grant) := by
  refine h.withCtx j fun c _ => ?_
  split
  · exact h.abortPreparing other _
  · exact h.abortPreparing other _
  · have target := h.writeTarget (j := j) other
    refine ite (completeRamp (target _ _) other) (join (onCtx (target _ _) other _) _ _ _ _)

/-- Work on a context that is neither leaving nor in another record bears on the maps alone. -/
theorem of_elsewhere {u : State} (work : ∀ i, j ≠ i → Aside i t u)
    (present : ∀ c, t.ctx j = some c → c.leaving → u = t)
    (torn : ∀ c, t.ctx j = some c → c.teardown.isSome → ∃ c', u.ctx j = some c' ∧ c.SameCause c')
    (rests : ∀ c, t.ctx j = some c → c.rests → ∃ c', u.ctx j = some c' ∧ c'.rests ∧ c.SameCause c')
    (absent : t.ctx j = none → u = t) : Aside i t u := by
  by_cases e : j = i
  · subst e
    obtain ⟨k, apart⟩ : ∃ k : CtxIdx, j ≠ k := by
      by_cases zero : j = 0
      · exact ⟨1, by rw [zero]; decide⟩
      · exact ⟨0, zero⟩
    refine ⟨fun none => by rw [absent none], fun c held leaves => ?_, torn, rests, (work k apart).ports⟩
    rw [present c held leaves]
    exact ⟨⟨c, held, rfl⟩, fun _ => rfl⟩
  · exact work i e

theorem resumeWaiting (h : Aside i s t) (grant : Bool) (p : PortNo) (j : CtxIdx) :
    Aside i s (State.resumeWaiting grant p t j) := by
  refine h.trans (of_elsewhere (j := j) (fun i other => ?_) (fun c held leaves => ?_) (fun c held torn => ?_)
    (fun c held rests => ?_) fun none => ?_)
  · exact (refl i t).withCtx j fun _ _ => ite ((refl i t).prepareTarget other grant) (refl i t)
  · rw [State.resumeWaiting, State.withCtx_some held, if_neg]
    rcases leaves with state | state <;> simp [Context.waitsOnSwap, state]
  · rw [State.resumeWaiting, State.withCtx_some held, if_neg]
    · exact ⟨c, held, .refl c⟩
    · obtain ⟨td, decided⟩ := Option.isSome_iff_exists.1 torn
      simp [Context.waitsOnSwap, decided]
  · rw [State.resumeWaiting, State.withCtx_some held, if_neg]
    · exact ⟨c, held, rests, .refl c⟩
    · rcases rests.1 with state | state <;> simp [Context.waitsOnSwap, state]
  · simp only [State.resumeWaiting, State.withCtx, none]

theorem markTrimDue (h : Aside i s t) (p : PortNo) (j : CtxIdx) : Aside i s (State.markTrimDue p t j) := by
  refine h.trans (of_elsewhere (j := j) (fun i other => ?_) (fun c held leaves => ?_) (fun c held torn => ?_)
    (fun c held rests => ?_) fun none => ?_)
  · exact (refl i t).withCtx j fun _ _ => ite (trimIfDue ((refl i t).onCtx other _) other) (refl i t)
  · rw [State.markTrimDue, State.withCtx_some held, if_neg]
    rcases leaves with state | state <;> simp [state]
  · rw [State.markTrimDue, State.withCtx_some held]
    split
    · obtain ⟨c', after, same, -⟩ := State.trimIfDue_sameCause (State.ctx_onCtx held fun c =>
        { c with flags := { c.flags with trimDue := true } })
      exact ⟨c', after, same⟩
    · exact ⟨c, held, .refl c⟩
  · rw [State.markTrimDue, State.withCtx_some held]
    split
    · obtain ⟨c', after, same, rested⟩ := State.trimIfDue_sameCause (State.ctx_onCtx held fun c =>
        { c with flags := { c.flags with trimDue := true } })
      exact ⟨c', after, rested rests, same⟩
    · exact ⟨c, held, rests, .refl c⟩
  · simp only [State.markTrimDue, State.withCtx, none]

theorem foldl (h : Aside i s t) (f : State → CtxIdx → State) (hf : ∀ u j, Aside i s u → Aside i s (f u j))
    (js : List CtxIdx) : Aside i s (js.foldl f t) := by
  induction js generalizing t with
  | nil => exact h
  | cons j js ih => exact ih (hf t j h)

theorem swapNow (h : Aside i s t) (p : PortNo) (grant : Bool) : Aside i s (t.swapNow p grant) :=
  report (foldl (foldl (h.onPort p _ fun _ => by rfl) _ (fun _ j h => h.resumeWaiting grant p j) _) _
    (fun _ j h => h.markTrimDue p j) _) _

theorem lookForQuiet (h : Aside i s t) (p : PortNo) (grant : Bool) : Aside i s (t.lookForQuiet p grant) :=
  ite (h.swapNow p grant) h

theorem lookAfter (h : Aside i s t) (c : Context) : Aside i s (t.lookAfter c) :=
  ite (h.lookForQuiet _ _) h

end Aside

end Sys2Proof.Machine

/-! PROOFS. What ends a context, and what the three ways of going dark do to it (R33, R34, R130, R153 to
R159). -/

namespace Sys2Proof.Machine

open Sys2Proof

/-! ### Frames that come first -/

section
variable {s t u : State} {p : PortNo} {i : CtxIdx} {c : Context}

/-- Nothing that the engines do removes a frame formed. -/
theorem Keeps.out_prefix (h : Keeps s t) (p : PortNo) : ∃ fs, (t.port p).out = (s.port p).out ++ fs :=
  (h.ports p).out

/-- A frame formed at once is the first of an event. -/
theorem sentFirst_of_sentOn {m : PeerFrame} (sent : sentOn s u p [.peer m]) (h : Keeps u t) :
    sentFirst s t p m := by
  obtain ⟨fs, out⟩ := h.out_prefix p
  rw [sent, List.append_assoc] at out
  exact ⟨fs, out⟩

theorem sentAmong_of_sentFirst {m : PeerFrame} (before : Keeps s u) (first : sentFirst u t p m) :
    sentAmong s t p m := by
  obtain ⟨fs, out⟩ := before.out_prefix p
  obtain ⟨gs, after⟩ := first
  exact ⟨fs, gs, by rw [after, out]⟩

/-- A message upstream of a degree that serves a neighbour is the first frame on its link. -/
theorem State.sendUpstream_served {e : DegreeNo} {n : NodeId} (m : PeerMsg) (inPort : c.inPort = .degree e)
    (serves : s.servesDegree e n) : s.sendUpstream c m = s.emit (portOf e) (.peer ⟨n, s.nodeId, e, m⟩) := by
  obtain ⟨valid, up, nbr⟩ := serves
  rw [State.sendUpstream, inPort]
  exact State.sendPath_up m valid up nbr

/-- A message downstream of a degree that serves a neighbour is the first frame on its link. -/
theorem State.sendDownstream_served {e : DegreeNo} {n : NodeId} (m : PeerMsg) (outPort : c.outPort = portOf e)
    (serves : s.servesDegree e n) : s.sendDownstream c m = s.emit (portOf e) (.peer ⟨n, s.nodeId, e, m⟩) := by
  obtain ⟨valid, up, nbr⟩ := serves
  rw [State.sendDownstream, outPort, degreeOf_portOf]
  exact State.sendPath_up m valid up nbr

/-! ### Looks and grants, while no swap is pending -/

theorem State.lookForQuiet_of_none (none : (s.port p).swapPending = false) (g : Bool) :
    s.lookForQuiet p g = s := by
  simp [State.lookForQuiet, none]

theorem State.lookAfter_of_none (none : (s.port c.outPort).swapPending = false) : s.lookAfter c = s := by
  rw [State.lookAfter, State.lookForQuiet_of_none none, ite_self]

theorem State.considerGrant_ring (s : State) (p : PortNo) : (s.considerGrant p).ring = s.ring := by
  obtain ⟨-, -, -, -, -, -, outside⟩ := s.considerGrant_afterGrant p
  have e := congrArg State.ring outside
  exact e

/-! ### The end of a context (R33, R34) -/

theorem State.sendNotice_records (s : State) (c : Context) : (s.sendNotice c).records = s.records := by
  have down (m : PeerMsg) : (s.sendDownstream c m).records = s.records := by
    rcases s.sendDownstream_eq c m with e | ⟨p, f, e⟩
    · rw [e]
    · rw [e]; rfl
  unfold State.sendNotice
  split
  · exact down _
  · exact down _
  · rfl
  · rfl

theorem State.clearStep_records (s : State) (p : PortNo) : (s.clearStep p).records = s.records := by
  unfold State.clearStep
  split <;> rfl

theorem State.releaseSlot_records (s : State) (p : PortNo) (i : CtxIdx) :
    (s.releaseSlot p i).records = s.records := by
  unfold State.releaseSlot
  split
  · dsimp only
    split
    · rfl
    · exact s.clearStep_records p
  · rfl

theorem State.writePathEnd_records (s : State) (c : Context) : (s.writePathEnd c).records = s.records := by
  unfold State.writePathEnd
  split
  · rfl
  · rw [State.report_eq]

theorem State.finishEnding_record (s : State) (i : CtxIdx) (c : Context) :
    (s.finishEnding i c).record i = ⟨(s.record i).tag + 1, none⟩ := by
  have before : ((((s.sendNotice c).leaveQueues c.outPort i).releaseSlot c.outPort i).writePathEnd c).record i =
      s.record i := by
    rw [State.record, State.writePathEnd_records, State.releaseSlot_records]
    exact congrArg (Table.read · i) (s.sendNotice_records c)
  refine (State.record_onRecord_same _ _ _).trans ?_
  rw [before]

theorem State.finishEnding_map (s : State) (i : CtxIdx) (c : Context) (p : PortNo) :
    ((s.finishEnding i c).port p).map = (s.port p).map :=
  (((((sameCells.refl s).sendNotice c).onPort _ _ fun _ => by rfl).releaseSlot _ i).writePathEnd c).2 p

/-- The ring after an event that writes no record but the PathEnd (R34). -/
theorem State.writePathEnd_ring_congr (ring : t.ring = s.ring) (time : t.timeBase = s.timeBase) (c : Context) :
    (t.writePathEnd c).ring = (s.writePathEnd c).ring := by
  unfold State.writePathEnd
  split
  · exact ring
  · rw [time]; exact State.report_ring_congr ring _

theorem State.sendNotice_ring (s : State) (c : Context) : (s.sendNotice c).ring = s.ring := by
  have down (m : PeerMsg) : (s.sendDownstream c m).ring = s.ring := by
    rcases s.sendDownstream_eq c m with e | ⟨p, f, e⟩
    · rw [e]
    · rw [e]; rfl
  unfold State.sendNotice
  split
  · exact down _
  · exact down _
  · rfl
  · rfl

theorem State.clearStep_ring (s : State) (p : PortNo) : (s.clearStep p).ring = s.ring := by
  unfold State.clearStep
  split <;> rfl

theorem State.releaseSlot_ring (s : State) (p : PortNo) (i : CtxIdx) :
    (s.releaseSlot p i).ring = s.ring := by
  unfold State.releaseSlot
  split
  · dsimp only
    split
    · rfl
    · exact s.clearStep_ring p
  · rfl

theorem State.finishEnding_ring (s : State) (i : CtxIdx) (c : Context) :
    (s.finishEnding i c).ring = (s.writePathEnd c).ring := by
  have time := (((Keeps.refl s).sendNotice c).leaveQueues c.outPort i).releaseSlot c.outPort i
  refine State.writePathEnd_ring_congr ?_ time.timeBase c
  rw [State.releaseSlot_ring]
  exact s.sendNotice_ring c

theorem State.afterEnding_aside (s : State) (i j : CtxIdx) (c : Context) (b : PortState) :
    Aside j s (s.afterEnding i c b) := by
  have looked : Aside j s (if decide (b.holder = some i) = true then s.lookForQuiet c.outPort true
      else s.lookAfter c) := .ite ((Aside.refl j s).lookForQuiet _ _) ((Aside.refl j s).lookAfter _)
  exact .ite (looked.considerGrant _) looked

theorem State.afterEnding_ring (none : (s.port c.outPort).swapPending = false) (i : CtxIdx) (b : PortState) :
    (s.afterEnding i c b).ring = s.ring := by
  unfold State.afterEnding
  rw [State.lookForQuiet_of_none none, State.lookAfter_of_none none]
  dsimp only
  rw [ite_self]
  split
  · exact s.considerGrant_ring _
  · rfl

/-! #### With its cells freed (R6) -/

theorem State.endFreed_eq (held : s.ctx i = some c) : s.endFreed i =
    ((s.mapFree i c.outPort).finishEnding i c).afterEnding i c (s.port c.outPort) :=
  State.withCtx_some held _

theorem State.endFreed_freed (held : s.ctx i = some c) : contextFreed s (s.endFreed i) i c := by
  set u := (s.mapFree i c.outPort).finishEnding i c with hu
  have record : u.record i = ⟨(s.record i).tag + 1, none⟩ := State.finishEnding_record _ i c
  have aside := u.afterEnding_aside i i c (s.port c.outPort)
  rw [← State.endFreed_eq held] at aside
  have free : (s.endFreed i).record i = ⟨(s.record i).tag + 1, none⟩ :=
    (aside.free (congrArg Record.ctx record)).trans record
  refine ⟨congrArg Record.ctx free, congrArg Record.tag free, fun k => ?_⟩
  have map : ((s.mapFree i c.outPort).port c.outPort).map = freeOwned (s.port c.outPort).map i := by
    rw [State.mapFree, State.port_onPort_same]
  rw [aside.map, hu, State.finishEnding_map, map, cellAt_freeOwned]

/-- The notice owed is the first frame of an ending (R156). -/
theorem State.endFreed_keeps (held : s.ctx i = some c) :
    Keeps ((s.mapFree i c.outPort).sendNotice c) (s.endFreed i) := by
  rw [State.endFreed_eq held]
  exact (((((Keeps.refl _).leaveQueues _ i).releaseSlot _ i).writePathEnd c).freeRecord i).afterEnding i c _

theorem State.endFreed_ring (held : s.ctx i = some c) (none : (s.port c.outPort).swapPending = false) :
    (s.endFreed i).ring = (s.writePathEnd c).ring := by
  have around : onlyAround s ((s.mapFree i c.outPort).finishEnding i c) c.outPort i :=
    ((onlyAround_refl s c.outPort i).mapFree i).finishEnding c rfl
  rw [State.endFreed_eq held, State.afterEnding_ring ((onlyAround_swapPending around).trans none),
    State.finishEnding_ring]
  exact State.writePathEnd_ring_congr (s := s) (t := s.mapFree i c.outPort) rfl rfl c

end

end Sys2Proof.Machine

/-! PROOFS. Going dark: retreat, dark jump, and the first cause of a teardown (R153 to R159). -/

namespace Sys2Proof.Machine

open Sys2Proof

section
variable {s t : State} {i : CtxIdx} {c : Context}

/-! ### Retreat (R157) -/

/-- A base step is chosen where there is none (R106). -/
theorem State.chooseBase_ctx (held : s.ctx i = some c) : ∃ b size n,
    (s.chooseBase i).ctx i = some { c with base := some b, stepSize := size, clean := n } := by
  rw [State.chooseBase, State.withCtx_some held]
  rcases Option.eq_none_or_eq_some c.base with base | ⟨b, base⟩
  · rw [if_pos (by simp [base])]
    exact ⟨_, _, _, State.ctx_onCtx held _⟩
  · have same : { c with base := some b, stepSize := c.stepSize, clean := c.clean } = c := by rw [← base]
    rw [if_neg (by simp [base])]
    exact ⟨b, c.stepSize, c.clean, held.trans (congrArg some same.symm)⟩

/-- What a retreat that begins makes of its context (R105, R116). -/
structure Context.Begins (c c' : Context) : Prop where
  cause : c.SameCause c'
  base : c'.base.isSome
  dark : c.att = some 2500 →
    c'.state = .closing ∧ c'.kind = none ∧ (c.chosen.isSome → c'.outstanding = some .close)
  steps : c.att ≠ some 2500 → c'.state = .retreating ∧ c'.kind = some .retreat ∧ c'.timer = none

theorem Context.Begins.leaving {c' : Context} (h : c.Begins c') : c'.leaving := by
  by_cases dark : c.att = some 2500
  · exact .inr (h.dark dark).1
  · exact .inl (h.steps dark).1

theorem State.beginRetreat_ctx (held : s.ctx i = some c) :
    ∃ c', (s.beginRetreat i).ctx i = some c' ∧ c.Begins c' := by
  obtain ⟨b, size, n, based⟩ := State.chooseBase_ctx (s := s.leaveQueues c.outPort i) (i := i) (c := c) held
  rw [State.beginRetreat, State.withCtx_some held]
  by_cases dark : c.att = some 2500
  · obtain ⟨k, timer, closed, close⟩ := State.sendClose_ctx based
    exact ⟨_, (congrArg (State.ctx · i) (if_pos dark)).trans closed, rfl, rfl,
      fun _ => ⟨rfl, rfl, close⟩, fun lit => absurd dark lit⟩
  · exact ⟨_, (congrArg (State.ctx · i) (if_neg dark)).trans (State.ctx_onCtx based _), rfl, rfl,
      fun lit => absurd lit dark, fun _ => ⟨rfl, rfl, rfl⟩⟩

/-- A context that retreats or closes goes on doing so while others are attended to. -/
theorem Context.Begins.aside {u : State} {c' : Context} (h : c.Begins c') (held : t.ctx i = some c')
    (rest : Aside i t u) : ∃ c'', u.ctx i = some c'' ∧ c.Begins c'' := by
  obtain ⟨⟨c'', after, same⟩, kindless⟩ := rest.leaving c' held h.leaving
  refine ⟨c'', after, h.cause.trans (Context.sameCause_of_stepless same), ?_, fun dark => ?_, fun lit => ?_⟩
  · have base : c''.base = c'.base := by have e := congrArg Context.base same; exact e
    rw [base]
    exact h.base
  · obtain ⟨state, kind, close⟩ := h.dark dark
    have stays : c'' = c' := by
      have record := congrArg Record.ctx (kindless kind)
      exact Option.some.inj (after.symm.trans (record.trans held))
    rw [stays]
    exact ⟨state, kind, close⟩
  · obtain ⟨state, kind, timer⟩ := h.steps lit
    have stepped : c''.state = c'.state ∧ c''.kind = c'.kind ∧ c''.timer = c'.timer := by
      refine ⟨?_, ?_, ?_⟩
      · have e := congrArg Context.state same; exact e
      · have e := congrArg Context.kind same; exact e
      · have e := congrArg Context.timer same; exact e
    exact ⟨stepped.1.trans state, stepped.2.1.trans kind, stepped.2.2.trans timer⟩

theorem Aside.joinRetreat {j : CtxIdx} (h : Aside j s t) (grant : Bool) : Aside j s (t.joinRetreat i grant) :=
  h.withCtx i fun _ _ => .ite (h.join _ _ _ _) h

/-- A retreat carried out from where the context stands (R122, R157, R159). -/
theorem State.startRetreat_retreats (held : s.ctx i = some c) : ∃ c', (s.startRetreat i).ctx i = some c' ∧
    c.SameCause c' ∧ retreats s (s.startRetreat i) i c c' := by
  have unfolded : s.startRetreat i = _ := State.withCtx_some held _
  by_cases measuring : c.outstanding = some .measure
  · obtain ⟨b, size, n, based⟩ := State.chooseBase_ctx held
    have does : s.startRetreat i = s.chooseBase i := unfolded.trans (if_pos measuring)
    refine ⟨_, (congrArg (State.ctx · i) does).trans based, rfl, ?_⟩
    rw [retreats, if_pos measuring]
    exact ⟨rfl, rfl⟩
  · by_cases flying : s.stepInFlight c.outPort i = true
    · have does : s.startRetreat i = s.onPort c.outPort fun ps => { ps with retreatDue := true } :=
        unfolded.trans ((if_neg measuring).trans (if_pos flying))
      refine ⟨c, (congrArg (State.ctx · i) does).trans held, .refl c, ?_⟩
      rw [retreats, if_neg measuring, if_pos flying, does, State.port_onPort_same]
      exact ⟨rfl, rfl⟩
    · obtain ⟨c', begun, begins⟩ := State.beginRetreat_ctx held
      have does : s.startRetreat i = _ := unfolded.trans ((if_neg measuring).trans (if_neg flying))
      have rest : Aside i (s.beginRetreat i) (s.startRetreat i) := by
        rw [does]
        have joined := ((Aside.refl i (s.beginRetreat i)).lookAfter c).joinRetreat (i := i) true
        exact .ite (joined.considerGrant _) joined
      obtain ⟨c'', after, begins⟩ := begins.aside begun rest
      refine ⟨c'', after, begins.cause, ?_⟩
      rw [retreats, if_neg measuring, if_neg flying]
      split
      next dark =>
        obtain ⟨state, -, close⟩ := begins.dark dark
        exact ⟨state, close, begins.base⟩
      next lit =>
        obtain ⟨state, kind, timer⟩ := begins.steps lit
        exact ⟨state, kind, timer, begins.base⟩

/-! ### Dark jump (R130, R158) -/

/-- A CLOSE sent stays outstanding while others are attended to. -/
theorem State.sendClose_aside {u : State} (held : s.ctx i = some c) (rest : Aside i (s.sendClose i) u) :
    ∃ c', u.ctx i = some c' ∧ c.SameCause c' ∧ c'.state = .closing ∧ c'.kind = none ∧
      (c.chosen.isSome → c'.outstanding = some .close) := by
  obtain ⟨k, timer, closed, close⟩ := State.sendClose_ctx held
  obtain ⟨-, kindless⟩ := rest.leaving _ closed (.inr rfl)
  exact ⟨_, (congrArg Record.ctx (kindless rfl)).trans closed, rfl, rfl, rfl, close⟩

theorem State.clearStep_ctx (s : State) (p : PortNo) (j : CtxIdx) : (s.clearStep p).ctx j = s.ctx j :=
  congrArg (fun r : Table 64 Record => (Table.read r j).ctx) (s.clearStep_records p)

/-- A step in flight abandoned, for a context whose teardown has been decided (R130). -/
theorem State.abandonStep_ctx (held : s.ctx i = some c) (torn : c.teardown.isSome) :
    ∃ c', (s.abandonStep i c).ctx i = some c' ∧ c.SameCause c' ∧ c'.state = .closing ∧ c'.kind = none ∧
      (c.chosen.isSome → c'.outstanding = some .close) := by
  set u := ((s.clearStep c.outPort).onPort c.outPort fun ps => { ps with retreatDue := false }) with hu
  have here : u.ctx i = some c := (s.clearStep_ctx c.outPort i).trans held
  obtain ⟨c1, looked, same⟩ := ((Aside.refl i u).lookForQuiet c.outPort true).torn c here torn
  set v := (((u.lookForQuiet c.outPort true).advanceTag i).onCtx i fun c => { c with outstanding := none })
  have before : ((v.freeSlot c.outPort).onCtx i fun c => { c with kind := none }).ctx i =
      some { c1 with outstanding := none, kind := none } :=
    State.ctx_onCtx (s := v.freeSlot c.outPort) (c := { c1 with outstanding := none })
      (State.ctx_onCtx (s := (u.lookForQuiet c.outPort true).advanceTag i)
        ((State.ctx_advanceTag _ i i).trans looked) _) _
  obtain ⟨c', after, cause, state, kind, close⟩ := State.sendClose_aside before
    (((Aside.refl i _).lookAfter c).considerGrant c.outPort)
  refine ⟨c', after, same.trans cause, state, kind, ?_⟩
  rw [← same.chosen]
  exact close

/-- A dark jump carried out from where the context stands, once teardown has been decided (R130, R158,
R159). -/
theorem State.startDarkJump_jumpsDark (held : s.ctx i = some c) (torn : c.teardown.isSome) :
    ∃ c', (s.startDarkJump i).ctx i = some c' ∧ c.SameCause c' ∧ jumpsDark c c' := by
  have unfolded : s.startDarkJump i = _ := State.withCtx_some held _
  by_cases measuring : c.outstanding = some .measure
  · have does : s.startDarkJump i = s := unfolded.trans (if_pos measuring)
    refine ⟨c, (congrArg (State.ctx · i) does).trans held, .refl c, ?_⟩
    rw [jumpsDark, if_pos measuring]
  · rw [unfolded, if_neg measuring]
    have closes : ∃ c', (if s.stepInFlight c.outPort i = true then s.abandonStep i c
        else if (s.port c.outPort).waits i = true then
          (((s.leaveQueues c.outPort i).sendClose i).lookAfter c).considerGrant c.outPort
        else ((s.leaveQueues c.outPort i).sendClose i).lookAfter c).ctx i = some c' ∧ c.SameCause c' ∧
          c'.state = .closing ∧ c'.kind = none ∧ (c.chosen.isSome → c'.outstanding = some .close) := by
      split
      · exact State.abandonStep_ctx held torn
      · have looked := (Aside.refl i ((s.leaveQueues c.outPort i).sendClose i)).lookAfter c
        exact State.sendClose_aside (s := s.leaveQueues c.outPort i) held (.ite (looked.considerGrant _) looked)
    obtain ⟨c', after, cause, fate⟩ := closes
    refine ⟨c', after, cause, ?_⟩
    rw [jumpsDark, if_neg measuring]
    exact fate

/-! ### The first cause (R153 to R156) -/

/-- What a cause leaves in its context (R153). -/
def Context.tornBy (c : Context) (o : TeardownOrder) (w : Way) : Context :=
  { c with abortReason := o.reason, origin := some o.origin, teardown := some ⟨o.cause, w, o.notice⟩ }

/-- The record of a teardown, and the frames of its message upstream (R153, R156). -/
theorem State.recordTeardown_eq (s : State) (i : CtxIdx) (c : Context) (o : TeardownOrder) (w : Way) :
    ∃ p fs, s.recordTeardown i c o w = (s.onCtx i fun c => c.tornBy o w).sends p fs ∧
      (o.sendUp = false → fs = []) ∧
      ∀ r e n, o.sendUp = true → o.reason = some r → c.inPort = .degree e → s.servesDegree e n →
        p = portOf e ∧ fs = [.peer ⟨n, s.nodeId, e,
          if c.state = .offered then .decline c.path r o.origin else .abort c.path r o.origin⟩] := by
  set u := s.onCtx i fun c => c.tornBy o w with hu
  cases up : o.sendUp with
  | false =>
    refine ⟨0, [], ?_, fun _ => rfl, nofun⟩
    rw [State.recordTeardown, up, State.sends_nil]
    rfl
  | true =>
    rcases reason : o.reason with _ | r
    · refine ⟨0, [], ?_, nofun, nofun⟩
      rw [State.recordTeardown, up, reason, State.sends_nil, hu]
      simp only [Context.tornBy, reason]
    · obtain ⟨p, fs, sent, content⟩ := u.sendUpstream_sends c
        (if c.state = .offered then .decline c.path r o.origin else .abort c.path r o.origin)
      refine ⟨p, fs, ?_, nofun, ?_⟩
      · rw [← sent, State.recordTeardown, up, reason, hu]
        simp only [Context.tornBy, reason]
        split <;> rfl
      · rintro r' e n - ⟨⟩ inPort serves
        exact content e n inPort serves

/-- What the record of a teardown leaves of the part. -/
structure State.Recorded (s u : State) (i : CtxIdx) (c' : Context) : Prop where
  ctx : u.ctx i = some c'
  tag : (u.record i).tag = (s.record i).tag
  port : ∀ p, ∃ fs, u.port p = { s.port p with out := (s.port p).out ++ fs }

theorem State.recordTeardown_recorded (held : s.ctx i = some c) (o : TeardownOrder) (w : Way) :
    s.Recorded (s.recordTeardown i c o w) i (c.tornBy o w) := by
  obtain ⟨p, fs, eq, -⟩ := s.recordTeardown_eq i c o w
  rw [eq]
  refine ⟨State.ctx_onCtx (s := s) held _, ?_, fun q => (s.onCtx i _).port_sends p q fs⟩
  have kept := congrArg Record.tag
    (State.record_onRecord_same s i fun r => { r with ctx := r.ctx.map fun c => c.tornBy o w })
  exact kept

/-- The way carried out on a context whose teardown has been recorded is what `tornDownBy` says of it. -/
theorem State.goDark_tornDownBy {u : State} (o : TeardownOrder) (w : Way)
    (recorded : s.Recorded u i (c.tornBy o w)) :
    tornDownBy s (u.goDark i w) i c o.cause w o.notice o.reason o.origin := by
  obtain ⟨held, tag, ports⟩ := recorded
  obtain ⟨fs, port⟩ := ports c.outPort
  cases w with
  | none =>
    obtain ⟨free, tag', map⟩ := State.endFreed_freed held
    have same : (u.port c.outPort).map = (s.port c.outPort).map := by rw [port]
    exact ⟨free, by rw [← tag]; exact tag', fun k => by rw [← same]; exact map k⟩
  | retreat =>
    obtain ⟨c', after, cause, fate⟩ := State.startRetreat_retreats held
    refine ⟨c', after, cause.teardown, cause.reason, cause.origin, ?_⟩
    have flying : u.stepInFlight c.outPort i = s.stepInFlight c.outPort i := by
      rw [State.stepInFlight, State.stepInFlight, port]
    rw [retreats, flying.symm]
    exact fate
  | darkJump =>
    obtain ⟨c', after, cause, fate⟩ := State.startDarkJump_jumpsDark held rfl
    exact ⟨c', after, cause.teardown, cause.reason, cause.origin, fate⟩

/-- The first cause of a teardown (R153 to R156). -/
theorem State.decideTeardown_tornDownBy (held : s.ctx i = some c) (o : TeardownOrder) :
    tornDownBy s (s.decideTeardown i o) i c o.cause (s.wayFor c o) o.notice o.reason o.origin := by
  rw [State.decideTeardown, State.withCtx_some held]
  exact State.goDark_tornDownBy o _ (State.recordTeardown_recorded held o _)

end

end Sys2Proof.Machine

/-! PROOFS. The messages and the records of a first cause, and the commands and messages that are one
(R34, R156, R163 to R166). -/

namespace Sys2Proof.Machine

open Sys2Proof

section
variable {s t u : State} {i : CtxIdx} {c : Context}

/-! ### What a first cause sends (R156) -/

theorem State.decideTeardown_eq (held : s.ctx i = some c) (o : TeardownOrder) :
    s.decideTeardown i o = (s.recordTeardown i c o (s.wayFor c o)).goDark i (s.wayFor c o) :=
  State.withCtx_some held _

/-- The message upstream is the first frame (R153, R156). -/
theorem State.decideTeardown_sendsUp (held : s.ctx i = some c) {o : TeardownOrder} {r : Reason}
    (up : o.sendUp = true) (reason : o.reason = some r) {e : DegreeNo} {n : NodeId}
    (inPort : c.inPort = .degree e) (serves : s.servesDegree e n) :
    sentFirst s (s.decideTeardown i o) (portOf e) ⟨n, s.nodeId, e,
      if c.state = .offered then .decline c.path r o.origin else .abort c.path r o.origin⟩ := by
  obtain ⟨p, fs, recorded, -, content⟩ := s.recordTeardown_eq i c o (s.wayFor c o)
  obtain ⟨rfl, rfl⟩ := content r e n up reason inPort serves
  rw [State.decideTeardown_eq held]
  refine sentFirst_of_sentOn ?_ ((Keeps.refl _).goDark i _)
  rw [recorded]
  exact sentOn_sends (s.onCtx i _) _ _

/-- The notice that a context owes its neighbour downstream (R156). -/
def Context.noticeOwed (c : Context) : Option PeerMsg :=
  match c.teardown.map Teardown.notice with
  | some .abort => some (.abort c.path (c.abortReason.getD .releasedByManager) (c.origin.getD c.path.head))
  | some .release => some (.release c.path)
  | some .none => none
  | none => none

theorem State.sendNotice_eq {m : PeerMsg} (owed : c.noticeOwed = some m) :
    s.sendNotice c = s.sendDownstream c m := by
  rw [Context.noticeOwed] at owed
  rw [State.sendNotice]
  generalize c.teardown.map Teardown.notice = notice at owed ⊢
  rcases notice with _ | notice
  · cases owed
  · cases notice <;> cases owed <;> rfl

/-- The notice of an ending is the first frame it forms (R33, R156). -/
theorem State.endFreed_sendsNotice (held : s.ctx i = some c) {m : PeerMsg} (owed : c.noticeOwed = some m)
    {d : DegreeNo} {n : NodeId} (outPort : c.outPort = portOf d) (serves : s.servesDegree d n) :
    sentFirst s (s.endFreed i) (portOf d) ⟨n, s.nodeId, d, m⟩ := by
  have keeps := State.endFreed_keeps held
  have serves' : (s.mapFree i c.outPort).servesDegree d n := serves
  rw [State.sendNotice_eq owed, State.sendDownstream_served m outPort serves'] at keeps
  refine sentFirst_of_sentOn ?_ keeps
  have sent := sentOn_emit (s.mapFree i c.outPort) (portOf d) (.peer ⟨n, s.nodeId, d, m⟩)
  have out : ((s.mapFree i c.outPort).port (portOf d)).out = (s.port (portOf d)).out := by
    rw [State.mapFree, outPort, State.port_onPort_same]
  rw [sentOn, out] at sent
  exact sent

/-- Along the way none the notice follows the message upstream (R154, R156). -/
theorem State.decideTeardown_sendsNotice (held : s.ctx i = some c) {o : TeardownOrder}
    (way : s.wayFor c o = .none) {m : PeerMsg} (owed : (c.tornBy o .none).noticeOwed = some m)
    {d : DegreeNo} {n : NodeId} (outPort : c.outPort = portOf d) (serves : s.servesDegree d n) :
    sentAmong s (s.decideTeardown i o) (portOf d) ⟨n, s.nodeId, d, m⟩ ∧
      (o.sendUp = false → sentFirst s (s.decideTeardown i o) (portOf d) ⟨n, s.nodeId, d, m⟩) := by
  have recorded := State.recordTeardown_recorded held o .none
  obtain ⟨p, fs, eq, silent, -⟩ := s.recordTeardown_eq i c o .none
  have keeps : Keeps s (s.recordTeardown i c o .none) := .recordTeardown (.refl s) i c o .none
  rw [State.decideTeardown_eq held, way]
  have first : sentFirst (s.recordTeardown i c o .none) ((s.recordTeardown i c o .none).endFreed i) (portOf d)
      ⟨n, s.nodeId, d, m⟩ := by
    have sent := State.endFreed_sendsNotice recorded.ctx owed outPort
      (show (s.recordTeardown i c o .none).servesDegree d n by rw [eq]; exact serves)
    rw [State.nodeId, keeps.straps] at sent
    exact sent
  refine ⟨sentAmong_of_sentFirst keeps first, fun quiet => ?_⟩
  rw [silent quiet, State.sends_nil] at eq
  rw [eq] at first
  rw [eq]
  exact first

/-! ### What a first cause writes (R34) -/

theorem State.recordTeardown_ring (s : State) (i : CtxIdx) (c : Context) (o : TeardownOrder) (w : Way) :
    (s.recordTeardown i c o w).ring = s.ring := by
  obtain ⟨p, fs, eq, -⟩ := s.recordTeardown_eq i c o w
  rw [eq]
  rfl

theorem State.recordTeardown_swapPending (s : State) (i : CtxIdx) (c : Context) (o : TeardownOrder) (w : Way)
    (p : PortNo) : ((s.recordTeardown i c o w).port p).swapPending = (s.port p).swapPending := by
  obtain ⟨q, fs, eq, -⟩ := s.recordTeardown_eq i c o w
  obtain ⟨gs, port⟩ := (s.onCtx i fun c => c.tornBy o w).port_sends q p fs
  rw [eq, port]
  rfl

/-- Along the way none the one record is the PathEnd (R34). -/
theorem State.decideTeardown_ring (held : s.ctx i = some c) {o : TeardownOrder} (way : s.wayFor c o = .none)
    (none : (s.port c.outPort).swapPending = false) :
    (s.decideTeardown i o).ring = (s.writePathEnd (c.tornBy o .none)).ring := by
  have recorded := State.recordTeardown_recorded held o .none
  have pending := (s.recordTeardown_swapPending i c o .none c.outPort).trans none
  rw [State.decideTeardown_eq held, way]
  refine (State.endFreed_ring recorded.ctx pending).trans ?_
  exact State.writePathEnd_ring_congr (s.recordTeardown_ring i c o .none)
    (Keeps.recordTeardown (.refl s) i c o .none).timeBase _

theorem State.sendRequest_ring (s : State) (i : CtxIdx) (k : ReqKind) (att : Nat) :
    (s.sendRequest i k att).ring = s.ring := by
  unfold State.sendRequest State.withCtx
  split
  · dsimp only
    split <;> rfl
  · rfl

theorem State.sendClose_ring (s : State) (i : CtxIdx) : (s.sendClose i).ring = s.ring := by
  unfold State.sendClose State.withCtx
  split
  · exact s.sendRequest_ring i _ _
  · rfl

theorem State.chooseBase_ring (s : State) (i : CtxIdx) : (s.chooseBase i).ring = s.ring := by
  unfold State.chooseBase State.withCtx
  split
  · dsimp only
    split <;> rfl
  · rfl

theorem State.beginRetreat_ring (s : State) (i : CtxIdx) : (s.beginRetreat i).ring = s.ring := by
  unfold State.beginRetreat State.withCtx
  split
  · have based (p : PortNo) : ((s.leaveQueues p i).chooseBase i).ring = s.ring := State.chooseBase_ring _ i
    dsimp only
    split
    · rw [State.sendClose_ring, based]
    · exact based _
  · rfl

theorem State.join_ring (s : State) (p : PortNo) (q : QueueSel) (i : CtxIdx) (g : Bool) :
    (s.join p q i g).ring = s.ring := by
  unfold State.join
  dsimp only
  split
  · exact State.considerGrant_ring _ p
  · rfl

theorem State.joinRetreat_ring (s : State) (i : CtxIdx) (g : Bool) : (s.joinRetreat i g).ring = s.ring := by
  unfold State.joinRetreat State.withCtx
  split
  · dsimp only
    split
    · exact s.join_ring _ _ _ _
    · rfl
  · rfl

/-- A retreat writes no record while no swap is pending (R157). -/
theorem State.startRetreat_ring (held : s.ctx i = some c) (none : (s.port c.outPort).swapPending = false) :
    (s.startRetreat i).ring = s.ring := by
  have around := onlyAround.beginRetreat (onlyAround_refl s c.outPort i) fun c' held' => by
    cases held.symm.trans held'; rfl
  have looked := State.lookAfter_of_none (c := c) ((onlyAround_swapPending around).trans none)
  rw [State.startRetreat, State.withCtx_some held, looked]
  split
  · exact s.chooseBase_ring i
  · split
    · rfl
    · dsimp only
      split
      · rw [State.considerGrant_ring, State.joinRetreat_ring, State.beginRetreat_ring]
      · rw [State.joinRetreat_ring, State.beginRetreat_ring]

/-- A dark jump writes no record while no swap is pending (R158). -/
theorem State.startDarkJump_ring (held : s.ctx i = some c) (none : (s.port c.outPort).swapPending = false) :
    (s.startDarkJump i).ring = s.ring := by
  have self := onlyAround_refl s c.outPort i
  have left := (onlyAround_swapPending (self.leaveQueues i).sendClose).trans none
  have cleared := (onlyAround_swapPending (self.clearStep.mark false)).trans none
  have freed := (onlyAround_swapPending (((((self.clearStep.mark false).advanceTag i).onCtx fun c =>
    { c with outstanding := Option.none }).freeSlot).onCtx fun c => { c with kind := Option.none }).sendClose).trans none
  rw [State.startDarkJump, State.withCtx_some held, State.lookAfter_of_none left, State.abandonStep,
    State.lookForQuiet_of_none cleared, State.lookAfter_of_none freed]
  split
  · rfl
  · split
    · rw [State.considerGrant_ring, State.sendClose_ring]
      exact s.clearStep_ring _
    · dsimp only
      split
      · rw [State.considerGrant_ring, State.sendClose_ring]; rfl
      · rw [State.sendClose_ring]; rfl

theorem State.goDark_ring (held : s.ctx i = some c) (none : (s.port c.outPort).swapPending = false) {w : Way}
    (lit : w ≠ .none) : (s.goDark i w).ring = s.ring := by
  cases w with
  | none => exact absurd rfl lit
  | retreat => exact State.startRetreat_ring held none
  | darkJump => exact State.startDarkJump_ring held none

/-- Along the other ways no record is written (R154). -/
theorem State.decideTeardown_ring_lit (held : s.ctx i = some c) {o : TeardownOrder} (way : s.wayFor c o ≠ .none)
    (none : (s.port c.outPort).swapPending = false) : (s.decideTeardown i o).ring = s.ring := by
  have recorded := State.recordTeardown_recorded held o (s.wayFor c o)
  have pending := (s.recordTeardown_swapPending i c o (s.wayFor c o) c.outPort).trans none
  rw [State.decideTeardown_eq held, State.goDark_ring recorded.ctx pending way]
  exact s.recordTeardown_ring i c o (s.wayFor c o)

end

end Sys2Proof.Machine

/-! PROOFS. The aborts that the part decides itself: the failure of an OPEN and the expiries (R137, R138,
R146, R166). -/

namespace Sys2Proof.Machine

open Sys2Proof

/-! ### The state in which an event's teardown is decided -/

/-- The two states send alike and hold the same ring at the same time. -/
structure State.Alike (s u : State) : Prop where
  straps : u.straps = s.straps
  serves : ∀ d n, u.servesDegree d n ↔ s.servesDegree d n
  out : ∀ p, (u.port p).out = (s.port p).out
  swapPending : ∀ p, (u.port p).swapPending = (s.port p).swapPending
  ring : u.ring = s.ring
  timeBase : u.timeBase = s.timeBase

namespace State.Alike

variable {s u t : State}

theorem refl (s : State) : s.Alike s := ⟨rfl, fun _ _ => .rfl, fun _ => rfl, fun _ => rfl, rfl, rfl⟩

theorem onCtx (h : s.Alike u) (i : CtxIdx) (f : Context → Context) : s.Alike (u.onCtx i f) :=
  ⟨h.straps, h.serves, h.out, h.swapPending, h.ring, h.timeBase⟩

theorem onPort (h : s.Alike u) (p : PortNo) (f : PortState → PortState) (out : ∀ q, (f q).out = q.out)
    (pending : ∀ q, (f q).swapPending = q.swapPending) : s.Alike (u.onPort p f) := by
  refine ⟨h.straps, h.serves, fun q => ?_, fun q => ?_, h.ring, h.timeBase⟩
  · by_cases e : q = p
    · subst e; rw [State.port_onPort_same, out]; exact h.out q
    · rw [State.port_onPort_other _ _ e]; exact h.out q
  · by_cases e : q = p
    · subst e; rw [State.port_onPort_same, pending]; exact h.swapPending q
    · rw [State.port_onPort_other _ _ e]; exact h.swapPending q

theorem popReport (s : State) (p : PortNo) : s.Alike (s.popReport p) :=
  (refl s).onPort p _ (fun _ => by rfl) fun _ => by rfl

theorem popPeer (s : State) (d : DegreeNo) : s.Alike (s.popPeer d) :=
  ⟨rfl, State.servesDegree_popPeer s d, fun _ => rfl, fun _ => rfl, rfl, rfl⟩

theorem nodeId (h : s.Alike u) : u.nodeId = s.nodeId := by rw [State.nodeId, h.straps]; rfl

theorem sentFirst (h : s.Alike u) {p : PortNo} {m : PeerFrame} (sent : Machine.sentFirst u t p m) :
    Machine.sentFirst s t p m := by
  obtain ⟨fs, out⟩ := sent
  exact ⟨fs, by rw [out, h.out]⟩

theorem sentAmong (h : s.Alike u) {p : PortNo} {m : PeerFrame} (sent : Machine.sentAmong u t p m) :
    Machine.sentAmong s t p m := by
  obtain ⟨fs, gs, out⟩ := sent
  exact ⟨fs, gs, by rw [out, h.out]⟩

end State.Alike

/-! ### A local abort (R166) -/

section
variable {s u : State} {i : CtxIdx} {c : Context}

/-- The way of a cause that does not mean the input is lost (R154). -/
theorem State.wayFor_eq_localWay (s : State) (c : Context) {o : TeardownOrder} (kept : o.inputLost = false) :
    s.wayFor c o = s.localWay c := by
  unfold State.wayFor State.localWay
  rw [kept]
  cases c.rangeOpen <;> cases (s.port c.outPort).lineIsUp <;> rfl

/-- The PathEnd record of an ending context (R34). -/
theorem State.writePathEnd_some {outcome : PathOutcome} {reason : Option Reason} {origin : Option NodeId}
    (ends : c.pathOutcome = some (outcome, reason, origin)) :
    s.writePathEnd c = s.report (.pathEnd ⟨c.path, c.role, outcome, reason, origin, c.startTag, s.timeBase,
      c.steps, c.backoffs, c.slowest, c.flags⟩) := by
  rw [State.writePathEnd, ends]

/-- A local abort outside OFFERED: the way of the line, the messages up and down, and the PathEnd record
Aborted (R34, R156, R166). -/
theorem State.decideTeardown_abortsLocally (held : u.ctx i = some c) (state : c.state ≠ .offered)
    (alike : s.Alike u) (r : Reason) :
    abortsLocally s u (u.decideTeardown i (u.localAbort r)) i c r := by
  have way : u.wayFor c (u.localAbort r) = u.localWay c := u.wayFor_eq_localWay c rfl
  have node := alike.nodeId
  refine ⟨?_, fun e m inPort serves => ?_, fun none d n outPort serves => ?_, fun pending =>
    ⟨onlyAround.decideTeardown (onlyAround_refl u _ _) ((alike.swapPending _).trans pending)
      (fun c' held' => by cases held.symm.trans held'; rfl) _, fun none => ?_⟩⟩
  · have fate := State.decideTeardown_tornDownBy held (u.localAbort r)
    rw [way] at fate
    rw [← node]
    exact fate
  · have sent := State.decideTeardown_sendsUp held (o := u.localAbort r) rfl rfl inPort ((alike.serves e m).2 serves)
    rw [if_neg state] at sent
    rw [← node]
    exact alike.sentFirst sent
  · have sent := (State.decideTeardown_sendsNotice held (o := u.localAbort r) (way.trans none)
      (m := .abort c.path r u.nodeId) rfl outPort ((alike.serves d n).2 serves)).1
    rw [← node, outPort]
    exact alike.sentAmong sent
  · have ends : (c.tornBy (u.localAbort r) .none).pathOutcome = some (.aborted, some r, some u.nodeId) := by
      simp [Context.pathOutcome, Context.tornBy, state, State.localAbort]
    rw [State.decideTeardown_ring held (way.trans none) ((alike.swapPending _).trans pending),
      State.writePathEnd_some ends, ← node, ← alike.timeBase]
    exact State.report_ring_congr alike.ring _

/-! ### Expiries of a context timer (R32) -/

theorem State.due_of_le {due : Nat} {timer : Option Nat} (armed : timer = some due) (late : due ≤ s.elapsed) :
    s.due timer = true := by
  simp [State.due, armed, late]

theorem State.due_of_lt {due : Nat} {timer : Option Nat} (armed : timer = some due) (early : s.elapsed < due) :
    s.due timer = false := by
  simp [State.due, armed, early]

/-- An expiry before its time does nothing (log 3). -/
theorem State.onContextTimer_early (held : s.ctx i = some c) {due : Nat} (armed : c.timer = some due)
    (early : s.elapsed < due) (here : Context → Bool) (work : State → State) :
    s.onContextTimer i here work = s := by
  rw [State.onContextTimer, State.withCtx_some held, State.due_of_lt armed early]
  rfl

/-- An expiry whose timer has run out, in the situation that its row is for. -/
theorem State.onContextTimer_due (held : s.ctx i = some c) {due : Nat} (armed : c.timer = some due)
    (late : due ≤ s.elapsed) {here : Context → Bool} (fits : here c = true) (work : State → State) :
    s.onContextTimer i here work = work s := by
  rw [State.onContextTimer, State.withCtx_some held, State.due_of_le armed late, fits]
  rfl

theorem exec_contextTimer_early {row : Instr} {here : Context → Bool} {work : State → State}
    (does : exec row s = whileRunning s fun s => s.onContextTimer i here work) (running : s.inReset = false)
    (held : s.ctx i = some c) {due : Nat} (armed : c.timer = some due) (early : s.elapsed < due) :
    exec row s = .next s := by
  rw [does, whileRunning_running running, State.onContextTimer_early held armed early]

theorem exec_contextTimer_due {row : Instr} {here : Context → Bool} {work : State → State}
    (does : exec row s = whileRunning s fun s => s.onContextTimer i here work) (running : s.inReset = false)
    (held : s.ctx i = some c) {due : Nat} (armed : c.timer = some due) (late : due ≤ s.elapsed)
    (fits : here c = true) : exec row s = .next (work s) := by
  rw [does, whileRunning_running running, State.onContextTimer_due held armed late fits]

/-- An OPEN that failed (R138). -/
theorem State.openFailed_eq (held : s.ctx i = some c) (r : Reason) :
    s.openFailed i r = (s.onCtx i fun _ => { c with outstanding := none, timer := none }).decideTeardown i
      ((s.onCtx i fun _ => { c with outstanding := none, timer := none }).localAbort r) := by
  have same : (s.onCtx i fun c => { c with outstanding := none, timer := none }) =
      s.onCtx i fun _ => { c with outstanding := none, timer := none } := by
    rw [State.onCtx_eq_setRecord held, State.onCtx_eq_setRecord held]
  rw [State.openFailed, same]
  rfl

end

/-- Settles O44, on the expiries of a context timer. -/
theorem timeoutsAbortThePath : Obligations.TimeoutsAbortThePath := by
  intro s i c due running held armed
  constructor
  · intro early
    exact ⟨exec_contextTimer_early rfl running held armed early, exec_contextTimer_early rfl running held armed early,
      exec_contextTimer_early rfl running held armed early, exec_contextTimer_early rfl running held armed early⟩
  · intro late
    refine ⟨fun state => ?_, fun state => ?_, fun state asked => ?_⟩
    · exact ⟨_, exec_contextTimer_due rfl running held armed late (decide_eq_true state),
        State.decideTeardown_abortsLocally held (by simp [state]) (.refl s) _⟩
    · exact ⟨_, exec_contextTimer_due rfl running held armed late (decide_eq_true state),
        State.decideTeardown_abortsLocally held (by simp [state]) (.refl s) _⟩
    · exact ⟨_, (exec_contextTimer_due rfl running held armed late (decide_eq_true asked)).trans
          (congrArg Host.Outcome.next (State.openFailed_eq held _)),
        State.decideTeardown_abortsLocally (State.ctx_onCtx held _) (by simp [state])
          ((State.Alike.refl s).onCtx i _) _⟩

/-! ### ACTUATED for an OPEN (R138) -/

section
variable {s : State} {p : PortNo} {i : CtxIdx} {tag : Byte} {c : Context}

/-- A confirmation of dark (R91). -/
theorem confirmed_dark_iff (done : Bool) (x : Int) :
    confirmed done x Config.dark = true ↔ done = true ∧ 2490 ≤ x ∧ x ≤ 2510 := by
  have dark : ((Config.dark : Nat) : Int) = 2500 := rfl
  rw [confirmed_iff, dark]
  refine and_congr_right fun _ => ?_
  omega

theorem State.fitsActuated_open (asked : s.asked p i tag c .openBand) : s.fitsActuated p c = true := by
  simp [State.fitsActuated, State.awaits_asked asked]

theorem State.fitsActuated_close (asked : s.asked p i tag c .close) : s.fitsActuated p c = true := by
  simp [State.fitsActuated, State.awaits_asked asked]

/-- ACTUATED taken for the request that its context waits for (R89, R91). -/
theorem exec_actuated {k : ReqKind} {done : Bool} {x : Int} (waits : s.reportWaits p (.actuated i tag done x))
    (asked : s.asked p i tag c k) (fits : (s.popReport p).fitsActuated p c = true) :
    exec (.actuated p) s = .next ((s.popReport p).actuatedFor p i done x k) := by
  have run : exec (.actuated p) s = .next ((s.popReport p).actuatedOn p i tag done x) :=
    onReport_eq (row := actuatedRow p) waits rfl
  have ⟨_, _, _, outstanding⟩ := asked
  rw [run, State.actuatedOn, State.ifMatched_asked (State.asked_popReport asked p) fits]
  simp only [outstanding]

/-- A confirmed OPEN: the range Open, A at dark, and the first MEASURE (R138). -/
theorem State.openConfirmed_eq (held : s.ctx i = some c) {first : Nat} (chosen : c.chosen = some first)
    (range : ∀ k, first ≤ k → k < first + c.width → cellAt (s.port c.outPort).map k = some (.reserved i)) :
    s.openConfirmed i = ((s.onPort c.outPort fun ps => { ps with
        map := writeRange (s.port c.outPort).map first c.width (fun _ => true) (.opened i) }).setRecord i
      ⟨(s.record i).tag + 1, some { c with
        att := some 2500, attempts := 1, outstanding := some .measure,
        timer := some (s.elapsed + s.part.measureTimeout) }⟩).emit c.outPort
          (.request ⟨.measure, i, (s.record i).tag + 1, first, c.width, 0⟩) := by
  set u := s.onPort c.outPort fun ps => { ps with
    map := writeRange (s.port c.outPort).map first c.width (fun _ => true) (.opened i) } with hu
  have opened : s.mapOpen i first = u := by
    refine State.claim_eq held (if_pos ((rangeAll_iff _ _ _ _).2 fun k low high => ?_))
    exact ⟨_, range k low high, decide_eq_true rfl⟩
  have lowest : c.chosen.getD 0 = first := by rw [chosen]; rfl
  rw [State.openConfirmed, State.withCtx_some held]
  dsimp only
  rw [lowest, opened, State.onCtx_eq_setRecord (s := u) (c := c) held,
    State.sendMeasure_setRecord u (c := { c with outstanding := none, timer := none, att := some Config.dark })
      chosen]
  rfl

end

/-- Settles O42, on the confirmed OPEN and the one that failed. -/
theorem actuatedOpenStartsTheMeasurement : Obligations.ActuatedOpenStartsTheMeasurement := by
  intro s p i tag c done x waits asked state
  have run := exec_actuated waits asked (State.fitsActuated_open (s := s.popReport p) asked)
  have ⟨held, out, sameTag, _⟩ := asked
  subst out sameTag
  refine ⟨fun isDone low high first chosen range => ?_, fun fails => ?_⟩
  · have good : confirmed done x Config.dark = true := (confirmed_dark_iff done x).2 ⟨isDone, low, high⟩
    have reserved (k : Nat) (low : first ≤ k) (high : k < first + c.width) :
        cellAt ((s.popReport c.outPort).port c.outPort).map k = some (.reserved i) := by
      rw [State.popReport_port]
      exact range k low high
    rw [State.actuatedFor, if_pos good, State.openConfirmed_eq (s := s.popReport c.outPort) held chosen reserved] at run
    set u := (s.popReport c.outPort).onPort c.outPort _ with hu
    have port : u.port c.outPort = { (s.popReport c.outPort).port c.outPort with
        map := writeRange (s.port c.outPort).map first c.width (fun _ => true) (.opened i) } := by
      rw [hu, State.port_onPort_same, State.popReport_port]
    have within (k : Nat) (low : first ≤ k) (high : k < first + c.width) :
        cellAt (s.port c.outPort).map k ≠ none := by rw [range k low high]; simp
    set v := u.setRecord i _ with hv
    have here : v.port c.outPort = u.port c.outPort := rfl
    refine ⟨_, run, State.record_setRecord u i _, sameOtherRecords_setRecord u i _, fun k => ?_,
      ⟨rfl, rfl, congrArg Record.tag (State.record_setRecord u i _), ?_⟩, ?_, fun q other => ?_, rfl⟩
    · rw [State.port_emit_same, here, port, cellAt_writeRange]
      by_cases inside : first ≤ k ∧ k < first + c.width
      · simp [inside, range k inside.1 inside.2]
      · simp [inside]
    · rw [sentOn, State.port_emit_same, here, port, State.popReport_port]
      rfl
    · rw [State.port_emit_same, here, port, State.popReport_port]
    · exact (State.port_onPort_other _ _ other).trans
        ((State.port_onPort_other _ _ other).trans (State.port_onPort_other _ _ other))
  · have bad : confirmed done x Config.dark = false := by
      rw [Bool.eq_false_iff, ne_eq, confirmed_dark_iff]
      rintro ⟨isDone, low, high⟩
      rcases fails with undone | below | above
      · cases undone.symm.trans isDone
      · omega
      · omega
    rw [State.actuatedFor, bad, State.openFailed_eq (s := s.popReport c.outPort) held] at run
    exact ⟨_, run, State.decideTeardown_abortsLocally (State.ctx_onCtx (s := s.popReport c.outPort) held _)
      (by simp [state]) ((State.Alike.popReport s c.outPort).onCtx i _) _⟩

end Sys2Proof.Machine

/-! PROOFS. The end of a path by its CLOSE, and the ends of an offer (R33, R34, R73, R74, R76, R161, R162). -/

namespace Sys2Proof.Machine

open Sys2Proof

section
variable {s u : State} {i : CtxIdx} {c : Context} {first : Nat}

/-! ### A blocked end (R11, R162) -/

/-- The context of an unconfirmed close. -/
def Context.unconfirmed (c : Context) : Context :=
  { c with flags := { c.flags with closeUnconfirmed := true } }

/-- The part with the range of an unconfirmed close blocked, and the context's other cells free (R11,
log 29). -/
def State.blocking (s : State) (i : CtxIdx) (c : Context) (first : Nat) : State :=
  s.mapBlock i c.outPort first c.width

theorem State.endBlocked_eq (held : s.ctx i = some c) (chosen : c.chosen = some first) : s.endBlocked i =
    (((s.blocking i c first).finishEnding i c.unconfirmed).report
      (.port c.outPort .closeUnconfirmed)).afterEnding i c.unconfirmed (s.port c.outPort) := by
  have lowest : c.chosen.getD 0 = first := by rw [chosen]; rfl
  have width : (if c.chosen.isSome = true then c.width else 0) = c.width := by rw [chosen]; rfl
  rw [State.endBlocked, State.withCtx_some held]
  dsimp only
  rw [lowest, width]
  rfl

theorem State.endBlocked_record (held : s.ctx i = some c) (chosen : c.chosen = some first) :
    (s.endBlocked i).record i = ⟨(s.record i).tag + 1, none⟩ := by
  have record : (((s.blocking i c first).finishEnding i c.unconfirmed).report
      (.port c.outPort .closeUnconfirmed)).record i = ⟨(s.record i).tag + 1, none⟩ := by
    rw [State.report_record, State.finishEnding_record]
    rfl
  rw [State.endBlocked_eq held chosen]
  exact ((State.afterEnding_aside _ i i c.unconfirmed _).free (congrArg Record.ctx record)).trans record

theorem State.endBlocked_map (held : s.ctx i = some c) (chosen : c.chosen = some first) (k : Nat) :
    cellAt ((s.endBlocked i).port c.outPort).map k = (cellAt (s.port c.outPort).map k).map fun x =>
      if (first ≤ k ∧ k < first + c.width) ∧ x = .opened i then .blocked
      else if x.owner = some i then .free else x := by
  have map : ((s.blocking i c first).port c.outPort).map =
      freeOwned (writeRange (s.port c.outPort).map first c.width (fun x => decide (x = .opened i)) .blocked) i := by
    rw [State.blocking, State.mapBlock, State.port_onPort_same]
  rw [State.endBlocked_eq held chosen, (State.afterEnding_aside _ i i c.unconfirmed _).map, State.report_port,
    State.finishEnding_map, map, cellAt_freeOwned, cellAt_writeRange, Option.map_map]
  refine congrArg (fun f => Option.map f _) (funext fun x => ?_)
  simp only [Function.comp_apply, Bool.and_eq_true, inRange_iff, decide_eq_true_eq]
  split
  · rfl
  · rfl

/-- The notice owed is the first frame of a blocked end (R156). -/
theorem State.endBlocked_sendsNotice (held : s.ctx i = some c) (chosen : c.chosen = some first) {m : PeerMsg}
    (owed : c.noticeOwed = some m) {d : DegreeNo} {n : NodeId} (outPort : c.outPort = portOf d)
    (serves : s.servesDegree d n) : sentFirst s (s.endBlocked i) (portOf d) ⟨n, s.nodeId, d, m⟩ := by
  set v := s.blocking i c first with hv
  have keeps : Keeps (v.sendNotice c.unconfirmed) (s.endBlocked i) := by
    rw [State.endBlocked_eq held chosen]
    exact ((((((Keeps.refl _).leaveQueues _ i).releaseSlot _ i).writePathEnd _).freeRecord i).report _).afterEnding i _ _
  have serves' : v.servesDegree d n := serves
  have owed' : c.unconfirmed.noticeOwed = some m := owed
  have outPort' : c.unconfirmed.outPort = portOf d := outPort
  rw [State.sendNotice_eq owed', State.sendDownstream_served m outPort' serves'] at keeps
  refine sentFirst_of_sentOn ?_ keeps
  have sent := sentOn_emit v (portOf d) (.peer ⟨n, s.nodeId, d, m⟩)
  have out : (v.port (portOf d)).out = (s.port (portOf d)).out := by
    rw [hv, State.blocking, State.mapBlock, outPort, State.port_onPort_same]
  rw [sentOn, out] at sent
  exact sent

theorem State.endBlocked_ring (held : s.ctx i = some c) (chosen : c.chosen = some first)
    (none : (s.port c.outPort).swapPending = false) : (s.endBlocked i).ring =
      ((s.writePathEnd c.unconfirmed).report (.port c.outPort .closeUnconfirmed)).ring := by
  have around : onlyAround s (((s.blocking i c first).finishEnding i c.unconfirmed).report
      (.port c.outPort .closeUnconfirmed)) c.outPort i :=
    (((onlyAround_refl s c.outPort i).mapBlock i first c.width).finishEnding c.unconfirmed rfl).report _
  rw [State.endBlocked_eq held chosen,
    State.afterEnding_ring (c := c.unconfirmed) ((onlyAround_swapPending around).trans none)]
  refine State.report_ring_congr ?_ _
  rw [State.finishEnding_ring]
  exact State.writePathEnd_ring_congr (s := s) (t := s.blocking i c first) rfl rfl _

/-! ### The record of a close (R34) -/

/-- The PathEnd record of a context that ends by its CLOSE. -/
def Context.closingRecord (c : Context) (td : Teardown) (now : BitVec 32) : RingRecord :=
  if td.cause = .managementRelease ∨ td.cause = .releaseFromUpstream then
    .pathEnd ⟨c.path, c.role, .released, none, some c.path.head, c.startTag, now, c.steps, c.backoffs, c.slowest,
      c.flags⟩
  else .pathEnd ⟨c.path, c.role, .aborted, c.abortReason, c.origin, c.startTag, now, c.steps, c.backoffs,
    c.slowest, c.flags⟩

theorem State.writePathEnd_closing {td : Teardown} (state : c.state = .closing) (torn : c.teardown = some td) :
    s.writePathEnd c = s.report (c.closingRecord td s.timeBase) := by
  by_cases released : td.cause = .managementRelease ∨ td.cause = .releaseFromUpstream
  · rw [State.writePathEnd_some (outcome := .released) (reason := none) (origin := some c.path.head)
      (by simp [Context.pathOutcome, state, torn, released]), Context.closingRecord, if_pos released]
  · have other := not_or.1 released
    rw [State.writePathEnd_some (outcome := .aborted) (reason := c.abortReason) (origin := c.origin)
      (by simp [Context.pathOutcome, state, torn, other]), Context.closingRecord, if_neg released]

end

/-- Settles O43, on the end with cells freed and the blocked end. -/
theorem closeEndsThePath : Obligations.CloseEndsThePath := by
  intro s p i c first td running held out state chosen torn ending unconfirmed notice freed blocked
  subst out
  have owedAbort {r : Reason} {origin : NodeId} (kind : td.notice = .abort) (reason : c.abortReason = some r)
      (source : c.origin = some origin) : c.noticeOwed = some (.abort c.path r origin) := by
    simp [Context.noticeOwed, torn, kind, reason, source]
  have owedRelease (kind : td.notice = .release) : c.noticeOwed = some (.release c.path) := by
    simp [Context.noticeOwed, torn, kind]
  have isFreed {u : State} (alike : s.Alike u) (records : u.record i = s.record i)
      (map : (u.port c.outPort).map = (s.port c.outPort).map) : freed u (u.closeConfirmed i) := by
    set v := u.onCtx i fun c => { c with att := some Config.dark } with hv
    have alike' : s.Alike v := alike.onCtx i _
    have held' : v.ctx i = some { c with att := some Config.dark } :=
      State.ctx_onCtx (s := u) (by rw [State.ctx, records]; exact held) _
    have tag' : (v.record i).tag = (s.record i).tag := by
      rw [← records]
      have kept := congrArg Record.tag (State.record_onRecord_same u i fun r =>
        { r with ctx := r.ctx.map fun c : Context => { c with att := some Config.dark } })
      exact kept
    have around : onlyAround u v c.outPort i := (onlyAround_refl u c.outPort i).onCtx _
    obtain ⟨free, tag, cells⟩ := State.endFreed_freed held'
    refine ⟨⟨free, by rw [← tag']; exact tag, fun k => by rw [← map]; exact cells k⟩,
      fun d n here serves => ⟨fun kind r origin reason source => ?_, fun kind => ?_⟩, fun pending =>
        ⟨around.endFreed ((alike.swapPending _).trans pending) fun c' held'' => ?_, ?_⟩⟩
    · have sent := State.endFreed_sendsNotice held' (owedAbort kind reason source) here ((alike'.serves d n).2 serves)
      rw [alike'.nodeId, ← here] at sent
      exact alike'.sentFirst sent
    · have sent := State.endFreed_sendsNotice held' (owedRelease kind) here ((alike'.serves d n).2 serves)
      rw [alike'.nodeId, ← here] at sent
      exact alike'.sentFirst sent
    · cases held'.symm.trans held''; rfl
    · have written := State.endFreed_ring held' ((alike'.swapPending _).trans pending)
      rw [State.writePathEnd_closing (c := { c with att := some Config.dark }) state torn, alike'.timeBase] at written
      exact written.trans (State.report_ring_congr alike'.ring _)
  have isBlocked {u : State} (alike : s.Alike u) (records : u.record i = s.record i)
      (map : (u.port c.outPort).map = (s.port c.outPort).map) : blocked u (u.endBlocked i) := by
    have held' : u.ctx i = some c := by rw [State.ctx, records]; exact held
    have record := State.endBlocked_record held' chosen
    refine ⟨congrArg Record.ctx record, (congrArg Record.tag record).trans (by rw [records]),
      fun d n here serves => ⟨fun kind r origin reason source => ?_, fun kind => ?_⟩, fun k => ?_,
      fun pending => ⟨(onlyAround_refl u c.outPort i).endBlocked ((alike.swapPending _).trans pending)
        fun c' held'' => ?_, ?_⟩⟩
    · have sent := State.endBlocked_sendsNotice held' chosen (owedAbort kind reason source) here
        ((alike.serves d n).2 serves)
      rw [alike.nodeId, ← here] at sent
      exact alike.sentFirst sent
    · have sent := State.endBlocked_sendsNotice held' chosen (owedRelease kind) here ((alike.serves d n).2 serves)
      rw [alike.nodeId, ← here] at sent
      exact alike.sentFirst sent
    · rw [← map]
      exact State.endBlocked_map held' chosen k
    · cases held'.symm.trans held''; rfl
    · have written := State.endBlocked_ring held' chosen ((alike.swapPending _).trans pending)
      rw [State.writePathEnd_closing (c := c.unconfirmed) state torn, alike.timeBase] at written
      exact written.trans (State.report_ring_congr (State.report_ring_congr alike.ring _) _)
  constructor
  · intro tag done x waits sameTag outstanding
    have asked : s.asked c.outPort i tag c .close := ⟨held, rfl, sameTag, outstanding⟩
    have run := exec_actuated waits asked (State.fitsActuated_close (s := s.popReport c.outPort) asked)
    have alike := State.Alike.popReport s c.outPort
    have map : ((s.popReport c.outPort).port c.outPort).map = (s.port c.outPort).map := by
      rw [State.popReport_port]
    refine ⟨fun isDone low high => ?_, fun fails => ?_⟩
    · rw [State.actuatedFor, if_pos ((confirmed_dark_iff done x).2 ⟨isDone, low, high⟩)] at run
      exact ⟨_, run, isFreed alike rfl map⟩
    · have bad : ¬confirmed done x Config.dark = true := by
        rw [confirmed_dark_iff]
        rintro ⟨isDone, low, high⟩
        rcases fails with undone | below | above
        · cases undone.symm.trans isDone
        · omega
        · omega
      rw [State.actuatedFor, if_neg bad] at run
      exact ⟨_, run, isBlocked alike rfl map⟩
  · intro due armed
    exact ⟨fun early => exec_contextTimer_early rfl running held armed early, fun late =>
      ⟨_, exec_contextTimer_due rfl running held armed late (decide_eq_true state),
        isBlocked (.refl s) rfl rfl⟩⟩

end Sys2Proof.Machine

/-! PROOFS. RELEASE, and the causes that come along a path: ABORT from downstream, RELEASE and ABORT from
upstream, and the ends of an offer (R73, R74, R76, R163 to R165, R170). -/

namespace Sys2Proof.Machine

open Sys2Proof

section
variable {s u t : State} {i : CtxIdx} {c : Context}

/-! ### What stays said of another state -/

/-- What a teardown has done is said of the state before by its record, its port's map and its step. -/
theorem tornDownBy_congr {cause : Cause} {way : Way} {notice : Notice} {reason : Option Reason}
    {origin : NodeId} (tag : (u.record i).tag = (s.record i).tag)
    (port : ∃ q, u.port c.outPort = { s.port c.outPort with out := q })
    (torn : tornDownBy u t i c cause way notice reason origin) :
    tornDownBy s t i c cause way notice reason origin := by
  obtain ⟨q, port⟩ := port
  cases way with
  | none =>
    obtain ⟨free, tag', map⟩ := torn
    have same : (u.port c.outPort).map = (s.port c.outPort).map := by rw [port]
    exact ⟨free, by rw [← tag]; exact tag', fun k => by rw [← same]; exact map k⟩
  | retreat =>
    obtain ⟨c', after, items, reason, origin, fate⟩ := torn
    have flying : u.stepInFlight c.outPort i = s.stepInFlight c.outPort i := by
      rw [State.stepInFlight, State.stepInFlight, port]
    rw [retreats, flying] at fate
    exact ⟨c', after, items, reason, origin, fate⟩
  | darkJump => exact torn

/-- Responses answered play no part in what is around a context. -/
theorem onlyAround_respond {p : PortNo} (around : onlyAround s t p i) {answers answers' : List Response}
    (answered : answers' = answers) :
    onlyAround { s with responses := answers } { t with responses := answers' } p i := by
  subst answered
  obtain ⟨others, port, sends, lamps, outside⟩ := around
  have same := congrArg (fun u : State => { u with responses := answers' }) outside
  exact ⟨others, port, sends, lamps, same⟩

end

/-- Settles O22, on the first cause that RELEASE decides at a head. -/
theorem releaseTearsDownAtTheHead : Obligations.ReleaseTearsDownAtTheHead := by
  intro s a b fields rest path read waits u
  set v : State := { s with commands := rest } with hv
  have work : releaseWork fields v = withPath path v fun i c =>
      if c.role ≠ .head then (v, .err .wrongRole)
      else if c.tornDown then (v, .err .wrongState)
      else (v.decideTeardown i (v.releaseOrder c), .ok .none) := by
    rw [releaseWork, read]
    rfl
  refine ⟨fun unknown => onCommand_answered (work := releaseWork) waits (by decide)
    (work.trans (withPath_unknown (s := v) unknown _)), fun i c found held => ?_⟩
  have known := work.trans (withPath_lookup (s := v) found held _)
  obtain ⟨c', held', same⟩ := State.lookup_some found
  cases held.symm.trans held'
  refine ⟨fun other => ?_, fun role torn => ?_, fun role whole offered => ?_, fun role whole later => ?_⟩
  · exact onCommand_answered (work := releaseWork) (r := .err .wrongRole) waits (by decide)
      (known.trans (if_pos other))
  · exact onCommand_answered (work := releaseWork) (r := .err .wrongState) waits (by decide)
      (known.trans ((if_neg (not_not.2 role)).trans (if_pos torn)))
  all_goals
    have does : releaseWork fields v = (v.decideTeardown i (v.releaseOrder c), .ok .none) :=
      known.trans ((if_neg (not_not.2 role)).trans (if_neg (by simp [whole])))
    have run : exec .release s = _ := onCommand_eq waits.1 (by decide) waits.2 releaseWork
    rw [does, State.respond_eq] at run
    have keeps : Keeps v (v.decideTeardown i (v.releaseOrder c)) := .decideTeardown (.refl v) i _
    have answered : (v.decideTeardown i (v.releaseOrder c)).responses ++
        [⟨2, a, b, .ok, false, (v.decideTeardown i (v.releaseOrder c)).timeBase, .none⟩] = u.responses := by
      rw [keeps.responses, keeps.timeBase]
      rfl
    have around (pending : (s.port c.outPort).swapPending = false) :
        onlyAround v (v.decideTeardown i (v.releaseOrder c)) c.outPort i :=
      onlyAround.decideTeardown (onlyAround_refl v _ _) pending
        (fun c' held'' => by cases held.symm.trans held''; rfl) _
    have fate := State.decideTeardown_tornDownBy (s := v) held (v.releaseOrder c)
  · have order : v.releaseOrder c =
        ⟨.managementRelease, some .releasedByManager, s.nodeId, .abort, false, false⟩ := if_pos offered
    have way : v.wayFor c (v.releaseOrder c) = .none := by
      simp [State.wayFor, Context.rangeOpen, offered]
    rw [way] at fate
    refine ⟨_, run, fate, answered, fun d n degree serves => ?_, fun pending => ⟨?_, ?_⟩⟩
    · have outPort := (portOf_of_degreeOf degree).symm
      have owed : (c.tornBy (v.releaseOrder c) .none).noticeOwed =
          some (.abort c.path .releasedByManager s.nodeId) := by rw [order]; rfl
      rw [outPort, ← same]
      exact (State.decideTeardown_sendsNotice (s := v) held way owed outPort serves).2 (by rw [order])
    · exact onlyAround_respond (around pending) answered
    · have ends : (c.tornBy (v.releaseOrder c) .none).pathOutcome =
          some (.released, some .releasedByManager, some s.nodeId) := by
        simp [Context.pathOutcome, Context.tornBy, offered, role, order]
      have written := State.decideTeardown_ring (s := v) held way pending
      rw [State.writePathEnd_some ends] at written
      refine written.trans ?_
      rw [← role, ← same]
      exact State.report_ring_congr (s := s) (t := v) rfl _
  · have order : v.releaseOrder c = ⟨.managementRelease, none, c.path.head, .release, false, false⟩ :=
      if_neg later
    have way : v.wayFor c (v.releaseOrder c) = s.localWay c := v.wayFor_eq_localWay c (by rw [order])
    rw [way] at fate
    refine ⟨_, run, answered, ?_, fun none d n degree serves => ?_, fun pending => ⟨?_, ?_⟩⟩
    · rw [order] at fate
      rw [← same, order]
      exact fate
    · have outPort := (portOf_of_degreeOf degree).symm
      have owed : (c.tornBy (v.releaseOrder c) .none).noticeOwed = some (.release c.path) := by rw [order]; rfl
      rw [outPort, ← same]
      exact (State.decideTeardown_sendsNotice (s := v) held (way.trans none) owed outPort serves).2 (by rw [order])
    · exact onlyAround_respond (around pending) answered
    · by_cases none : s.localWay c = .none
      · have ends : (c.tornBy (v.releaseOrder c) .none).pathOutcome =
            some (.released, Option.none, some c.path.head) := by
          simp [Context.pathOutcome, Context.tornBy, later, order]
        have written := State.decideTeardown_ring (s := v) held (way.trans none) pending
        rw [State.writePathEnd_some ends] at written
        rw [if_pos none, ← role, ← same]
        exact written.trans (State.report_ring_congr (s := s) (t := v) rfl _)
      · rw [if_neg none]
        exact State.decideTeardown_ring_lit (s := v) held (way.trans_ne none) pending

end Sys2Proof.Machine

/-! PROOFS. The causes that come along a path: ABORT from downstream, RELEASE and ABORT from upstream
(R164, R165, R170). -/

namespace Sys2Proof.Machine

open Sys2Proof

section
variable {s u t : State} {i : CtxIdx} {c : Context} {d : DegreeNo}

/-! ### First and second causes (R170) -/

theorem State.causeReaches_first (held : s.ctx i = some c) (whole : c.tornDown = false) (o : TeardownOrder) :
    s.causeReaches i o = s.decideTeardown i o := by
  rw [State.causeReaches, State.withCtx_some held, if_neg (by simp [whole])]

theorem State.causeReaches_second (held : s.ctx i = some c) (torn : c.tornDown = true) (o : TeardownOrder) :
    s.causeReaches i o = s.secondCause i o := by
  rw [State.causeReaches, State.withCtx_some held, if_pos torn]

/-- A second cause that would not decide a dark jump changes nothing (R170). -/
theorem State.secondCause_of_lit {o : TeardownOrder} (lit : o.darkCause = false) : s.secondCause i o = s := by
  unfold State.secondCause State.withCtx
  split
  · dsimp only
    split
    · exact if_neg (by simp [lit])
    · rfl
  · rfl

/-- A second cause leaves a context whose way is no retreat, or which is CLOSING (R170). -/
theorem State.secondCause_stays (held : s.ctx i = some c) (o : TeardownOrder)
    (stays : ∀ td, c.teardown = some td → td.way ≠ .retreat ∨ c.state = .closing) : s.secondCause i o = s := by
  rw [State.secondCause, State.withCtx_some held]
  split
  next td decided =>
    refine if_neg fun turns => ?_
    obtain ⟨retreat, -, open_⟩ := turns
    rcases stays td decided with other | closing
    · exact other retreat
    · exact open_ closing
  · rfl

/-- A cause that would decide a dark jump turns a retreat into one (R170). -/
theorem State.secondCause_turns (held : s.ctx i = some c) {o : TeardownOrder} (dark : o.darkCause = true)
    {td : Teardown} (decided : c.teardown = some td) (retreat : td.way = .retreat) (open_ : c.state ≠ .closing) :
    ∃ c', (s.secondCause i o).ctx i = some c' ∧ c'.teardown = some { td with way := .darkJump } ∧
      c'.abortReason = c.abortReason ∧ c'.origin = c.origin ∧ jumpsDark c c' := by
  have turned : s.secondCause i o =
      (s.onCtx i fun c => { c with teardown := some { td with way := .darkJump } }).startDarkJump i := by
    rw [State.secondCause, State.withCtx_some held]
    simp only [decided]
    exact if_pos ⟨retreat, dark, open_⟩
  obtain ⟨c', after, cause, fate⟩ := State.startDarkJump_jumpsDark (State.ctx_onCtx held fun c =>
    { c with teardown := some { td with way := .darkJump } }) rfl
  rw [turned]
  exact ⟨c', after, cause.teardown, cause.reason, cause.origin, fate⟩

/-- The way of a cause that means the input is lost (R155). -/
theorem State.wayFor_eq_lostWay (s : State) (c : Context) {o : TeardownOrder} (lost : o.inputLost = true) :
    s.wayFor c o = c.lostWay := by
  unfold State.wayFor Context.lostWay
  rw [lost]
  cases c.rangeOpen <;> rfl

/-! ### An ABORT's two rows (R164, R165, log 24) -/

variable {dest n : NodeId} {deg : DegreeNo} {path : PathId} {r : Reason} {origin : NodeId}

theorem State.abortSide_downstream (found : s.lookup path = some i) (held : s.ctx i = some c)
    (out : c.outPort = portOf d) : s.abortSide d ⟨dest, n, deg, .abort path r origin⟩ = .downstream := by
  rw [State.abortSide]
  simp [found, held, Context.fromDownstream, out]

theorem State.abortSide_upstream (found : s.lookup path = some i) (held : s.ctx i = some c)
    (out : c.outPort ≠ portOf d) (inPort : c.inPort = .degree d) :
    s.abortSide d ⟨dest, n, deg, .abort path r origin⟩ = .upstream := by
  rw [State.abortSide]
  simp [found, held, Context.fromDownstream, Context.fromUpstream, out, inPort]

/-- An ABORT from downstream, taken by its own row. -/
theorem exec_abortFromDownstream (waits : s.peerWaits d ⟨dest, n, deg, .abort path r origin⟩)
    (found : s.lookup path = some i) (held : s.ctx i = some c) (out : c.outPort = portOf d) :
    exec (.abortFromDownstream d) s = .next ((s.popPeer d).abortFromBelow i r origin) := by
  have side := State.abortSide_downstream (dest := dest) (n := n) (deg := deg) (r := r) (origin := origin) found held out
  have side' := State.abortSide_downstream (s := s.popPeer d) (dest := dest) (n := n) (deg := deg) (r := r)
    (origin := origin) found held out
  have mine : s.abortIsFor d .downstream = true := by rw [State.abortIsFor_waits waits, side]; rfl
  have found' : (s.popPeer d).lookup path = some i := found
  refine (whileRunning_running waits.1 _).trans (congrArg Host.Outcome.next ((if_pos mine).trans ?_))
  refine (State.takePeer_waits waits (abortDownUse d)).trans ?_
  rw [abortDownUse]
  simp only [found', side']

/-- The other row leaves it (log 24). -/
theorem exec_abortFromUpstream_other (waits : s.peerWaits d ⟨dest, n, deg, .abort path r origin⟩)
    (found : s.lookup path = some i) (held : s.ctx i = some c) (out : c.outPort = portOf d) :
    exec (.abortFromUpstream d) s = .next s := by
  have side := State.abortSide_downstream (dest := dest) (n := n) (deg := deg) (r := r) (origin := origin) found held out
  have other : ¬s.abortIsFor d .upstream = true := by rw [State.abortIsFor_waits waits, side]; decide
  exact (whileRunning_running waits.1 _).trans (congrArg Host.Outcome.next (if_neg other))

/-- An ABORT from upstream, taken by its own row. -/
theorem exec_abortFromUpstream (waits : s.peerWaits d ⟨dest, n, deg, .abort path r origin⟩)
    (found : s.lookup path = some i) (held : s.ctx i = some c) (out : c.outPort ≠ portOf d)
    (inPort : c.inPort = .degree d) :
    exec (.abortFromUpstream d) s = .next ((s.popPeer d).abortFromAbove i r origin) := by
  have side := State.abortSide_upstream (dest := dest) (n := n) (deg := deg) (r := r) (origin := origin) found held
    out inPort
  have side' := State.abortSide_upstream (s := s.popPeer d) (dest := dest) (n := n) (deg := deg) (r := r)
    (origin := origin) found held out inPort
  have mine : s.abortIsFor d .upstream = true := by rw [State.abortIsFor_waits waits, side]; rfl
  have found' : (s.popPeer d).lookup path = some i := found
  refine (whileRunning_running waits.1 _).trans (congrArg Host.Outcome.next ((if_pos mine).trans ?_))
  refine (State.takePeer_waits waits (abortUpUse d)).trans ?_
  rw [abortUpUse]
  simp only [found', side']

/-- A first cause taken with a frame, as it is said of the state with the frame still in its queue. -/
theorem State.decideTeardown_popPeer (held : s.ctx i = some c) (d : DegreeNo) (o : TeardownOrder) {way : Way}
    (same : (s.popPeer d).wayFor c o = way) :
    tornDownBy s ((s.popPeer d).decideTeardown i o) i c o.cause way o.notice o.reason o.origin := by
  have fate := State.decideTeardown_tornDownBy (s := s.popPeer d) held o
  rw [same] at fate
  exact tornDownBy_congr (u := s.popPeer d) rfl ⟨_, rfl⟩ fate

/-- A cause taken with a frame is around its context. -/
theorem State.causeReaches_around (held : s.ctx i = some c) (d : DegreeNo) (o : TeardownOrder)
    (pending : (s.port c.outPort).swapPending = false) :
    onlyAround (s.popPeer d) ((s.popPeer d).causeReaches i o) c.outPort i := by
  have out : ∀ c', (s.popPeer d).ctx i = some c' → c'.outPort = c.outPort := fun c' held' =>
    congrArg Context.outPort (Option.some.inj (held'.symm.trans held))
  have around := onlyAround_refl (s.popPeer d) c.outPort i
  exact around.causeReaches pending out o

end

/-- Settles O34, on the first and the second cause. -/
theorem abortFromDownstreamGoesUp : Obligations.AbortFromDownstreamGoesUp := by
  intro s d deg dest n path r origin i c waits found held out
  have run := exec_abortFromDownstream waits found held out
  obtain ⟨c', held', same⟩ := State.lookup_some found
  cases held.symm.trans held'
  rw [State.abortFromBelow] at run
  refine ⟨fun torn => ?_, fun _ => exec_abortFromUpstream_other waits found held out, fun whole => ?_⟩
  · rw [run, State.causeReaches_second (s := s.popPeer d) held torn, State.secondCause_of_lit rfl]
  · have around := fun o => State.causeReaches_around held d o
    simp only [State.causeReaches_first (s := s.popPeer d) held whole] at run around
    refine ⟨_, run, State.decideTeardown_popPeer held d ⟨.abortFromDownstream, some r, origin, .none, false, true⟩
      ((s.popPeer d).wayFor_eq_localWay c rfl), fun e m inPort serves => ?_, fun pending => around _ pending⟩
    have sent := State.decideTeardown_sendsUp (s := s.popPeer d) held
      (o := ⟨.abortFromDownstream, some r, origin, .none, false, true⟩) rfl rfl inPort
      ((State.servesDegree_popPeer s d e m).2 serves)
    rw [← same]
    exact sent

/-- Settles O35: the two rows are one cause, which is the first of the context, turns a retreat, or
changes nothing. -/
theorem causesFromUpstreamAreDarkJumps : Obligations.CausesFromUpstreamAreDarkJumps := by
  intro s d deg dest n path m row cause reason origin notice i c down waits found held inPort out which
  obtain ⟨c', held', same⟩ := State.lookup_some found
  cases held.symm.trans held'
  let o : TeardownOrder := ⟨cause, reason, origin, notice, true, false⟩
  have run : exec row s = .next ((s.popPeer d).causeReaches i o) := by
    rcases which with ⟨rfl, rfl, rfl, rfl, rfl, kind⟩ | ⟨r, rfl, rfl, rfl, rfl, rfl, -⟩
    · have upstream : c.fromUpstream d = true := by simp [Context.fromUpstream, inPort]
      have ordered : notice = if c.state = .offered then .abort else .release := by
        rcases kind with ⟨offered, rfl, -⟩ | ⟨later, rfl, -⟩
        · rw [if_pos offered]
        · rw [if_neg later]
      have found' : (s.popPeer d).lookup path = some i := found
      have taken : (s.popPeer d).takeRelease d path = (s.popPeer d).causeReaches i o := by
        rw [State.takeRelease]
        simp only [found']
        rw [State.withCtx_some (s := s.popPeer d) held, if_pos upstream, ← ordered]
      exact (onPeer_eq waits (releaseUse d)).trans (congrArg Host.Outcome.next taken)
    · exact exec_abortFromUpstream waits found held out inPort
  have owed : (c.tornBy o .none).noticeOwed = some down := by
    rcases which with ⟨-, -, -, rfl, rfl, ⟨-, rfl, rfl⟩ | ⟨-, rfl, rfl⟩⟩ | ⟨r, -, -, -, rfl, rfl, rfl⟩ <;>
      simp [o, Context.noticeOwed, Context.tornBy, same]
  have way := (s.popPeer d).wayFor_eq_lostWay c (o := o) rfl
  have around := State.causeReaches_around held d o
  refine ⟨fun whole => ?_, fun td decided retreat open_ => ?_, fun torn stays => ?_⟩
  · rw [State.causeReaches_first (s := s.popPeer d) held whole] at run around
    refine ⟨_, run, State.decideTeardown_popPeer held d o way, fun none e x outPort serves => ?_, around⟩
    rw [outPort]
    exact (State.decideTeardown_sendsNotice (s := s.popPeer d) held (way.trans none) owed outPort
      ((State.servesDegree_popPeer s d e x).2 serves)).2 rfl
  · have torn : c.tornDown = true := by simp [Context.tornDown, decided]
    rw [State.causeReaches_second (s := s.popPeer d) held torn] at run around
    obtain ⟨c', after, turned, sameReason, sameOrigin, jumps⟩ :=
      State.secondCause_turns (s := s.popPeer d) held (o := o) rfl decided retreat open_
    exact ⟨_, c', run, after, turned, sameReason, sameOrigin, jumps, around⟩
  · rw [run, State.causeReaches_second (s := s.popPeer d) held torn,
      State.secondCause_stays (s := s.popPeer d) held o stays]

end Sys2Proof.Machine

/-! PROOFS. The end of an offer: DECLINE, an ACCEPT of a candidate not offered, and the offer timer
(R73, R74, R76). -/

namespace Sys2Proof.Machine

open Sys2Proof

section
variable {s t u v : State} {i : CtxIdx} {c : Context} {d : DegreeNo}

/-- A run of the engines leaves the neighbour that a degree serves. -/
theorem EngineRun.serves (run : EngineRun s t) (straps : t.straps = s.straps) (d : DegreeNo) (n : NodeId) :
    t.servesDegree d n ↔ s.servesDegree d n := by
  have identity : t.identityValid = s.identityValid := by
    unfold State.identityValid State.nodeId
    rw [straps]
  have nbr := congrArg DegreeState.nbrId (run.degree d)
  have nbr' : (t.degree d).nbrId = (s.degree d).nbrId := nbr
  rw [State.servesDegree, State.servesDegree, identity, run.adj d, nbr']

/-! ### The reason of an ended offer (R34) -/

/-- An offered context with the reason and the origin of its end. -/
def Context.declinedBy (c : Context) (r : Reason) (origin : NodeId) : Context :=
  { c with abortReason := some r, origin := some origin }

theorem Context.pathOutcome_declined_transit (offered : c.state = .offered) (role : c.role = .transit)
    (r : Reason) (origin : NodeId) : (c.declinedBy r origin).pathOutcome = none :=
  if_pos ⟨offered, role⟩

theorem Context.pathOutcome_declined_head (offered : c.state = .offered) (role : c.role = .head)
    (whole : c.teardown = none) (r : Reason) (origin : NodeId) :
    (c.declinedBy r origin).pathOutcome = some (.declined, some r, some origin) := by
  simp [Context.pathOutcome, Context.declinedBy, offered, role, whole]

/-! ### An offer that ends -/

/-- The end of an offer, as the part has it: the holds freed, DECLINE upstream, and the PathEnd record of
a head (R33, R34). -/
def offerEnded (s u t : State) (i : CtxIdx) (c : Context) (r : Reason) (origin : NodeId) : Prop :=
  contextFreed s t i c ∧
    (∀ e m, c.inPort = .degree e → s.servesDegree e m →
      sentAmong s t (portOf e) ⟨m, s.nodeId, e, .decline c.path r origin⟩) ∧
    ((s.port c.outPort).swapPending = false → onlyAround u t c.outPort i ∧
      (c.role = .transit → t.ring = s.ring) ∧
      (c.role = .head → c.teardown = none → t.ring = (s.report (.pathEnd ⟨c.path, .head, .declined,
        some r, some origin, c.startTag, s.timeBase, c.steps, c.backoffs, c.slowest, c.flags⟩)).ring))

/-- A message to a neighbour after an ending changes nothing of what it has freed. -/
theorem contextFreed_sends (freed : contextFreed s t i c) (p : PortNo) (fs : List OutFrame) :
    contextFreed s (t.sends p fs) i c := by
  obtain ⟨free, tag, map⟩ := freed
  obtain ⟨gs, port⟩ := t.port_sends p c.outPort fs
  exact ⟨free, tag, by rw [port]; exact map⟩

/-- The PathEnd record of an ended offer, written from its marked context. -/
theorem State.writePathEnd_declined (offered : c.state = .offered) (ring : v.ring = s.ring)
    (time : v.timeBase = s.timeBase) (r : Reason) (origin : NodeId) :
    (c.role = .transit → (v.writePathEnd (c.declinedBy r origin)).ring = s.ring) ∧
      (c.role = .head → c.teardown = none → (v.writePathEnd (c.declinedBy r origin)).ring =
        (s.report (.pathEnd ⟨c.path, .head, .declined, some r, some origin, c.startTag, s.timeBase, c.steps,
          c.backoffs, c.slowest, c.flags⟩)).ring) := by
  constructor
  · intro transit
    rw [State.writePathEnd, Context.pathOutcome_declined_transit offered transit]
    exact ring
  · intro head whole
    rw [State.writePathEnd_some (Context.pathOutcome_declined_head offered head whole r origin), time]
    have role : (c.declinedBy r origin).role = .head := head
    rw [role]
    exact State.report_ring_congr ring _

/-- An offer ended here with a reason of its own (R73, R76). -/
theorem State.endOffer_ended (held : u.ctx i = some c) (offered : c.state = .offered) (alike : s.Alike u)
    (freed : ∀ {t}, contextFreed u t i c → contextFreed s t i c) (out : c.outPort = portOf d) (r : Reason) :
    offerEnded s u (u.endOffer i r) i c r s.nodeId ∧
      ∀ n, s.servesDegree d n →
        sentAmong s (u.endOffer i r) (portOf d) ⟨n, s.nodeId, d, .abort c.path r s.nodeId⟩ := by
  set w := u.onCtx i fun c => c.declinedBy r u.nodeId with hw
  have nodes : (w.sendUpstream c (.decline c.path r u.nodeId)).nodeId = u.nodeId := by
    rw [State.nodeId, ((Keeps.refl w).sendUpstream c _).straps]; rfl
  have ended : u.endOffer i r =
      ((w.sendUpstream c (.decline c.path r u.nodeId)).sendDownstream c (.abort c.path r u.nodeId)).endFreed i := by
    have does : u.endOffer i r = ((w.sendUpstream c (.decline c.path r u.nodeId)).sendDownstream c
        (.abort c.path r (w.sendUpstream c (.decline c.path r u.nodeId)).nodeId)).endFreed i :=
      State.withCtx_some held _
    rw [does, nodes]
  have node : u.nodeId = s.nodeId := alike.nodeId
  obtain ⟨p, fs, up, -⟩ := w.sendUpstream_sends c (.decline c.path r u.nodeId)
  set x := w.sendUpstream c (.decline c.path r u.nodeId) with hx
  have down : ∃ q gs, x.sendDownstream c (.abort c.path r u.nodeId) = x.sends q gs := by
    rcases x.sendDownstream_eq c (.abort c.path r u.nodeId) with e | ⟨q, f, e⟩
    · exact ⟨0, [], e.trans (x.sends_nil _).symm⟩
    · exact ⟨q, [f], e⟩
  obtain ⟨q, gs, down⟩ := down
  set v := x.sendDownstream c (.abort c.path r u.nodeId) with hv
  have sent : v = (w.sends p fs).sends q gs := by rw [down, up]
  have marked : v.ctx i = some (c.declinedBy r u.nodeId) := by
    rw [sent]
    exact State.ctx_onCtx (s := u) held _
  have outs : ∀ c', v.ctx i = some c' → c'.outPort = c.outPort := fun c' held' => by
    have same := congrArg Context.outPort (Option.some.inj (held'.symm.trans marked))
    exact same
  have around : onlyAround u v c.outPort i :=
    (((onlyAround_refl u _ _).onCtx _).sendUpstream _ _).sendDownstream _ _
  have before : Keeps w v := ((Keeps.refl w).sendUpstream _ _).sendDownstream _ _
  have rest : Keeps v (v.endFreed i) := (Keeps.refl v).endFreed i
  rw [ended]
  refine ⟨⟨freed ?_, fun e m inPort serves => ?_, fun none => ?_⟩, fun n serves => ?_⟩
  · obtain ⟨free, tag, map⟩ := State.endFreed_freed marked
    obtain ⟨hs, port⟩ := (w.sends p fs).port_sends q c.outPort gs
    obtain ⟨hs', port'⟩ := w.port_sends p c.outPort fs
    have cells : (v.port c.outPort).map = (u.port c.outPort).map := by rw [sent, port, port']; rfl
    have tags : (v.record i).tag = (u.record i).tag := by
      rw [sent]
      exact u.tag_onCtx i i _
    exact ⟨free, by rw [tag, tags], fun k => by rw [← cells]; exact map k⟩
  · have first := State.sendUpstream_served (s := w) (.decline c.path r u.nodeId) inPort ((alike.serves e m).2 serves)
    have onUp : sentOn w x (portOf e) [.peer ⟨m, u.nodeId, e, .decline c.path r u.nodeId⟩] := by
      rw [hx, first]
      exact sentOn_sends w _ _
    have sent := sentFirst_of_sentOn onUp
      (((Keeps.refl x).sendDownstream c (.abort c.path r u.nodeId)).endFreed i)
    rw [← node]
    exact alike.sentAmong (sentAmong_of_sentFirst (s := u) (.refl u) sent)
  · have quiet : (v.port c.outPort).swapPending = false :=
      (onlyAround_swapPending around).trans ((alike.swapPending _).trans none)
    have freedRing := State.endFreed_ring marked quiet
    have ring : v.ring = s.ring := by rw [sent]; exact alike.ring
    obtain ⟨transit, head⟩ := State.writePathEnd_declined offered ring
      (before.timeBase.trans alike.timeBase) r u.nodeId
    rw [← freedRing] at transit head
    rw [← node]
    exact ⟨around.endFreed ((alike.swapPending _).trans none) outs, transit, head⟩
  · have serves' : x.servesDegree d n :=
      ((EngineRun.refl w).sendUpstream c _ |>.serves (((Keeps.refl w).sendUpstream c _).straps) d n).2
        ((alike.serves d n).2 serves)
    have first := State.sendDownstream_served (s := x) (.abort c.path r u.nodeId) out serves'
    have onDown : sentOn x v (portOf d) [.peer ⟨n, u.nodeId, d, .abort c.path r u.nodeId⟩] := by
      rw [hv, first, nodes]
      exact sentOn_sends x _ _
    have sent := sentAmong_of_sentFirst ((Keeps.refl w).sendUpstream c _) (sentFirst_of_sentOn onDown rest)
    rw [← node]
    exact alike.sentAmong (s := s) (u := u) sent

/-- A DECLINE taken from downstream (R74). -/
theorem State.declined_ended (held : s.ctx i = some c) (offered : c.state = .offered) (d : DegreeNo) (r : Reason)
    (origin : NodeId) :
    offerEnded s (s.popPeer d) ((((s.popPeer d).onCtx i fun c => c.declinedBy r origin).endFreed i).sendUpstream c
      (.decline c.path r origin)) i c r origin := by
  set u := s.popPeer d with hu
  have alike : s.Alike u := .popPeer s d
  set w := u.onCtx i fun c => c.declinedBy r origin with hw
  have marked : w.ctx i = some (c.declinedBy r origin) := State.ctx_onCtx (s := u) held _
  have outs : ∀ c', w.ctx i = some c' → c'.outPort = c.outPort := fun c' held' => by
    have same := congrArg Context.outPort (Option.some.inj (held'.symm.trans marked))
    exact same
  obtain ⟨p, fs, up, served⟩ := (w.endFreed i).sendUpstream_sends c (.decline c.path r origin)
  have keeps : Keeps w (w.endFreed i) := (Keeps.refl w).endFreed i
  have node : (w.endFreed i).nodeId = s.nodeId := by rw [State.nodeId, keeps.straps]; rfl
  have around : onlyAround u w c.outPort i := (onlyAround_refl u _ _).onCtx _
  refine ⟨?_, fun e m inPort serves => ?_, fun none => ⟨?_, ?_⟩⟩
  · rw [up]
    refine contextFreed_sends ?_ p fs
    obtain ⟨free, tag, map⟩ := State.endFreed_freed marked
    have tags : (w.record i).tag = (s.record i).tag := u.tag_onCtx i i _
    exact ⟨free, by rw [tag, tags], map⟩
  · have serves' : (w.endFreed i).servesDegree e m :=
      (((EngineRun.refl w).endFreed i).serves keeps.straps e m).2 ((alike.serves e m).2 serves)
    obtain ⟨rfl, rfl⟩ := served e m inPort serves'
    rw [up, node]
    obtain ⟨gs, out⟩ := keeps.out_prefix (portOf e)
    refine ⟨gs, [], (sentOn_sends (w.endFreed i) _ _).trans ?_⟩
    rw [out]
    rfl
  · exact (around.endFreed none outs).sendUpstream _ _
  · obtain ⟨transit, head⟩ := State.writePathEnd_declined (s := s) (v := w) offered rfl rfl r origin
    have ring := State.endFreed_ring marked none
    rw [up]
    exact ⟨fun role => ring.trans (transit role), fun role whole => ring.trans (head role whole)⟩

end

/-- Settles O32: each of the three events is the end of an offer. -/
theorem anOfferEndsWithItsHoldsFreed : Obligations.AnOfferEndsWithItsHoldsFreed := by
  intro s i c d running held offered out _ ended told
  have here : c.fromDownstream d && decide (c.state = .offered) := by simp [Context.fromDownstream, out, offered]
  refine ⟨fun deg dest n r origin waits found => ?_, fun deg dest n first cost waits found stranger => ?_,
    fun due armed => ⟨exec_contextTimer_early rfl running held armed, fun late => ?_⟩⟩
  · have found' : (s.popPeer d).lookup c.path = some i := found
    have taken : (s.popPeer d).takeDecline d c.path r origin =
        ((((s.popPeer d).onCtx i fun c => c.declinedBy r origin).endFreed i).sendUpstream c
          (.decline c.path r origin)) := by
      rw [State.takeDecline]
      simp only [found']
      exact (State.withCtx_some (s := s.popPeer d) held _).trans (if_pos here)
    exact ⟨_, (onPeer_eq waits (declineUse d)).trans (congrArg Host.Outcome.next taken),
      State.declined_ended held offered d r origin⟩
  · have found' : (s.popPeer d).lookup c.path = some i := found
    have none : ¬((c.candidates.getD []).any fun x => decide (x.s = first)) = true := by
      intro some
      obtain ⟨x, mem, same⟩ := List.any_eq_true.1 some
      exact stranger x mem (of_decide_eq_true same)
    have taken : (s.popPeer d).takeAccept d c.path first cost = (s.popPeer d).endOffer i .protocolError := by
      rw [State.takeAccept]
      simp only [found']
      exact (State.withCtx_some (s := s.popPeer d) held _).trans ((if_pos here).trans (if_neg none))
    exact ⟨_, (onPeer_eq waits (acceptUse d)).trans (congrArg Host.Outcome.next taken),
      State.endOffer_ended (u := s.popPeer d) held offered (.popPeer s d) id out .protocolError⟩
  · exact ⟨_, exec_contextTimer_due rfl running held armed late (decide_eq_true offered),
      State.endOffer_ended held offered (.refl s) id out .offerTimeout⟩

end Sys2Proof.Machine

/-! PROOFS. What a look for quiet inside the end of a step leaves: attenuations and settle times of every
context, and of every port all but its bank, its class queues and its frames (R19, R20, R119). -/

namespace Sys2Proof.Machine

open Sys2Proof

/-- The attenuation and the slowest settle of a context. -/
def Context.level (c : Context) : Option Nat × Nat := (c.att, c.slowest)

theorem Context.level_of_stepless {c c' : Context} (same : c'.stepless = c.stepless) : c'.level = c.level := by
  have e := congrArg Context.level same
  exact e

/-- No context has another attenuation or another slowest settle. -/
def levelsKept (s t : State) : Prop :=
  ∀ i c', t.ctx i = some c' → ∃ c, s.ctx i = some c ∧ c'.level = c.level

/-- A port without what a swap changes of it. -/
def PortState.slot (q : PortState) : PortState :=
  { q with active := .a, swapPending := false, restoreQ := [], normalQ := [], out := [] }

/-- What a look for quiet leaves that considers no grant. -/
structure LookFrame (s t : State) : Prop where
  levels : levelsKept s t
  slots : ∀ p, (t.port p).slot = (s.port p).slot

namespace levelsKept

variable {s t u : State}

theorem refl (s : State) : levelsKept s s := fun _ c' held => ⟨c', held, rfl⟩

theorem trans (h : levelsKept s t) (h' : levelsKept t u) : levelsKept s u := by
  intro i c'' held
  obtain ⟨c', held', same'⟩ := h' i c'' held
  obtain ⟨c, held, same⟩ := h i c' held'
  exact ⟨c, held, same'.trans same⟩

theorem of_ctx (h : levelsKept s t) (same : ∀ i, u.ctx i = t.ctx i) : levelsKept s u :=
  fun i c' held => h i c' ((same i).symm.trans held)

theorem onCtx (h : levelsKept s t) (i : CtxIdx) (f : Context → Context)
    (keeps : ∀ c, (f c).level = c.level) : levelsKept s (t.onCtx i f) := by
  intro j c' held
  by_cases e : j = i
  · subst e
    rw [State.ctx_onCtx_same, Option.map_eq_some_iff] at held
    obtain ⟨c, held, rfl⟩ := held
    obtain ⟨c0, held0, same⟩ := h j c held
    exact ⟨c0, held0, (keeps c).trans same⟩
  · exact h j c' ((State.ctx_onCtx_other _ _ e).symm.trans held)

theorem considerGrant (h : levelsKept s t) (p : PortNo) : levelsKept s (t.considerGrant p) := by
  obtain ⟨-, -, -, contexts, -⟩ := t.considerGrant_afterGrant p
  intro i c'' held
  have same := contexts i
  rw [held, Option.map_some, eq_comm, Option.map_eq_some_iff] at same
  obtain ⟨c', held', same⟩ := same
  obtain ⟨c, held, level⟩ := h i c' held'
  exact ⟨c, held, (Context.level_of_stepless same).symm.trans level⟩

theorem takeStep (h : levelsKept s t) (p : PortNo) : levelsKept s (t.takeStep p) := by
  cases holder : (t.port p).holder with
  | none => rw [State.takeStep, holder]; exact h
  | some i =>
    obtain ⟨frame, -⟩ := t.takeStep_frame p holder
    refine h.trans fun j c' held => ?_
    have same := frame.contexts j
    rw [held, Option.map_some, eq_comm, Option.map_eq_some_iff] at same
    obtain ⟨c, held, same⟩ := same
    exact ⟨c, held, (Context.level_of_stepless same).symm⟩

end levelsKept

namespace LookFrame

variable {s t : State}

theorem refl (s : State) : LookFrame s s := ⟨.refl s, fun _ => rfl⟩

theorem trans {u : State} (h : LookFrame s t) (h' : LookFrame t u) : LookFrame s u :=
  ⟨h.levels.trans h'.levels, fun p => (h'.slots p).trans (h.slots p)⟩

/-! ### The updates -/

theorem onCtx (h : LookFrame s t) (i : CtxIdx) (f : Context → Context)
    (keeps : ∀ c, (f c).level = c.level) : LookFrame s (t.onCtx i f) :=
  ⟨h.levels.onCtx i f keeps, h.slots⟩

theorem advanceTag (h : LookFrame s t) (i : CtxIdx) : LookFrame s (t.advanceTag i) :=
  ⟨h.levels.of_ctx fun j => by simp, h.slots⟩

theorem onPort (h : LookFrame s t) (p : PortNo) (f : PortState → PortState) (keeps : ∀ q, (f q).slot = q.slot) :
    LookFrame s (t.onPort p f) := by
  refine ⟨h.levels, fun q => ?_⟩
  by_cases e : q = p
  · subst e
    rw [State.port_onPort_same, keeps]
    exact h.slots q
  · rw [State.port_onPort_other _ _ e]
    exact h.slots q

theorem report (h : LookFrame s t) (r : RingRecord) : LookFrame s (t.report r) :=
  ⟨h.levels.of_ctx fun i => t.report_ctx r i, fun p => by rw [t.report_port]; exact h.slots p⟩

theorem withCtx (h : LookFrame s t) (i : CtxIdx) {f : Context → State}
    (hf : ∀ c, t.ctx i = some c → LookFrame s (f c)) : LookFrame s (t.withCtx i f) := by
  cases held : t.ctx i with
  | none => rwa [State.withCtx, held]
  | some c =>
    rw [State.withCtx_some held]
    exact hf c held

theorem ite {p : Prop} [Decidable p] {a b : State} (ha : LookFrame s a) (hb : LookFrame s b) :
    LookFrame s (if p then a else b) := by
  split <;> assumption

theorem foldl (h : LookFrame s t) (f : State → CtxIdx → State) (hf : ∀ u j, LookFrame s u → LookFrame s (f u j))
    (js : List CtxIdx) : LookFrame s (js.foldl f t) := by
  induction js generalizing t with
  | nil => exact h
  | cons j js ih => exact ih (hf t j h)

/-! ### Sending -/

theorem emit (h : LookFrame s t) (p : PortNo) (o : OutFrame) : LookFrame s (t.emit p o) :=
  h.onPort p _ fun _ => by rfl

theorem sendUpstream (h : LookFrame s t) (c : Context) (m : PeerMsg) : LookFrame s (t.sendUpstream c m) := by
  rcases t.sendUpstream_eq c m with e | ⟨p, f, e⟩
  · rwa [e]
  · rw [e]; exact h.emit p f

theorem sendDownstream (h : LookFrame s t) (c : Context) (m : PeerMsg) : LookFrame s (t.sendDownstream c m) := by
  rcases t.sendDownstream_eq c m with e | ⟨p, f, e⟩
  · rwa [e]
  · rw [e]; exact h.emit p f

theorem armCtx (h : LookFrame s t) (i : CtxIdx) (ms : Nat) : LookFrame s (t.armCtx i ms) :=
  h.onCtx i _ fun _ => by rfl

theorem sendRequest (h : LookFrame s t) (i : CtxIdx) (k : ReqKind) (att : Nat) :
    LookFrame s (t.sendRequest i k att) := by
  refine h.withCtx i fun c _ => ?_
  dsimp only
  split
  · exact h
  · exact emit (onCtx (h.advanceTag i) i _ fun _ => by rfl) _ _

/-! ### Lighting and teardown -/

theorem sendMeasure (h : LookFrame s t) (i : CtxIdx) (k : Nat) : LookFrame s (t.sendMeasure i k) :=
  armCtx (onCtx (h.sendRequest i _ _) i _ fun _ => by rfl) i _

theorem sendClose (h : LookFrame s t) (i : CtxIdx) : LookFrame s (t.sendClose i) :=
  h.withCtx i fun _ _ => armCtx (onCtx (h.sendRequest i _ _) i _ fun _ => by rfl) i _

theorem trimIfDue (h : LookFrame s t) (i : CtxIdx) : LookFrame s (t.trimIfDue i) :=
  h.withCtx i fun _ _ => ite (sendMeasure (h.onCtx i _ fun _ => by rfl) i _) h

theorem enterInService (h : LookFrame s t) (i : CtxIdx) : LookFrame s (t.enterInService i) :=
  h.withCtx i fun _ _ => trimIfDue (report (h.onCtx i _ fun _ => by rfl) _) i

theorem haltTrim (h : LookFrame s t) (i : CtxIdx) : LookFrame s (t.haltTrim i) :=
  h.withCtx i fun _ _ => trimIfDue (report (h.onCtx i _ fun _ => by rfl) _) i

theorem finishTrim (h : LookFrame s t) (i : CtxIdx) : LookFrame s (t.finishTrim i) :=
  h.withCtx i fun _ _ => trimIfDue (report (h.onCtx i _ fun _ => by rfl) _) i

theorem completeRamp (h : LookFrame s t) (i : CtxIdx) : LookFrame s (t.completeRamp i) := by
  refine h.withCtx i fun c _ => ?_
  have kindless : LookFrame s (t.onCtx i fun c => { c with kind := none }) := h.onCtx i _ fun _ => by rfl
  dsimp only
  split
  · exact (kindless.enterInService i).sendUpstream _ _
  · exact sendDownstream (armCtx (kindless.onCtx i _ fun _ => by rfl) i _) _ _
  · exact sendDownstream (armCtx (kindless.onCtx i _ fun _ => by rfl) i _) _ _

theorem chooseBase (h : LookFrame s t) (i : CtxIdx) : LookFrame s (t.chooseBase i) :=
  h.withCtx i fun _ _ => ite (h.onCtx i _ fun _ => by rfl) h

theorem recordTeardown (h : LookFrame s t) (i : CtxIdx) (c : Context) (o : TeardownOrder) (w : Way) :
    LookFrame s (t.recordTeardown i c o w) := by
  have recorded : LookFrame s (t.onCtx i fun c => c.tornBy o w) := h.onCtx i _ fun _ => by rfl
  unfold State.recordTeardown
  dsimp only
  split
  · exact ite (recorded.sendUpstream _ _) (recorded.sendUpstream _ _)
  · exact recorded

theorem abortPreparing (h : LookFrame s t) (i : CtxIdx) (r : Reason) : LookFrame s (t.abortPreparing i r) :=
  h.withCtx i fun _ _ => sendClose (ite ((h.recordTeardown i _ _ _).chooseBase i) (h.recordTeardown i _ _ _)) i

/-! ### A swap (R20) -/

theorem join (h : LookFrame s t) (p : PortNo) (i : CtxIdx) (k : PathClass) :
    LookFrame s (t.join p (classQueue k) i false) :=
  h.onPort p _ fun _ => by cases k <;> rfl

theorem prepareTarget (h : LookFrame s t) (i : CtxIdx) : LookFrame s (t.prepareTarget i false) := by
  refine h.withCtx i fun c _ => ?_
  have target (x : Nat) (short : Bool) : LookFrame s (t.writeTarget i x short) :=
    h.withCtx i fun _ _ => h.onCtx i _ fun _ => by rfl
  split
  · exact h.abortPreparing i _
  · exact h.abortPreparing i _
  · exact ite ((target _ _).completeRamp i) (join ((target _ _).onCtx i _ fun _ => by rfl) _ _ _)

theorem resumeWaiting (h : LookFrame s t) (p : PortNo) (i : CtxIdx) :
    LookFrame s (State.resumeWaiting false p t i) :=
  h.withCtx i fun _ _ => ite (h.prepareTarget i) h

theorem markTrimDue (h : LookFrame s t) (p : PortNo) (i : CtxIdx) : LookFrame s (State.markTrimDue p t i) :=
  h.withCtx i fun _ _ => ite (trimIfDue (h.onCtx i _ fun _ => by rfl) i) h

theorem swapNow (h : LookFrame s t) (p : PortNo) : LookFrame s (t.swapNow p false) :=
  report (foldl (foldl (h.onPort p _ fun _ => by rfl) _ (fun _ i h => h.resumeWaiting p i) _) _
    (fun _ i h => h.markTrimDue p i) _) _

theorem lookForQuiet (h : LookFrame s t) (p : PortNo) : LookFrame s (t.lookForQuiet p false) :=
  ite (h.swapNow p) h

end LookFrame

end Sys2Proof.Machine

/-! PROOFS. The end of a measurement attempt: the way of a teardown, another MEASURE, an abort, or the
halt of a trim (R93, R150, R159). -/

namespace Sys2Proof.Machine

open Sys2Proof

section
variable {s t u : State} {p : PortNo} {i : CtxIdx} {c : Context} {tag : Byte}

/-! ### The state in which a report or an expiry is dealt with -/

/-- `u` is `s` but for the report that has left the queue of port `p`, if one has (R83). -/
structure State.Takes (s u : State) (p : PortNo) : Prop where
  outside : { u with ports := s.ports } = s
  others : ∀ q, q ≠ p → u.port q = s.port q
  port : { u.port p with reports := (s.port p).reports } = s.port p
  alike : s.Alike u

theorem State.Takes.refl (s : State) (p : PortNo) : s.Takes s p := ⟨rfl, fun _ _ => rfl, rfl, .refl s⟩

theorem State.Takes.popReport (s : State) (p : PortNo) : s.Takes (s.popReport p) p :=
  ⟨rfl, fun _ other => State.port_onPort_other _ _ other, by rw [State.popReport_port], .popReport s p⟩

/-- A port that has lost a report at most is read alike. -/
theorem State.Takes.read {α : Type} (h : s.Takes u p) (f : PortState → α)
    (blind : ∀ q rs, f { q with reports := rs } = f q) : f (u.port p) = f (s.port p) := by
  rw [← h.port]
  exact (blind _ _).symm

/-! ### The halt of a trim (R150) -/

theorem State.sendMeasure_ring (s : State) (i : CtxIdx) (k : Nat) : (s.sendMeasure i k).ring = s.ring :=
  s.sendRequest_ring i _ _

theorem State.trimIfDue_ring (s : State) (i : CtxIdx) : (s.trimIfDue i).ring = s.ring := by
  unfold State.trimIfDue State.withCtx
  split
  · dsimp only
    split
    · exact State.sendMeasure_ring _ i 1
    · rfl
  · rfl

/-- A context that enters IN_SERVICE trims at once when it is TrimDue and no swap is pending (R147). -/
theorem State.trimIfDue_serves (held : s.ctx i = some c) (service : c.state = .inService)
    (none : (s.port c.outPort).swapPending = false) (c' : Context) (after : (s.trimIfDue i).ctx i = some c') :
    c'.state = if c.flags.trimDue then .trimming else .inService := by
  rw [State.trimIfDue, State.withCtx_some held] at after
  cases due : c.flags.trimDue with
  | true =>
    rw [if_pos (by simp [service, due, none])] at after
    obtain ⟨k, timer, measured⟩ := State.sendMeasure_ctx (State.ctx_onCtx held fun c =>
      { c with state := .trimming, kind := .none, flags := { c.flags with trimDue := false } }) 1
    cases Option.some.inj (measured.symm.trans after)
    rfl
  | false =>
    rw [if_neg (by simp [due])] at after
    cases Option.some.inj (held.symm.trans after)
    exact service

/-- The context of a halted trim. -/
def Context.haltedTrim (c : Context) : Context :=
  { c with state := .inService, kind := none, timer := none, outstanding := none,
           flags := { c.flags with trimHalted := true } }

theorem State.haltTrim_eq (held : s.ctx i = some c) : s.haltTrim i =
    ((s.onCtx i Context.haltedTrim).report
      (.trim c.path false (c.att.getD 0) { c.flags with trimHalted := true })).trimIfDue i :=
  State.withCtx_some held _

theorem State.haltTrim_ctx (held : s.ctx i = some c) :
    ∃ c', (s.haltTrim i).ctx i = some c' ∧ c'.rests ∧ c.haltedTrim.SameCause c' ∧
      ((s.port c.outPort).swapPending = false →
        c'.state = if c.flags.trimDue then .trimming else .inService) := by
  rw [State.haltTrim_eq held]
  set v := (s.onCtx i Context.haltedTrim).report
    (.trim c.path false (c.att.getD 0) { c.flags with trimHalted := true }) with hv
  have halted : v.ctx i = some c.haltedTrim := (State.report_ctx _ _ i).trans (State.ctx_onCtx held _)
  obtain ⟨c', after, same, rested⟩ := State.trimIfDue_sameCause halted
  refine ⟨c', after, rested ⟨.inl rfl, rfl⟩, same, fun none => ?_⟩
  exact State.trimIfDue_serves halted rfl (by rw [hv, State.report_port]; exact none) c' after

theorem State.haltTrim_ring (held : s.ctx i = some c) : (s.haltTrim i).ring =
    (s.report (.trim c.path false (c.att.getD 0) { c.flags with trimHalted := true })).ring := by
  rw [State.haltTrim_eq held, State.trimIfDue_ring]
  exact State.report_ring_congr (s := s) (t := s.onCtx i Context.haltedTrim) rfl _

/-- A trim has halted in `u`, and what has followed was about other contexts; with no swap pending it has
written no more. -/
theorem trimHalts_of {c0 : Context} {a : Nat} (held : u.ctx i = some c0) (alike : s.Alike u) (path : c0.path = c.path)
    (flags : c0.flags = c.flags) (torn : c0.teardown = c.teardown) (out : c0.outPort = p) (att : c0.att = some a)
    (rest : ∀ x, (u.haltTrim i).ctx i = some x → x.rests → ∃ y, t.ctx i = some y ∧ y.rests ∧ x.SameCause y)
    (stands : (s.port p).swapPending = false →
      (t.ctx i).map Context.stepless = ((u.haltTrim i).ctx i).map Context.stepless ∧
      ((s.port p).params.haltOnDisturbance = false → t.ring = (u.haltTrim i).ring)) :
    trimHalts s t p i c a := by
  subst out
  obtain ⟨c1, halted, rests, cause, state⟩ := State.haltTrim_ctx held
  obtain ⟨c', after, rests', cause'⟩ := rest c1 halted rests
  have lasts := cause.trans cause'
  refine ⟨c', after, ?_, lasts.halted, rests'.2, lasts.teardown.trans torn, fun none => ?_⟩
  · exact lasts.att.trans att
  · obtain ⟨steps, ring⟩ := stands none
    have quiet : (u.port c0.outPort).swapPending = false := (alike.swapPending _).trans none
    have stepped : c'.state = c1.state := by
      rw [after, halted] at steps
      have e := congrArg Context.state (Option.some.inj steps)
      exact e
    refine ⟨by rw [stepped, state quiet, flags], fun unfrozen => ?_⟩
    rw [ring unfrozen, State.haltTrim_ring held, flags, path, att]
    exact State.report_ring_congr alike.ring _

/-- A trim halts outside a step: the look that follows is for a swap (R19). -/
theorem State.haltTrim_lookAfter {c0 : Context} {a : Nat} (held : u.ctx i = some c0) (alike : s.Alike u)
    (path : c0.path = c.path) (flags : c0.flags = c.flags) (torn : c0.teardown = c.teardown)
    (out : c0.outPort = p) (att : c0.att = some a) : trimHalts s ((u.haltTrim i).lookAfter c0) p i c a := by
  refine trimHalts_of held alike path flags torn out att ((Aside.refl i _).lookAfter c0).rests fun none => ?_
  have around : onlyAround u (u.haltTrim i) p i := (onlyAround_refl u p i).haltTrim
  rw [State.lookAfter_of_none (by
    rw [out]; exact (onlyAround_swapPending around).trans ((alike.swapPending p).trans none))]
  exact ⟨rfl, fun _ => rfl⟩

/-! ### A teardown that waited (R159) -/

/-- The recorded way is carried out once the measurement has ended (R159). -/
theorem State.afterMeasure_carries (held : s.ctx i = some c) {td : Teardown} (decided : c.teardown = some td) :
    ∃ c', (s.afterMeasure i).ctx i = some c' ∧ c.SameCause c' ∧
      (td.way = .retreat → retreats s (s.afterMeasure i) i c c') ∧ (td.way = .darkJump → jumpsDark c c') := by
  have torn : c.teardown.isSome := by simp [decided]
  rw [State.afterMeasure, State.withCtx_some held]
  simp only [decided, Option.map_some]
  cases way : td.way with
  | none => exact ⟨c, held, .refl c, nofun, nofun⟩
  | retreat =>
    obtain ⟨c', after, same, fate⟩ := State.startRetreat_retreats held
    exact ⟨c', after, same, fun _ => fate, nofun⟩
  | darkJump =>
    obtain ⟨c', after, same, fate⟩ := State.startDarkJump_jumpsDark held torn
    exact ⟨c', after, same, nofun, fun _ => fate⟩

/-! ### An abort in PREPARING (R155, R157, R158) -/

theorem State.abortPreparing_ctx (held : s.ctx i = some c) (open_ : c.rangeOpen = true) (r : Reason) :
    ∃ c', (s.abortPreparing i r).ctx i = some c' ∧ c'.state = .closing ∧
      (c.chosen.isSome → c'.outstanding = some .close) ∧ c'.abortReason = some r ∧ c'.origin = some s.nodeId ∧
      c'.teardown = some ⟨.localAbort, if (s.port c.outPort).lineIsUp then .retreat else .darkJump, .abort⟩ := by
  set o := s.localAbort r with ho
  have way : s.wayFor c o = if (s.port c.outPort).lineIsUp then .retreat else .darkJump := by
    rw [s.wayFor_eq_localWay c rfl, State.localWay, if_neg (by simp [open_])]
  have does : s.abortPreparing i r = (if s.wayFor c o = .retreat then
      (s.recordTeardown i c o (s.wayFor c o)).chooseBase i else s.recordTeardown i c o (s.wayFor c o)).sendClose i :=
    State.withCtx_some held _
  obtain ⟨recorded, -, -⟩ := State.recordTeardown_recorded held o (s.wayFor c o)
  rw [does, ← way]
  split
  · obtain ⟨b, size, n, based⟩ := State.chooseBase_ctx recorded
    obtain ⟨k, timer, closed, close⟩ := State.sendClose_ctx based
    exact ⟨_, closed, rfl, close, rfl, rfl, rfl⟩
  · obtain ⟨k, timer, closed, close⟩ := State.sendClose_ctx recorded
    exact ⟨_, closed, rfl, close, rfl, rfl, rfl⟩

/-! ### The end of an attempt (R93) -/

/-- The context whose attempt has ended. -/
def Context.answered (c : Context) : Context := { c with outstanding := none, timer := none }

theorem State.attemptEnded_torn (held : s.ctx i = some c) {td : Teardown} (decided : c.teardown = some td) :
    s.attemptEnded i = (s.onCtx i Context.answered).afterMeasure i := by
  rw [State.attemptEnded, State.withCtx_some held, if_pos (by simp [decided])]
  rfl

theorem State.attemptEnded_whole (held : s.ctx i = some c) (whole : c.teardown = none) :
    s.attemptEnded i = s.spendAttempt i := by
  rw [State.attemptEnded, State.withCtx_some held, if_neg (by simp [whole])]

/-- Another MEASURE while attempts are left (R93). -/
theorem State.spendAttempt_left (held : s.ctx i = some c) (left : c.attempts < s.part.measureAttempts) :
    s.spendAttempt i = s.sendMeasure i (c.attempts + 1) := by
  rw [State.spendAttempt, State.withCtx_some held, if_pos left]

theorem State.spendAttempt_preparing (held : s.ctx i = some c) (spent : s.part.measureAttempts ≤ c.attempts)
    (state : c.state = .preparing) :
    s.spendAttempt i = (s.onCtx i Context.answered).abortPreparing i .noInputPower := by
  rw [State.spendAttempt, State.withCtx_some held, if_neg (Nat.not_lt.2 spent)]
  exact if_pos state

theorem State.spendAttempt_trimming (held : s.ctx i = some c) (spent : s.part.measureAttempts ≤ c.attempts)
    (state : c.state = .trimming) :
    s.spendAttempt i = ((s.onCtx i Context.answered).haltTrim i).lookAfter c.answered := by
  rw [State.spendAttempt, State.withCtx_some held, if_neg (Nat.not_lt.2 spent)]
  exact (if_neg (by simp [state])).trans (if_pos state)

/-- What the end of an attempt without a valid P does, by the teardown, the attempts left and the state
(R93, R159). -/
def attemptSpent (s u t : State) (p : PortNo) (i : CtxIdx) (tag : Byte) (c : Context) (first a : Nat) : Prop :=
  (∀ td, c.teardown = some td → ∃ c', t.ctx i = some c' ∧ c'.teardown = some td ∧
    (td.way = .retreat → retreats u t i c.answered c') ∧ (td.way = .darkJump → jumpsDark c.answered c')) ∧
  (c.teardown = none → c.attempts < s.part.measureAttempts →
    t.record i = ⟨tag + 1, some { c with
      attempts := c.attempts + 1, timer := some (s.elapsed + s.part.measureTimeout) }⟩ ∧
    sameOtherRecords s t i ∧ requestSent s t p i ⟨.measure, i, tag + 1, first, c.width, 0⟩ ∧
    samePortButOut (u.port p) (t.port p) ∧ sameOtherPorts s t p ∧
    { t with records := s.records, ports := s.ports } = s) ∧
  (c.teardown = none → s.part.measureAttempts ≤ c.attempts →
    (c.state = .preparing → ∃ c', t.ctx i = some c' ∧ c'.state = .closing ∧ c'.outstanding = some .close ∧
      c'.abortReason = some .noInputPower ∧ c'.origin = some s.nodeId ∧
      c'.teardown = some ⟨.localAbort, if (s.port p).lineIsUp then .retreat else .darkJump, .abort⟩ ∧
      onlyAround u t p i) ∧
    (c.state = .trimming → trimHalts s t p i c a))

theorem State.attemptEnded_spent (takes : s.Takes u p) (asked : u.asked p i tag c .measure) {first a : Nat}
    (chosen : c.chosen = some first) (att : c.att = some a) :
    attemptSpent s u (u.attemptEnded i) p i tag c first a := by
  obtain ⟨held, out, tags, outstanding⟩ := asked
  have part : u.part = s.part := by have e := congrArg State.part takes.outside; exact e
  have elapsed : u.elapsed = s.elapsed := by have e := congrArg State.elapsed takes.outside; exact e
  have records : u.records = s.records := by have e := congrArg State.records takes.outside; exact e
  have line := takes.read PortState.lineIsUp fun _ _ => rfl
  have answered : (u.onCtx i Context.answered).ctx i = some c.answered := State.ctx_onCtx held _
  refine ⟨fun td decided => ?_, fun whole left => ?_, fun whole spent => ⟨fun state => ?_, fun state => ?_⟩⟩
  · rw [State.attemptEnded_torn held decided]
    obtain ⟨c', after, same, retreat, jump⟩ := State.afterMeasure_carries answered (td := td) decided
    exact ⟨c', after, same.teardown.trans decided, retreat, jump⟩
  · have again : u.attemptEnded i = (u.setRecord i ⟨tag + 1, some { c with
        attempts := c.attempts + 1, timer := some (s.elapsed + s.part.measureTimeout) }⟩).emit p
        (.request ⟨.measure, i, tag + 1, first, c.width, 0⟩) := by
      rw [State.attemptEnded_whole held whole, State.spendAttempt_left held (by rw [part]; exact left)]
      conv_lhs => rw [← State.setRecord_self held]
      rw [State.sendMeasure_setRecord u chosen, tags, out, elapsed, part, ← outstanding]
    rw [again]
    set r : Record := ⟨tag + 1, some { c with
      attempts := c.attempts + 1, timer := some (s.elapsed + s.part.measureTimeout) }⟩ with hr
    have mine : (u.setRecord i r).record i = r := State.record_setRecord u i r
    have tag' : (s.record i).tag = tag := by
      rw [State.record, ← records]; exact tags
    refine ⟨mine, fun j other => ?_, ⟨rfl, by rw [tag'], ?_, ?_⟩, samePortButOut_emit (u.setRecord i r) _ _,
      fun q other => ?_, ?_⟩
    · have kept : s.record j = u.record j := by rw [State.record, State.record, records]
      rw [kept]
      exact sameOtherRecords_setRecord u i r j other
    · rw [tag']; exact congrArg Record.tag mine
    · have sent := sentOn_emit (u.setRecord i r) p (.request ⟨.measure, i, tag + 1, first, c.width, 0⟩)
      exact sent.trans (congrArg (· ++ _) (takes.alike.out p))
    · exact (State.port_onPort_other _ _ other).trans (takes.others q other)
    · have frame := congrArg (fun x : State => { x with records := s.records }) takes.outside
      exact frame
  · rw [State.attemptEnded_whole held whole, State.spendAttempt_preparing held (by rw [part]; exact spent) state]
    have open_ : c.answered.rangeOpen = true := by simp [Context.rangeOpen, Context.answered, state, att]
    obtain ⟨c', after, closing, close, reason, origin, torn⟩ :=
      State.abortPreparing_ctx answered open_ .noInputPower
    refine ⟨c', after, closing, close (by simp [Context.answered, chosen]), reason, ?_, ?_,
      ((onlyAround_refl u p i).onCtx _).abortPreparing _⟩
    · rw [origin, ← takes.alike.nodeId]
      rfl
    · rw [torn, ← line, ← out]
      rfl
  · rw [State.attemptEnded_whole held whole, State.spendAttempt_trimming held (by rw [part]; exact spent) state]
    exact State.haltTrim_lookAfter answered (takes.alike.onCtx i _) rfl rfl rfl out att

/-- A POWER taken for the measurement that its context waits for (R89, R92). -/
theorem exec_power {x : Int} (waits : s.reportWaits p (.power i tag x)) (asked : s.asked p i tag c .measure) :
    exec (.power p) s = .next ((s.popReport p).powerFor i x) := by
  have run : exec (.power p) s = .next ((s.popReport p).ifMatched p i tag (fun c => c.awaits .measure) fun _ =>
      (s.popReport p).powerFor i x) := onReport_eq (row := powerRow p) waits rfl
  rw [run, State.ifMatched_asked (State.asked_popReport asked p) (by
    obtain ⟨-, -, -, outstanding⟩ := asked
    simp [Context.awaits, outstanding])]

theorem valid_clampPower (x : Int) : -3000 ≤ clampPower x ↔ -3000 ≤ x := by
  unfold clampPower
  omega

theorem clampPower_valid {x : Int} (valid : -3000 ≤ x) : clampPower x = min x 1000 := by
  unfold clampPower
  omega

/-- The context with the corrected P (R92). -/
def Context.measuredAs (c : Context) (x : Int) : Context :=
  { c with power := some x, outstanding := none, timer := none }

theorem State.powerFor_valid (held : s.ctx i = some c) {x : Int} (valid : -3000 ≤ x) : s.powerFor i x =
    if c.teardown.isSome then (s.onCtx i fun c => c.measuredAs (min x 1000)).afterMeasure i
    else (s.onCtx i fun c => c.measuredAs (min x 1000)).useMeasurement i := by
  rw [State.powerFor, State.withCtx_some held, if_pos ((valid_clampPower x).2 valid), clampPower_valid valid]
  rfl

theorem State.powerFor_low (held : s.ctx i = some c) {x : Int} (low : x < -3000) :
    s.powerFor i x = s.attemptEnded i := by
  rw [State.powerFor, State.withCtx_some held, if_neg fun valid => by
    have := (valid_clampPower x).1 valid
    omega]

end

/-- Settles O47: a low POWER and a run-out timer end the attempt, and a valid POWER under a teardown ends
the wait. -/
theorem measurementAttemptsAreSpent : Obligations.MeasurementAttemptsAreSpent := by
  intro s p i tag c first a running asked chosen att c1 spent
  have spends {row : Instr} {u : State} (takes : s.Takes u p) (asked' : u.asked p i tag c .measure)
      (run : exec row s = .next (u.attemptEnded i)) : spent row u := by
    obtain ⟨torn, left, none⟩ := State.attemptEnded_spent takes asked' chosen att
    refine ⟨fun td decided => ?_, fun whole more => ⟨_, run, left whole more⟩, fun whole no =>
      ⟨fun state => ?_, fun state => ⟨_, run, (none whole no).2 state⟩⟩⟩
    · obtain ⟨c', after, fate⟩ := torn td decided
      exact ⟨_, c', run, after, fate⟩
    · obtain ⟨c', after, fate⟩ := (none whole no).1 state
      exact ⟨_, c', run, after, fate⟩
  have ⟨held, _, _, outstanding⟩ := asked
  refine ⟨fun x waits low => ?_, ?_, fun due armed late => ?_⟩
  · refine spends (.popReport s p) (State.asked_popReport asked p) ((exec_power waits asked).trans ?_)
    rw [State.powerFor_low (s := s.popReport p) held low]
  · intro x td waits valid decided c2
    have run := exec_power waits asked
    rw [State.powerFor_valid (s := s.popReport p) held valid, if_pos (by simp [decided])] at run
    obtain ⟨c', after, same, retreat, jump⟩ := State.afterMeasure_carries
      (State.ctx_onCtx (s := s.popReport p) held fun c => c.measuredAs (min x 1000)) (td := td) decided
    exact ⟨_, c', run, after, same.teardown.trans decided, same.power, retreat, jump⟩
  · refine spends (.refl s p) asked ?_
    exact exec_contextTimer_due (row := .measureTimeout i) (here := fun c => c.awaits .measure) rfl running held armed
      late (decide_eq_true outstanding)

end Sys2Proof.Machine

/-! PROOFS. A valid POWER: the target of a preparation and of a trim (R139 to R142, R148, R149). -/

namespace Sys2Proof.Machine

open Sys2Proof

section
variable {s t u v : State} {p : PortNo} {i : CtxIdx} {c : Context} {tag : Byte}

/-! ### The base step and the target (R101, R104) -/

theorem baseStep_eq (s : State) (i : CtxIdx) (p : PortNo) :
    s.baseStep i p = baseFor (s.port p).params (liveCount (s.port p).map i) := by
  unfold State.baseStep baseOfCode baseFor stepCode
  dsimp only
  rw [Nat.mul_comm]
  split <;> simp_all

/-- The context with its target computed, B, S and the clean count (R101, R102). -/
def Context.aimed (c : Context) (g : Nat) (short : Bool) (b : Nat) : Context :=
  { c with target := some g, flags := { c.flags with shortPower := short }, base := some b, stepSize := some b,
           clean := 0 }

theorem State.writeTarget_setRecord (s : State) (i : CtxIdx) (tag : Byte) (c : Context) (g : Nat) (short : Bool) :
    (s.setRecord i ⟨tag, some c⟩).writeTarget i g short =
      s.setRecord i ⟨tag, some (c.aimed g short (s.baseStep i c.outPort))⟩ :=
  (State.withCtx_some (State.ctx_setRecord _ _ _) _).trans (s.onCtx_setRecord i _ _ _)

/-! ### The end of a ramp (R142) -/

/-- A ramp complete at a head or a transit: LIT_WAIT, and LIGHT downstream. -/
theorem State.completeRamp_onward (s : State) (i : CtxIdx) (tag : Byte) (onward : c.role ≠ .tail) :
    (s.setRecord i ⟨tag, some c⟩).completeRamp i =
      (s.setRecord i ⟨tag, some { c with
        kind := none, state := .litWait,
        timer := some (s.elapsed + s.part.litHop * c.remaining.getD 0) }⟩).sendDownstream c (.light c.path) := by
  rw [State.completeRamp, State.withCtx_some (State.ctx_setRecord _ _ _)]
  dsimp only
  rw [State.onCtx_setRecord]
  have waits : ((s.setRecord i ⟨tag, some { c with kind := none }⟩).onCtx i fun c =>
      { c with state := .litWait }).armCtx i (s.part.litHop * c.remaining.getD 0) =
        s.setRecord i ⟨tag, some { c with
          kind := none, state := .litWait, timer := some (s.elapsed + s.part.litHop * c.remaining.getD 0) }⟩ := by
    rw [State.onCtx_setRecord]
    exact s.onCtx_setRecord i _ _ _
  rw [← waits]
  cases role : c.role with
  | tail => exact absurd role onward
  | head => rfl
  | transit => rfl

theorem State.sends_swapPending (s : State) (p q : PortNo) (fs : List OutFrame) :
    ((s.sends p fs).port q).swapPending = (s.port q).swapPending := by
  obtain ⟨gs, port⟩ := s.port_sends p q fs
  rw [port]

/-- What the entry of a tail's context into service, at attenuation `a`, makes of the part (R145). -/
structure State.ComesToServe (s v : State) (i : CtxIdx) (c : Context) (a : Nat) : Prop where
  ctx : ∃ c', v.ctx i = some c' ∧ c'.kind = none ∧ c'.att = some a ∧ c'.target = c.target ∧
    c'.serviceTag = some s.timeBase ∧ (c.flags.trimDue = false → c'.state = .inService)
  ring : v.ring = (s.report (.inService c.path .tail s.timeBase a c.flags)).ring
  out : c.flags.trimDue = false → ∀ q, (v.port q).out = (s.port q).out
  swapPending : ∀ q, (v.port q).swapPending = (s.port q).swapPending
  straps : v.straps = s.straps
  degree : ∀ d, v.degree d = s.degree d

/-- A ramp complete at a tail: IN_SERVICE with its record, and LIT upstream. -/
theorem State.completeRamp_tail {a first : Nat} (s : State) (i : CtxIdx) (tag : Byte) (role : c.role = .tail)
    (att : c.att = some a) (chosen : c.chosen = some first) :
    ∃ v : State, (s.setRecord i ⟨tag, some c⟩).completeRamp i = v.sendUpstream c (.lit c.path) ∧
      s.ComesToServe v i c a := by
  set w := s.setRecord i ⟨tag, some { c with kind := none }⟩ with hw
  have does : (s.setRecord i ⟨tag, some c⟩).completeRamp i = (w.enterInService i).sendUpstream c (.lit c.path) := by
    rw [State.completeRamp, State.withCtx_some (State.ctx_setRecord _ _ _)]
    dsimp only
    rw [State.onCtx_setRecord]
    split
    next => rfl
    next head => exact nomatch role.symm.trans head
    next transit => exact nomatch role.symm.trans transit
  have entered := State.enterInService_eq (s := w) (c := { c with kind := none }) (State.ctx_setRecord _ _ _) att
    chosen
  set x := RingRecord.inService c.path c.role w.timeBase a c.flags with hx
  have frame := w.report_frame x
  refine ⟨_, does, ?_, ?_, fun undue q => ?_, fun q => ?_, ?_, fun d => ?_⟩
  · rw [entered]
    set r := (if w.trimsAtOnce { c with kind := none } then _ else _ : Record) with hr
    have mine (fs : List OutFrame) : (((w.report x).setRecord i r).sends c.outPort fs).ctx i = r.ctx :=
      State.ctx_setRecord (w.report x) i r
    rw [mine, hr]
    split
    next trims =>
      refine ⟨_, rfl, rfl, att, rfl, rfl, fun undue => ?_⟩
      simp [State.trimsAtOnce, undue] at trims
    next => exact ⟨_, rfl, rfl, att, rfl, rfl, fun _ => rfl⟩
  · rw [entered]
    have ring : (w.report x).ring = (s.report (.inService c.path .tail s.timeBase a c.flags)).ring := by
      rw [hx, role]
      exact State.report_ring_congr (s := s) (t := w) rfl _
    exact ring
  · have stays : w.trimsAtOnce { c with kind := none } = false := by simp [State.trimsAtOnce, undue]
    rw [entered, stays]
    simp only [Bool.false_eq_true, if_false]
    rw [State.sends_nil]
    exact congrArg PortState.out (w.report_port x q)
  · rw [entered, State.sends_swapPending]
    exact congrArg PortState.swapPending (w.report_port x q)
  · rw [entered]
    have e := congrArg State.straps frame
    exact e
  · rw [entered]
    exact w.report_degree x d

/-! ### A target in PREPARING (R139 to R141) -/

/-- The tail of a class queue. -/
def PortState.joined (q : PortState) (k : PathClass) (i : CtxIdx) : PortState :=
  if k = .restore then { q with restoreQ := q.restoreQ ++ [i] } else { q with normalQ := q.normalQ ++ [i] }

theorem State.join_class (s : State) (p : PortNo) (k : PathClass) (i : CtxIdx) :
    s.join p (classQueue k) i true = (s.onPort p fun q => q.joined k i).considerGrant p := by
  cases k <;> rfl

theorem State.useMeasurement_preparing (state : c.state = .preparing) (s : State) (i : CtxIdx) (tag : Byte) :
    (s.setRecord i ⟨tag, some c⟩).useMeasurement i =
      if (s.port c.outPort).swapPending then s.setRecord i ⟨tag, some c⟩
      else (s.setRecord i ⟨tag, some c⟩).prepareTarget i true := by
  rw [State.useMeasurement, State.withCtx_some (State.ctx_setRecord _ _ _), if_pos state]
  rfl

theorem State.prepareTarget_fails (s : State) (i : CtxIdx) (tag : Byte) (g : Bool) :
    (s.targetFor c = .noGain → (s.setRecord i ⟨tag, some c⟩).prepareTarget i g =
      (s.setRecord i ⟨tag, some c⟩).abortPreparing i .noGain) ∧
    (s.targetFor c = .inputTooHigh → (s.setRecord i ⟨tag, some c⟩).prepareTarget i g =
      (s.setRecord i ⟨tag, some c⟩).abortPreparing i .inputTooHigh) := by
  have same : (s.setRecord i ⟨tag, some c⟩).targetFor c = s.targetFor c := rfl
  rw [State.prepareTarget, State.withCtx_some (State.ctx_setRecord _ _ _), same]
  refine ⟨fun fails => ?_, fun fails => ?_⟩ <;> simp only [fails]

theorem State.prepareTarget_reached {x : Nat} {short : Bool} (s : State) (i : CtxIdx) (tag : Byte) (g : Bool)
    (reached : s.targetFor c = .reached x short) :
    (s.setRecord i ⟨tag, some c⟩).prepareTarget i g =
      if x = Config.dark then
        (s.setRecord i ⟨tag, some (c.aimed x short (s.baseStep i c.outPort))⟩).completeRamp i
      else (s.setRecord i ⟨tag, some { c.aimed x short (s.baseStep i c.outPort) with
        state := .ramping, kind := some .ramp }⟩).join c.outPort (classQueue c.cls) i g := by
  have same : (s.setRecord i ⟨tag, some c⟩).targetFor c = s.targetFor c := rfl
  rw [State.prepareTarget, State.withCtx_some (State.ctx_setRecord _ _ _), same]
  simp only [reached]
  rw [State.writeTarget_setRecord, State.onCtx_setRecord]

/-! ### A target in TRIMMING (R148, R149) -/

theorem State.useMeasurement_trimming (state : c.state = .trimming) (s : State) (i : CtxIdx) (tag : Byte) :
    (s.setRecord i ⟨tag, some c⟩).useMeasurement i = (s.setRecord i ⟨tag, some c⟩).trimTarget i := by
  rw [State.useMeasurement, State.withCtx_some (State.ctx_setRecord _ _ _), if_neg (by simp [state]), if_pos state]

theorem State.trimTarget_fails (s : State) (i : CtxIdx) (tag : Byte)
    (fails : s.targetFor c = .noGain ∨ s.targetFor c = .inputTooHigh) :
    (s.setRecord i ⟨tag, some c⟩).trimTarget i = ((s.setRecord i ⟨tag, some c⟩).haltTrim i).lookAfter c := by
  have same : (s.setRecord i ⟨tag, some c⟩).targetFor c = s.targetFor c := rfl
  rw [State.trimTarget, State.withCtx_some (State.ctx_setRecord _ _ _), same]
  rcases fails with fails | fails <;> simp only [fails]

theorem State.trimTarget_reached {x : Nat} {short : Bool} (s : State) (i : CtxIdx) (tag : Byte)
    (reached : s.targetFor c = .reached x short) :
    (s.setRecord i ⟨tag, some c⟩).trimTarget i =
      if inTrimBand (c.att.getD 0) x then
        ((s.setRecord i ⟨tag, some { c.aimed x short (s.baseStep i c.outPort) with
          state := .inService }⟩).trimIfDue i).lookAfter c
      else (s.setRecord i ⟨tag, some { c.aimed x short (s.baseStep i c.outPort) with
        kind := some .trim }⟩).join c.outPort (classQueue c.cls) i true := by
  have same : (s.setRecord i ⟨tag, some c⟩).targetFor c = s.targetFor c := rfl
  rw [State.trimTarget, State.withCtx_some (State.ctx_setRecord _ _ _), same]
  simp only [reached]
  rw [State.writeTarget_setRecord, State.onCtx_setRecord, State.onCtx_setRecord]

theorem inTrimBand_iff (a g : Nat) : inTrimBand a g = true ↔ a < g + 5 ∧ g < a + 5 := by
  simp only [inTrimBand, Bool.and_eq_true, decide_eq_true_eq]
  omega

/-! ### A valid POWER (R92) -/

/-- The report taken and P written: the state that a valid POWER with no teardown decided goes on from. -/
theorem exec_power_valid {x : Int} (waits : s.reportWaits p (.power i tag x)) (asked : s.asked p i tag c .measure)
    (whole : c.teardown = none) (valid : -3000 ≤ x) :
    exec (.power p) s = .next (((s.popReport p).setRecord i
      ⟨tag, some (c.measuredAs (min x 1000))⟩).useMeasurement i) := by
  have ⟨held, _, tags, _⟩ := asked
  have written := State.onCtx_eq_setRecord (s := s.popReport p) held fun c => c.measuredAs (min x 1000)
  have tags' : ((s.popReport p).record i).tag = tag := tags
  rw [exec_power waits asked, State.powerFor_valid (s := s.popReport p) held valid, if_neg (by simp [whole]),
    written, tags']

/-- A context written over a context written. -/
theorem State.onCtx_onCtx_eq (held : s.ctx i = some c) (c1 c2 : Context) :
    ((s.onCtx i fun _ => c1).onCtx i fun _ => c2) = s.setRecord i ⟨(s.record i).tag, some c2⟩ := by
  rw [State.onCtx_eq_setRecord held, State.onCtx_setRecord]

theorem State.targetFor_measured {first : Nat} (chosen : c.chosen = some first) (out : c.outPort = p) (x : Int) :
    (s.popReport p).targetFor (c.measuredAs x) = targetOf x (s.port p).gain
      (channelTarget (s.port p).profile first c.width) := by
  have same : (c.measuredAs x).chosen = some first := chosen
  have out' : (c.measuredAs x).outPort = p := out
  rw [State.targetFor, same, out', State.popReport_port]
  rfl

theorem State.baseStep_popReport (s : State) (i : CtxIdx) (p : PortNo) :
    (s.popReport p).baseStep i p = baseFor (s.port p).params (liveCount (s.port p).map i) := by
  rw [baseStep_eq, State.popReport_port]

/-- A ramp whose target is dark is complete at once (R142). -/
theorem State.completeRamp_popReport {first : Nat} (out : c.outPort = p) (dark : c.att = some 2500)
    (chosen : c.chosen = some first) :
    ∃ c', (((s.popReport p).setRecord i ⟨tag, some c⟩).completeRamp i).ctx i = some c' ∧
      c'.target = c.target ∧ c'.kind = none ∧
      (c.role ≠ .tail → c'.state = .litWait ∧
        c'.timer = some (s.elapsed + s.part.litHop * c.remaining.getD 0) ∧
        ∀ d n, p = portOf d → s.servesDegree d n →
          sentOn s (((s.popReport p).setRecord i ⟨tag, some c⟩).completeRamp i) p
            [.peer ⟨n, s.nodeId, d, .light c.path⟩]) ∧
      (c.role = .tail → c'.serviceTag = some s.timeBase ∧
        (((s.popReport p).setRecord i ⟨tag, some c⟩).completeRamp i).ring =
          (s.report (.inService c.path .tail s.timeBase 2500 c.flags)).ring) := by
  by_cases role : c.role = .tail
  · obtain ⟨v, does, serves⟩ := State.completeRamp_tail (s.popReport p) i tag role dark chosen
    obtain ⟨c', after, kind, -, goal, service, -⟩ := serves.ctx
    obtain ⟨q, fs, up, -⟩ := v.sendUpstream_sends c (.lit c.path)
    rw [does, up]
    exact ⟨c', after, goal, kind, fun onward => absurd role onward, fun _ => ⟨service,
      serves.ring.trans (State.report_ring_congr (s := s) (t := s.popReport p) rfl _)⟩⟩
  · rw [State.completeRamp_onward (s.popReport p) i tag role]
    set v := (s.popReport p).setRecord i ⟨tag, some { c with
      kind := none, state := .litWait,
      timer := some ((s.popReport p).elapsed + (s.popReport p).part.litHop * c.remaining.getD 0) }⟩ with hv
    have mine : (v.sendDownstream c (.light c.path)).ctx i = v.ctx i := by
      rcases v.sendDownstream_eq c (.light c.path) with e | ⟨q, f, e⟩
      · rw [e]
      · rw [e]; rfl
    refine ⟨_, mine.trans (State.ctx_setRecord _ _ _), rfl, rfl, fun _ => ⟨rfl, rfl, fun d n isPort serves => ?_⟩,
      fun tail => absurd tail role⟩
    have alike := State.Alike.popReport s p
    have served : v.servesDegree d n := (alike.serves d n).2 serves
    have node : v.nodeId = s.nodeId := alike.nodeId
    rw [State.sendDownstream_served (.light c.path) (out.trans isPort) served, node, isPort]
    exact (sentOn_emit v _ _).trans (congrArg (· ++ _) (alike.out (portOf d)))

end

/-- Settles O46, by the state of the context and by what its target computation gives. -/
theorem powerSetsTheTarget : Obligations.PowerSetsTheTarget := by
  refine ⟨?_, ?_⟩
  · intro s p i tag c x first waits asked state whole dark chosen valid c1 u target aborted
    have ⟨held, out, tags, _⟩ := asked
    set w := s.popReport p with hw
    have tags' : (w.record i).tag = tag := tags
    have here : w.setRecord i ⟨tag, some c1⟩ = u := by
      rw [← tags']
      exact (State.onCtx_eq_setRecord (s := w) held fun _ => c1).symm
    have port : w.port c1.outPort = { s.port p with reports := (s.port p).reports.drop 1 } := by
      rw [show c1.outPort = p from out]
      exact s.popReport_port p
    have run : exec (.power p) s = .next ((w.setRecord i ⟨tag, some c1⟩).useMeasurement i) :=
      exec_power_valid waits asked whole valid
    rw [State.useMeasurement_preparing (c := c1) state, port] at run
    have aims : w.targetFor c1 = target := State.targetFor_measured chosen out _
    refine ⟨fun yes => run.trans (congrArg Host.Outcome.next ((if_pos yes).trans here)), fun no => ?_⟩
    rw [if_neg (by simp [no])] at run
    obtain ⟨noGain, tooHigh⟩ := State.prepareTarget_fails (c := c1) w i tag true
    have aborts {r : Reason} (does : (w.setRecord i ⟨tag, some c1⟩).prepareTarget i true =
        (w.setRecord i ⟨tag, some c1⟩).abortPreparing i r) : aborted r := by
      have open_ : c1.rangeOpen = true := by simp [c1, Context.rangeOpen, state, dark]
      rw [does, here] at run
      obtain ⟨c', after, closing, close, reason, origin, torn⟩ := State.abortPreparing_ctx
        (State.ctx_onCtx (s := w) held fun _ => c1) open_ r
      refine ⟨_, c', run, after, closing, close (by simp [c1, chosen]), reason, origin, ?_,
        (onlyAround_refl u p i).abortPreparing r⟩
      have line : (u.port c1.outPort).lineIsUp = (s.port p).lineIsUp := by
        have e := congrArg PortState.lineIsUp port
        exact e
      rw [torn, line]
    refine ⟨fun fails => aborts (noGain (aims.trans fails)), fun fails => aborts (tooHigh (aims.trans fails)),
      ?_, fun short reached => ?_⟩
    · intro g short reached lit b v
      have base : w.baseStep i c1.outPort = b := by
        rw [show c1.outPort = p from out]
        exact s.baseStep_popReport i p
      have same := State.onCtx_onCtx_eq (s := w) held c1 { c1.aimed g short b with
        state := .ramping, kind := some .ramp }
      rw [State.prepareTarget_reached w i tag true (aims.trans reached), if_neg (Nat.ne_of_lt lit), base,
        State.join_class, ← tags', ← same, show c1.outPort = p from out] at run
      exact ⟨v.considerGrant p, run, v.considerGrant_afterGrant p⟩
    · rw [State.prepareTarget_reached w i tag true (aims.trans reached), if_pos rfl] at run
      obtain ⟨c', after, goal, rest⟩ := State.completeRamp_popReport (s := s) (p := p) (i := i) (tag := tag)
        (c := c1.aimed 2500 short (w.baseStep i c1.outPort)) out dark chosen
      exact ⟨_, c', run, after, goal, rest⟩
  · intro s p i tag c x first a waits asked state whole att chosen valid c1 u target b
    have ⟨held, out, tags, _⟩ := asked
    set w := s.popReport p with hw
    have tags' : (w.record i).tag = tag := tags
    have run : exec (.power p) s = .next ((w.setRecord i ⟨tag, some c1⟩).useMeasurement i) :=
      exec_power_valid waits asked whole valid
    rw [State.useMeasurement_trimming (c := c1) state] at run
    have aims : w.targetFor c1 = target := State.targetFor_measured chosen out _
    refine ⟨fun fails => ?_, ?_⟩
    · rw [State.trimTarget_fails w i tag (by rwa [aims])] at run
      have alike : s.Alike (w.setRecord i ⟨tag, some c1⟩) := by
        rw [← tags', ← State.onCtx_eq_setRecord (s := w) held fun _ => c1]
        exact (State.Alike.popReport s p).onCtx i _
      exact ⟨_, run, State.haltTrim_lookAfter (State.ctx_setRecord _ _ _) alike rfl rfl rfl out att⟩
    · intro g short reached c2
      have base : w.baseStep i c1.outPort = b := by
        rw [show c1.outPort = p from out]
        exact s.baseStep_popReport i p
      have value : c1.att.getD 0 = a := by rw [show c1.att = some a from att]; rfl
      rw [State.trimTarget_reached w i tag (aims.trans reached), base, value] at run
      refine ⟨fun low high none undue => ?_, fun outside => ?_⟩
      · rw [if_pos ((inTrimBand_iff a g).2 ⟨low, high⟩), State.trimIfDue_setRecord, if_neg (by
          simp [c1, Context.aimed, undue])] at run
        have quiet : (w.port c1.outPort).swapPending = false := by
          rw [show c1.outPort = p from out, s.popReport_port]
          exact none
        have looked : (w.setRecord i ⟨tag, some { c1.aimed g short b with state := .inService }⟩).lookAfter c1 =
            w.setRecord i ⟨tag, some { c1.aimed g short b with state := .inService }⟩ :=
          State.lookAfter_of_none quiet
        have same := State.onCtx_onCtx_eq (s := w) held c1 { c1.aimed g short b with state := .inService }
        rw [run, looked, ← tags', ← same]
        rfl
      · rw [if_neg fun within => by have := (inTrimBand_iff a g).1 within; omega, State.join_class, ← tags',
          ← State.onCtx_onCtx_eq (s := w) held c1 { c1.aimed g short b with kind := some .trim },
          show c1.outPort = p from out] at run
        exact ⟨_, run, State.considerGrant_afterGrant _ p⟩

end Sys2Proof.Machine

/-! PROOFS. What the operations at the end of a step leave: attenuations, settle times, and the marks and
the queues of a port (R117 to R119). -/

namespace Sys2Proof.Machine

open Sys2Proof

section
variable {s t u : State} {p : PortNo} {i : CtxIdx} {c : Context}

/-! ### What a step taken and a grant leave of a port -/

/-- A port without what the sending of a step writes into it (R118). -/
def PortState.unstepped (q : PortState) : PortState :=
  { q with tenure := 0, phase := .idle, expiry := none, requested := none, settings := none, unitsUsed := 0,
           out := [] }

theorem State.unstepped_onPort (s : State) (p q : PortNo) {f : PortState → PortState}
    (keeps : ∀ x, (f x).unstepped = x.unstepped) : ((s.onPort p f).port q).unstepped = (s.port q).unstepped := by
  by_cases e : q = p
  · subst e; rw [State.port_onPort_same, keeps]
  · rw [State.port_onPort_other _ _ e]

theorem State.takeStep_unstepped (s : State) (p q : PortNo) :
    ((s.takeStep p).port q).unstepped = (s.port q).unstepped := by
  have request (u : State) (i : CtxIdx) (a : Nat) :
      ((u.sendRequest i .set a).port q).unstepped = (u.port q).unstepped := by
    unfold State.sendRequest State.withCtx
    split
    · dsimp only
      split
      · rfl
      · exact State.unstepped_onPort _ _ q fun _ => by rfl
    · rfl
  unfold State.takeStep State.withCtx
  split
  · rfl
  · split
    · dsimp only
      split
      · rfl
      · refine (State.unstepped_onPort _ p q fun _ => by rfl).trans ((request _ _ _).trans ?_)
        exact State.unstepped_onPort _ p q fun _ => by rfl
    · rfl

/-- The slot given to the head of a queue. -/
def PortState.grantedTo (q : PortState) (k : QueueSel) (j : CtxIdx) (rest : List CtxIdx) : PortState :=
  { q.setQueue k rest with holder := some j, tenure := 0 }

/-- A grant is to the head of a queue, of the RETREAT queue while a context waits there (R117). -/
theorem State.considerGrant_port (s : State) (p : PortNo) :
    s.considerGrant p = s ∨ ∃ k j rest, (s.port p).queue k = j :: rest ∧
      ((s.port p).retreatQ ≠ [] → k = .retreat) ∧
      ((s.considerGrant p).port p).unstepped = ((s.port p).grantedTo k j rest).unstepped := by
  unfold State.considerGrant
  dsimp only
  split
  case isFalse => exact .inl rfl
  case isTrue =>
    split
    next k next =>
      unfold State.grantTo
      split
      next => exact .inl rfl
      next j rest queue =>
        refine .inr ⟨k, j, rest, queue, fun waits => ?_, ?_⟩
        · have first : (s.port p).nextQueue = some .retreat := by
            obtain ⟨x, xs, here⟩ := List.exists_cons_of_ne_nil waits
            simp [PortState.nextQueue, PortState.serves, PortState.queue, here]
          exact Option.some.inj (next.symm.trans first)
        · rw [State.takeStep_unstepped, State.port_onPort_same]
          rfl
    next => exact .inl rfl

theorem PortState.grantedTo_marks (q : PortState) (k : QueueSel) (j : CtxIdx) (rest : List CtxIdx) :
    (q.grantedTo k j rest).unstepped.retreatDue = q.retreatDue ∧
      (q.grantedTo k j rest).unstepped.frozen = q.frozen ∧
      (q.grantedTo k j rest).unstepped.slowest = q.slowest := by
  cases k <;> exact ⟨rfl, rfl, rfl⟩

/-- A grant leaves the marks of its port. -/
theorem State.considerGrant_marks (s : State) (p : PortNo) :
    ((s.considerGrant p).port p).retreatDue = (s.port p).retreatDue ∧
      ((s.considerGrant p).port p).frozen = (s.port p).frozen ∧
      ((s.considerGrant p).port p).slowest = (s.port p).slowest := by
  rcases s.considerGrant_port p with same | ⟨k, j, rest, -, -, port⟩
  · rw [same]; exact ⟨rfl, rfl, rfl⟩
  · obtain ⟨due, frozen, slowest⟩ := (s.port p).grantedTo_marks k j rest
    rw [← port] at due frozen slowest
    exact ⟨due, frozen, slowest⟩

/-- A context that waits in the RETREAT queue waits on, or has been granted the slot. -/
theorem State.considerGrant_waits (waits : i ∈ (s.port p).retreatQ) :
    i ∈ ((s.considerGrant p).port p).retreatQ ∨ ((s.considerGrant p).port p).holder = some i := by
  rcases s.considerGrant_port p with same | ⟨k, j, rest, queue, first, port⟩
  · rw [same]; exact .inl waits
  · obtain rfl : k = .retreat := first (List.ne_nil_of_mem waits)
    have retreatQ : ((s.considerGrant p).port p).retreatQ = rest := by
      have e := congrArg PortState.retreatQ port; exact e
    have holder : ((s.considerGrant p).port p).holder = some j := by
      have e := congrArg PortState.holder port; exact e
    have all : (s.port p).retreatQ = j :: rest := queue
    rw [all, List.mem_cons] at waits
    rw [retreatQ, holder]
    rcases waits with rfl | waits
    · exact .inr rfl
    · exact .inl waits

/-! ### The look and the grant after a holder has left (R119) -/

/-- What the look for quiet and the grant at the end of a step leave, of context `i` and of port `p`. -/
structure StepRest (i : CtxIdx) (p : PortNo) (s t : State) : Prop where
  aside : Aside i s t
  levels : levelsKept s t
  due : (t.port p).retreatDue = (s.port p).retreatDue
  frozen : (t.port p).frozen = (s.port p).frozen
  slowest : (t.port p).slowest = (s.port p).slowest
  waits : (s.port p).holder = none → i ∈ (s.port p).retreatQ →
    i ∈ (t.port p).retreatQ ∨ (t.port p).holder = some i
  keeps : Keeps s t
  stands : (s.port p).swapPending = false →
    (t.ctx i).map Context.stepless = (s.ctx i).map Context.stepless ∧ t.ring = s.ring

theorem State.lookThenGrant_rest (s : State) (i : CtxIdx) (p : PortNo) : StepRest i p s (s.lookThenGrant p) := by
  set u := s.lookForQuiet p false with hu
  have look : LookFrame s u := (LookFrame.refl s).lookForQuiet p
  have slot := look.slots p
  have due : (u.port p).retreatDue = (s.port p).retreatDue := by
    have e := congrArg PortState.retreatDue slot; exact e
  have frozen : (u.port p).frozen = (s.port p).frozen := by
    have e := congrArg PortState.frozen slot; exact e
  have slowest : (u.port p).slowest = (s.port p).slowest := by
    have e := congrArg PortState.slowest slot; exact e
  have retreatQ : (u.port p).retreatQ = (s.port p).retreatQ := by
    have e := congrArg PortState.retreatQ slot; exact e
  obtain ⟨due', frozen', slowest'⟩ := u.considerGrant_marks p
  refine ⟨((Aside.refl i s).lookForQuiet p false).considerGrant p, look.levels.considerGrant p, due'.trans due,
    frozen'.trans frozen, slowest'.trans slowest, fun _ waits => ?_,
    ((Keeps.refl s).lookForQuiet p false).considerGrant p, fun none => ?_⟩
  · exact State.considerGrant_waits (by rw [retreatQ]; exact waits)
  · have stays : u = s := State.lookForQuiet_of_none none false
    have does : s.lookThenGrant p = s.considerGrant p := congrArg (State.considerGrant · p) stays
    obtain ⟨-, -, -, contexts, -⟩ := s.considerGrant_afterGrant p
    rw [does]
    exact ⟨contexts i, s.considerGrant_ring p⟩

/-! ### The freeze (R132) -/

theorem State.freezeIf_ctx (s : State) (p : PortNo) (b : Bool) (j : CtxIdx) : (s.freezeIf p b).ctx j = s.ctx j := by
  unfold State.freezeIf State.freeze
  split
  · split
    · rfl
    · exact State.report_ctx _ _ j
  · rfl

/-- A freeze changes of a port its flag at most. -/
theorem State.freezeIf_port (s : State) (p : PortNo) (b : Bool) :
    (s.freezeIf p b).port p =
      { s.port p with frozen := (b && (s.port p).params.haltOnDisturbance) || (s.port p).frozen } := by
  unfold State.freezeIf State.freeze
  cases halts : b && (s.port p).params.haltOnDisturbance with
  | false => rfl
  | true =>
    cases frozen : (s.port p).frozen with
    | true =>
      simp only [if_true]
      conv_rhs => rw [Bool.true_or, ← frozen]
    | false =>
      simp only [if_true, Bool.false_eq_true, if_false]
      rw [State.report_port, State.port_onPort_same]
      rfl

theorem State.freezeIf_ring (s : State) (p : PortNo) (b : Bool) : (s.freezeIf p b).ring =
    if b && (s.port p).params.haltOnDisturbance && !(s.port p).frozen then (s.report (.port p .frozen)).ring
    else s.ring := by
  unfold State.freezeIf State.freeze
  cases b && (s.port p).params.haltOnDisturbance with
  | false => rfl
  | true =>
    cases (s.port p).frozen with
    | true => rfl
    | false =>
      have ring := State.report_ring_congr (s := s) (t := s.onPort p fun ps => { ps with frozen := true }) rfl
        (.port p .frozen)
      exact ring

theorem State.freezeIf_levels (s : State) (p : PortNo) (b : Bool) : levelsKept s (s.freezeIf p b) :=
  (levelsKept.refl s).of_ctx fun j => s.freezeIf_ctx p b j

end

end Sys2Proof.Machine

/-! PROOFS. How a step ends that does not go on: an abort, a halt, a forced close, and the retreat that
waited for it (R122, R126 to R128, R150). -/

namespace Sys2Proof.Machine

open Sys2Proof

section
variable {s t u v w : State} {p : PortNo} {i : CtxIdx} {c : Context} {a : Nat}

/-! ### The step state cleared and the slot free (R119) -/

/-- A port after its step has ended and its holder has left. -/
def PortState.left (q : PortState) : PortState := { q.clearedStep with holder := none, tenure := 0 }

/-- The part after a step on port `p` has ended and the holder has left (R119). -/
def State.left (s : State) (p : PortNo) : State := (s.clearStep p).freeSlot p

theorem State.clearStep_port (s : State) (p q : PortNo) :
    (s.clearStep p).port q = (s.onPort p PortState.clearedStep).port q := by
  unfold State.clearStep
  split <;> rfl

theorem State.left_port (s : State) (p : PortNo) : (s.left p).port p = (s.port p).left := by
  rw [State.left, State.freeSlot, State.port_onPort_same, State.clearStep_port, State.port_onPort_same]
  rfl

theorem State.left_ctx (s : State) (p : PortNo) (j : CtxIdx) : (s.left p).ctx j = s.ctx j := s.clearStep_ctx p j

theorem State.Alike.left (h : s.Alike u) (p : PortNo) : s.Alike (u.left p) := by
  have cleared : s.Alike (u.clearStep p) := by
    have port := h.onPort p PortState.clearedStep (fun _ => rfl) fun _ => rfl
    unfold State.clearStep
    split
    next d _ =>
      refine ⟨port.straps, fun e n => ?_, port.out, port.swapPending, port.ring, port.timeBase⟩
      refine Iff.trans ?_ (port.serves e n)
      rw [State.servesDegree, State.servesDegree]
      by_cases same : e = d
      · subst same; rw [State.degree_onDegree_same]; rfl
      · rw [State.degree_onDegree_other _ _ same]; rfl
    next => exact port
  exact cleared.onPort p _ (fun _ => rfl) fun _ => rfl

theorem levelsKept.left (h : levelsKept s t) (p : PortNo) : levelsKept s (t.left p) := h.of_ctx (t.left_ctx p)

theorem Keeps.left (h : Keeps s t) (p : PortNo) : Keeps s (t.left p) := (h.clearStep p).freeSlot p

/-! ### A retreat that begins at the end of a step (R105, R116) -/

/-- The marks of a port that the beginning of a retreat leaves. -/
def PortState.marks (q : PortState) : Option CtxIdx × Bool × Bool × Nat × Bool × PortParams :=
  (q.holder, q.retreatDue, q.frozen, q.slowest, q.lineIsUp, q.params)

theorem PortState.marks_of_slot {q r : PortState} (same : r.slot = q.slot) : r.marks = q.marks := by
  have e := congrArg PortState.marks same
  exact e

theorem State.marks_onPort (s : State) (p q : PortNo) {f : PortState → PortState}
    (keeps : ∀ x, (f x).marks = x.marks) : ((s.onPort p f).port q).marks = (s.port q).marks := by
  by_cases e : q = p
  · subst e; rw [State.port_onPort_same, keeps]
  · rw [State.port_onPort_other _ _ e]

/-- A retreat that begins inside the end of a step, where the grant comes later. -/
structure RetreatBegun (s t : State) (i : CtxIdx) (c : Context) : Prop where
  ctx : ∃ c', t.ctx i = some c' ∧ c.Begins c'
  waits : c.att ≠ some 2500 → i ∈ (t.port c.outPort).retreatQ
  marks : ∀ q, (t.port q).marks = (s.port q).marks
  levels : levelsKept s t
  keeps : Keeps s t
  ring : t.ring = s.ring
  swapPending : ∀ q, (t.port q).swapPending = (s.port q).swapPending

theorem State.beginRetreat_look (held : s.ctx i = some c) : LookFrame (s.leaveQueues c.outPort i) (s.beginRetreat i) := by
  rw [State.beginRetreat, State.withCtx_some held]
  have based := (LookFrame.refl (s.leaveQueues c.outPort i)).chooseBase i
  exact .ite (based.sendClose i) (based.onCtx i _ fun _ => by rfl)

theorem State.beginRetreat_swapPending (held : s.ctx i = some c) (q : PortNo) :
    ((s.beginRetreat i).port q).swapPending = (s.port q).swapPending := by
  have run : onlyAround s (s.beginRetreat i) c.outPort i :=
    (onlyAround_refl s _ i).beginRetreat fun c' held' => by cases held.symm.trans held'; rfl
  by_cases e : q = c.outPort
  · subst e; exact onlyAround_swapPending run
  · obtain ⟨-, -, others, -⟩ := run
    have same := congrArg PortState.swapPending (others.1 q e)
    exact same

theorem State.retreatBegins (held : s.ctx i = some c) :
    RetreatBegun s ((s.beginRetreat i).joinRetreat i false) i c := by
  obtain ⟨c', begun, begins⟩ := State.beginRetreat_ctx held
  have look := State.beginRetreat_look held
  have marks (q : PortNo) : ((s.beginRetreat i).port q).marks = (s.port q).marks :=
    (PortState.marks_of_slot (look.slots q)).trans (s.marks_onPort _ q fun _ => by rfl)
  have keeps : Keeps s (s.beginRetreat i) := (Keeps.refl s).beginRetreat i
  have levels : levelsKept s (s.beginRetreat i) := look.levels
  have out : c'.outPort = c.outPort := by
    obtain ⟨c0, held0, same⟩ := keeps.contexts i c' begun
    cases held.symm.trans held0
    exact same.outPort
  have joins : (s.beginRetreat i).joinRetreat i false = if c'.state = .retreating then
      (s.beginRetreat i).onPort c.outPort fun q => { q with retreatQ := q.retreatQ ++ [i] }
      else s.beginRetreat i := by
    rw [State.joinRetreat, State.withCtx_some begun, out]
    rfl
  rw [joins]
  split
  next retreating =>
    refine ⟨⟨c', begun, begins⟩, fun _ => ?_, fun q => ?_, levels, ?_, s.beginRetreat_ring i, fun q => ?_⟩
    · rw [State.port_onPort_same]; simp
    · exact (State.marks_onPort _ _ q fun _ => by rfl).trans (marks q)
    · have joined := keeps.joinRetreat i false
      rwa [joins, if_pos retreating] at joined
    · refine Eq.trans ?_ (State.beginRetreat_swapPending held q)
      by_cases e : q = c.outPort
      · subst e; rw [State.port_onPort_same]
      · rw [State.port_onPort_other _ _ e]
  next closing =>
    exact ⟨⟨c', begun, begins⟩, fun lit => absurd (begins.steps lit).1 closing, marks, levels, keeps,
      s.beginRetreat_ring i, State.beginRetreat_swapPending held⟩

/-! ### An abort at the end of a step (R122, R155) -/

/-- A ramp that aborts inside the end of its step. -/
structure AbortedAtEnd (s t : State) (i : CtxIdx) (c : Context) (r : Reason) : Prop where
  ctx : ∃ c', t.ctx i = some c' ∧ c'.leaving ∧ c'.att = c.att ∧ c'.abortReason = some r ∧
    c'.origin = some s.nodeId ∧
    c'.teardown = some ⟨.localAbort, if (s.port c.outPort).lineIsUp then .retreat else .darkJump, .abort⟩ ∧
    ((s.port c.outPort).lineIsUp = false ∨ c.att = some 2500 → c'.state = .closing ∧ c'.kind = none) ∧
    ((s.port c.outPort).lineIsUp = true → c.att ≠ some 2500 → c'.state = .retreating ∧ c'.kind = some .retreat)
  waits : (s.port c.outPort).lineIsUp = true → c.att ≠ some 2500 → i ∈ (t.port c.outPort).retreatQ
  marks : ∀ q, (t.port q).marks = (s.port q).marks
  levels : levelsKept s t
  keeps : Keeps s t
  ring : t.ring = s.ring
  swapPending : ∀ q, (t.port q).swapPending = (s.port q).swapPending
  sends : ∀ e m, c.inPort = .degree e → s.servesDegree e m →
    sentFirst s t (portOf e) ⟨m, s.nodeId, e, .abort c.path r s.nodeId⟩

theorem State.abortsAtEnd (held : s.ctx i = some c) (lit : c.rangeOpen = true) (later : c.state ≠ .offered)
    (r : Reason) : AbortedAtEnd s (s.abortAtStepEnd i r) i c r := by
  set o := s.localAbort r with ho
  set v := s.recordTeardown i c o (s.wayFor c o) with hv
  have way : s.wayFor c o = if (s.port c.outPort).lineIsUp then .retreat else .darkJump := by
    rw [s.wayFor_eq_localWay c rfl, State.localWay, if_neg (by simp [lit])]
  obtain ⟨recorded, -, -⟩ := State.recordTeardown_recorded held o (s.wayFor c o)
  obtain ⟨p, fs, eq, -, content⟩ := s.recordTeardown_eq i c o (s.wayFor c o)
  have look : LookFrame s v := (LookFrame.refl s).recordTeardown i c o _
  have keeps : Keeps s v := (Keeps.refl s).recordTeardown i c o _
  have pending := s.recordTeardown_swapPending i c o (s.wayFor c o)
  have ring := s.recordTeardown_ring i c o (s.wayFor c o)
  have sends {t : State} (rest : Keeps v t) : ∀ e m, c.inPort = .degree e → s.servesDegree e m →
      sentFirst s t (portOf e) ⟨m, s.nodeId, e, .abort c.path r s.nodeId⟩ := by
    intro e m inPort serves
    obtain ⟨rfl, rfl⟩ := content r e m rfl rfl inPort serves
    refine sentFirst_of_sentOn ?_ rest
    rw [hv, eq, if_neg later]
    exact sentOn_sends (s.onCtx i _) _ _
  have does : s.abortAtStepEnd i r = match s.wayFor c o with
      | .retreat => (v.beginRetreat i).joinRetreat i false
      | .darkJump => v.sendClose i
      | .none => v := State.withCtx_some held _
  rw [does, way]
  cases line : (s.port c.outPort).lineIsUp with
  | true =>
    have begun := State.retreatBegins recorded
    obtain ⟨c', after, begins⟩ := begun.ctx
    have cause := begins.cause
    refine ⟨⟨c', after, begins.leaving, cause.att, cause.reason, cause.origin, ?_, fun dark => ?_, fun _ lit =>
      ⟨(begins.steps lit).1, (begins.steps lit).2.1⟩⟩, fun _ lit => begun.waits lit,
      fun q => (begun.marks q).trans (PortState.marks_of_slot (look.slots q)), look.levels.trans begun.levels,
      keeps.trans begun.keeps, begun.ring.trans ring, fun q => (begun.swapPending q).trans (pending q),
      sends begun.keeps⟩
    · rw [cause.teardown, way, line]
      rfl
    · rcases dark with down | dark
      · exact nomatch line.symm.trans down
      · exact ⟨(begins.dark dark).1, (begins.dark dark).2.1⟩
  | false =>
    obtain ⟨k, timer, closed, -⟩ := State.sendClose_ctx recorded
    have close : LookFrame v (v.sendClose i) := (LookFrame.refl v).sendClose i
    refine ⟨⟨_, closed, .inr rfl, rfl, rfl, rfl, ?_, fun _ => ⟨rfl, rfl⟩,
      fun up => (nomatch line.symm.trans up)⟩, fun up => (nomatch line.symm.trans up), fun q => PortState.marks_of_slot ((close.slots q).trans (look.slots q)),
      look.levels.trans close.levels, keeps.sendClose i, (v.sendClose_ring i).trans ring,
      fun q => (onlyAround_swapPending (onlyAround_refl v q i).sendClose).trans (pending q), sends ((Keeps.refl v).sendClose i)⟩
    rw [way, line]
    rfl

end

end Sys2Proof.Machine

/-! PROOFS. Steps that fail, and the first test at the end of a step (R119, R122, R126 to R128). -/

namespace Sys2Proof.Machine

open Sys2Proof

section
variable {s t u v w x y : State} {p : PortNo} {i : CtxIdx} {c c1 : Context} {a : Nat} {r : Reason} {b : Bool}

/-! ### The first test at the end of a step (R119) -/

/-- The retreat-due mark cleared with the slot free (R122). -/
def State.unmarked (s : State) (p : PortNo) : State :=
  (s.left p).onPort p fun ps => { ps with retreatDue := false }

theorem State.endStep_aborts (due : (v.port p).retreatDue = false) :
    v.endStep p i (.aborts r) b = (((v.left p).abortAtStepEnd i r).freezeIf p b).lookThenGrant p := by
  unfold State.endStep
  simp only [due]
  rfl

theorem State.endStep_halts (due : (v.port p).retreatDue = false) :
    v.endStep p i .halts b = (((v.left p).haltTrim i).freezeIf p b).lookThenGrant p := by
  unfold State.endStep
  simp only [due]
  rfl

theorem State.endStep_continues (due : (v.port p).retreatDue = false) :
    v.endStep p i .continues b = (v.clearStep p).tenureTests p i := by
  unfold State.endStep
  simp only [due]

theorem State.endStep_marked {e : StepEnd} (due : (v.port p).retreatDue = true) (lit : e ≠ .closes) :
    v.endStep p i e b =
      ((((v.unmarked p).freezeIf p b).beginRetreat i).joinRetreat i false).lookThenGrant p := by
  unfold State.endStep
  simp only [due]
  cases e with
  | closes => exact absurd rfl lit
  | continues => rfl
  | halts => rfl
  | aborts r => rfl

theorem State.endStep_closes : v.endStep p i .closes b =
    (((v.unmarked p).onCtx i fun c =>
      { c with flags := { c.flags with closeForced := true } }).sendClose i).lookThenGrant p := rfl

/-! ### The state in which a step is judged -/

/-- A port without what the taking of a report and a settle time write. -/
def PortState.seen (q : PortState) : PortState := { q with reports := [], slowest := 0 }

/-- `v` is `s` as the end of a step of port `p` finds it, its context apart. -/
structure State.SameStep (s v : State) (p : PortNo) : Prop where
  alike : s.Alike v
  port : (v.port p).seen = (s.port p).seen
  elapsed : v.elapsed = s.elapsed
  part : v.part = s.part

namespace State.SameStep

theorem popReport (s : State) (p : PortNo) : s.SameStep (s.popReport p) p :=
  ⟨.popReport s p, by rw [State.popReport_port]; rfl, rfl, rfl⟩

theorem refl (s : State) (p : PortNo) : s.SameStep s p := ⟨.refl s, rfl, rfl, rfl⟩

theorem onCtx (h : s.SameStep v p) (i : CtxIdx) (f : Context → Context) : s.SameStep (v.onCtx i f) p :=
  ⟨h.alike.onCtx i f, h.port, h.elapsed, h.part⟩

theorem due (h : s.SameStep v p) : (v.port p).retreatDue = (s.port p).retreatDue := by
  have e := congrArg PortState.retreatDue h.port
  exact e

theorem line (h : s.SameStep v p) : (v.port p).lineIsUp = (s.port p).lineIsUp := by
  have e := congrArg PortState.lineIsUp h.port
  exact e

theorem params (h : s.SameStep v p) : (v.port p).params = (s.port p).params := by
  have e := congrArg PortState.params h.port
  exact e

theorem frozen (h : s.SameStep v p) : (v.port p).frozen = (s.port p).frozen := by
  have e := congrArg PortState.frozen h.port
  exact e

end State.SameStep

/-! ### What is left of an outcome once the others have been attended to -/

theorem sentFirst_keeps {q : PortNo} {m : PeerFrame} (sent : sentFirst s u q m) (rest : Keeps u t) :
    sentFirst s t q m := by
  obtain ⟨fs, out⟩ := sent
  obtain ⟨gs, after⟩ := rest.out_prefix q
  exact ⟨fs ++ gs, by rw [after, out]; simp⟩

theorem State.left_line (s : State) (p : PortNo) : ((s.left p).port p).lineIsUp = (s.port p).lineIsUp := by
  rw [State.left_port]
  rfl

/-- The end of a ramp's step by an abort (R122). -/
theorem rampAborts_of (held : v.ctx i = some c1) (same : s.SameStep v p) (out : c1.outPort = p)
    (state : c1.state = .ramping) (att : c1.att = some a) (path : c1.path = c.path) (inPort : c1.inPort = c.inPort) :
    rampAborts s ((((v.left p).abortAtStepEnd i r).freezeIf p b).lookThenGrant p) p i c a r := by
  subst out
  set u := v.left c1.outPort with hu
  have alike : s.Alike u := same.alike.left _
  have node : u.nodeId = s.nodeId := alike.nodeId
  have aborted := State.abortsAtEnd (s := u) (i := i) (c := c1) ((v.left_ctx _ i).trans held)
    (by simp [Context.rangeOpen, state]) (by simp [state]) r
  have line : (u.port c1.outPort).lineIsUp = (s.port c1.outPort).lineIsUp := (v.left_line _).trans same.line
  set x := u.abortAtStepEnd i r with hx
  have rest := (x.freezeIf c1.outPort b).lookThenGrant_rest i c1.outPort
  obtain ⟨c', after, leaves, att', reason, origin, torn, dark, lit⟩ := aborted.ctx
  obtain ⟨⟨c'', last, steps⟩, -⟩ := rest.aside.leaving c' ((x.freezeIf_ctx _ b i).trans after) leaves
  have lasts := Context.sameCause_of_stepless steps
  have state' : c''.state = c'.state := by have e := congrArg Context.state steps; exact e
  have kind' : c''.kind = c'.kind := by have e := congrArg Context.kind steps; exact e
  rw [line] at torn dark lit
  refine ⟨⟨c'', last, lasts.att.trans (att'.trans att), lasts.reason.trans reason, ?_, lasts.teardown.trans torn,
    fun down => ?_, fun up bright => ?_⟩, fun e m from_ serves => ?_⟩
  · rw [lasts.origin, origin, node]
  · rw [state', kind']
    exact dark (down.imp_right fun zero => by rw [att, zero])
  · have bright' : c1.att ≠ some 2500 := by rw [att]; simpa using bright
    obtain ⟨retreating, kind⟩ := lit up bright'
    refine ⟨state'.trans retreating, kind'.trans kind, rest.waits ?_ ?_⟩
    · have holder : (x.port c1.outPort).holder = (u.port c1.outPort).holder := by
        have e := congrArg Prod.fst (aborted.marks c1.outPort); exact e
      have free : (u.port c1.outPort).holder = none := by rw [hu, State.left_port]; rfl
      rw [State.freezeIf_port]
      exact holder.trans free
    · rw [State.freezeIf_port]
      exact aborted.waits (line.trans up) bright'
  · have sent := aborted.sends e m (inPort.trans from_) ((alike.serves e m).2 serves)
    rw [path, node] at sent
    exact alike.sentFirst (sentFirst_keeps sent (((Keeps.refl x).freezeIf _ b).trans rest.keeps))

/-- The retreat that waited for the end of the step (R122). -/
theorem markedRetreatBegins_of (held : v.ctx i = some c1) (out : c1.outPort = p) (att : c1.att = some a)
    (torn : c1.teardown = c.teardown) (reason : c1.abortReason = c.abortReason) (origin : c1.origin = c.origin)
    (halted : c1.flags.trimHalted = c.flags.trimHalted) :
    markedRetreatBegins (((((v.unmarked p).freezeIf p b).beginRetreat i).joinRetreat i false).lookThenGrant p) p i c
      a := by
  subst out
  set u := (v.unmarked c1.outPort).freezeIf c1.outPort b with hu
  have here : u.ctx i = some c1 := (State.freezeIf_ctx _ _ _ _).trans ((v.left_ctx _ i).trans held)
  have begun := State.retreatBegins here
  set x := (u.beginRetreat i).joinRetreat i false with hx
  have rest := x.lookThenGrant_rest i c1.outPort
  obtain ⟨c', after, begins⟩ := begun.ctx
  obtain ⟨c'', last, begins⟩ := begins.aside after rest.aside
  have lasts := begins.cause
  refine ⟨?_, c'', last, lasts.att.trans att, lasts.teardown.trans torn, lasts.reason.trans reason,
    lasts.origin.trans origin, lasts.halted.trans halted, fun dark => ?_, fun lit => ?_⟩
  · have due : (x.port c1.outPort).retreatDue = (u.port c1.outPort).retreatDue := by
      have e := congrArg (fun m => m.2.1) (begun.marks c1.outPort); exact e
    have clear : (u.port c1.outPort).retreatDue = false := by
      rw [hu, State.freezeIf_port, State.unmarked, State.port_onPort_same]
    exact rest.due.trans (due.trans clear)
  · exact (begins.dark (by rw [att, dark])).1
  · obtain ⟨state, kind, -⟩ := begins.steps (by rw [att]; simpa using lit)
    exact ⟨state, kind⟩

/-- A RETREAT-kind step that fails (R126, R127). -/
theorem closesForced_of (held : v.ctx i = some c1) (chosen : c1.chosen.isSome) (att : c1.att = some a)
    (torn : c1.teardown = c.teardown) : closesForced (v.endStep p i .closes b) i c a := by
  rw [State.endStep_closes]
  set u := (v.unmarked p).onCtx i fun c => { c with flags := { c.flags with closeForced := true } } with hu
  have here : u.ctx i = some { c1 with flags := { c1.flags with closeForced := true } } :=
    State.ctx_onCtx (s := v.unmarked p) ((v.left_ctx p i).trans held) _
  obtain ⟨k, timer, closed, close⟩ := State.sendClose_ctx here
  have rest := (u.sendClose i).lookThenGrant_rest i p
  obtain ⟨-, kindless⟩ := rest.aside.leaving _ closed (.inr rfl)
  have last := (congrArg Record.ctx (kindless rfl)).trans closed
  exact ⟨_, last, att, rfl, rfl, rfl, close chosen, torn⟩

/-! ### The halt of a trim at the end of its step -/

theorem State.haltTrim_look (s : State) (i : CtxIdx) : LookFrame s (s.haltTrim i) := (LookFrame.refl s).haltTrim i

/-- The end of a trim's step by its halt (R150). -/
theorem trimHalts_atEnd (held : v.ctx i = some c1) (same : s.SameStep v p) (out : c1.outPort = p)
    (att : c1.att = some a) (path : c1.path = c.path) (flags : c1.flags = c.flags)
    (torn : c1.teardown = c.teardown) :
    trimHalts s ((((v.left p).haltTrim i).freezeIf p b).lookThenGrant p) p i c a := by
  set u := v.left p with hu
  have alike : s.Alike u := same.alike.left p
  set x := u.haltTrim i with hx
  have rest := (x.freezeIf p b).lookThenGrant_rest i p
  refine trimHalts_of ((v.left_ctx p i).trans held) alike path flags torn out att
    (fun y here => rest.aside.rests y ((x.freezeIf_ctx p b i).trans here)) fun none => ?_
  have pending : (x.port p).swapPending = false :=
    (onlyAround_swapPending (onlyAround_refl u p i).haltTrim).trans ((alike.swapPending p).trans none)
  obtain ⟨steps, ring⟩ := rest.stands (by rw [State.freezeIf_port]; exact pending)
  refine ⟨steps.trans (congrArg _ (x.freezeIf_ctx p b i)), fun unhalted => ring.trans ?_⟩
  have params : (x.port p).params = (s.port p).params := by
    have look := (u.haltTrim_look i).slots p
    have e := congrArg PortState.params look
    have here : (u.port p).params = (v.port p).params := by rw [hu, State.left_port]; rfl
    exact Eq.trans e (here.trans same.params)
  rw [State.freezeIf_ring, params, unhalted, Bool.and_false]
  rfl

/-! ### A step that fails (R126 to R128) -/

/-- A step has failed, with its context at attenuation `a` and nothing outstanding. -/
theorem State.endStep_fails (held : v.ctx i = some { c with att := some a, outstanding := none })
    (same : s.SameStep v p) (out : c.outPort = p) (chosen : c.chosen.isSome) (r : Reason) :
    stepFails s (v.endStep p i (failureEnd c.kind r) false) p i c a r ∧
      (c.kind = some .retreat → closesForced (v.endStep p i (failureEnd c.kind r) false) i c a) := by
  refine ⟨⟨fun state kind due => ?_, fun state kind due => ?_, fun kind due _ => ?_⟩, fun kind => ?_⟩
  · rw [kind, failureEnd, State.endStep_aborts (same.due.trans due)]
    exact rampAborts_of held same out state rfl rfl rfl
  · rw [kind, failureEnd, State.endStep_halts (same.due.trans due)]
    exact trimHalts_atEnd held same out rfl rfl rfl rfl
  · have lit : failureEnd c.kind r ≠ .closes := by
      rcases kind with kind | kind <;> rw [kind] <;> exact nofun
    rw [State.endStep_marked (same.due.trans due) lit]
    exact markedRetreatBegins_of held out rfl rfl rfl rfl rfl
  · rw [kind, failureEnd]
    exact closesForced_of held chosen rfl rfl

end

end Sys2Proof.Machine

/-! PROOFS. Steps that go on or fail: the results of a step and the tests after it (R109 to R112, R119,
R125 to R128). -/

namespace Sys2Proof.Machine

open Sys2Proof

section
variable {s t u v : State} {p : PortNo} {i : CtxIdx} {c c1 : Context} {a : Nat}

/-! ### Stepping that goes on (R119) -/

/-- A port with a context that ramps or trims is not quiet (R19). -/
theorem State.quiet_of_stepping (held : s.ctx i = some c) (out : c.outPort = p)
    (steps : c.state = .ramping ∨ c.state = .trimming) : s.quiet p = false := by
  have some_ : (allContexts.any fun i => (s.ctx i).any fun c =>
      decide (c.outPort = p) && (decide (c.state = .ramping) || decide (c.state = .trimming))) = true :=
    List.any_eq_true.2 ⟨i, mem_allContexts i, by rcases steps with state | state <;> simp [held, out, state]⟩
  rw [State.quiet, some_]
  simp

/-- The look and the grant leave a context that steps on, its step apart. -/
theorem State.lookThenGrant_stepless (held : s.ctx i = some c) (out : c.outPort = p)
    (steps : c.state = .ramping ∨ c.state = .trimming ∨ c.state = .retreating) :
    ∃ c', (s.lookThenGrant p).ctx i = some c' ∧ c'.stepless = c.stepless := by
  have stepping (state : c.state = .ramping ∨ c.state = .trimming) :
      ∃ c', (s.lookThenGrant p).ctx i = some c' ∧ c'.stepless = c.stepless := by
    have stays : s.lookForQuiet p false = s := by
      rw [State.lookForQuiet, State.quiet_of_stepping held out state, Bool.and_false]
      rfl
    obtain ⟨-, -, -, contexts, -⟩ := s.considerGrant_afterGrant p
    have same := contexts i
    rw [held, Option.map_some, Option.map_eq_some_iff] at same
    rw [State.lookThenGrant, stays]
    exact same
  rcases steps with ramping | trimming | retreating
  · exact stepping (.inl ramping)
  · exact stepping (.inr trimming)
  · exact ((s.lookThenGrant_rest i p).aside.leaving c held (.inl retreating)).1

/-- A holder whose stepping goes on stays as it is, its step apart, whether it yields or steps (R119). -/
theorem State.tenureTests_stepless (held : s.ctx i = some c) (out : c.outPort = p) (further : c.endReached = false)
    (steps : c.state = .ramping ∨ c.state = .trimming ∨ c.state = .retreating) :
    ∃ c', (s.tenureTests p i).ctx i = some c' ∧ c'.stepless = c.stepless := by
  rw [State.tenureTests, State.withCtx_some held]
  simp only [further, Bool.false_eq_true, if_false]
  split
  · exact State.lookThenGrant_stepless (s := (s.freeSlot p).onPort p _) held out steps
  · split
    · exact State.lookThenGrant_stepless (s := (s.freeSlot p).onPort p _) held out steps
    · obtain ⟨c0, looked, same⟩ : ∃ c', (s.lookForQuiet p false).ctx i = some c' ∧
          c'.stepless = c.stepless := by
        rcases steps with ramping | trimming | retreating
        · rw [State.lookForQuiet, State.quiet_of_stepping held out (.inl ramping), Bool.and_false]
          exact ⟨c, held, rfl⟩
        · rw [State.lookForQuiet, State.quiet_of_stepping held out (.inr trimming), Bool.and_false]
          exact ⟨c, held, rfl⟩
        · exact (((Aside.refl i s).lookForQuiet p false).leaving c held (.inl retreating)).1
      have stepped : (((s.lookForQuiet p false).takeStep p).ctx i).map Context.stepless =
          ((s.lookForQuiet p false).ctx i).map Context.stepless := by
        cases holder : ((s.lookForQuiet p false).port p).holder with
        | none => rw [State.takeStep, holder]
        | some j => exact ((State.takeStep_frame _ p holder).1.contexts i)
      rw [looked, Option.map_some, Option.map_eq_some_iff] at stepped
      obtain ⟨c', after, same'⟩ := stepped
      exact ⟨c', after, same'.trans same⟩

/-- A holder whose stepping has reached its end leaves the slot (R119, R121). -/
theorem State.tenureTests_end (held : s.ctx i = some c) (reached : c.endReached = true) :
    s.tenureTests p i = ((s.freeSlot p).completeStepping i).lookThenGrant p := by
  rw [State.tenureTests, State.withCtx_some held, if_pos reached]

/-- A retreat that has reached dark closes (R121, R160). -/
theorem State.tenureTests_closes (held : s.ctx i = some c) (kind : c.kind = some .retreat)
    (dark : c.att = some 2500) : ∃ timer k, (s.tenureTests p i).ctx i =
      some { c with state := .closing, kind := none, outstanding := k, timer := timer } ∧
        (c.chosen.isSome → k = some .close) ∧
        StepRest i p ((s.freeSlot p).sendClose i) (s.tenureTests p i) := by
  have reached : c.endReached = true := by
    rw [Context.endReached, kind]
    exact decide_eq_true dark
  have completes : (s.freeSlot p).completeStepping i = (s.freeSlot p).sendClose i := by
    rw [State.completeStepping, State.withCtx_some (s := s.freeSlot p) held]
    simp only [kind]
  rw [State.tenureTests_end held reached, completes]
  obtain ⟨k, timer, closed, close⟩ := State.sendClose_ctx (s := s.freeSlot p) held
  have rest := ((s.freeSlot p).sendClose i).lookThenGrant_rest i p
  obtain ⟨-, kindless⟩ := rest.aside.leaving _ closed (.inr rfl)
  exact ⟨timer, k, (congrArg Record.ctx (kindless rfl)).trans closed, close, rest⟩

/-- A step that goes on, its result taken. -/
theorem State.endStep_stepless {b : Bool} (held : v.ctx i = some c1) (due : (v.port p).retreatDue = false)
    (out : c1.outPort = p) (further : c1.endReached = false)
    (steps : c1.state = .ramping ∨ c1.state = .trimming ∨ c1.state = .retreating) :
    ∃ c', (v.endStep p i .continues b).ctx i = some c' ∧ c'.stepless = c1.stepless := by
  rw [State.endStep_continues due]
  exact State.tenureTests_stepless ((v.clearStep_ctx p i).trans held) out further steps

/-! ### The results of a step (R110, R111) -/

/-- A result that a step leaves, its step apart. -/
theorem settledValues_stepless {c' : Context} {backoff : Bool} (result : settledValues c c1 backoff)
    (same : c'.stepless = c1.stepless) : settledValues c c' backoff := by
  have size : c'.stepSize = c1.stepSize := by have e := congrArg Context.stepSize same; exact e
  have clean : c'.clean = c1.clean := by have e := congrArg Context.clean same; exact e
  have backoffs : c'.backoffs = c1.backoffs := by have e := congrArg Context.backoffs same; exact e
  unfold settledValues at *
  rw [size, clean, backoffs]
  exact result

theorem settledValues_clean (c : Context) : settledValues c c.afterClean false := by
  intro x b here base
  rw [if_neg (by simp), Context.afterClean, here, base]
  have twice : min (c.clean + 1) 2 = 2 ↔ 1 ≤ c.clean := by omega
  simp only [twice]
  by_cases grows : 1 ≤ c.clean ∧ x < b
  · simp only [if_pos grows, and_self]
  · simp only [if_neg grows, and_self]

theorem settledValues_backoff (c : Context) : settledValues c c.afterBackoff true := by
  intro x b here _
  rw [if_pos rfl, Context.afterBackoff, here]
  exact ⟨rfl, rfl, rfl⟩

/-- A clean result leaves every item of its context but S and the clean count (R110). -/
theorem Context.afterClean_eq (c : Context) :
    ∃ size n, c.afterClean = { c with stepSize := size, clean := n } := by
  unfold Context.afterClean
  dsimp only
  split
  · split <;> exact ⟨_, _, rfl⟩
  · exact ⟨_, _, rfl⟩

/-! ### Expiries of a window (R127, R128) -/

theorem exec_windowExpiry_early {row : Instr} {phase : Phase} {work : State → CtxIdx → State} {due : Nat}
    (does : exec row s = whileRunning s fun s => s.onStepTimer p phase (work s)) (running : s.inReset = false)
    (armed : (s.port p).expiry = some due) (early : s.elapsed < due) : exec row s = .next s := by
  rw [does, whileRunning_running running, State.onStepTimer, State.due_of_lt armed early, Bool.and_false]
  rfl

theorem exec_windowExpiry_due {row : Instr} {phase : Phase} {work : State → CtxIdx → State} {due : Nat}
    (does : exec row s = whileRunning s fun s => s.onStepTimer p phase (work s)) (running : s.inReset = false)
    (armed : (s.port p).expiry = some due) (late : due ≤ s.elapsed) (here : (s.port p).phase = phase)
    (holder : (s.port p).holder = some i) : exec row s = .next (work s i) := by
  rw [does, whileRunning_running running, State.onStepTimer, State.due_of_le armed late]
  simp only [here, decide_true, Bool.and_self, if_true, holder]

/-- A failed ACTUATED for a SET ends the step (R126). -/
theorem exec_actuated_fails {tag : Byte} {done : Bool} {x : Int} {req : Nat}
    (waits : s.reportWaits p (.actuated i tag done x)) (asked : s.asked p i tag c .set)
    (phase : (s.port p).phase = .actuating) (requested : (s.port p).requested = some req)
    (fails : done = false ∨ 10 < x - req ∨ 10 < req - x) :
    exec (.actuated p) s =
      .next (((s.popReport p).setAnswered i).endStep p i (failureEnd c.kind .actuateFailed) false) := by
  have ⟨held, _⟩ := asked
  have bad : confirmed done x req = false := by
    rw [Bool.eq_false_iff, ne_eq, confirmed_iff]
    rintro ⟨isDone, low, high⟩
    rcases fails with undone | above | below
    · exact nomatch isDone.symm.trans undone
    · omega
    · omega
  have port : ((s.popReport p).port p).requested = some req := by rw [State.popReport_port]; exact requested
  have phase' : ((s.popReport p).port p).phase = .actuating := by rw [State.popReport_port]; exact phase
  have fits := State.fitsActuated_set (State.asked_popReport asked p) phase'
  have failed : (s.popReport p).actuatedFor p i done x .set =
      ((s.popReport p).setAnswered i).endStep p i (failureEnd c.kind .actuateFailed) false := by
    rw [State.actuatedFor]
    simp only [port, bad, Bool.false_eq_true, if_false]
    exact State.withCtx_some (s := s.popReport p) held _
  exact (exec_actuated waits asked fits).trans (congrArg Host.Outcome.next failed)

end

/-- Settles O48, by the three ways in which a step fails. -/
theorem stepsThatFail : Obligations.StepsThatFail := by
  intro s p i tag c a running asked att chosen
  have ⟨held, out, _, outstanding⟩ := asked
  have answered : ({ c with outstanding := none } : Context) = { c with att := some a, outstanding := none } := by
    rw [← att]
  refine ⟨fun done x req waits phase requested fails => ?_, fun due armed early =>
    ⟨exec_windowExpiry_early (phase := .actuating) (work := fun s i => s.actuationExpired p i) rfl running armed
        early,
      exec_windowExpiry_early (phase := .observing) (work := fun s i => s.observationExpired p i) rfl running armed
        early⟩,
    fun due req armed late holder phase requested => ?_, fun due armed late holder phase => ?_⟩
  · have run := exec_actuated_fails waits asked phase requested fails
    have here : ((s.popReport p).setAnswered i).ctx i = some { c with att := some a, outstanding := none } :=
      (State.ctx_onCtx (s := s.popReport p) held _).trans (congrArg some answered)
    obtain ⟨outcome, forced⟩ := State.endStep_fails here ((State.SameStep.popReport s p).onCtx i _) out chosen
      .actuateFailed
    exact ⟨_, run, outcome, forced⟩
  · have run : exec (.actuationWindowExpiry p) s = .next (s.actuationExpired p i) :=
      exec_windowExpiry_due (work := fun s i => s.actuationExpired p i) rfl running armed late phase holder
    have failed : s.actuationExpired p i =
        (s.onCtx i fun c => { c with att := (some req).or c.att, outstanding := none }).endStep p i
          (failureEnd c.kind .actuateTimeout) false := by
      rw [State.actuationExpired, State.withCtx_some held, requested]
    obtain ⟨outcome, forced⟩ := State.endStep_fails (State.ctx_onCtx held fun c =>
      { c with att := (some req).or c.att, outstanding := none }) ((State.SameStep.refl s p).onCtx i _) out chosen
      .actuateTimeout
    exact ⟨_, run.trans (congrArg Host.Outcome.next failed), outcome, forced⟩
  · have run : exec (.observationWindowExpiry p) s = .next (s.observationExpired p i) :=
      exec_windowExpiry_due (work := fun s i => s.observationExpired p i) rfl running armed late phase holder
    have same : s.SameStep (s.setAnswered i) p := (State.SameStep.refl s p).onCtx i _
    have here : (s.setAnswered i).ctx i = some { c with outstanding := none } := State.ctx_onCtx held _
    by_cases kind : c.kind = some .retreat
    · have clean : s.observationExpired p i =
          ((s.setAnswered i).onCtx i Context.afterClean).endStep p i .continues false := by
        rw [State.observationExpired, State.withCtx_some held]
        exact if_pos kind
      obtain ⟨size, n, made⟩ := ({ c with outstanding := none } : Context).afterClean_eq
      have after : ((s.setAnswered i).onCtx i Context.afterClean).ctx i =
          some { c with outstanding := none, stepSize := size, clean := n } :=
        (State.ctx_onCtx here _).trans (congrArg some made)
      refine ⟨_, run.trans (congrArg Host.Outcome.next clean), ⟨fun _ other => ?_, fun _ other => ?_,
        fun other => ?_⟩, fun state _ due => ?_⟩
      · exact nomatch kind.symm.trans other
      · exact nomatch kind.symm.trans other
      · rcases other with other | other <;> exact nomatch kind.symm.trans other
      · have cleared : (((s.setAnswered i).onCtx i Context.afterClean).clearStep p).ctx i =
            some { c with outstanding := none, stepSize := size, clean := n } :=
          (State.clearStep_ctx _ p i).trans after
        by_cases dark : a = 2500
        · obtain ⟨timer, k, closed, -⟩ := State.tenureTests_closes cleared kind (att.trans (congrArg some dark))
          rw [State.endStep_continues (v := (s.setAnswered i).onCtx i Context.afterClean) due]
          exact ⟨_, closed, att, rfl, fun _ => rfl, fun lit => absurd dark lit⟩
        · have further : ({ c with outstanding := none, stepSize := size, clean := n } : Context).endReached =
              false := by
            rw [Context.endReached]
            simp [kind, att, Config.dark, dark]
          obtain ⟨c', last, steps⟩ := State.endStep_stepless after (b := false) due out further (.inr (.inr state))
          have result := settledValues_stepless (settledValues_clean { c with outstanding := none })
            (steps.trans (congrArg Context.stepless made.symm))
          have state' : c'.state = .retreating := by have e := congrArg Context.state steps; exact e.trans state
          have kind' : c'.kind = some .retreat := by have e := congrArg Context.kind steps; exact e.trans kind
          have backoffs : c'.backoffs = c.backoffs := by have e := congrArg Context.backoffs steps; exact e
          exact ⟨c', last, (Context.sameCause_of_stepless steps).att.trans att, backoffs,
            fun zero => absurd zero dark, fun _ => ⟨state', kind', result⟩⟩
    · have failed : s.observationExpired p i =
          (s.setAnswered i).endStep p i (failureEnd c.kind .settleTimeout) false := by
        rw [State.observationExpired, State.withCtx_some held]
        exact if_neg kind
      obtain ⟨outcome, -⟩ := State.endStep_fails (here.trans (congrArg some answered)) same out chosen
        .settleTimeout
      exact ⟨_, run.trans (congrArg Host.Outcome.next failed), outcome, fun _ is => absurd is kind⟩

end Sys2Proof.Machine

/-! PROOFS. A SETTLED of the step in flight: its verdict, its settle time, and what follows (R109 to R112,
R122, R125, R132). -/

namespace Sys2Proof.Machine

open Sys2Proof

section
variable {s t u v w x : State} {p : PortNo} {i : CtxIdx} {c c1 : Context} {a dp : Nat} {e : StepEnd} {b : Bool}

/-! ### What the end of a step never changes (R125) -/

/-- No attenuation and no slowest settle changes, of a context or of port `p`. -/
structure StepLevels (p : PortNo) (s t : State) : Prop where
  levels : levelsKept s t
  slowest : (t.port p).slowest = (s.port p).slowest

namespace StepLevels

theorem refl (p : PortNo) (s : State) : StepLevels p s s := ⟨.refl s, rfl⟩

theorem trans (h : StepLevels p s t) (h' : StepLevels p t u) : StepLevels p s u :=
  ⟨h.levels.trans h'.levels, h'.slowest.trans h.slowest⟩

theorem look (h : StepLevels p s t) (frame : LookFrame t u) : StepLevels p s u := by
  refine h.trans ⟨frame.levels, ?_⟩
  have same := congrArg PortState.slowest (frame.slots p)
  exact same

theorem onPort (h : StepLevels p s t) {f : PortState → PortState} (keeps : ∀ q, (f q).slowest = q.slowest) :
    StepLevels p s (t.onPort p f) :=
  h.trans ⟨(levelsKept.refl t).of_ctx fun _ => rfl, by rw [State.port_onPort_same, keeps]⟩

theorem withCtx (h : StepLevels p s t) (i : CtxIdx) {f : Context → State}
    (hf : ∀ c, t.ctx i = some c → StepLevels p s (f c)) : StepLevels p s (t.withCtx i f) := by
  cases held : t.ctx i with
  | none => rwa [State.withCtx, held]
  | some c =>
    rw [State.withCtx_some held]
    exact hf c held

theorem clearStep (h : StepLevels p s t) : StepLevels p s (t.clearStep p) :=
  h.trans ⟨(levelsKept.refl t).of_ctx (t.clearStep_ctx p), by
    rw [State.clearStep_port, State.port_onPort_same]; rfl⟩

theorem left (h : StepLevels p s t) : StepLevels p s (t.left p) := onPort h.clearStep fun _ => rfl

theorem freezeIf (h : StepLevels p s t) (b : Bool) : StepLevels p s (t.freezeIf p b) :=
  h.trans ⟨t.freezeIf_levels p b, by rw [State.freezeIf_port]⟩

theorem lookThenGrant (h : StepLevels p s t) : StepLevels p s (t.lookThenGrant p) :=
  have rest := t.lookThenGrant_rest 0 p
  h.trans ⟨rest.levels, rest.slowest⟩

theorem takeStep (h : StepLevels p s t) : StepLevels p s (t.takeStep p) := by
  refine h.trans ⟨(levelsKept.refl t).takeStep p, ?_⟩
  have same := congrArg PortState.slowest (t.takeStep_unstepped p p)
  exact same

/-- A retreat that begins inside the end of a step. -/
theorem retreat (h : StepLevels p s t) (i : CtxIdx) :
    StepLevels p s ((t.beginRetreat i).joinRetreat i false) := by
  cases held : t.ctx i with
  | none =>
    have stays : (t.beginRetreat i).joinRetreat i false = t := by
      simp only [State.beginRetreat, State.joinRetreat, State.withCtx, held]
    rwa [stays]
  | some c =>
    have begun := State.retreatBegins held
    refine h.trans ⟨begun.levels, ?_⟩
    have same := congrArg (fun m => m.2.2.2.1) (begun.marks p)
    exact same

theorem abortAtStepEnd (h : StepLevels p s t) (i : CtxIdx) (r : Reason) :
    StepLevels p s (t.abortAtStepEnd i r) := by
  refine h.withCtx i fun c _ => ?_
  have recorded := h.look ((LookFrame.refl t).recordTeardown i c (t.localAbort r) (t.wayFor c (t.localAbort r)))
  dsimp only
  split
  · exact recorded.retreat i
  · exact recorded.look ((LookFrame.refl _).sendClose i)
  · exact recorded

theorem completeStepping (h : StepLevels p s t) (i : CtxIdx) : StepLevels p s (t.completeStepping i) := by
  refine h.withCtx i fun c _ => ?_
  split
  · exact h.look ((LookFrame.refl t).completeRamp i)
  · exact h.look ((LookFrame.refl t).finishTrim i)
  · exact h.look ((LookFrame.refl t).sendClose i)
  · exact h

theorem tenureTests (h : StepLevels p s t) (i : CtxIdx) : StepLevels p s (t.tenureTests p i) := by
  have free : StepLevels p s (t.freeSlot p) := h.onPort fun _ => rfl
  refine h.withCtx i fun c _ => ?_
  dsimp only
  split
  · exact (free.completeStepping i).lookThenGrant
  · split
    · exact lookThenGrant (free.onPort fun _ => by cases c.queueSel <;> rfl)
    · split
      · exact lookThenGrant (free.onPort fun _ => by cases c.queueSel <;> rfl)
      · exact (h.look ((LookFrame.refl t).lookForQuiet p)).takeStep

theorem endStep (h : StepLevels p s t) (i : CtxIdx) (e : StepEnd) (b : Bool) :
    StepLevels p s (t.endStep p i e b) := by
  have unmarked : StepLevels p s (t.unmarked p) := h.left.onPort fun _ => rfl
  by_cases closes : e = .closes
  · subst closes
    exact lookThenGrant (look (look unmarked ((LookFrame.refl _).onCtx i _ fun _ => by rfl))
      ((LookFrame.refl _).sendClose i))
  · cases due : (t.port p).retreatDue with
    | true =>
      rw [State.endStep_marked due closes]
      exact ((unmarked.freezeIf b).retreat i).lookThenGrant
    | false =>
      cases e with
      | closes => exact absurd rfl closes
      | continues => rw [State.endStep_continues due]; exact h.clearStep.tenureTests i
      | aborts r => rw [State.endStep_aborts due]; exact ((h.left.abortAtStepEnd i r).freezeIf b).lookThenGrant
      | halts => rw [State.endStep_halts due]; exact ((h.left.look (State.haltTrim_look _ i)).freezeIf b).lookThenGrant

end StepLevels

/-! ### The verdict (R109) -/

theorem judge_disturbance (gOk gAbort dp : Nat) : judge gOk gAbort dp = .disturbance ↔ gAbort < dp := by
  unfold judge
  split
  · simp; omega
  · split
    · simp; omega
    · simp; omega

/-- A result leaves every item of its context but S and the counts. -/
theorem Context.afterVerdict_eq (c : Context) (v : Verdict) :
    ∃ size n k, c.afterVerdict v = { c with stepSize := size, clean := n, backoffs := k } := by
  cases v with
  | clean =>
    obtain ⟨size, n, made⟩ := c.afterClean_eq
    exact ⟨size, n, c.backoffs, made⟩
  | backoff => exact ⟨_, _, _, rfl⟩
  | disturbance =>
    unfold Context.afterVerdict
    dsimp only
    split
    · exact ⟨_, _, _, rfl⟩
    · exact ⟨c.stepSize, c.clean, c.backoffs, rfl⟩

/-- S and the counts after a result that is not a disturbance of a ramp or a trim. -/
theorem settledValues_verdict (c : Context) {gOk gAbort dp : Nat} (goes : dp ≤ gAbort ∨ c.kind = some .retreat) :
    settledValues c (c.afterVerdict (judge gOk gAbort dp)) (decide (min gOk gAbort < dp)) := by
  unfold judge
  by_cases clean : dp ≤ min gOk gAbort
  · rw [if_pos clean, decide_eq_false (by omega)]
    exact settledValues_clean c
  · rw [if_neg clean, decide_eq_true (by omega)]
    split
    · exact settledValues_backoff c
    · have kind : c.kind = some .retreat := goes.resolve_left (by omega)
      rw [Context.afterVerdict]
      simp only [kind, if_true]
      exact settledValues_backoff c

/-! ### A SETTLED (R125) -/

/-- The context with its settle time and its result. -/
def Context.settledIn (c : Context) (time : Nat) (v : Verdict) : Context :=
  ({ c with slowest := max c.slowest time, outstanding := none } : Context).afterVerdict v

/-- The part with a settle time and a result taken, before the step ends. -/
def State.settling (s : State) (p : PortNo) (i : CtxIdx) (time : Nat) (v : Verdict) : State :=
  (s.onPort p fun ps => { ps with slowest := max ps.slowest time }).onCtx i fun c => c.settledIn time v

/-- How the step ends that a SETTLED has judged (R112, R125). -/
def verdictEnd (kind : Option RampKind) (v : Verdict) : StepEnd × Bool :=
  if v = .disturbance then
    match kind with
    | some .ramp => (.aborts .disturbanceAbort, true)
    | some .trim => (.halts, true)
    | some .retreat => (.continues, false)
    | none => (.continues, false)
  else (.continues, false)

/-- The settle time that a SETTLED reports (R125). -/
def State.settleTime (s : State) (p : PortNo) : Nat :=
  saturate (s.elapsed - (s.port p).confirmMark.getD s.elapsed)

theorem State.settle_eq (held : s.ctx i = some c) (params : PortParams) (here : (s.port p).params = params) :
    s.settle p i dp =
      (s.settling p i (s.settleTime p) (judge params.gOk params.gAbort dp)).endStep p i
        (verdictEnd c.kind (judge params.gOk params.gAbort dp)).1
        (verdictEnd c.kind (judge params.gOk params.gAbort dp)).2 := by
  subst here
  rw [State.settle, State.withCtx_some held]
  dsimp only
  generalize c.kind = kind
  generalize judge (s.port p).params.gOk (s.port p).params.gAbort dp = verdict
  cases verdict with
  | clean => exact rfl
  | backoff => exact rfl
  | disturbance =>
    cases kind with
    | none => exact rfl
    | some k => cases k <;> exact rfl

theorem exec_settled {tag : Byte} (waits : s.reportWaits p (.settled i tag dp)) (asked : s.asked p i tag c .set)
    (phase : (s.port p).phase = .observing) : exec (.settled p) s = .next ((s.popReport p).settle p i dp) := by
  have run : exec (.settled p) s = .next ((s.popReport p).ifMatched p i tag ((s.popReport p).fitsSettle p) fun _ =>
      (s.popReport p).settle p i dp) := onReport_eq (row := settledRow p) waits rfl
  have phase' : ((s.popReport p).port p).phase = .observing := by rw [State.popReport_port]; exact phase
  have asked' := State.asked_popReport asked p
  rw [run, State.ifMatched_asked asked' (State.fitsSettle_set asked' phase')]

end

end Sys2Proof.Machine

/-! PROOFS. The judgement of a settled step, and the freeze of its port (R109 to R112, R132). -/

namespace Sys2Proof.Machine

open Sys2Proof

section
variable {s t u v w x : State} {p : PortNo} {i : CtxIdx} {c c1 : Context} {a : Nat} {r : Reason}

/-! ### The freeze (R132) -/

/-- A disturbance judged in `x` freezes the port, and what has followed has written no more. -/
theorem freezesPort_of (params : (x.port p).params = (s.port p).params) (frozen : (x.port p).frozen = (s.port p).frozen)
    (ring : x.ring = w.ring) (frozen' : (t.port p).frozen = ((x.freezeIf p true).port p).frozen)
    (ring' : (s.port p).swapPending = false → t.ring = (x.freezeIf p true).ring) : freezesPort s w t p := by
  refine ⟨?_, fun none => ?_⟩
  · rw [frozen', State.freezeIf_port, params, frozen, Bool.true_and]
  · rw [ring' none, State.freezeIf_ring, params, frozen, Bool.true_and]
    split
    · exact State.report_ring_congr ring _
    · exact ring

/-- After the step of an aborted ramp (R122, R132). -/
theorem freezesPort_aborts (held : v.ctx i = some c1) (same : s.SameStep v p) (out : c1.outPort = p)
    (state : c1.state = .ramping) :
    freezesPort s s ((((v.left p).abortAtStepEnd i r).freezeIf p true).lookThenGrant p) p := by
  subst out
  have aborted := State.abortsAtEnd (s := v.left c1.outPort) (i := i) (c := c1) ((v.left_ctx _ i).trans held)
    (by simp [Context.rangeOpen, state]) (by simp [state]) r
  have alike : s.Alike (v.left c1.outPort) := same.alike.left _
  set x := (v.left c1.outPort).abortAtStepEnd i r with hx
  have rest := (x.freezeIf c1.outPort true).lookThenGrant_rest i c1.outPort
  have left := v.left_port c1.outPort
  refine freezesPort_of ?_ ?_ (aborted.ring.trans alike.ring) rest.frozen fun none => (rest.stands ?_).2
  · have e := congrArg (fun m => m.2.2.2.2.2) (aborted.marks c1.outPort)
    have here : ((v.left c1.outPort).port c1.outPort).params = (v.port c1.outPort).params := by rw [left]; rfl
    exact Eq.trans e (here.trans same.params)
  · have e := congrArg (fun m => m.2.2.1) (aborted.marks c1.outPort)
    have here : ((v.left c1.outPort).port c1.outPort).frozen = (v.port c1.outPort).frozen := by rw [left]; rfl
    exact Eq.trans e (here.trans same.frozen)
  · rw [State.freezeIf_port]
    exact (aborted.swapPending _).trans ((alike.swapPending _).trans none)

/-- After the step of a halted trim: its Trim record comes first (R150, R176). -/
theorem freezesPort_halts (held : v.ctx i = some c1) (same : s.SameStep v p) (att : c1.att = some a)
    (path : c1.path = c.path) (flags : c1.flags = c.flags) :
    freezesPort s (s.report (.trim c.path false a { c.flags with trimHalted := true }))
      ((((v.left p).haltTrim i).freezeIf p true).lookThenGrant p) p := by
  have alike : s.Alike (v.left p) := same.alike.left p
  have here : (v.left p).ctx i = some c1 := (v.left_ctx p i).trans held
  have look := ((v.left p).haltTrim_look i).slots p
  set x := (v.left p).haltTrim i with hx
  have rest := (x.freezeIf p true).lookThenGrant_rest i p
  have left := v.left_port p
  refine freezesPort_of ?_ ?_ ?_ rest.frozen fun none => (rest.stands ?_).2
  · have e := congrArg PortState.params look
    have kept : ((v.left p).port p).params = (v.port p).params := by rw [left]; rfl
    exact Eq.trans e (kept.trans same.params)
  · have e := congrArg PortState.frozen look
    have kept : ((v.left p).port p).frozen = (v.port p).frozen := by rw [left]; rfl
    exact Eq.trans e (kept.trans same.frozen)
  · rw [hx, State.haltTrim_ring here, path, flags, att]
    exact State.report_ring_congr alike.ring _
  · rw [State.freezeIf_port]
    exact (onlyAround_swapPending (onlyAround_refl (v.left p) p i).haltTrim).trans
      ((alike.swapPending p).trans none)

/-- After the step of a marked retreat (R122, R132). -/
theorem freezesPort_marked (held : v.ctx i = some c1) (same : s.SameStep v p) :
    freezesPort s s (((((v.unmarked p).freezeIf p true).beginRetreat i).joinRetreat i false).lookThenGrant p) p := by
  have here : ((v.unmarked p).freezeIf p true).ctx i = some c1 :=
    (State.freezeIf_ctx _ _ _ _).trans ((v.left_ctx p i).trans held)
  have alike : s.Alike (v.unmarked p) := (same.alike.left p).onPort p _ (fun _ => rfl) fun _ => rfl
  have port : (v.unmarked p).port p = { (v.port p).left with retreatDue := false } := by
    rw [State.unmarked, State.port_onPort_same, State.left_port]
  have begun := State.retreatBegins here
  set y := (((v.unmarked p).freezeIf p true).beginRetreat i).joinRetreat i false with hy
  have rest := y.lookThenGrant_rest i p
  refine freezesPort_of (x := v.unmarked p) ?_ ?_ alike.ring ?_ fun none => ?_
  · rw [port]; exact same.params
  · rw [port]; exact same.frozen
  · have e := congrArg (fun m => m.2.2.1) (begun.marks p)
    exact rest.frozen.trans e
  · have pending : (y.port p).swapPending = false := by
      rw [begun.swapPending, State.freezeIf_port]
      exact (alike.swapPending p).trans none
    exact (rest.stands pending).2.trans begun.ring

/-! ### The part as a SETTLED leaves it -/

theorem Context.settledIn_eq (c : Context) (time : Nat) (v : Verdict) : ∃ size n k, c.settledIn time v =
    { c with slowest := max c.slowest time, outstanding := none, stepSize := size, clean := n, backoffs := k } := by
  obtain ⟨size, n, k, made⟩ :=
    ({ c with slowest := max c.slowest time, outstanding := none } : Context).afterVerdict_eq v
  exact ⟨size, n, k, made⟩

theorem State.settling_sameStep (s : State) (p : PortNo) (i : CtxIdx) (time : Nat) (v : Verdict) :
    s.SameStep ((s.popReport p).settling p i time v) p := by
  refine ⟨((State.Alike.popReport s p).onPort p _ (fun _ => by rfl) fun _ => by rfl).onCtx i _, ?_, rfl, rfl⟩
  have port : ((s.popReport p).settling p i time v).port p =
      { s.port p with reports := (s.port p).reports.drop 1, slowest := max (s.port p).slowest time } := by
    refine (State.port_onPort_same _ _ _).trans ?_
    rw [State.popReport_port]
  rw [port]
  rfl

theorem State.settling_slowest (s : State) (p : PortNo) (i : CtxIdx) (time : Nat) (v : Verdict) :
    (((s.popReport p).settling p i time v).port p).slowest = max (s.port p).slowest time := by
  refine (congrArg PortState.slowest (State.port_onPort_same _ _ _)).trans ?_
  rw [State.popReport_port]

theorem exec_settled_eq {tag : Byte} {dp : Nat} (waits : s.reportWaits p (.settled i tag dp))
    (asked : s.asked p i tag c .set) (phase : (s.port p).phase = .observing) :
    let verdict := judge (s.port p).params.gOk (s.port p).params.gAbort dp
    exec (.settled p) s = .next (((s.popReport p).settling p i ((s.popReport p).settleTime p) verdict).endStep p i
      (verdictEnd c.kind verdict).1 (verdictEnd c.kind verdict).2) := by
  have ⟨held, _⟩ := asked
  have params : ((s.popReport p).port p).params = (s.port p).params := by rw [State.popReport_port]
  have settles := State.settle_eq (s := s.popReport p) (dp := dp) held _ params
  exact (exec_settled waits asked phase).trans (congrArg Host.Outcome.next settles)

theorem State.settleTime_popReport {mark : Nat} (confirmed : (s.port p).confirmMark = some mark) :
    (s.popReport p).settleTime p = min (s.elapsed - mark) 65535 := by
  rw [State.settleTime, State.popReport_port, confirmed]
  rfl

theorem verdictEnd_goes {kind : Option RampKind} {gOk gAbort dp : Nat}
    (goes : dp ≤ gAbort ∨ kind = some .retreat) : verdictEnd kind (judge gOk gAbort dp) = (.continues, false) := by
  unfold verdictEnd
  split
  next disturbed =>
    have low := (judge_disturbance gOk gAbort dp).1 disturbed
    have retreat := goes.resolve_left (by omega)
    rw [retreat]
  next => rfl

theorem verdictEnd_disturbed {kind : Option RampKind} {gOk gAbort dp : Nat} (high : gAbort < dp) :
    verdictEnd kind (judge gOk gAbort dp) = match kind with
      | some .ramp => (.aborts .disturbanceAbort, true)
      | some .trim => (.halts, true)
      | some .retreat => (.continues, false)
      | none => (.continues, false) :=
  if_pos ((judge_disturbance gOk gAbort dp).2 high)

theorem verdictEnd_lit (kind : Option RampKind) (v : Verdict) : (verdictEnd kind v).1 ≠ .closes := by
  unfold verdictEnd
  split
  · split <;> exact nofun
  · exact nofun

theorem Context.endReached_ramp {x : Context} (kind : x.kind = some .ramp ∨ x.kind = some .trim)
    (att : x.att = some a) (short : x.target ≠ some a) : x.endReached = false := by
  unfold Context.endReached
  rcases kind with kind | kind <;> simp [kind, att, Ne.symm short]

theorem Context.endReached_retreat {x : Context} (kind : x.kind = some .retreat) (att : x.att = some a)
    (lit : a ≠ 2500) : x.endReached = false := by
  unfold Context.endReached
  simp [kind, att, Config.dark, lit]

end

/-- Settles O49, by the mark and by the verdict on the step. -/
theorem settledJudgesTheStep : Obligations.SettledJudgesTheStep := by
  intro s p i tag c a dp mark waits asked phase holder confirmed att q time backoff
  have ⟨held, out, _⟩ := asked
  set verdict := judge q.gOk q.gAbort dp with hverdict
  set v := (s.popReport p).settling p i time verdict with hv
  have run : exec (.settled p) s =
      .next (v.endStep p i (verdictEnd c.kind verdict).1 (verdictEnd c.kind verdict).2) := by
    rw [hv, show time = (s.popReport p).settleTime p from (State.settleTime_popReport confirmed).symm]
    exact exec_settled_eq waits asked phase
  have same : s.SameStep v p := s.settling_sameStep p i time verdict
  have here : v.ctx i = some (c.settledIn time verdict) :=
    State.ctx_onCtx (s := (s.popReport p).onPort p _) held _
  obtain ⟨size, n, k, made⟩ := c.settledIn_eq time verdict
  have here' := here.trans (congrArg some made)
  have levels := (StepLevels.refl p v).endStep i (verdictEnd c.kind verdict).1 (verdictEnd c.kind verdict).2
  refine ⟨_, run, levels.slowest.trans (s.settling_slowest p i time verdict), fun c' after => ?_,
    fun due kind torn => ?_, fun due => ?_⟩
  · obtain ⟨c0, held0, level⟩ := levels.levels i c' after
    cases here'.symm.trans held0
    exact ⟨congrArg Prod.snd level, (congrArg Prod.fst level).trans att⟩
  · rw [State.endStep_marked (same.due.trans due) (verdictEnd_lit _ _)]
    refine ⟨markedRetreatBegins_of here' out att rfl rfl rfl rfl, fun high => ?_⟩
    have disturbed : (verdictEnd c.kind verdict).2 = true := by
      rw [hverdict, verdictEnd_disturbed high]
      rcases kind with kind | kind <;> rw [kind]
    rw [disturbed]
    exact freezesPort_marked here' same
  · have due' := same.due.trans due
    have goesOn (goes : dp ≤ q.gAbort ∨ c.kind = some .retreat)
        (further : (c.settledIn time verdict).endReached = false)
        (steps : c.state = .ramping ∨ c.state = .trimming ∨ c.state = .retreating) :
        ∃ c', (v.endStep p i (verdictEnd c.kind verdict).1 (verdictEnd c.kind verdict).2).ctx i = some c' ∧
          c'.state = c.state ∧ c'.kind = c.kind ∧ settledValues c c' backoff := by
      rw [hverdict, verdictEnd_goes goes]
      have out' : (c.settledIn time verdict).outPort = p := by rw [made]; exact out
      have steps' : (c.settledIn time verdict).state = c.state := by rw [made]
      have kind' : (c.settledIn time verdict).kind = c.kind := by rw [made]
      obtain ⟨c', after, last⟩ := State.endStep_stepless here (b := false) due' out' further (by rwa [steps'])
      have values := settledValues_verdict (gOk := q.gOk) (dp := dp)
        { c with slowest := max c.slowest time, outstanding := none } goes
      have state : c'.state = (c.settledIn time verdict).state := by have e := congrArg Context.state last; exact e
      have kind : c'.kind = (c.settledIn time verdict).kind := by have e := congrArg Context.kind last; exact e
      exact ⟨c', after, state.trans steps', kind.trans kind', settledValues_stepless values last⟩
    refine ⟨fun low stepping short => ?_, fun state kind lit => ?_, fun high state kind => ?_,
      fun high state kind => ?_⟩
    · refine goesOn (.inl low) ?_ (stepping.elim (fun h => .inl h.1) fun h => .inr (.inl h.1))
      rw [made]
      exact Context.endReached_ramp (stepping.imp And.right And.right) att short
    · obtain ⟨c', after, state', kind', values⟩ := goesOn (.inr kind) (by
        rw [made]; exact Context.endReached_retreat kind att lit) (.inr (.inr state))
      exact ⟨c', after, state'.trans state, kind'.trans kind, values⟩
    · rw [hverdict, verdictEnd_disturbed high, kind]
      dsimp only
      rw [State.endStep_aborts due']
      exact ⟨rampAborts_of here' same out state att rfl rfl, freezesPort_aborts here' same out state⟩
    · rw [hverdict, verdictEnd_disturbed high, kind]
      dsimp only
      rw [State.endStep_halts due']
      exact ⟨trimHalts_atEnd here' same out att rfl rfl rfl, freezesPort_halts here' same att rfl rfl⟩

end Sys2Proof.Machine

/-! PROOFS. Stepping that reaches its end: the ramp, the trim and the retreat handed on (R121, R142, R150,
R160). -/

namespace Sys2Proof.Machine

open Sys2Proof

section
variable {s t u v : State} {p : PortNo} {i : CtxIdx} {c c1 : Context} {a : Nat}

theorem State.Alike.setRecord (h : s.Alike u) (i : CtxIdx) (r : Record) : s.Alike (u.setRecord i r) :=
  ⟨h.straps, h.serves, h.out, h.swapPending, h.ring, h.timeBase⟩

/-- A frame formed first, before the others have been attended to. -/
theorem sentFirst_emit {d : DegreeNo} {n : NodeId} {m : PeerMsg} (node : u.nodeId = s.nodeId)
    (out : (u.port (portOf d)).out = (s.port (portOf d)).out)
    (rest : Keeps (u.emit (portOf d) (.peer ⟨n, u.nodeId, d, m⟩)) t) :
    sentFirst s t (portOf d) ⟨n, s.nodeId, d, m⟩ := by
  obtain ⟨fs, sent⟩ := sentFirst_of_sentOn (sentOn_emit u (portOf d) (.peer ⟨n, u.nodeId, d, m⟩)) rest
  exact ⟨fs, by rw [sent, out, node]⟩

/-- The context of stepping that has been handed on. -/
structure HandedOn (s t : State) (i : CtxIdx) (a : Nat) (state : CtxState) (c' : Context) : Prop where
  ctx : t.ctx i = some c'
  kind : c'.kind = none
  att : c'.att = some a
  state : c'.state = state

/-- With no swap pending the look and the grant leave what has been handed on. -/
theorem HandedOn.rest {state : CtxState} {c' : Context} (handed : HandedOn s u i a state c')
    (rest : StepRest i p u t) (none : (u.port p).swapPending = false) :
    ∃ c'', HandedOn s t i a state c'' ∧ c''.stepless = c'.stepless ∧ t.ring = u.ring := by
  obtain ⟨steps, ring⟩ := rest.stands none
  rw [handed.ctx, Option.map_some, Option.map_eq_some_iff] at steps
  obtain ⟨c'', last, same⟩ := steps
  have kind : c''.kind = c'.kind := by have e := congrArg Context.kind same; exact e
  have att : c''.att = c'.att := by have e := congrArg Context.att same; exact e
  have state : c''.state = c'.state := by have e := congrArg Context.state same; exact e
  exact ⟨c'', ⟨last, kind.trans handed.kind, att.trans handed.att, state.trans handed.state⟩, same, ring⟩

/-- A frame formed leaves the context that has been handed on. -/
theorem HandedOn.sends {state : CtxState} {c' : Context} (handed : HandedOn s u i a state c') (q : PortNo)
    (fs : List OutFrame) : HandedOn s (u.sends q fs) i a state c' :=
  ⟨handed.ctx, handed.kind, handed.att, handed.state⟩

theorem State.sendDownstream_sends (s : State) (c : Context) (m : PeerMsg) :
    ∃ q fs, s.sendDownstream c m = s.sends q fs := by
  rcases s.sendDownstream_eq c m with e | ⟨q, f, e⟩
  · exact ⟨0, [], e.trans (s.sends_nil _).symm⟩
  · exact ⟨q, [f], e⟩

theorem Context.endReached_goal {x : Context} (kind : x.kind = some .ramp ∨ x.kind = some .trim)
    (att : x.att = some a) (goal : x.target = some a) : x.endReached = true := by
  unfold Context.endReached
  rcases kind with kind | kind <;> simp [kind, att, goal]

/-! ### A ramp (R121, R142) -/

/-- A ramp complete at a head or a transit, with no swap pending. -/
theorem State.completeRamp_handsOn (held : u.ctx i = some c1) (alike : s.Alike u) (elapsed : u.elapsed = s.elapsed)
    (part : u.part = s.part) (att : c1.att = some a) (out : c1.outPort = p)
    (none : (s.port p).swapPending = false) (onward : c1.role ≠ .tail) :
    ∃ c', HandedOn s ((u.completeRamp i).lookThenGrant p) i a .litWait c' ∧
      c'.timer = some (s.elapsed + s.part.litHop * c1.remaining.getD 0) ∧
      ((u.completeRamp i).lookThenGrant p).ring = s.ring ∧
      ∀ d n, p = portOf d → s.servesDegree d n →
        sentFirst s ((u.completeRamp i).lookThenGrant p) p ⟨n, s.nodeId, d, .light c1.path⟩ := by
  have does := State.completeRamp_onward (c := c1) u i (u.record i).tag onward
  rw [State.setRecord_self held] at does
  set v := u.setRecord i ⟨(u.record i).tag, some { c1 with
    kind := .none, state := .litWait, timer := some (u.elapsed + u.part.litHop * c1.remaining.getD 0) }⟩ with hv
  have alike' : s.Alike v := alike.setRecord i _
  obtain ⟨q, fs, sent⟩ := v.sendDownstream_sends c1 (.light c1.path)
  have rest := (v.sendDownstream c1 (.light c1.path)).lookThenGrant_rest i p
  rw [does]
  have pending : ((v.sendDownstream c1 (.light c1.path)).port p).swapPending = false := by
    rw [sent, State.sends_swapPending]
    exact (alike'.swapPending p).trans none
  have waits : HandedOn s v i a .litWait { c1 with
      kind := .none, state := .litWait, timer := some (u.elapsed + u.part.litHop * c1.remaining.getD 0) } :=
    ⟨State.ctx_setRecord u i _, rfl, att, rfl⟩
  have handed := waits.sends q fs
  rw [← sent] at handed
  obtain ⟨c', last, same, ring⟩ := handed.rest rest pending
  refine ⟨c', last, ?_, ?_, fun d n isPort serves => ?_⟩
  · have timer := congrArg Context.timer same
    rw [← elapsed, ← part]
    exact timer
  · rw [ring, sent]
    exact alike'.ring
  · have served := State.sendDownstream_served (s := v) (.light c1.path) (out.trans isPort)
      ((alike'.serves d n).2 serves)
    have keeps := rest.keeps
    rw [served] at keeps ⊢
    rw [isPort] at keeps ⊢
    exact sentFirst_emit alike'.nodeId (alike'.out _) keeps

/-- A ramp complete at a tail, with no swap pending and no trim due. -/
theorem State.completeRamp_serves {first : Nat} (held : u.ctx i = some c1) (alike : s.Alike u)
    (att : c1.att = some a) (chosen : c1.chosen = some first) (undue : c1.flags.trimDue = false)
    (none : (s.port p).swapPending = false) (role : c1.role = .tail) :
    ∃ c', HandedOn s ((u.completeRamp i).lookThenGrant p) i a .inService c' ∧ c'.serviceTag = some s.timeBase ∧
      ((u.completeRamp i).lookThenGrant p).ring =
        (s.report (.inService c1.path .tail s.timeBase a c1.flags)).ring ∧
      ∀ e m, c1.inPort = .degree e → s.servesDegree e m →
        sentFirst s ((u.completeRamp i).lookThenGrant p) (portOf e) ⟨m, s.nodeId, e, .lit c1.path⟩ := by
  obtain ⟨v, does, serves⟩ := State.completeRamp_tail (c := c1) u i (u.record i).tag role att chosen
  rw [State.setRecord_self held] at does
  obtain ⟨c0, here, kind, att', -, service, state⟩ := serves.ctx
  obtain ⟨q, fs, sent, content⟩ := v.sendUpstream_sends c1 (.lit c1.path)
  rw [does]
  have pending : ((v.sendUpstream c1 (.lit c1.path)).port p).swapPending = false := by
    rw [sent, State.sends_swapPending, serves.swapPending]
    exact (alike.swapPending p).trans none
  have rest := (v.sendUpstream c1 (.lit c1.path)).lookThenGrant_rest i p
  have handed := (HandedOn.mk (s := s) here kind att' (state undue)).sends q fs
  rw [← sent] at handed
  obtain ⟨c', last, same, ring⟩ := handed.rest rest pending
  refine ⟨c', last, ?_, ?_, fun e m inPort from_ => ?_⟩
  · have tag := congrArg Context.serviceTag same
    have tag' : c'.serviceTag = c0.serviceTag := tag
    rw [tag', service, alike.timeBase]
  · have first : (v.sendUpstream c1 (.lit c1.path)).ring = v.ring := by rw [sent]; rfl
    rw [ring, first, serves.ring, alike.timeBase]
    exact State.report_ring_congr alike.ring _
  · have served := State.sendUpstream_served (s := v) (.lit c1.path) inPort
      ((State.servesDegree_congr serves.straps (serves.degree e) m).2 ((alike.serves e m).2 from_))
    have keeps := rest.keeps
    have node : v.nodeId = s.nodeId := by
      rw [State.nodeId, serves.straps]
      exact alike.nodeId
    rw [served] at keeps ⊢
    exact sentFirst_emit node ((serves.out undue _).trans (alike.out _)) keeps

/-! ### A trim (R150) -/

/-- A trim that is done, with no swap pending and no trim due. -/
theorem State.finishTrim_serves (held : u.ctx i = some c1) (alike : s.Alike u) (att : c1.att = some a)
    (undue : c1.flags.trimDue = false) (none : (s.port p).swapPending = false) :
    ∃ c', HandedOn s ((u.finishTrim i).lookThenGrant p) i a .inService c' ∧ c'.flags.trimHalted = false ∧
      ((u.finishTrim i).lookThenGrant p).ring =
        (s.report (.trim c1.path true a { c1.flags with trimHalted := false })).ring := by
  set w := u.onCtx i fun c => { c with state := .inService, kind := .none,
                                       flags := { c.flags with trimHalted := false } } with hw
  set x : RingRecord := .trim c1.path true a { c1.flags with trimHalted := false } with hx
  have here : (w.report x).ctx i = some { c1 with
      state := .inService, kind := .none, flags := { c1.flags with trimHalted := false } } :=
    (State.report_ctx _ _ i).trans (State.ctx_onCtx held _)
  have does : u.finishTrim i = w.report x := by
    have reported : u.finishTrim i =
        (w.report (.trim c1.path true (c1.att.getD 0) { c1.flags with trimHalted := false })).trimIfDue i :=
      State.withCtx_some held _
    rw [reported, att]
    exact (State.withCtx_some here _).trans (if_neg (by simp [undue]))
  have rest := (w.report x).lookThenGrant_rest i p
  have pending : ((w.report x).port p).swapPending = false := by
    rw [State.report_port]
    exact (alike.swapPending p).trans none
  rw [does]
  obtain ⟨c', last, same, ring⟩ := (HandedOn.mk (s := s) here rfl att rfl).rest rest pending
  refine ⟨c', last, ?_, ring.trans ?_⟩
  · have halted := congrArg (fun x => x.flags.trimHalted) same
    exact halted
  · exact State.report_ring_congr (s := s) (t := w) alike.ring x

/-- What completes a ramp. -/
theorem State.completeStepping_ramp (held : s.ctx i = some c) (kind : c.kind = some .ramp) :
    s.completeStepping i = s.completeRamp i := by
  rw [State.completeStepping, State.withCtx_some held, kind]

/-- What completes a trim. -/
theorem State.completeStepping_trim (held : s.ctx i = some c) (kind : c.kind = some .trim) :
    s.completeStepping i = s.finishTrim i := by
  rw [State.completeStepping, State.withCtx_some held, kind]

end

/-- Settles O50, by the kind of the stepping that has reached its end. -/
theorem steppingThatReachesItsEnd : Obligations.SteppingThatReachesItsEnd := by
  intro s p i tag c a dp waits asked phase holder att due none undue chosen
  obtain ⟨first, range⟩ := Option.isSome_iff_exists.1 chosen
  have ⟨held, out, _⟩ := asked
  set time := (s.popReport p).settleTime p
  set verdict := judge (s.port p).params.gOk (s.port p).params.gAbort dp with hverdict
  set v := (s.popReport p).settling p i time verdict with hv
  have run : exec (.settled p) s =
      .next (v.endStep p i (verdictEnd c.kind verdict).1 (verdictEnd c.kind verdict).2) :=
    exec_settled_eq waits asked phase
  have same : s.SameStep v p := s.settling_sameStep p i time verdict
  obtain ⟨size, n, k, made⟩ := c.settledIn_eq time verdict
  have here : v.ctx i = some { c with
      slowest := max c.slowest time, outstanding := .none, stepSize := size, clean := n, backoffs := k } :=
    (State.ctx_onCtx (s := (s.popReport p).onPort p _) held _).trans (congrArg some made)
  have levels := (StepLevels.refl p v).endStep i (verdictEnd c.kind verdict).1 (verdictEnd c.kind verdict).2
  have alike : s.Alike (v.left p) := same.alike.left p
  have left := (v.left_ctx p i).trans here
  have cleared := (v.clearStep_ctx p i).trans here
  have tests (goes : dp ≤ (s.port p).params.gAbort ∨ c.kind = some .retreat) :
      v.endStep p i (verdictEnd c.kind verdict).1 (verdictEnd c.kind verdict).2 =
        (v.clearStep p).tenureTests p i := by
    rw [hverdict, verdictEnd_goes goes]
    exact State.endStep_continues (same.due.trans due)
  refine ⟨_, run, fun low state kind goal => ?_, fun low state kind goal => ?_, fun state kind dark => ?_,
    fun c' after => ?_⟩
  · have handsOn : (v.clearStep p).tenureTests p i = ((v.left p).completeRamp i).lookThenGrant p := by
      rw [State.tenureTests_end cleared (Context.endReached_goal (.inl kind) att goal)]
      exact congrArg (State.lookThenGrant · p) (State.completeStepping_ramp left kind)
    rw [tests (.inl low), handsOn]
    by_cases role : c.role = .tail
    · obtain ⟨c', handed, service, ring, sent⟩ := State.completeRamp_serves left alike att range undue none role
      exact ⟨c', handed.ctx, handed.kind, handed.att, fun onward => absurd role onward,
        fun _ => ⟨handed.state, service, ring, sent⟩⟩
    · have elapsed : (v.left p).elapsed = s.elapsed := ((Keeps.refl v).left p).elapsed.trans same.elapsed
      have part : (v.left p).part = s.part := ((Keeps.refl v).left p).part.trans same.part
      obtain ⟨c', handed, timer, ring, sent⟩ := State.completeRamp_handsOn left alike elapsed part att out none role
      exact ⟨c', handed.ctx, handed.kind, handed.att, fun _ => ⟨handed.state, timer, ring, sent⟩,
        fun tail => absurd tail role⟩
  · have handsOn : (v.clearStep p).tenureTests p i = ((v.left p).finishTrim i).lookThenGrant p := by
      rw [State.tenureTests_end cleared (Context.endReached_goal (.inr kind) att goal)]
      exact congrArg (State.lookThenGrant · p) (State.completeStepping_trim left kind)
    rw [tests (.inl low), handsOn]
    obtain ⟨c', handed, halted, ring⟩ := State.finishTrim_serves left alike att undue none
    exact ⟨c', handed.ctx, handed.state, handed.kind, halted, ring⟩
  · rw [tests (.inr kind)]
    obtain ⟨timer, k, closed, close, rest⟩ := State.tenureTests_closes cleared kind (att.trans (congrArg some dark))
    refine ⟨_, closed, rfl, close chosen, rfl, ?_⟩
    have quiet : ((((v.clearStep p).freeSlot p).sendClose i).port p).swapPending = false :=
      (onlyAround_swapPending (onlyAround_refl (v.left p) p i).sendClose).trans ((alike.swapPending p).trans none)
    exact (rest.stands quiet).2.trans ((State.sendClose_ring _ i).trans alike.ring)
  · obtain ⟨c0, held0, level⟩ := levels.levels i c' after
    cases here.symm.trans held0
    exact (congrArg Prod.fst level).trans att

end Sys2Proof.Machine

/-! PROOFS. The holder of a slot at the end of a step that goes on: it yields to a higher queue, yields
after its burst, or steps on (R117, R119, R120). -/

namespace Sys2Proof.Machine

open Sys2Proof

section
variable {s t u v w : State} {p : PortNo} {i j : CtxIdx} {c : Context} {k : QueueSel} {rest : List CtxIdx}
  {x : PortState}

/-! ### The queues of a port by rank -/

/-- The contexts that wait above queue `k` and may be served, first served first (R117). -/
def PortState.aboveQueue (x : PortState) : QueueSel → List CtxIdx
  | .retreat => []
  | .restore => x.retreatQ
  | .normal => x.retreatQ ++ if x.frozen = false then x.restoreQ else []

theorem PortState.higherWaits_iff (x : PortState) (k : QueueSel) :
    x.higherWaits k = true ↔ x.aboveQueue k ≠ [] := by
  cases k with
  | retreat => simp [PortState.higherWaits, PortState.aboveQueue]
  | restore => simp [PortState.higherWaits, PortState.aboveQueue]
  | normal =>
    simp only [PortState.higherWaits, PortState.aboveQueue, PortState.serves, ne_eq, List.append_eq_nil_iff]
    cases x.frozen <;> cases x.retreatQ <;> simp

theorem PortState.queue_setQueue (x : PortState) (k : QueueSel) (xs : List CtxIdx) :
    (x.setQueue k xs).queue k = xs := by cases k <;> rfl

theorem PortState.queue_setQueue_other {l : QueueSel} (x : PortState) (xs : List CtxIdx) (other : l ≠ k) :
    (x.setQueue k xs).queue l = x.queue l := by
  cases k <;> cases l <;> simp_all [PortState.setQueue, PortState.queue]

/-- The first context above a queue is the head of the queue that is served next. -/
theorem PortState.nextQueue_above (waits : x.aboveQueue k ≠ []) : ∃ l j rest, l ≠ k ∧ x.nextQueue = some l ∧
    x.queue l = j :: rest ∧ (x.aboveQueue k).head? = some j := by
  cases retreats : x.retreatQ with
  | cons j rest =>
    refine ⟨.retreat, j, rest, ?_, ?_, retreats, ?_⟩
    · rintro rfl
      exact waits rfl
    · simp [PortState.nextQueue, PortState.serves, PortState.queue, retreats]
    · cases k with
      | retreat => exact absurd rfl waits
      | restore => simp [PortState.aboveQueue, retreats]
      | normal => simp [PortState.aboveQueue, retreats]
  | nil =>
    cases k with
    | retreat => exact absurd rfl waits
    | restore => exact absurd retreats waits
    | normal =>
      rw [PortState.aboveQueue, retreats, List.nil_append] at waits ⊢
      split at waits
      next running =>
        obtain ⟨j, rest, restores⟩ := List.exists_cons_of_ne_nil waits
        refine ⟨.restore, j, rest, by decide, ?_, restores, ?_⟩
        · simp [PortState.nextQueue, PortState.serves, PortState.queue, retreats, restores, running]
        · rw [if_pos running, restores]; rfl
      next => exact absurd rfl waits

/-- A queue with none above it is served next. -/
theorem PortState.nextQueue_own (first : x.aboveQueue k = []) (serves : x.serves k = true) (waits : x.queue k ≠ []) :
    x.nextQueue = some k := by
  cases k with
  | retreat => simp_all [PortState.nextQueue, PortState.serves, PortState.queue]
  | restore => simp_all [PortState.nextQueue, PortState.serves, PortState.queue, PortState.aboveQueue]
  | normal => simp_all [PortState.nextQueue, PortState.serves, PortState.queue, PortState.aboveQueue]

/-! ### The grant to the queue that is served next (R117) -/

theorem State.considerGrant_next (free : (s.port p).holder = none) (idle : (s.port p).phase = .idle)
    (next : (s.port p).nextQueue = some k) (queue : (s.port p).queue k = j :: rest) :
    ((s.considerGrant p).port p).unstepped = ((s.port p).grantedTo k j rest).unstepped := by
  have granted : s.considerGrant p = (s.onPort p fun x => x.grantedTo k j rest).takeStep p := by
    unfold State.considerGrant
    simp only [free, idle, Option.isNone_none, decide_true, Bool.and_self, if_true, next]
    rw [State.grantTo, queue]
    rfl
  rw [granted, State.takeStep_unstepped, State.port_onPort_same]

theorem PortState.queue_unstepped (x : PortState) (k : QueueSel) : x.unstepped.queue k = x.queue k := by
  cases k <;> rfl

theorem PortState.queue_grantedTo (x : PortState) (k l : QueueSel) (j : CtxIdx) (rest : List CtxIdx) :
    (x.grantedTo k j rest).queue l = (x.setQueue k rest).queue l := by
  cases l <;> rfl

/-! ### The holder yields (R119, R120) -/

/-- The holder of a slot back in its queue, the slot free. -/
def State.yields (w : State) (p : PortNo) (k : QueueSel) (xs : List CtxIdx) : State :=
  (w.freeSlot p).onPort p fun ps => ps.setQueue k xs

theorem State.yields_port (w : State) (p : PortNo) (k : QueueSel) (xs : List CtxIdx) :
    (w.yields p k xs).port p = ({ w.port p with holder := none, tenure := 0 } : PortState).setQueue k xs := by
  rw [State.yields, State.freeSlot, State.port_onPort_same, State.port_onPort_same]

theorem State.yields_look (none : (w.port p).swapPending = false) (k : QueueSel) (xs : List CtxIdx) :
    (w.yields p k xs).lookThenGrant p = (w.yields p k xs).considerGrant p := by
  refine congrArg (State.considerGrant · p) (State.lookForQuiet_of_none ?_ false)
  rw [State.yields_port]
  cases k <;> exact none

theorem State.yields_free (w : State) (p : PortNo) (k : QueueSel) (xs : List CtxIdx)
    (idle : (w.port p).phase = .idle) : ((w.yields p k xs).port p).holder = none ∧
      ((w.yields p k xs).port p).phase = .idle ∧
      ((w.yields p k xs).port p).aboveQueue k = (w.port p).aboveQueue k ∧
      ((w.yields p k xs).port p).queue k = xs ∧
      ((w.yields p k xs).port p).serves k = (w.port p).serves k := by
  rw [State.yields_port]
  cases k <;> exact ⟨rfl, idle, rfl, rfl, rfl⟩

/-- The first of the contexts above takes the slot; the holder stands at the head of its queue. -/
theorem State.yields_above (idle : (w.port p).phase = .idle) (none : (w.port p).swapPending = false)
    (waits : (w.port p).aboveQueue k ≠ []) (xs : List CtxIdx) :
    (((w.yields p k xs).lookThenGrant p).port p).holder = ((w.port p).aboveQueue k).head? ∧
      (((w.yields p k xs).lookThenGrant p).port p).queue k = xs := by
  obtain ⟨free, idle', above, queue, -⟩ := w.yields_free p k xs idle
  obtain ⟨l, j, rest, other, next, here, head⟩ := PortState.nextQueue_above (above ▸ waits)
  have port := State.considerGrant_next free idle' next here
  rw [State.yields_look none]
  constructor
  · have holder := congrArg PortState.holder port
    rw [above] at head
    exact holder.trans head.symm
  · rw [← PortState.queue_unstepped, port, PortState.queue_unstepped, PortState.queue_grantedTo,
      PortState.queue_setQueue_other _ _ (Ne.symm other), queue]

/-- The next of its own queue takes the slot, where the port serves it; the holder stands at the tail. -/
theorem State.yields_spent (idle : (w.port p).phase = .idle) (none : (w.port p).swapPending = false)
    (first : (w.port p).aboveQueue k = []) (waits : (w.port p).queue k ≠ []) :
    ((((w.yields p k ((w.port p).queue k ++ [i])).lookThenGrant p).port p).queue k).getLast? = some i ∧
      ((w.port p).serves k = true →
        (((w.yields p k ((w.port p).queue k ++ [i])).lookThenGrant p).port p).holder =
          ((w.port p).queue k).head?) := by
  obtain ⟨j, rest, own⟩ := List.exists_cons_of_ne_nil waits
  set xs := (w.port p).queue k ++ [i] with hxs
  obtain ⟨free, idle', above, queue, serves⟩ := w.yields_free p k xs idle
  have here : ((w.yields p k xs).port p).queue k = j :: (rest ++ [i]) := by rw [queue, hxs, own]; rfl
  rw [State.yields_look none]
  constructor
  · rcases (w.yields p k xs).considerGrant_port p with same | ⟨l, j', rest', queue', -, port⟩
    · rw [same, here, ← List.cons_append, List.getLast?_concat]
    · rw [← PortState.queue_unstepped, port, PortState.queue_unstepped, PortState.queue_grantedTo]
      by_cases same : k = l
      · subst same
        obtain ⟨-, rfl⟩ := List.cons.inj (here.symm.trans queue')
        rw [PortState.queue_setQueue, List.getLast?_concat]
      · rw [PortState.queue_setQueue_other _ _ same, here, ← List.cons_append, List.getLast?_concat]
  · intro served
    have next := PortState.nextQueue_own (above.trans first) (serves.trans served) (by rw [here]; simp)
    have holder := congrArg PortState.holder (State.considerGrant_next free idle' next here)
    rw [own]
    exact holder

/-! ### The tests of a tenure (R119) -/

theorem State.tenureTests_further (held : w.ctx i = some c) (further : c.endReached = false) :
    w.tenureTests p i =
      if (w.port p).higherWaits c.queueSel then
        (w.yields p c.queueSel (i :: (w.port p).queue c.queueSel)).lookThenGrant p
      else if (w.port p).burstSpent c.queueSel then
        (w.yields p c.queueSel ((w.port p).queue c.queueSel ++ [i])).lookThenGrant p
      else (w.lookForQuiet p false).takeStep p := by
  have slot (f : List CtxIdx → List CtxIdx) :
      ((w.freeSlot p).onPort p fun ps => ps.setQueue c.queueSel (f (ps.queue c.queueSel))) =
        w.yields p c.queueSel (f ((w.port p).queue c.queueSel)) := by
    refine State.onPort_congr ?_
    rw [State.freeSlot, State.port_onPort_same]
    cases c.queueSel <;> rfl
  rw [State.tenureTests, State.withCtx_some held]
  simp only [further, Bool.false_eq_true, if_false]
  rw [slot (i :: ·), slot (· ++ [i])]

theorem burstLimit_eq (code : Nat) :
    burstLimit code = if code = 0 then none else some (min (2 ^ (code - 1)) 16) := by
  match code with
  | 0 => rfl
  | 1 => rfl
  | 2 => rfl
  | 3 => rfl
  | 4 => rfl
  | n + 5 =>
    have large : 16 ≤ 2 ^ (n + 4) := Nat.pow_le_pow_right (n := 2) (by decide) (by omega : 4 ≤ n + 4)
    rw [if_neg (by omega), Nat.add_sub_assoc (by decide), Nat.min_eq_right large]
    rfl

theorem PortState.burstSpent_iff {limit : Option Nat} (code : burstLimit x.params.burstCode = limit) :
    x.burstSpent k = true ↔ (∃ n, limit = some n ∧ n ≤ x.tenure) ∧ x.queue k ≠ [] := by
  unfold PortState.burstSpent
  rw [code]
  cases limit <;> simp

/-! ### The queue and the next attenuation of a context -/

theorem Context.queue_queueSel {r : RampKind} (kind : c.kind = some r) (x : PortState) :
    x.queue c.queueSel = if decide (c.kind = some .retreat) then x.retreatQ
      else if c.cls = .restore then x.restoreQ else x.normalQ := by
  cases r <;> cases cls : c.cls <;> simp [Context.queueSel, kind, cls, classQueue, PortState.queue]

theorem Context.aboveQueue_queueSel {r : RampKind} (kind : c.kind = some r) (x : PortState) :
    x.aboveQueue c.queueSel = if decide (c.kind = some .retreat) then []
      else x.retreatQ ++ if c.cls = .normal ∧ x.frozen = false then x.restoreQ else [] := by
  cases r <;> cases cls : c.cls <;> simp [Context.queueSel, kind, cls, classQueue, PortState.aboveQueue]

theorem Context.serves_queueSel (x : PortState)
    (serves : decide (c.kind = some .retreat) = true ∨ x.frozen = false) : x.serves c.queueSel = true := by
  rcases serves with kind | running
  · rw [Context.queueSel, of_decide_eq_true kind]; rfl
  · cases c.queueSel <;> simp [PortState.serves, running]

theorem nextAttenuation_trim (a g size : Nat) :
    nextAttenuation .trim a g size = if a < g then min (a + size) g else max (a - size) g := by
  rw [nextAttenuation]
  split
  · rw [if_neg (by omega)]
  · split
    · rfl
    · omega

theorem Context.next_eq {r : RampKind} {a g size : Nat} (kind : c.kind = some r) (att : c.att = some a)
    (goal : decide (c.kind = some .retreat) = true ∨ c.target = some g) (step : c.stepSize = some size) :
    c.next = some (nextOf c.kind a g size) := by
  unfold Context.next nextOf
  cases r with
  | retreat => simp [kind, att, step, nextAttenuation, Config.dark]
  | ramp =>
    obtain target : c.target = some g := goal.resolve_left (by simp [kind])
    simp [kind, att, step, target, nextAttenuation]
  | trim =>
    obtain target : c.target = some g := goal.resolve_left (by simp [kind])
    simp [kind, att, step, target, nextAttenuation_trim]

end

/-- Settles O51, by the tests of a tenure in their order. -/
theorem theHolderYieldsOrStepsOn : Obligations.TheHolderYieldsOrStepsOn := by
  intro s p i tag c a dp limit waits asked phase holder att due none goes chosen code q retreat ownOf
    above spent
  obtain ⟨first, range⟩ := Option.isSome_iff_exists.1 chosen
  have ⟨held, out, _⟩ := asked
  set time := (s.popReport p).settleTime p
  set verdict := judge (s.port p).params.gOk (s.port p).params.gAbort dp with hverdict
  set v := (s.popReport p).settling p i time verdict with hv
  have run : exec (.settled p) s =
      .next (v.endStep p i (verdictEnd c.kind verdict).1 (verdictEnd c.kind verdict).2) :=
    exec_settled_eq waits asked phase
  have same : s.SameStep v p := s.settling_sameStep p i time verdict
  obtain ⟨r, kind⟩ : ∃ r, c.kind = some r := by
    rcases goes with ⟨-, kind, -⟩ | ⟨⟨-, kind⟩ | ⟨-, kind⟩, -⟩ <;> exact ⟨_, kind⟩
  have low : dp ≤ (s.port p).params.gAbort ∨ c.kind = some .retreat :=
    goes.symm.imp (fun h => h.2.1) fun h => h.2.1
  have here : v.ctx i = some (c.settledIn time verdict) :=
    State.ctx_onCtx (s := (s.popReport p).onPort p _) held _
  obtain ⟨size', n, b', made⟩ := c.settledIn_eq time verdict
  have further : (c.settledIn time verdict).endReached = false := by
    rw [made]
    rcases goes with ⟨-, kind, lit⟩ | ⟨ramps, -, short⟩
    · exact Context.endReached_retreat kind att lit
    · exact Context.endReached_ramp (ramps.imp And.right And.right) att short
  have sel : (c.settledIn time verdict).queueSel = c.queueSel := by rw [made]; rfl
  set w := v.clearStep p with hw
  have cleared : w.ctx i = some (c.settledIn time verdict) := (v.clearStep_ctx p i).trans here
  have port : (w.port p).seen = (s.port p).seen.clearedStep := by
    rw [hw, State.clearStep_port, State.port_onPort_same]
    exact congrArg PortState.clearedStep same.port
  have queue (k : QueueSel) : (w.port p).queue k = q.queue k := by
    have e := congrArg (PortState.queue · k) port
    cases k <;> exact e
  have aboves (k : QueueSel) : (w.port p).aboveQueue k = q.aboveQueue k := by
    have e := congrArg (PortState.aboveQueue · k) port
    cases k <;> exact e
  have serves (k : QueueSel) : (w.port p).serves k = q.serves k := by
    have e := congrArg (PortState.serves · k) port
    cases k <;> exact e
  have idle : (w.port p).phase = .idle := by have e := congrArg PortState.phase port; exact e
  have pending : (w.port p).swapPending = false := by
    have e := congrArg PortState.swapPending port
    exact Eq.trans e none
  have tenure : (w.port p).tenure = q.tenure := by have e := congrArg PortState.tenure port; exact e
  have slot : (w.port p).holder = some i := by
    have e := congrArg PortState.holder port
    exact Eq.trans e holder
  have params : (w.port p).params = q.params := by have e := congrArg PortState.params port; exact e
  have own (y : PortState) : ownOf y = y.queue c.queueSel := (Context.queue_queueSel kind y).symm
  have higher : above = (w.port p).aboveQueue c.queueSel :=
    (Context.aboveQueue_queueSel kind q).symm.trans (aboves _).symm
  have burst : (w.port p).burstSpent c.queueSel = true ↔ spent := by
    rw [PortState.burstSpent_iff (limit := limit) (by rw [params, burstLimit_eq]; exact code.symm), tenure, queue,
      ← own]
  have ends : v.endStep p i (verdictEnd c.kind verdict).1 (verdictEnd c.kind verdict).2 = w.tenureTests p i := by
    rw [hverdict, verdictEnd_goes low]
    exact State.endStep_continues (same.due.trans due)
  rw [ends, State.tenureTests_further cleared further, sel] at run
  refine ⟨_, run, fun waiting => ?_, fun clear isSpent => ?_, fun clear unspent g size base goal step based => ?_⟩
  · rw [higher] at waiting ⊢
    rw [if_pos ((PortState.higherWaits_iff _ _).2 waiting), own]
    obtain ⟨next, back⟩ := State.yields_above idle pending waiting (i :: (w.port p).queue c.queueSel)
    exact ⟨next, by rw [back]; rfl⟩
  all_goals
    rw [higher] at clear
    have none : ¬ (w.port p).higherWaits c.queueSel = true := fun h => (PortState.higherWaits_iff _ _).1 h clear
    rw [if_neg none]
  · have waiting : (w.port p).queue c.queueSel ≠ [] := by rw [queue, ← own]; exact isSpent.2
    obtain ⟨back, next⟩ := State.yields_spent (i := i) idle pending clear waiting
    rw [if_pos (burst.2 isSpent), own]
    refine ⟨back, fun served => ?_⟩
    rw [next ((serves _).trans (Context.serves_queueSel q served)), queue, own]
  · rw [if_neg (mt burst.1 unspent), State.lookForQuiet_of_none pending]
    have values := settledValues_verdict (gOk := q.params.gOk) (dp := dp)
      { c with slowest := max c.slowest time, outstanding := .none } low size base step based
    obtain ⟨size1, sized⟩ : ∃ x, (c.settledIn time verdict).stepSize = some x := by
      split at values
      · exact ⟨_, values.1⟩
      · have values := values.2
        split at values
        · exact ⟨_, values.1⟩
        · exact ⟨_, values.1⟩
    rw [made] at cleared sized
    have steps := State.takeStep_eq slot cleared out (Context.next_eq (g := g) kind att goal sized) range
    rw [steps, State.port_onPort_same]
    refine ⟨_, size1, congrArg Record.ctx (State.record_setRecord _ _ _), sized, slot, rfl, rfl, ?_, rfl, rfl⟩
    rw [← tenure]
    rfl

end Sys2Proof.Machine

/-! PROOFS. The lamp of a degree: its hold after the end of a step, and its output (R119, R180). -/

namespace Sys2Proof.Machine

open Sys2Proof

section
variable {s t v : State} {p : PortNo} {d : DegreeNo} {i : CtxIdx} {c : Context}

/-! ### The hold (R119, R180) -/

theorem EngineRun.elapsed (h : EngineRun s t) : t.elapsed = s.elapsed := by
  induction h with
  | refl s => rfl
  | onCtx _ i f _ ih => exact ih
  | advanceTag _ i ih => exact ih
  | freeRecord _ i _ ih => exact ih
  | onPort _ p f _ ih => exact ih
  | onMap _ p f _ ih => exact ih
  | hold _ d ih => exact ih
  | report _ r ih => exact (Keeps.report (Keeps.refl _) r).elapsed.trans ih
  | swap _ p _ _ ih ih' => exact (Keeps.report (Keeps.refl _) _).elapsed.trans (ih'.trans ih)

/-- The engines leave the hold of a lamp, or arm it anew. -/
theorem EngineRun.lampHold (h : EngineRun s t) (d : DegreeNo) :
    (t.degree d).lampHold = (s.degree d).lampHold ∨ (t.degree d).lampHold = some (s.elapsed + 250) := by
  induction h with
  | refl s => exact .inl rfl
  | onCtx _ i f _ ih => exact ih
  | advanceTag _ i ih => exact ih
  | freeRecord _ i _ ih => exact ih
  | onPort _ p f _ ih => exact ih
  | onMap _ p f _ ih => exact ih
  | hold run e ih =>
    by_cases here : d = e
    · subst here
      rw [State.degree_onDegree_same]
      exact .inr (congrArg (fun x => some (x + 250)) run.elapsed)
    · rw [State.degree_onDegree_other _ _ here]; exact ih
  | report _ r ih => rw [State.report_degree]; exact ih
  | swap run p _ _ ih ih' =>
    rw [State.report_degree]
    rcases ih' with same | armed
    · rw [same]; exact ih
    · exact .inr (armed.trans (congrArg (fun x => some (x + 250)) run.elapsed))

theorem State.clearStep_arms (s : State) (d : DegreeNo) :
    ((s.clearStep (portOf d)).degree d).lampHold = some (s.elapsed + 250) := by
  rw [State.clearStep, degreeOf_portOf]
  dsimp only
  rw [State.degree_onDegree_same]
  rfl

/-- The end of a step arms the hold. -/
theorem State.endStep_arms (s : State) (d : DegreeNo) (i : CtxIdx) (e : StepEnd) (b : Bool) :
    ((s.endStep (portOf d) i e b).degree d).lampHold = some (s.elapsed + 250) := by
  have cleared : EngineRun s (s.clearStep (portOf d)) := (EngineRun.refl s).clearStep _
  rcases ((EngineRun.refl (s.clearStep (portOf d))).endStep_of_cleared i e b).lampHold d with same | armed
  · exact same.trans (s.clearStep_arms d)
  · exact armed.trans (congrArg (fun x => some (x + 250)) cleared.elapsed)

theorem State.actuationExpired_endStep (held : s.ctx i = some c) (p : PortNo) :
    ∃ (v : State) (e : StepEnd) (b : Bool),
      s.actuationExpired p i = v.endStep p i e b ∧ v.elapsed = s.elapsed := by
  rw [State.actuationExpired, State.withCtx_some held]
  exact ⟨_, _, _, rfl, rfl⟩

theorem State.observationExpired_endStep (held : s.ctx i = some c) (p : PortNo) :
    ∃ (v : State) (e : StepEnd) (b : Bool),
      s.observationExpired p i = v.endStep p i e b ∧ v.elapsed = s.elapsed := by
  rw [State.observationExpired, State.withCtx_some held]
  dsimp only
  split
  · exact ⟨_, _, _, rfl, rfl⟩
  · exact ⟨_, _, _, rfl, rfl⟩

theorem exec_holdExpiry (running : s.inReset = false) : exec (.lampFastHoldExpiry d) s = .next
    (if s.due (s.degree d).lampHold then s.onDegree d fun x => { x with lampHold := none } else s) :=
  whileRunning_running running _

/-! ### The output (R180) -/

theorem Context.onDegree_iff (c : Context) (d : DegreeNo) : c.onDegree d = true ↔ c.usesPort (portOf d) := by
  have inPort : (∃ e, c.inPort = .degree e ∧ portOf e = portOf d) ↔ c.inPort = .degree d :=
    ⟨fun ⟨_, here, same⟩ => portOf_injective same ▸ here, fun here => ⟨d, here, rfl⟩⟩
  rw [Context.onDegree, Context.usesPort, inPort, Bool.or_eq_true, decide_eq_true_eq, decide_eq_true_eq, or_comm]

theorem State.anyOnDegree_iff (s : State) (d : DegreeNo) (states : List CtxState) :
    s.anyOnDegree d states = true ↔
      ∃ i c, s.ctx i = some c ∧ c.usesPort (portOf d) ∧ c.state ∈ states := by
  simp only [State.anyOnDegree, List.any_eq_true, mem_allContexts, true_and, Option.any_eq_true, Bool.and_eq_true,
    Context.onDegree_iff, List.contains_iff_mem]

/-- The output in a mode but AUTO (R180). -/
theorem State.lamp_of_mode (running : s.inReset = false) :
    ((s.degree d).lampMode = .off → s.lamp d = .dark) ∧ ((s.degree d).lampMode = .on → s.lamp d = .steady) ∧
      ((s.degree d).lampMode = .slow → s.lamp d = .slow) ∧ ((s.degree d).lampMode = .fast → s.lamp d = .fast) := by
  unfold State.lamp
  refine ⟨fun mode => ?_, fun mode => ?_, fun mode => ?_, fun mode => ?_⟩
  all_goals simp [running, mode]

theorem State.lamp_auto (running : s.inReset = false) (mode : (s.degree d).lampMode = .auto) :
    s.lamp d = s.autoLamp d := by simp [State.lamp, running, mode]

theorem State.autoLamp_fast (fast : (s.port (portOf d)).frozen = true ∨ (s.port (portOf d)).phase ≠ .idle ∨
    (s.degree d).lampHold.isSome) : s.autoLamp d = .fast := by
  refine if_pos ?_
  rcases fast with frozen | stepping | hold
  · simp [frozen]
  · simp [stepping]
  · simp [hold]

/-- The output of a degree that steps nothing (R180). -/
theorem State.autoLamp_still (running : (s.port (portOf d)).frozen = false)
    (idle : (s.port (portOf d)).phase = .idle)
    (none : (s.degree d).lampHold = none) :
    s.autoLamp d =
      if s.anyOnDegree d [.offered, .awaitLight, .preparing, .ramping, .retreating, .closing] then .slow
      else if s.anyOnDegree d [.inService, .litWait, .trimming] then .steady else .dark :=
  if_neg (by simp [running, idle, none])

end

/-- Settles O40, by the ways a step ends, the expiry of the hold and the modes of the lamp. -/
theorem theLampShowsTheDegree : Obligations.TheLampShowsTheDegree := by
  intro s d running x p on armed
  have ⟨off, lit, slow, fast⟩ := State.lamp_of_mode (d := d) running
  refine ⟨fun i tag c a asked att => ⟨fun dp waits phase => ?_, fun done v req waits phase requested fails => ?_,
    fun due expiry late holder => ⟨fun phase => ?_, fun phase => ?_⟩⟩,
    fun due hold => ⟨fun early => ?_, fun late => ?_⟩, off, lit, slow, fast, fun mode => ?_⟩
  · exact ⟨_, exec_settled_eq waits asked phase, State.endStep_arms _ d i _ _⟩
  · exact ⟨_, exec_actuated_fails waits asked phase requested fails, State.endStep_arms _ d i _ _⟩
  · obtain ⟨v, e, b, does, now⟩ := State.actuationExpired_endStep asked.1 (portOf d)
    refine ⟨_, exec_windowExpiry_due (work := fun s i => s.actuationExpired (portOf d) i) rfl running expiry late
      phase holder, ?_⟩
    rw [does, State.endStep_arms, now]
  · obtain ⟨v, e, b, does, now⟩ := State.observationExpired_endStep asked.1 (portOf d)
    refine ⟨_, exec_windowExpiry_due (work := fun s i => s.observationExpired (portOf d) i) rfl running expiry late
      phase holder, ?_⟩
    rw [does, State.endStep_arms, now]
  · rw [exec_holdExpiry running, State.due_of_lt hold early]
    rfl
  · refine ⟨_, exec_holdExpiry running, ?_⟩
    rw [State.due_of_le hold late]
    exact ⟨State.degree_onDegree_same _ _ _, fun e other => State.degree_onDegree_other _ _ other, rfl⟩
  · rw [State.lamp_auto running mode]
    refine ⟨State.autoLamp_fast, fun still idle none => ?_⟩
    rw [State.autoLamp_still still idle none]
    refine ⟨fun slow => if_pos ((State.anyOnDegree_iff _ _ _).2 slow), fun slow => ?_⟩
    rw [if_neg (mt (State.anyOnDegree_iff _ _ _).1 slow)]
    exact ⟨fun steady => if_pos ((State.anyOnDegree_iff _ _ _).2 steady),
      fun steady => if_neg (mt (State.anyOnDegree_iff _ _ _).1 steady)⟩

end Sys2Proof.Machine

/-! PROOFS. What a cause that reaches other contexts does to a context: a teardown decided stays decided,
and with no swap pending the context stays, but for a step of its own (R97, R117, R170). -/

namespace Sys2Proof.Machine

open Sys2Proof

/-- No port has a swap pending. -/
def State.noSwap (s : State) : Prop := ∀ p, (s.port p).swapPending = false

/-- The pending swap and the freeze of a port. -/
def PortState.marked (q : PortState) : Bool × Bool := (q.swapPending, q.frozen)

/-- A measurement of context `i` that is outstanding in `t` was outstanding in `s`. -/
def asksNoMore (i : CtxIdx) (s t : State) : Prop :=
  ∀ c', t.ctx i = some c' → c'.outstanding = some .measure → ∃ c, s.ctx i = some c ∧ c.outstanding = some .measure

/-- What a teardown of other contexts leaves of context `i` and of the freezes. -/
structure Spares (i : CtxIdx) (s t : State) : Prop where
  torn : ∀ c, s.ctx i = some c → c.teardown.isSome → ∃ c', t.ctx i = some c' ∧ c.SameCause c'
  leaving : ∀ c, s.ctx i = some c → c.leaving → ∃ c', t.ctx i = some c' ∧ c'.stepless = c.stepless
  frozen : ∀ p, (t.port p).frozen = (s.port p).frozen
  still : s.noSwap → t.noSwap ∧ (t.ctx i).map Context.stepless = (s.ctx i).map Context.stepless ∧ asksNoMore i s t

namespace Spares

variable {s t u : State} {i j : CtxIdx}

theorem of_same (record : t.ctx i = s.ctx i) (ports : ∀ p, (t.port p).marked = (s.port p).marked) :
    Spares i s t where
  torn c held _ := ⟨c, record.trans held, .refl c⟩
  leaving c held _ := ⟨c, record.trans held, rfl⟩
  frozen p := congrArg Prod.snd (ports p)
  still none := ⟨fun p => (congrArg Prod.fst (ports p)).trans (none p), congrArg _ record,
    fun c' held measure => ⟨c', record ▸ held, measure⟩⟩

theorem refl (i : CtxIdx) (s : State) : Spares i s s := of_same rfl fun _ => rfl

theorem trans (h : Spares i s t) (h' : Spares i t u) : Spares i s u where
  torn c held torn := by
    obtain ⟨c', held', same⟩ := h.torn c held torn
    obtain ⟨c'', held'', same'⟩ := h'.torn c' held' (by rw [same.teardown]; exact torn)
    exact ⟨c'', held'', same.trans same'⟩
  leaving c held leaves := by
    obtain ⟨c', held', same⟩ := h.leaving c held leaves
    obtain ⟨c'', held'', same'⟩ := h'.leaving c' held' (Context.leaving_of_stepless same leaves)
    exact ⟨c'', held'', same'.trans same⟩
  frozen p := (h'.frozen p).trans (h.frozen p)
  still none := by
    obtain ⟨none', stays, asks⟩ := h.still none
    obtain ⟨none'', stays', asks'⟩ := h'.still none'
    refine ⟨none'', stays'.trans stays, fun c'' held measure => ?_⟩
    obtain ⟨c', held', measure'⟩ := asks' c'' held measure
    exact asks c' held' measure'

/-! ### The updates -/

theorem onCtx (h : Spares i s t) (other : j ≠ i) (f : Context → Context) : Spares i s (t.onCtx j f) :=
  h.trans (of_same (State.ctx_onCtx_other t f other.symm) fun _ => rfl)

theorem onRecord (h : Spares i s t) (other : j ≠ i) (f : Record → Record) : Spares i s (t.onRecord j f) :=
  h.trans (of_same (congrArg Record.ctx (State.record_onRecord_other _ _ other.symm)) fun _ => rfl)

theorem onPort (h : Spares i s t) (p : PortNo) (f : PortState → PortState) (keeps : ∀ q, (f q).marked = q.marked) :
    Spares i s (t.onPort p f) := by
  refine h.trans (of_same rfl fun q => ?_)
  by_cases e : q = p
  · subst e; rw [State.port_onPort_same, keeps]
  · rw [State.port_onPort_other _ _ e]

theorem report (h : Spares i s t) (r : RingRecord) : Spares i s (t.report r) :=
  h.trans (of_same (t.report_ctx r i) fun p => by rw [t.report_port r p])

theorem withCtx (h : Spares i s t) (j : CtxIdx) {f : Context → State}
    (hf : ∀ c, t.ctx j = some c → Spares i s (f c)) : Spares i s (t.withCtx j f) := by
  cases held : t.ctx j with
  | none => rwa [State.withCtx, held]
  | some c =>
    rw [State.withCtx_some held]
    exact hf c held

theorem ite {p : Prop} [Decidable p] {a b : State} (ha : Spares i s a) (hb : Spares i s b) :
    Spares i s (if p then a else b) := by
  split <;> assumption

/-! ### Sending -/

theorem emit (h : Spares i s t) (p : PortNo) (o : OutFrame) : Spares i s (t.emit p o) :=
  h.onPort p _ fun _ => by rfl

theorem sendUpstream (h : Spares i s t) (c : Context) (m : PeerMsg) : Spares i s (t.sendUpstream c m) := by
  rcases t.sendUpstream_eq c m with e | ⟨p, f, e⟩
  · rwa [e]
  · rw [e]; exact h.emit p f

theorem sendDownstream (h : Spares i s t) (c : Context) (m : PeerMsg) : Spares i s (t.sendDownstream c m) := by
  rcases t.sendDownstream_eq c m with e | ⟨p, f, e⟩
  · rwa [e]
  · rw [e]; exact h.emit p f

theorem sendNotice (h : Spares i s t) (c : Context) : Spares i s (t.sendNotice c) := by
  unfold State.sendNotice
  split
  · exact h.sendDownstream _ _
  · exact h.sendDownstream _ _
  · exact h
  · exact h

theorem sendClose (h : Spares i s t) (other : j ≠ i) : Spares i s (t.sendClose j) := by
  refine h.withCtx j fun c _ => onCtx (onCtx (withCtx h j fun c _ => ?_) other _) other _
  dsimp only
  split
  · exact h
  · exact emit (onCtx (h.onRecord other _) other _) _ _

theorem chooseBase (h : Spares i s t) (other : j ≠ i) : Spares i s (t.chooseBase j) :=
  h.withCtx j fun _ _ => ite (h.onCtx other _) h

theorem recordTeardown (h : Spares i s t) (other : j ≠ i) (c : Context) (o : TeardownOrder) (w : Way) :
    Spares i s (t.recordTeardown j c o w) := by
  unfold State.recordTeardown
  dsimp only
  split
  · exact ite (sendUpstream (h.onCtx other _) _ _) (sendUpstream (h.onCtx other _) _ _)
  · exact h.onCtx other _

theorem writePathEnd (h : Spares i s t) (c : Context) : Spares i s (t.writePathEnd c) := by
  unfold State.writePathEnd
  split
  · exact h
  · exact h.report _

/-! ### A grant, to any context -/

/-- A request is outstanding for a context with a range, and none is sent for another (R30). -/
theorem sendRequest_outstanding {c : Context} (held : s.ctx i = some c) (k : ReqKind) (att : Nat) : ∃ k',
    (s.sendRequest i k att).ctx i = some { c with outstanding := k' } ∧ (c.chosen.isSome → k' = some k) ∧
      (c.chosen = none → k' = c.outstanding) := by
  by_cases chosen : c.chosen.isSome
  · obtain ⟨k', asked, sent⟩ := State.sendRequest_ctx held k att
    exact ⟨k', asked, sent, fun none => absurd chosen (by simp [none])⟩
  · have none : c.chosen = none := Option.not_isSome_iff_eq_none.1 chosen
    have stays : s.sendRequest i k att = s := by
      rw [State.sendRequest, State.withCtx_some held]
      simp only [none]
    exact ⟨c.outstanding, (congrArg (State.ctx · i) stays).trans held, fun some => absurd some chosen, fun _ => rfl⟩

/-- A step asks for no measurement (R118). -/
theorem takeStep_asks (i : CtxIdx) (s : State) (p : PortNo) : asksNoMore i s (s.takeStep p) := by
  intro c' after measure
  cases holder : (s.port p).holder with
  | none =>
    rw [State.takeStep, holder] at after
    exact ⟨c', after, measure⟩
  | some j =>
    obtain ⟨frame, -⟩ := s.takeStep_frame p holder
    by_cases e : i = j
    · subst e
      have same := frame.contexts i
      rw [after, Option.map_some, eq_comm, Option.map_eq_some_iff] at same
      obtain ⟨c, held, same⟩ := same
      cases next : c.next with
      | none =>
        have stays : s.takeStep p = s := by
          rw [State.takeStep, holder]
          simp only [State.withCtx_some held, next]
        rw [stays] at after
        exact ⟨c', after, measure⟩
      | some a =>
        set u := s.onPort p fun ps =>
          { ps with requested := some a, settings := some (s.port p).params.latch, unitsUsed := 0 }
        obtain ⟨k, asked, set, unasked⟩ := sendRequest_outstanding (s := u) held .set a
        have stepped : (s.takeStep p).ctx i = some { c with outstanding := k, steps := saturate (c.steps + 1) } := by
          rw [State.takeStep, holder]
          simp only [State.withCtx_some held, next]
          exact State.ctx_onCtx (c := { c with outstanding := k }) asked _
        cases after.symm.trans stepped
        refine ⟨c, held, ?_⟩
        cases chosen : c.chosen with
        | none => rw [← unasked chosen]; exact measure
        | some first => exact nomatch measure.symm.trans (set (by simp [chosen]))
    · exact ⟨c', (congrArg Record.ctx (frame.records i e)).symm.trans after, measure⟩

theorem takeStep (h : Spares i s t) (p : PortNo) : Spares i s (t.takeStep p) := by
  have ports (q : PortNo) : ((t.takeStep p).port q).marked = (t.port q).marked := by
    have e := congrArg PortState.marked (t.takeStep_unstepped p q); exact e
  have contexts : ((t.takeStep p).ctx i).map Context.stepless = (t.ctx i).map Context.stepless := by
    cases holder : (t.port p).holder with
    | none => rw [State.takeStep, holder]
    | some j => exact (t.takeStep_frame p holder).1.contexts i
  have stepped {c : Context} (held : t.ctx i = some c) :
      ∃ c', (t.takeStep p).ctx i = some c' ∧ c'.stepless = c.stepless := by
    have same := contexts
    rw [held, Option.map_some, Option.map_eq_some_iff] at same
    exact same
  refine h.trans ⟨fun c held _ => ?_, fun c held _ => stepped held, fun q => congrArg Prod.snd (ports q),
    fun none => ⟨fun q => (congrArg Prod.fst (ports q)).trans (none q), contexts, takeStep_asks i t p⟩⟩
  obtain ⟨c', after, same⟩ := stepped held
  exact ⟨c', after, Context.sameCause_of_stepless same⟩

theorem considerGrant (h : Spares i s t) (p : PortNo) : Spares i s (t.considerGrant p) := by
  unfold State.considerGrant
  refine ite ?_ h
  split
  next q _ =>
    unfold State.grantTo
    split
    · exact h
    · exact takeStep (h.onPort p _ fun _ => by cases q <;> rfl) p
  · exact h

theorem join (h : Spares i s t) (p : PortNo) (q : QueueSel) (j : CtxIdx) (grant : Bool) :
    Spares i s (t.join p q j grant) := by
  have queued : Spares i s (t.onPort p fun ps => ps.setQueue q (ps.queue q ++ [j])) :=
    h.onPort p _ fun _ => by cases q <;> rfl
  exact ite (queued.considerGrant p) queued

theorem leaveQueues (h : Spares i s t) (p : PortNo) (j : CtxIdx) : Spares i s (t.leaveQueues p j) :=
  h.onPort p _ fun _ => by rfl

theorem clearStep (h : Spares i s t) (p : PortNo) : Spares i s (t.clearStep p) := by
  have k : Spares i s (t.onPort p PortState.clearedStep) := h.onPort p _ fun _ => by rfl
  unfold State.clearStep
  dsimp only
  split
  · exact k.trans (of_same rfl fun _ => rfl)
  · exact k

theorem freeSlot (h : Spares i s t) (p : PortNo) : Spares i s (t.freeSlot p) := h.onPort p _ fun _ => by rfl

theorem markRetreat (h : Spares i s t) (p : PortNo) (b : Bool) :
    Spares i s (t.onPort p fun ps => { ps with retreatDue := b }) := h.onPort p _ fun _ => by rfl

theorem releaseSlot (h : Spares i s t) (p : PortNo) (j : CtxIdx) : Spares i s (t.releaseSlot p j) :=
  ite (((ite h (h.clearStep p)).freeSlot p).markRetreat p false) h

/-! ### A look for quiet (R19) -/

theorem lookForQuiet (h : Spares i s t) (p : PortNo) (grant : Bool) : Spares i s (t.lookForQuiet p grant) := by
  have aside := (Aside.refl i t).lookForQuiet p grant
  refine h.trans ⟨aside.torn, fun c held leaves => (aside.leaving c held leaves).1, aside.frozen, fun none => ?_⟩
  rw [State.lookForQuiet_of_none (none p)]
  exact (refl i t).still none

theorem lookAfter (h : Spares i s t) (c : Context) : Spares i s (t.lookAfter c) := ite (h.lookForQuiet _ _) h

/-! ### The ways of a teardown (R33, R157, R158) -/

theorem endFreed (h : Spares i s t) (other : j ≠ i) : Spares i s (t.endFreed j) := by
  refine h.withCtx j fun c _ => ?_
  have freed : Spares i s (t.mapFree j c.outPort) := h.onPort _ _ fun _ => by rfl
  have ended : Spares i s ((t.mapFree j c.outPort).finishEnding j c) :=
    onRecord ((((freed.sendNotice c).leaveQueues _ j).releaseSlot _ j).writePathEnd c) other _
  have looked : Spares i s (if decide ((t.port c.outPort).holder = some j) = true
      then ((t.mapFree j c.outPort).finishEnding j c).lookForQuiet c.outPort true
      else ((t.mapFree j c.outPort).finishEnding j c).lookAfter c) := ite (ended.lookForQuiet _ _) (ended.lookAfter c)
  exact ite (looked.considerGrant _) looked

theorem beginRetreat (h : Spares i s t) (other : j ≠ i) : Spares i s (t.beginRetreat j) := by
  refine h.withCtx j fun c _ => ?_
  have k := (h.leaveQueues c.outPort j).chooseBase other
  exact ite (k.sendClose other) (k.onCtx other _)

theorem joinRetreat (h : Spares i s t) (j : CtxIdx) (grant : Bool) : Spares i s (t.joinRetreat j grant) :=
  h.withCtx j fun _ _ => ite (h.join _ _ _ _) h

theorem startRetreat (h : Spares i s t) (other : j ≠ i) : Spares i s (t.startRetreat j) := by
  refine h.withCtx j fun c _ => ?_
  have k := ((h.beginRetreat other).lookAfter c).joinRetreat j true
  exact ite (h.chooseBase other) (ite (h.markRetreat _ true) (ite (k.considerGrant _) k))

theorem abandonStep (h : Spares i s t) (other : j ≠ i) (c : Context) : Spares i s (t.abandonStep j c) := by
  unfold State.abandonStep
  have k := ((h.clearStep c.outPort).markRetreat c.outPort false).lookForQuiet c.outPort true
  exact considerGrant (lookAfter (sendClose (onCtx (freeSlot (onCtx (k.onRecord other _) other _) _) other _) other)
    c) _

theorem startDarkJump (h : Spares i s t) (other : j ≠ i) : Spares i s (t.startDarkJump j) := by
  refine h.withCtx j fun c _ => ?_
  have k := ((h.leaveQueues c.outPort j).sendClose other).lookAfter c
  exact ite h (ite (h.abandonStep other c) (ite (k.considerGrant _) k))

theorem goDark (h : Spares i s t) (other : j ≠ i) (w : Way) : Spares i s (t.goDark j w) := by
  cases w with
  | none => exact h.endFreed other
  | retreat => exact h.startRetreat other
  | darkJump => exact h.startDarkJump other

theorem decideTeardown (h : Spares i s t) (other : j ≠ i) (o : TeardownOrder) :
    Spares i s (t.decideTeardown j o) :=
  h.withCtx j fun _ _ => (h.recordTeardown other _ _ _).goDark other _

theorem secondCause (h : Spares i s t) (other : j ≠ i) (o : TeardownOrder) : Spares i s (t.secondCause j o) := by
  refine h.withCtx j fun c _ => ?_
  split
  · exact ite (startDarkJump (h.onCtx other _) other) h
  · exact h

theorem causeReaches (h : Spares i s t) (other : j ≠ i) (o : TeardownOrder) : Spares i s (t.causeReaches j o) :=
  h.withCtx j fun _ _ => ite (h.secondCause other o) (h.decideTeardown other o)

end Spares

end Sys2Proof.Machine

/-! PROOFS. A cause that reaches every context on a port: the turn of one context among those of the
others (R97, R153, R156, R170). -/

namespace Sys2Proof.Machine

open Sys2Proof

/-- The cause that an event means for a context, from the node's identity; none where it means none. -/
abbrev Causes := NodeId → Context → Option TeardownOrder

/-- The cause depends on the ports of the context alone. -/
def Causes.byPorts (order : Causes) : Prop :=
  ∀ n c c', c'.inPort = c.inPort → c'.outPort = c.outPort → order n c' = order n c

/-- The turn of context `i`: its cause reaches it (R97). -/
def State.reach (order : Causes) (s : State) (i : CtxIdx) : State :=
  s.withCtx i fun c => (order s.nodeId c).elim s (s.causeReaches i)

/-- Each context has its turn, in ascending order (R97). -/
def State.reachAll (order : Causes) (s : State) : State := allContexts.foldl (State.reach order) s

section
variable {s t u v : State} {i j : CtxIdx} {c c1 : Context} {p : PortNo} {order : Causes} {o : TeardownOrder}

theorem State.reach_absent (none : s.ctx i = none) : s.reach order i = s := by
  simp only [State.reach, State.withCtx, none]

theorem State.reach_of_none (held : s.ctx i = some c) (ordered : order s.nodeId c = none) : s.reach order i = s := by
  rw [State.reach, State.withCtx_some held, ordered]
  rfl

theorem State.reach_of_some (held : s.ctx i = some c) (ordered : order s.nodeId c = some o) :
    s.reach order i = s.causeReaches i o := by
  rw [State.reach, State.withCtx_some held, ordered]
  rfl

theorem State.reach_keeps (s : State) (order : Causes) (i : CtxIdx) : Keeps s (s.reach order i) := by
  refine (Keeps.refl s).withCtx i fun c _ => ?_
  cases order s.nodeId c with
  | none => exact Keeps.refl s
  | some o => exact (Keeps.refl s).causeReaches i o

theorem State.reach_run (s : State) (order : Causes) (i : CtxIdx) : EngineRun s (s.reach order i) := by
  refine (EngineRun.refl s).withCtx i fun c _ => ?_
  cases order s.nodeId c with
  | none => exact EngineRun.refl s
  | some o => exact (EngineRun.refl s).causeReaches i o

/-- What the turns of other contexts leave. -/
structure Turns (i : CtxIdx) (s t : State) : Prop where
  spares : Spares i s t
  keeps : Keeps s t
  run : EngineRun s t

namespace Turns

theorem refl (i : CtxIdx) (s : State) : Turns i s s := ⟨.refl i s, .refl s, .refl s⟩

theorem trans (h : Turns i s t) (h' : Turns i t u) : Turns i s u :=
  ⟨h.spares.trans h'.spares, h.keeps.trans h'.keeps, h.run.trans h'.run⟩

theorem nodeId (h : Turns i s t) : t.nodeId = s.nodeId := by
  unfold State.nodeId
  rw [h.keeps.straps]

theorem absent (h : Turns i s t) (gone : s.ctx i = none) : t.ctx i = none := by
  cases held : t.ctx i with
  | none => rfl
  | some c' =>
    obtain ⟨c, here, -⟩ := h.keeps.contexts i c' held
    exact nomatch gone.symm.trans here

theorem tornDown (h : Turns i s t) (held : s.ctx i = some c) (torn : c.tornDown = true) :
    ∃ c', t.ctx i = some c' ∧ c'.tornDown = true := by
  simp only [Context.tornDown, Bool.or_eq_true, decide_eq_true_eq] at torn
  rcases torn with (decided | retreating) | closing
  · obtain ⟨c', after, same⟩ := h.spares.torn c held decided
    exact ⟨c', after, by simp [Context.tornDown, same.teardown, decided]⟩
  all_goals
    obtain ⟨c', after, same⟩ := h.spares.leaving c held (by simp [Context.leaving, *])
    have state : c'.state = c.state := by have e := congrArg Context.state same; exact e
    exact ⟨c', after, by simp [Context.tornDown, *]⟩

theorem reach (other : j ≠ i) (s : State) (order : Causes) : Turns i s (s.reach order j) := by
  refine ⟨?_, (s.reach_keeps order j), s.reach_run order j⟩
  refine (Spares.refl i s).withCtx j fun c _ => ?_
  cases order s.nodeId c with
  | none => exact Spares.refl i s
  | some o => exact (Spares.refl i s).causeReaches other o

theorem foldl {js : List CtxIdx} (others : i ∉ js) (s : State) (order : Causes) :
    Turns i s (js.foldl (State.reach order) s) := by
  induction js generalizing s with
  | nil => exact refl i s
  | cons j js ih =>
    rw [List.mem_cons, not_or] at others
    exact (reach (Ne.symm others.1) s order).trans (ih others.2 _)

end Turns

/-- Every context has one turn. -/
theorem allContexts_split (i : CtxIdx) :
    ∃ before after, allContexts = before ++ i :: after ∧ i ∉ before ∧ i ∉ after := by
  obtain ⟨before, after, split⟩ := List.append_of_mem (mem_allContexts i)
  have nodup : (before ++ i :: after).Nodup := split ▸ List.nodup_finRange 64
  rw [List.nodup_middle, List.nodup_cons, List.mem_append, not_or] at nodup
  exact ⟨before, after, split, nodup.1⟩

theorem State.reachAll_split (order : Causes) (s : State) (i : CtxIdx) :
    ∃ u, Turns i s u ∧ Turns i (u.reach order i) (s.reachAll order) := by
  obtain ⟨before, after, split, early, late⟩ := allContexts_split i
  refine ⟨before.foldl (State.reach order) s, Turns.foldl early s order, ?_⟩
  rw [State.reachAll, split, List.foldl_append, List.foldl_cons]
  exact Turns.foldl late _ order

theorem State.reachAll_keeps (order : Causes) (s : State) : Keeps s (s.reachAll order) := by
  obtain ⟨u, before, after⟩ := s.reachAll_split order 0
  exact (before.keeps.trans (u.reach_keeps order 0)).trans after.keeps

theorem State.reachAll_run (order : Causes) (s : State) : EngineRun s (s.reachAll order) := by
  obtain ⟨u, before, after⟩ := s.reachAll_split order 0
  exact (before.run.trans (u.reach_run order 0)).trans after.run

/-- Where the event means no cause for any context, nothing happens. -/
theorem State.reachAll_stays (apart : ∀ i c, s.ctx i = some c → order s.nodeId c = none) :
    s.reachAll order = s := by
  unfold State.reachAll
  induction allContexts with
  | nil => rfl
  | cons i is ih =>
    have stays : s.reach order i = s := by
      cases held : s.ctx i with
      | none => exact State.reach_absent held
      | some c => exact State.reach_of_none held (apart i c held)
    rw [List.foldl_cons, stays, ih]

/-! ### Going dark (R153, R170) -/

/-- A context that a cause has reached is FREE, or its teardown is decided. -/
theorem State.causeReaches_dark (held : s.ctx i = some c) (o : TeardownOrder) :
    (s.causeReaches i o).ctx i = none ∨ ∃ c', (s.causeReaches i o).ctx i = some c' ∧ c'.tornDown = true := by
  cases torn : c.tornDown with
  | false =>
    rw [State.causeReaches_first held torn]
    have fate := State.decideTeardown_tornDownBy held o
    unfold tornDownBy at fate
    split at fate
    · exact .inl fate.1
    all_goals
      obtain ⟨c', after, decided, -⟩ := fate
      exact .inr ⟨c', after, by simp [Context.tornDown, decided]⟩
  | true =>
    rw [State.causeReaches_second held torn]
    by_cases turns : o.darkCause = true ∧ ∃ td, c.teardown = some td ∧ td.way = .retreat ∧ c.state ≠ .closing
    · obtain ⟨dark, td, decided, retreat, open_⟩ := turns
      obtain ⟨c', after, turned, -⟩ := State.secondCause_turns held dark decided retreat open_
      exact .inr ⟨c', after, by simp [Context.tornDown, turned]⟩
    · have stays : s.secondCause i o = s := by
        cases dark : o.darkCause with
        | false => exact State.secondCause_of_lit dark
        | true =>
          refine State.secondCause_stays held o fun td decided => ?_
          by_contra n
          rw [not_or, not_not] at n
          exact turns ⟨dark, td, decided, n.1, n.2⟩
      rw [stays]
      exact .inr ⟨c, held, torn⟩

/-- Every context that the event selects goes dark, whatever swaps it sets going. -/
theorem State.reachAll_dark (steady : order.byPorts) (held : s.ctx i = some c)
    (ordered : (order s.nodeId c).isSome) : (s.reachAll order).ctx i = none ∨
      ∃ c', (s.reachAll order).ctx i = some c' ∧ c'.tornDown = true := by
  obtain ⟨u, before, after⟩ := s.reachAll_split order i
  cases here : u.ctx i with
  | none =>
    rw [State.reach_absent here] at after
    exact .inl (after.absent here)
  | some c1 =>
    obtain ⟨c0, held0, same⟩ := before.keeps.contexts i c1 here
    cases held.symm.trans held0
    have inPort : c1.inPort = c.inPort := by have e := congrArg Context.inPort same; exact e
    obtain ⟨o, ordered⟩ := Option.isSome_iff_exists.1 ordered
    have ordered' : order u.nodeId c1 = some o := by
      rw [before.nodeId, steady _ c c1 inPort same.outPort, ordered]
    rw [State.reach_of_some here ordered'] at after
    rcases State.causeReaches_dark here o with gone | ⟨c', dark, torn⟩
    · exact .inl (after.absent gone)
    · exact .inr (after.tornDown dark torn)

/-- A teardown that is no retreat stays as it is. -/
theorem State.reachAll_decided {td : Teardown} (held : s.ctx i = some c) (decided : c.teardown = some td)
    (jump : td.way ≠ .retreat) :
    (∃ c', (s.reachAll order).ctx i = some c' ∧ c.SameCause c') ∧
      (s.noSwap → ((s.reachAll order).ctx i).map Context.stepless = some c.stepless) := by
  obtain ⟨u, before, after⟩ := s.reachAll_split order i
  obtain ⟨c1, here, same⟩ := before.spares.torn c held (by rw [decided]; rfl)
  have decided1 : c1.teardown = some td := same.teardown.trans decided
  have stays : u.reach order i = u := by
    cases ordered : order u.nodeId c1 with
    | none => exact State.reach_of_none here ordered
    | some o =>
      rw [State.reach_of_some here ordered, State.causeReaches_second here (by simp [Context.tornDown, decided1])]
      refine State.secondCause_stays here o fun td' decided' => .inl ?_
      cases decided1.symm.trans decided'
      exact jump
  rw [stays] at after
  obtain ⟨c2, last, same'⟩ := after.spares.torn c1 here (by rw [decided1]; rfl)
  refine ⟨⟨c2, last, same.trans same'⟩, fun quiet => ?_⟩
  obtain ⟨quiet', steps, -⟩ := before.spares.still quiet
  rw [(after.spares.still quiet').2.1, steps, held]
  rfl

end

end Sys2Proof.Machine

/-! PROOFS. What the turn of a context does to it and sends, as it is said of the whole event (R97, R153,
R156, R170). -/

namespace Sys2Proof.Machine

open Sys2Proof

section
variable {s t u v : State} {i j : CtxIdx} {c c1 : Context} {p : PortNo} {order : Causes} {o : TeardownOrder}
  {w : Way}

theorem EngineRun.noSwap (run : EngineRun s t) (quiet : s.noSwap) : t.noSwap := fun p => by
  have pending := mt (run.swapsKept.pending p)
  rw [quiet p] at pending
  exact Bool.eq_false_iff.2 (pending (by decide))

/-- The turn of context `i`, which was `c`: it comes in `u`, where the context is `c1`, and what follows
it in `t` is about others. -/
structure Turn (order : Causes) (i : CtxIdx) (c : Context) (s u t : State) (c1 : Context) : Prop where
  before : Turns i s u
  here : u.ctx i = some c1
  same : c1.stepless = c.stepless
  after : Turns i (u.reach order i) t

/-- With no swap pending a context comes to its turn as it was, but for a step. -/
theorem State.reachAll_turn (order : Causes) (quiet : s.noSwap) (held : s.ctx i = some c) : ∃ u c1,
    Turn order i c s u (s.reachAll order) c1 ∧
      (c1.outstanding = some .measure → c.outstanding = some .measure) := by
  obtain ⟨u, before, after⟩ := s.reachAll_split order i
  obtain ⟨-, steps, asks⟩ := before.spares.still quiet
  rw [held, Option.map_some, Option.map_eq_some_iff] at steps
  obtain ⟨c1, here, same⟩ := steps
  refine ⟨u, c1, ⟨before, here, same, after⟩, fun measure => ?_⟩
  obtain ⟨c', held', measure'⟩ := asks c1 here measure
  cases held.symm.trans held'
  exact measure'

/-! ### An event on the contexts of one out-port -/

/-- The turn of another context of the port leaves the context, with no swap pending on the port. -/
theorem State.reach_around (own : ∀ n c o, order n c = some o → c.outPort = p)
    (pending : (s.port p).swapPending = false) (other : j ≠ i) :
    ((s.reach order j).ctx i).map Context.stepless = (s.ctx i).map Context.stepless ∧
      ((s.reach order j).port p).swapPending = false := by
  cases held : s.ctx j with
  | none => rw [State.reach_absent held]; exact ⟨rfl, pending⟩
  | some c =>
    cases ordered : order s.nodeId c with
    | none => rw [State.reach_of_none held ordered]; exact ⟨rfl, pending⟩
    | some o =>
      have out (c' : Context) (held' : s.ctx j = some c') : c'.outPort = p := by
        cases held.symm.trans held'
        exact own _ _ _ ordered
      have around := (onlyAround_refl s p j).causeReaches pending out o
      rw [State.reach_of_some held ordered]
      exact ⟨around.1 i (Ne.symm other), (onlyAround_swapPending around).trans pending⟩

/-- With no swap pending on its own port a context comes to its turn as it was, but for a step. -/
theorem State.reachAll_turn_own (own : ∀ n c o, order n c = some o → c.outPort = p)
    (pending : (s.port p).swapPending = false) (held : s.ctx i = some c) :
    ∃ u c1, Turn order i c s u (s.reachAll order) c1 := by
  obtain ⟨before, after, split, early, late⟩ := allContexts_split i
  have steps : ((before.foldl (State.reach order) s).ctx i).map Context.stepless = some c.stepless := by
    rw [← Option.map_some, ← held]
    clear split held
    induction before generalizing s with
    | nil => rfl
    | cons j js ih =>
      rw [List.mem_cons, not_or] at early
      obtain ⟨stays, pending'⟩ := State.reach_around own pending (Ne.symm early.1)
      exact (ih pending' early.2).trans stays
  rw [Option.map_eq_some_iff] at steps
  obtain ⟨c1, here, same⟩ := steps
  refine ⟨_, c1, Turns.foldl early s order, here, same, ?_⟩
  rw [State.reachAll, split, List.foldl_append, List.foldl_cons]
  exact Turns.foldl late _ order

/-! ### The first cause (R153, R156) -/

namespace Turn

theorem field {α : Type} (turn : Turn order i c s u t c1) (f : Context → α) (steps : ∀ x, f x.stepless = f x) :
    f c1 = f c := by rw [← steps, turn.same, steps]

theorem way (turn : Turn order i c s u t c1) (o : TeardownOrder) : u.wayFor c1 o = s.wayFor c o := by
  have range : c1.rangeOpen = c.rangeOpen := turn.field Context.rangeOpen fun _ => by rfl
  have out : c1.outPort = c.outPort := turn.field Context.outPort fun _ => rfl
  unfold State.wayFor
  rw [range, out, (turn.before.keeps.ports c.outPort).lineIsUp]

theorem ordered (turn : Turn order i c s u t c1) (steady : order.byPorts) :
    order u.nodeId c1 = order s.nodeId c := by
  rw [turn.before.nodeId]
  exact steady _ _ _ (turn.field Context.inPort fun _ => rfl) (turn.field Context.outPort fun _ => rfl)

theorem first (turn : Turn order i c s u t c1) (steady : order.byPorts) (means : order s.nodeId c = some o)
    (whole : c.tornDown = false) : u.reach order i = u.decideTeardown i o := by
  have whole' : c1.tornDown = false := (turn.field Context.tornDown fun _ => by rfl).trans whole
  rw [State.reach_of_some turn.here ((turn.ordered steady).trans means), State.causeReaches_first turn.here whole']

/-- The context takes its first cause. -/
theorem takesCause (turn : Turn order i c s u t c1) (steady : order.byPorts) (means : order s.nodeId c = some o)
    (whole : c.tornDown = false) {r : Reason} (reason : o.reason = some r) (way : s.wayFor c o = w) :
    takesCause t i o.cause w o.notice r o.origin := by
  have fate := State.decideTeardown_tornDownBy turn.here o
  rw [turn.way, way, ← turn.first steady means whole] at fate
  cases w with
  | none => exact turn.after.absent fate.1
  | retreat =>
    obtain ⟨c', dark, decided, reason', origin, -⟩ := fate
    obtain ⟨c'', last, same⟩ := turn.after.spares.torn c' dark (by rw [decided]; rfl)
    exact ⟨c'', last, same.teardown.trans decided, (same.reason.trans reason').trans reason,
      same.origin.trans origin⟩
  | darkJump =>
    obtain ⟨c', dark, decided, reason', origin, -⟩ := fate
    obtain ⟨c'', last, same⟩ := turn.after.spares.torn c' dark (by rw [decided]; rfl)
    exact ⟨c'', last, same.teardown.trans decided, (same.reason.trans reason').trans reason,
      same.origin.trans origin⟩

/-- A dark jump with no measurement outstanding closes. -/
theorem closes (turn : Turn order i c s u t c1) (steady : order.byPorts) (means : order s.nodeId c = some o)
    (whole : c.tornDown = false) (way : s.wayFor c o = .darkJump) (quiet : s.noSwap)
    (asks : c1.outstanding ≠ some .measure) : ∃ c', t.ctx i = some c' ∧
      c'.teardown = some ⟨o.cause, .darkJump, o.notice⟩ ∧ c'.state = .closing := by
  have fate := State.decideTeardown_tornDownBy turn.here o
  rw [turn.way, way, ← turn.first steady means whole] at fate
  obtain ⟨c', dark, decided, -, -, jumps⟩ := fate
  rw [jumpsDark, if_neg asks] at jumps
  have quiet' : (u.reach order i).noSwap := (turn.before.run.trans (u.reach_run order i)).noSwap quiet
  have steps := (turn.after.spares.still quiet').2.1
  rw [dark, Option.map_some, Option.map_eq_some_iff] at steps
  obtain ⟨c'', last, same⟩ := steps
  have state : c''.state = c'.state := by have e := congrArg Context.state same; exact e
  exact ⟨c'', last, (Context.sameCause_of_stepless same).teardown.trans decided, state.trans jumps.1⟩

/-- A frame among those of the turn is among those of the event. -/
theorem sentAmong {q : PortNo} {m : PeerFrame} (turn : Turn order i c s u t c1)
    (sent : sentAmong u (u.reach order i) q m) : sentAmong s t q m := by
  obtain ⟨fs, gs, out⟩ := sent
  obtain ⟨before, early⟩ := turn.before.keeps.out_prefix q
  obtain ⟨after, late⟩ := turn.after.keeps.out_prefix q
  exact ⟨before ++ fs, gs ++ after, by rw [late, out, early]; simp⟩

theorem serves (turn : Turn order i c s u t c1) {e : DegreeNo} {n : NodeId} (serves : s.servesDegree e n) :
    u.servesDegree e n := (turn.before.run.serves turn.before.keeps.straps e n).2 serves

/-- The message upstream leaves (R156). -/
theorem sendsUp (turn : Turn order i c s u t c1) (steady : order.byPorts) (means : order s.nodeId c = some o)
    (whole : c.tornDown = false) {r : Reason} (reason : o.reason = some r) (up : o.sendUp = true) {e : DegreeNo}
    {n : NodeId} (inPort : c.inPort = .degree e) (serves : s.servesDegree e n) :
    Machine.sentAmong s t (portOf e) ⟨n, s.nodeId, e, c.upMessage r o.origin⟩ := by
  have inPort' : c1.inPort = .degree e := (turn.field Context.inPort fun _ => rfl).trans inPort
  have sent := sentAmong_of_sentFirst (Keeps.refl u)
    (State.decideTeardown_sendsUp turn.here up reason inPort' (turn.serves serves))
  rw [turn.before.nodeId, ← turn.first steady means whole] at sent
  have message : c1.upMessage r o.origin = c.upMessage r o.origin :=
    turn.field (Context.upMessage · r o.origin) fun _ => by rfl
  rw [← message]
  exact turn.sentAmong sent

/-- The notice downstream leaves at once where the range was not Open (R156). -/
theorem sendsAbort (turn : Turn order i c s u t c1) (steady : order.byPorts) (means : order s.nodeId c = some o)
    (whole : c.tornDown = false) {r : Reason} (reason : o.reason = some r) (notice : o.notice = .abort)
    (way : s.wayFor c o = .none) {e : DegreeNo} {n : NodeId} (out : c.outPort = portOf e)
    (serves : s.servesDegree e n) :
    Machine.sentAmong s t (portOf e) ⟨n, s.nodeId, e, .abort c.path r o.origin⟩ := by
  have path : c1.path = c.path := turn.field Context.path fun _ => rfl
  have out' : c1.outPort = portOf e := (turn.field Context.outPort fun _ => rfl).trans out
  have owed : (c1.tornBy o .none).noticeOwed = some (.abort c.path r o.origin) := by
    simp [Context.noticeOwed, Context.tornBy, notice, reason, path]
  have sent := (State.decideTeardown_sendsNotice turn.here ((turn.way o).trans way) owed out' (turn.serves serves)).1
  rw [turn.before.nodeId, ← turn.first steady means whole] at sent
  exact turn.sentAmong sent

end Turn

/-! ### A context that the event leaves, and a second cause (R170) -/

/-- With no swap pending a context whose turn does nothing stays, but for a step. -/
theorem State.reachAll_apart (order : Causes) (quiet : s.noSwap) (held : s.ctx i = some c)
    (apart : ∀ u c1, Turn order i c s u (s.reachAll order) c1 → u.reach order i = u) :
    ((s.reachAll order).ctx i).map Context.stepless = some c.stepless ∧
      asksNoMore i s (s.reachAll order) := by
  obtain ⟨u, c1, turn, -⟩ := s.reachAll_turn order quiet held
  have after := turn.after
  rw [apart u c1 turn] at after
  obtain ⟨-, stays, asks⟩ := (turn.before.trans after).spares.still quiet
  exact ⟨by rw [stays, held]; rfl, asks⟩

theorem State.reachAll_unmeant (steady : order.byPorts) (quiet : s.noSwap) (held : s.ctx i = some c)
    (means : order s.nodeId c = none) :
    ((s.reachAll order).ctx i).map Context.stepless = some c.stepless ∧
      asksNoMore i s (s.reachAll order) :=
  s.reachAll_apart order quiet held fun _ _ turn =>
    State.reach_of_none turn.here ((turn.ordered steady).trans means)

/-- A cause that would decide a dark jump turns a retreat, which closes unless a measurement is
outstanding. -/
theorem State.reachAll_turns (steady : order.byPorts) (quiet : s.noSwap) (held : s.ctx i = some c)
    (means : order s.nodeId c = some o) (dark : o.darkCause = true) {td : Teardown}
    (decided : c.teardown = some td) (retreat : td.way = .retreat) (open_ : c.state ≠ .closing) :
    ∃ c', (s.reachAll order).ctx i = some c' ∧ c'.teardown = some { td with way := .darkJump } ∧
      c'.abortReason = c.abortReason ∧ c'.origin = c.origin ∧
      (c.outstanding ≠ some .measure → c'.state = .closing) := by
  obtain ⟨u, c1, turn, asks⟩ := s.reachAll_turn order quiet held
  have cause := Context.sameCause_of_stepless turn.same
  have decided1 := cause.teardown.trans decided
  have state1 : c1.state ≠ .closing := by rw [turn.field Context.state fun _ => rfl]; exact open_
  obtain ⟨c2, after, turned, reason, origin, jumps⟩ := State.secondCause_turns turn.here dark decided1 retreat state1
  have reached : u.reach order i = u.secondCause i o := by
    rw [State.reach_of_some turn.here ((turn.ordered steady).trans means),
      State.causeReaches_second turn.here (by simp [Context.tornDown, decided1])]
  have quiet' : (u.reach order i).noSwap := (turn.before.run.trans (u.reach_run order i)).noSwap quiet
  have steps := (turn.after.spares.still quiet').2.1
  rw [reached, after, Option.map_some, Option.map_eq_some_iff] at steps
  obtain ⟨c3, last, same⟩ := steps
  have same3 := Context.sameCause_of_stepless same
  refine ⟨c3, last, same3.teardown.trans turned, same3.reason.trans (reason.trans cause.reason),
    same3.origin.trans (origin.trans cause.origin), fun measures => ?_⟩
  rw [jumpsDark, if_neg (mt asks measures)] at jumps
  have state : c3.state = c2.state := by have e := congrArg Context.state same; exact e
  exact state.trans jumps.1

end

end Sys2Proof.Machine

/-! PROOFS. PORTCLEAR: the turn of every context on the port (R166, R169). -/

namespace Sys2Proof.Machine

open Sys2Proof

section
variable {s t : State} {i : CtxIdx} {c : Context} {p : PortNo} {order : Causes}

theorem State.reachAll_frozen (order : Causes) (s : State) (p : PortNo) :
    ((s.reachAll order).port p).frozen = (s.port p).frozen := by
  obtain ⟨u, before, after⟩ := s.reachAll_split order 0
  have turn := (Turns.reach (i := 1) (j := 0) (by decide) u order).spares.frozen p
  exact (after.spares.frozen p).trans (turn.trans (before.spares.frozen p))

/-- The context uses port `p`, as the part finds it out. -/
def Context.onPort (c : Context) (p : PortNo) : Bool :=
  decide (c.outPort = p) || (degreeOf p).any fun d => decide (c.inPort = .degree d)

theorem Context.onPort_iff (c : Context) (p : PortNo) : c.onPort p = true ↔ c.usesPort p := by
  have inPort : ((degreeOf p).any fun d => decide (c.inPort = .degree d)) = true ↔
      ∃ d, c.inPort = .degree d ∧ portOf d = p := by
    rw [Option.any_eq_true]
    constructor
    · rintro ⟨d, port, here⟩
      exact ⟨d, of_decide_eq_true here, portOf_of_degreeOf port⟩
    · rintro ⟨d, here, rfl⟩
      exact ⟨d, degreeOf_portOf d, decide_eq_true here⟩
  rw [Context.onPort, Context.usesPort, Bool.or_eq_true, decide_eq_true_eq, inPort]

/-- PORTCLEAR for a context of its port (R169). -/
def clearOrder (n : NodeId) : TeardownOrder := ⟨.portClear, some .portCleared, n, .abort, false, true⟩

/-- The causes of a PORTCLEAR. -/
def clearCauses (p : PortNo) : Causes := fun n c => if c.onPort p then some (clearOrder n) else none

theorem clearCauses_byPorts (p : PortNo) : (clearCauses p).byPorts := by
  intro n c c' inPort outPort
  rw [clearCauses, clearCauses, Context.onPort, Context.onPort, inPort, outPort]

theorem clearCauses_uses (uses : c.usesPort p) (n : NodeId) : clearCauses p n c = some (clearOrder n) :=
  if_pos ((c.onPort_iff p).2 uses)

theorem clearCauses_apart (apart : ¬c.usesPort p) (n : NodeId) : clearCauses p n c = none :=
  if_neg (mt (c.onPort_iff p).1 apart)

/-- The turn of a context at a PORTCLEAR: a teardown decided stays. -/
theorem State.clearContext_eq (p : PortNo) : State.clearContext p = State.reach (clearCauses p) := by
  funext s i
  cases held : s.ctx i with
  | none =>
    rw [State.reach_absent held]
    simp only [State.clearContext, State.withCtx, held]
  | some c =>
    rw [State.clearContext, State.withCtx_some held]
    by_cases uses : c.usesPort p
    · have here := (c.onPort_iff p).2 uses
      rw [Context.onPort] at here
      rw [State.reach_of_some held (clearCauses_uses uses _), here]
      cases torn : c.tornDown with
      | false => rw [State.causeReaches_first held torn]; rfl
      | true => rw [State.causeReaches_second held torn, State.secondCause_of_lit rfl]; rfl
    · have here := mt (c.onPort_iff p).1 uses
      rw [Context.onPort, Bool.not_eq_true] at here
      rw [State.reach_of_none held (clearCauses_apart uses _), here]
      rfl

/-- PORTCLEAR, its work done and answered. -/
theorem exec_portclear {a b : Byte} {rest : List (List Byte)} (waits : s.commandWaits 11 a b [byteOf p.val] rest) :
    exec .portclear s = .next { State.reachAll (clearCauses p) { s with commands := rest } with
      responses := s.responses ++ [⟨11, a, b, .ok, false, s.timeBase, .none⟩] } := by
  have answered : exec .portclear s = _ := onCommand_eq waits.1 (by decide) waits.2 portclearWork
  rw [portclearWork, onPortCommand_byteOf, State.respond_eq, State.clearContext_eq] at answered
  have keeps := State.reachAll_keeps (clearCauses p) { s with commands := rest }
  set w := State.reachAll (clearCauses p) { s with commands := rest } with hw
  have same : w.responses ++ [⟨11, a, b, .ok, false, w.timeBase, .none⟩] =
      s.responses ++ [⟨11, a, b, .ok, false, s.timeBase, .none⟩] := by rw [keeps.responses, keeps.timeBase]
  exact answered.trans (congrArg (fun r => Host.Outcome.next { w with responses := r }) same)

/-- What a PORTCLEAR does to the contexts, with no swap pending. -/
theorem State.reachAll_clears (quiet : s.noSwap) (held : s.ctx i = some c) (clears : s.reachAll (clearCauses p) = t) :
    (c.usesPort p → c.tornDown = false →
      takesCause t i .portClear (s.localWay c) .abort .portCleared s.nodeId ∧
      (∀ e m, c.inPort = .degree e → s.servesDegree e m → sentAmong s t (portOf e)
        ⟨m, s.nodeId, e, c.upMessage .portCleared s.nodeId⟩) ∧
      (s.localWay c = .none → ∀ e m, c.outPort = portOf e → s.servesDegree e m →
        sentAmong s t (portOf e) ⟨m, s.nodeId, e, .abort c.path .portCleared s.nodeId⟩)) ∧
    (¬c.usesPort p ∨ c.tornDown = true → (t.ctx i).map Context.stepless = some c.stepless) := by
  subst clears
  have steady := clearCauses_byPorts p
  refine ⟨fun uses whole => ?_, fun stays => ?_⟩
  · obtain ⟨u, c1, turn, -⟩ := State.reachAll_turn (clearCauses p) quiet held
    have means := clearCauses_uses uses s.nodeId
    have way : s.wayFor c (clearOrder s.nodeId) = s.localWay c := State.wayFor_eq_localWay s c rfl
    exact ⟨turn.takesCause steady means whole rfl way, fun e m inPort serves =>
      turn.sendsUp steady means whole rfl rfl inPort serves, fun none e m out serves =>
        turn.sendsAbort steady means whole rfl rfl (way.trans none) out serves⟩
  · refine (State.reachAll_apart (clearCauses p) quiet held fun u c1 turn => ?_).1
    by_cases uses : c.usesPort p
    · have torn : c1.tornDown = true :=
        (turn.field Context.tornDown fun _ => by rfl).trans (stays.resolve_left (not_not_intro uses))
      rw [State.reach_of_some turn.here ((turn.ordered steady).trans (clearCauses_uses uses _)),
        State.causeReaches_second turn.here torn, State.secondCause_of_lit rfl]
    · exact State.reach_of_none turn.here ((turn.ordered steady).trans (clearCauses_apart uses _))

end

/-- Settles O12, by the turn of each context. -/
theorem portclearTearsDownEveryContextOnThePort : Obligations.PortclearTearsDownEveryContextOnThePort := by
  intro s a b p rest waits
  have run := exec_portclear waits
  obtain ⟨v, hv⟩ : ∃ v : State, v = { s with commands := rest } := ⟨_, rfl⟩
  obtain ⟨w, clears⟩ : ∃ w, State.reachAll (clearCauses p) v = w := ⟨_, rfl⟩
  have ctx (i : CtxIdx) : v.ctx i = s.ctx i := by rw [hv]; rfl
  have port (q : PortNo) : v.port q = s.port q := by rw [hv]; rfl
  have keeps : Keeps v w := clears ▸ State.reachAll_keeps (clearCauses p) v
  have adj (d : DegreeNo) : (w.degree d).adj = (v.degree d).adj :=
    clears ▸ (State.reachAll_run (clearCauses p) v).adj d
  have frozen (q : PortNo) : (w.port q).frozen = (v.port q).frozen := clears ▸ State.reachAll_frozen _ v q
  have dark {i : CtxIdx} {c : Context} (held : v.ctx i = some c) (uses : c.usesPort p) :
      w.ctx i = none ∨ ∃ c', w.ctx i = some c' ∧ c'.tornDown = true :=
    clears ▸ State.reachAll_dark (clearCauses_byPorts p) held (by rw [clearCauses_uses uses]; rfl)
  have stays (apart : ∀ i c, v.ctx i = some c → ¬c.usesPort p) : w = v :=
    clears ▸ State.reachAll_stays fun i c held => clearCauses_apart (apart i c held) _
  rw [← hv, clears] at run
  have cleared {i : CtxIdx} {c : Context} (quiet : v.noSwap) (held : v.ctx i = some c) :=
    State.reachAll_clears quiet held clears
  refine ⟨fun apart => ?_, _, run, rfl, fun i c held uses => ?_, fun q => ?_, fun d => ?_,
    fun quiet i c held => ?_⟩
  · rw [run, stays fun i c held => apart i c ((ctx i).symm.trans held), hv]
    rfl
  · exact dark ((ctx i).trans held) uses
  · have kept := keeps.ports q
    rw [port] at kept
    exact ⟨kept.synced, kept.bankA, kept.bankB, (frozen q).trans (congrArg PortState.frozen (port q)), kept.lineIsUp⟩
  · rw [hv] at adj
    exact adj d
  · have fate := cleared (fun q => by rw [port]; exact quiet q) ((ctx i).trans held)
    rw [hv] at fate
    exact fate

end Sys2Proof.Machine

/-! PROOFS. The loss of a neighbour: entry to RECOVERY, and what it does to the contexts on the degree (R50,
R168, R170). -/

namespace Sys2Proof.Machine

open Sys2Proof

/-- `v` has the contexts of `s`, and of its ports what the contexts go by; only port `p` may serve another
neighbour. -/
structure Beside (p : PortNo) (s v : State) : Prop where
  ctx : ∀ i, v.ctx i = s.ctx i
  nodeId : v.nodeId = s.nodeId
  noSwap : s.noSwap → v.noSwap
  out : ∀ q, (v.port q).out = (s.port q).out
  serves : ∀ e n, portOf e ≠ p → s.servesDegree e n → v.servesDegree e n

section
variable {s t u v : State} {i : CtxIdx} {c : Context} {d : DegreeNo} {p : PortNo} {order : Causes}

theorem Beside.sentAmong {q : PortNo} {m : PeerFrame} (beside : Beside p s v) (sent : sentAmong v t q m) :
    sentAmong s t q m := by
  obtain ⟨fs, gs, out⟩ := sent
  exact ⟨fs, gs, by rw [out, beside.out]⟩

theorem Beside.trans (h : Beside p s u) (h' : Beside p u v) : Beside p s v where
  ctx i := (h'.ctx i).trans (h.ctx i)
  nodeId := h'.nodeId.trans h.nodeId
  noSwap quiet := h'.noSwap (h.noSwap quiet)
  out q := (h'.out q).trans (h.out q)
  serves e n apart serves := h'.serves e n apart (h.serves e n apart serves)

theorem Context.usesPort_iff (c : Context) (d : DegreeNo) :
    c.usesPort (portOf d) ↔ c.outPort = portOf d ∨ c.inPort = .degree d := by
  have inPort : (∃ e, c.inPort = .degree e ∧ portOf e = portOf d) ↔ c.inPort = .degree d :=
    ⟨fun ⟨_, here, same⟩ => portOf_injective same ▸ here, fun here => ⟨d, here, rfl⟩⟩
  rw [Context.usesPort, inPort]

/-! ### The causes of a loss (R168) -/

/-- Out-port adjacency lost, and in-port adjacency lost (R168). -/
def outLostOrder (n : NodeId) : TeardownOrder :=
  ⟨.outPortAdjacencyLost, some .adjacencyLost, n, .none, false, true⟩

def inLostOrder (n : NodeId) : TeardownOrder :=
  ⟨.inPortAdjacencyLost, some .adjacencyLost, n, .abort, true, false⟩

/-- The causes of an adjacency lost. -/
def lostCauses (d : DegreeNo) : Causes := fun n c =>
  if c.outPort = portOf d then some (outLostOrder n)
  else if c.inPort = .degree d then some (inLostOrder n) else none

theorem lostCauses_byPorts (d : DegreeNo) : (lostCauses d).byPorts := by
  intro n c c' inPort outPort
  rw [lostCauses, lostCauses, inPort, outPort]

theorem lostCauses_out (out : c.outPort = portOf d) (n : NodeId) : lostCauses d n c = some (outLostOrder n) :=
  if_pos out

theorem lostCauses_in (out : c.outPort ≠ portOf d) (inPort : c.inPort = .degree d) (n : NodeId) :
    lostCauses d n c = some (inLostOrder n) := (if_neg out).trans (if_pos inPort)

theorem lostCauses_apart (apart : ¬c.usesPort (portOf d)) (n : NodeId) : lostCauses d n c = none := by
  rw [Context.usesPort_iff, not_or] at apart
  exact (if_neg apart.1).trans (if_neg apart.2)

theorem State.adjacencyLost_eq (s : State) (d : DegreeNo) : s.adjacencyLost d = s.reachAll (lostCauses d) := by
  have turn : (fun (s : State) (i : CtxIdx) => s.withCtx i fun c =>
      if c.outPort = portOf d then s.causeReaches i s.outAdjLost
      else if c.inPort = .degree d then s.causeReaches i s.inAdjLost
      else s) = State.reach (lostCauses d) := by
    funext s i
    refine congrArg (s.withCtx i) ?_
    funext c
    rw [lostCauses]
    by_cases out : c.outPort = portOf d
    · rw [if_pos out, if_pos out]; rfl
    · rw [if_neg out, if_neg out]
      by_cases inPort : c.inPort = .degree d
      · rw [if_pos inPort, if_pos inPort]; rfl
      · rw [if_neg inPort, if_neg inPort]; rfl
  rw [State.adjacencyLost, turn]
  rfl

/-! ### What a loss does to the contexts -/

/-- Every context on the degree goes dark. -/
theorem State.reachAll_lost_dark (beside : Beside (portOf d) s v) (lost : v.reachAll (lostCauses d) = t) :
    allGoDark s t fun c => c.usesPort (portOf d) := by
  subst lost
  intro i c held uses
  refine State.reachAll_dark (lostCauses_byPorts d) ((beside.ctx i).trans held) ?_
  by_cases out : c.outPort = portOf d
  · rw [lostCauses_out out]; rfl
  · rw [lostCauses_in out (((c.usesPort_iff d).1 uses).resolve_left out)]; rfl

/-- A context with the degree downstream takes its cause along the way of its line (R168). -/
theorem State.reachAll_lost_out (beside : Beside (portOf d) s v)
    (lines : ∀ q, (v.port q).lineIsUp = (s.port q).lineIsUp) (lost : v.reachAll (lostCauses d) = t)
    (quiet : s.noSwap) (held : s.ctx i = some c) (out : c.outPort = portOf d) (whole : c.tornDown = false) :
    takesCause t i .outPortAdjacencyLost (s.localWay c) .none .adjacencyLost s.nodeId ∧
      ∀ e m, e ≠ d → c.inPort = .degree e → s.servesDegree e m → sentAmong s t (portOf e)
        ⟨m, s.nodeId, e, c.upMessage .adjacencyLost s.nodeId⟩ := by
  subst lost
  obtain ⟨u, c1, turn, -⟩ := v.reachAll_turn (lostCauses d) (beside.noSwap quiet) ((beside.ctx i).trans held)
  have steady := lostCauses_byPorts d
  have means := lostCauses_out out v.nodeId
  have way : v.wayFor c (outLostOrder v.nodeId) = s.localWay c := by
    rw [State.wayFor_eq_localWay v c rfl, State.localWay, State.localWay, lines]
  have cause := turn.takesCause steady means whole rfl way
  rw [← beside.nodeId]
  refine ⟨cause, fun e m other inPort serves => beside.sentAmong ?_⟩
  have apart : portOf e ≠ portOf d := fun same => other (portOf_injective same)
  exact turn.sendsUp steady means whole rfl rfl inPort (beside.serves e m apart serves)

/-- A context with the degree upstream loses its input (R168, R170). -/
theorem State.reachAll_lost_in (beside : Beside (portOf d) s v) (lost : v.reachAll (lostCauses d) = t)
    (quiet : s.noSwap) (held : s.ctx i = some c) (out : c.outPort ≠ portOf d) (inPort : c.inPort = .degree d) :
    (c.tornDown = false →
      takesCause t i .inPortAdjacencyLost c.lostWay .abort .adjacencyLost s.nodeId ∧
      (c.lostWay = .none → ∀ e m, c.outPort = portOf e → s.servesDegree e m →
        sentAmong s t (portOf e) ⟨m, s.nodeId, e, .abort c.path .adjacencyLost s.nodeId⟩)) ∧
    ∀ td, c.teardown = some td → td.way = .retreat → c.state ≠ .closing →
      ∃ c', t.ctx i = some c' ∧ c'.teardown = some { td with way := .darkJump } := by
  subst lost
  have steady := lostCauses_byPorts d
  have means := lostCauses_in out inPort v.nodeId
  have held' := (beside.ctx i).trans held
  refine ⟨fun whole => ?_, fun td decided retreat open_ => ?_⟩
  · obtain ⟨u, c1, turn, -⟩ := v.reachAll_turn (lostCauses d) (beside.noSwap quiet) held'
    have way : v.wayFor c (inLostOrder v.nodeId) = c.lostWay := State.wayFor_eq_lostWay v c rfl
    rw [← beside.nodeId]
    refine ⟨turn.takesCause steady means whole rfl way, fun none e m goes serves => beside.sentAmong ?_⟩
    exact turn.sendsAbort steady means whole rfl rfl (way.trans none) goes
      (beside.serves e m (by rw [← goes]; exact out) serves)
  · obtain ⟨c', last, turned, -⟩ :=
      State.reachAll_turns steady (beside.noSwap quiet) held' means rfl decided retreat open_
    exact ⟨c', last, turned⟩

/-! ### Entry to RECOVERY (R50) -/

/-- A degree that enters RECOVERY, before its contexts go dark (R50). -/
def State.recovering (s : State) (d : DegreeNo) : State :=
  (s.onDegree d fun x => { x.forgotten with
    adj := .recovery, recoveryTimer := some (s.elapsed + s.part.recoveryHold) }).report
      (.adjacency d .recovery (s.degree d).nbrId .none)

theorem State.enterRecovery_eq (s : State) (d : DegreeNo) :
    s.enterRecovery d = (s.recovering d).reachAll (lostCauses d) := by
  rw [← State.adjacencyLost_eq, State.enterRecovery, State.adjacencyRecord, State.degree_onDegree_same]
  rfl

theorem State.recovering_degree (s : State) (d : DegreeNo) : (s.recovering d).degree d = { (s.degree d).forgotten with
    adj := .recovery, recoveryTimer := some (s.elapsed + s.part.recoveryHold) } := by
  rw [State.recovering, State.report_degree, State.degree_onDegree_same]

theorem State.recovering_other {e : DegreeNo} (s : State) (other : e ≠ d) :
    (s.recovering d).degree e = s.degree e := by
  rw [State.recovering, State.report_degree, State.degree_onDegree_other _ _ other]

theorem State.recovering_port (s : State) (d : DegreeNo) (q : PortNo) : (s.recovering d).port q = s.port q := by
  rw [State.recovering, State.report_port]
  rfl

theorem State.recovering_beside (s : State) (d : DegreeNo) : Beside (portOf d) s (s.recovering d) where
  ctx i := State.report_ctx _ _ i
  nodeId := by
    unfold State.nodeId
    rw [State.recovering, State.report_eq]
    rfl
  noSwap quiet q := by rw [State.recovering_port]; exact quiet q
  out q := by rw [State.recovering_port]
  serves e n apart serves := by
    have straps : (s.recovering d).straps = s.straps := by
      rw [State.recovering, State.report_eq]
      rfl
    have other : e ≠ d := fun same => apart (congrArg portOf same)
    exact (State.servesDegree_congr straps (s.recovering_other other) n).2 serves

/-- An UP degree enters RECOVERY, from a state that may have had one frame more in its queue. -/
theorem State.enterRecovery_enters {u : State} (beside : Beside (portOf d) s u) (ports : ∀ q, u.port q = s.port q)
    (ring : u.ring = s.ring) (now : u.elapsed = s.elapsed) (part : u.part = s.part)
    (degree : { u.degree d with peerQueue := (s.degree d).peerQueue } = s.degree d)
    (others : sameOtherDegrees s u d) : entersRecovery s (u.enterRecovery d) d ∧
      ((u.enterRecovery d).degree d).peerQueue = (u.degree d).peerQueue := by
  rw [State.enterRecovery_eq]
  have beside' := beside.trans (u.recovering_beside d)
  have line (q : PortNo) : ((u.recovering d).port q).lineIsUp = (s.port q).lineIsUp := by
    rw [State.recovering_port, ports]
  have synced (q : PortNo) : ((u.recovering d).port q).synced = (s.port q).synced := by
    rw [State.recovering_port, ports]
  obtain ⟨t, lost⟩ : ∃ t, (u.recovering d).reachAll (lostCauses d) = t := ⟨_, rfl⟩
  have keeps : Keeps (u.recovering d) t := lost ▸ State.reachAll_keeps _ _
  have run : EngineRun (u.recovering d) t := lost ▸ State.reachAll_run _ _
  have queue : (t.degree d).peerQueue = (u.degree d).peerQueue := by
    have same := run.degree d
    rw [State.recovering_degree] at same
    have e := congrArg DegreeState.peerQueue same; exact e
  rw [lost]
  refine ⟨⟨?_, fun e other => ?_, State.reachAll_lost_dark beside' lost, fun quiet i c held => ⟨fun out whole =>
    State.reachAll_lost_out beside' line lost quiet held out whole, fun out inPort =>
      State.reachAll_lost_in beside' lost quiet held out inPort⟩, fun i c held apart quiet => ?_,
    fun room apart => ?_, fun q =>
      ⟨(keeps.ports q).lineIsUp.trans (line q), (keeps.ports q).synced.trans (synced q)⟩⟩, queue⟩
  · have same := run.degree d
    rw [State.recovering_degree, now, part] at same
    have lit := congrArg (fun x : DegreeState => { x with lampHold := (t.degree d).lampHold }) same
    rw [queue, ← degree]
    exact lit
  · have same := run.degree e
    rw [State.recovering_other u other, others e other] at same
    exact same
  · have fate := State.reachAll_unmeant (lostCauses_byPorts d) (beside'.noSwap quiet) ((beside'.ctx i).trans held)
      (lostCauses_apart apart _)
    rw [lost] at fate
    exact fate.1
  · have stays : t = u.recovering d := lost ▸ State.reachAll_stays fun i c held =>
      lostCauses_apart (apart i c ((beside'.ctx i).symm.trans held)) _
    have nbr : (u.degree d).nbrId = (s.degree d).nbrId := by
      have e := congrArg DegreeState.nbrId degree; exact e
    have written := State.report_ring_congr (s := s) (t := u.onDegree d fun x => { x.forgotten with
      adj := .recovery, recoveryTimer := some (u.elapsed + u.part.recoveryHold) }) ring
      (.adjacency d .recovery (u.degree d).nbrId .none)
    rw [stays, State.recovering, written, (s.report_ring _).1, if_pos room, nbr]

/-! ### The timers of a monitor (R44, R49, R50, R53) -/

/-- A timer of a monitor does its work once it has run out, in the states that it is for (log 3). -/
theorem exec_monitorTimer {row : Instr} {timer : Option Nat} {due : Nat} {b : Bool} {work : State}
    (run : exec row s = .next (if (b && s.due timer) = true then work else s)) (armed : timer = some due) :
    (s.elapsed < due → exec row s = .next s) ∧ (due ≤ s.elapsed → b = true → exec row s = .next work) := by
  rw [run]
  refine ⟨fun early => ?_, fun late is => ?_⟩
  · rw [State.due_of_lt armed early, Bool.and_false]; rfl
  · rw [State.due_of_le armed late, is]; rfl

theorem exec_helloTimer (running : s.inReset = false) (d : DegreeNo) : exec (.helloTimerExpiry d) s = .next
    (if ((s.degree d).adj.sendsHello && s.due (s.degree d).helloTimer) = true then (s.sendHello d).armHello d else s) :=
  whileRunning_running running _

theorem exec_deadTimer (running : s.inReset = false) (d : DegreeNo) : exec (.deadTimerExpiry d) s = .next
    (if (decide ((s.degree d).adj = .up) && s.due (s.degree d).deadTimer) = true then s.enterRecovery d else s) :=
  whileRunning_running running _

theorem exec_recoveryTimer (running : s.inReset = false) (d : DegreeNo) : exec (.recoveryTimerExpiry d) s = .next
    (if (decide ((s.degree d).adj = .recovery) && s.due (s.degree d).recoveryTimer) = true then s.enterProbing d
      else s) :=
  whileRunning_running running _

theorem exec_identTimer (running : s.inReset = false) (d : DegreeNo) : exec (.identTimerExpiry d) s = .next
    (if (decide ((s.degree d).verif = .pending) && s.due (s.degree d).identTimer) = true then s.spendQuery d else s) :=
  whileRunning_running running _

theorem Beside.refl (p : PortNo) (s : State) : Beside p s s :=
  ⟨fun _ => rfl, rfl, id, fun _ => rfl, fun _ _ _ => id⟩

end

/-- Settles O39, timer by timer. -/
theorem adjacencyTimersActWhenTheyRunOut : Obligations.AdjacencyTimersActWhenTheyRunOut := by
  intro s d running due x
  have hello := fun armed => exec_monitorTimer (due := due) (exec_helloTimer running d) armed
  have dead := fun armed => exec_monitorTimer (due := due) (exec_deadTimer running d) armed
  have recovery := fun armed => exec_monitorTimer (due := due) (exec_recoveryTimer running d) armed
  have ident := fun armed => exec_monitorTimer (due := due) (exec_identTimer running d) armed
  refine ⟨⟨fun armed => (hello armed).1, fun armed => (dead armed).1, fun armed => (recovery armed).1,
    fun armed => (ident armed).1⟩, fun late => ⟨fun armed valid dst sends => ?_, fun armed up => ?_,
    fun armed waits => ?_, fun armed pending => ?_⟩⟩
  · have greets : x.adj.sendsHello = true := by
      rcases sends with ⟨adj, -⟩ | ⟨adj, -⟩ <;> rw [adj] <;> rfl
    have run := (hello armed).2 late greets
    rw [State.sendHello_eq valid sends] at run
    refine ⟨_, run, State.degree_onDegree_same _ _ _, fun e other => State.degree_onDegree_other _ _ other,
      sentOn_emit s _ _, ?_, fun q other => State.port_onPort_other _ _ other, rfl⟩
    exact samePortButOut_sends s (portOf d) (portOf d) _
  · refine ⟨_, (dead armed).2 late (decide_eq_true up), ?_⟩
    exact State.enterRecovery_enters (.refl _ s) (fun _ => rfl) rfl rfl rfl rfl fun _ _ => rfl
  · exact ⟨_, (recovery armed).2 late (decide_eq_true waits), s.enterProbing_entersProbing d⟩
  · exact ⟨_, (ident armed).2 late (decide_eq_true pending), s.spendQuery_spent d⟩

end Sys2Proof.Machine

/-! PROOFS. HELLO: a neighbour brought UP, heard again, or lost (R45, R47, R48, R53). -/

namespace Sys2Proof.Machine

open Sys2Proof

section
variable {s t u : State} {d deg : DegreeNo} {src : NodeId} {us : List Nat} {ps : List PortNo} {full : Bool}
  {sender : AdjState}

/-! ### A HELLO's fields (R43, R45) -/

theorem State.helloValid_iff (s : State) (src : NodeId) (us : List Nat) :
    s.helloValid src us = true ↔ goodHello s src us := by
  simp only [State.helloValid, goodHello, nodeInRange, Bool.and_eq_true, decide_eq_true_eq, List.all_eq_true, and_assoc]

theorem portSet_eq (named : portsNamed us ps) : portSet us = ps := by
  refine (Keeps.portSet_ascending us).eq_of_mem_iff named.1 fun p => ?_
  rw [named.2, portSet, List.mem_filter, List.contains_iff_mem]
  exact and_iff_right (List.mem_finRange p)

/-! ### A HELLO in PROBING (R47) -/

/-- The degree that a HELLO has brought UP. -/
def DegreeState.broughtUp (x : DegreeState) (now : State) (src : NodeId) (deg : DegreeNo) (full : Bool)
    (ps : List PortNo) (sender : AdjState) : DegreeState :=
  { x with adj := .up, nbrId := some src, nbrDegree := some deg, nbrFull := full, nbrUnsynced := ps,
           seenUp := decide (sender = .up), verif := .pending, objects := [], queryAttempts := 1,
           deadTimer := some (now.elapsed + now.part.deadTime),
           identTimer := some (now.elapsed + now.part.identTimeout) }

/-- The degree with the neighbour that a HELLO names. -/
def DegreeState.meets (x : DegreeState) (src : NodeId) (deg : DegreeNo) (sender : AdjState) : DegreeState :=
  { x with adj := .up, nbrId := some src, nbrDegree := some deg, seenUp := decide (sender = .up), objects := [] }

/-- The degree with what a HELLO says of its neighbour, the dead timer armed (R47, R48). -/
def DegreeState.refreshed (x : DegreeState) (now : State) (full : Bool) (ps : List PortNo) : DegreeState :=
  { x with nbrFull := full, nbrUnsynced := ps, deadTimer := some (now.elapsed + now.part.deadTime) }

theorem State.bringUp_eq (u : State) (d : DegreeNo) (valid : u.identityValid = true) (named : portsNamed us ps) :
    u.bringUp d src deg sender full us =
      ((u.emit (portOf d) (.peer ⟨src, u.nodeId, d, .identQuery⟩)).onDegree d fun x =>
        x.broughtUp u src deg full ps sender).report (.adjacency d .up (some src) .pending) := by
  have brought : u.bringUp d src deg sender full us =
      ((((u.onDegree d fun x => x.meets src deg sender).onDegree d fun x => x.refreshed u full (portSet us)).onDegree d
        fun x => { x with verif := .pending }).sendQuery d 1).adjacencyRecord d := rfl
  rw [State.onDegree_onDegree, State.onDegree_onDegree, portSet_eq named] at brought
  set v := u.onDegree d fun x => { (x.meets src deg sender).refreshed u full ps with verif := .pending }
  have degree : v.degree d = { ((u.degree d).meets src deg sender).refreshed u full ps with verif := .pending } :=
    State.degree_onDegree_same _ _ _
  have query := State.sendPath_up (s := v) (n := src) .identQuery valid (by rw [degree]; rfl) (by rw [degree]; rfl)
  have asked : v.sendQuery d 1 = (u.emit (portOf d) (.peer ⟨src, u.nodeId, d, .identQuery⟩)).onDegree d fun x =>
      x.broughtUp u src deg full ps sender := by
    rw [State.sendQuery, query, State.emit_onDegree, State.onDegree_onDegree]
    rfl
  refine brought.trans ((congrArg (State.adjacencyRecord · d) asked).trans ?_)
  rw [State.adjacencyRecord, State.degree_onDegree_same]
  rfl

/-! ### A HELLO taken -/

theorem exec_hello {dest : NodeId} (waits : s.peerWaits d ⟨dest, src, deg, .hello sender full us⟩) :
    exec (.hello d) s = .next ((s.popPeer d).takeHello d src deg sender full us) :=
  onPeer_eq waits (helloUse d)

theorem State.popPeer_adj (s : State) (d : DegreeNo) : ((s.popPeer d).degree d).adj = (s.degree d).adj := by
  rw [State.popPeer_degree]

theorem State.popPeer_valid (good : goodHello s src us) : (s.popPeer d).helloValid src us = true :=
  (State.helloValid_iff _ _ _).2 good

/-- A HELLO that is not valid, or in DOWN or RECOVERY, is discarded. -/
theorem State.takeHello_discards
    (bad : ¬goodHello s src us ∨ (s.degree d).adj = .down ∨ (s.degree d).adj = .recovery) :
    (s.popPeer d).takeHello d src deg sender full us = s.popPeer d := by
  rw [State.takeHello, State.popPeer_adj]
  rcases bad with bad | down | recovery
  · exact if_neg (mt (State.helloValid_iff (s.popPeer d) src us).1 bad)
  · simp [down]
  · simp [recovery]

theorem State.takeHello_probing (good : goodHello s src us) (probing : (s.degree d).adj = .probing) :
    (s.popPeer d).takeHello d src deg sender full us = (s.popPeer d).bringUp d src deg sender full us := by
  rw [State.takeHello, State.popPeer_valid good, State.popPeer_adj, probing]
  rfl

theorem State.takeHello_up (good : goodHello s src us) (up : (s.degree d).adj = .up) :
    (s.popPeer d).takeHello d src deg sender full us =
      if ((s.degree d).nbrId ≠ some src ∨ (s.degree d).nbrDegree ≠ some deg) ∨
          ((s.degree d).seenUp = true ∧ sender = .probing) then (s.popPeer d).enterRecovery d
      else ((s.popPeer d).refreshNeighbour d full us).onDegree d fun x =>
        { x with seenUp := x.seenUp || decide (sender = .up) } := by
  have hears : (s.popPeer d).takeHello d src deg sender full us =
      (s.popPeer d).hearNeighbour d src deg sender full us := by
    rw [State.takeHello, State.popPeer_valid good, State.popPeer_adj, up]
    rfl
  have nbr : ((s.popPeer d).degree d).nbrId = (s.degree d).nbrId := by rw [State.popPeer_degree]
  have nbrDegree : ((s.popPeer d).degree d).nbrDegree = (s.degree d).nbrDegree := by rw [State.popPeer_degree]
  have seen : ((s.popPeer d).degree d).seenUp = (s.degree d).seenUp := by rw [State.popPeer_degree]
  rw [hears, State.hearNeighbour]
  rw [nbr, nbrDegree, seen]
  by_cases other : (s.degree d).nbrId ≠ some src ∨ (s.degree d).nbrDegree ≠ some deg
  · rw [if_pos other, if_pos (.inl other)]
  · rw [if_neg other]
    by_cases again : (s.degree d).seenUp = true ∧ sender = .probing
    · rw [if_pos again, if_pos (.inr again)]
    · rw [if_neg again, if_neg (not_or.2 ⟨other, again⟩)]

theorem State.popPeer_beside (s : State) (d : DegreeNo) (p : PortNo) : Beside p s (s.popPeer d) :=
  ⟨fun _ => rfl, rfl, fun quiet => quiet, fun _ => rfl, fun e n _ serves =>
    (State.servesDegree_popPeer s d e n).2 serves⟩

end

/-- Settles O36, by the state of the adjacency and the neighbour that is heard. -/
theorem helloMakesRefreshesOrLosesTheNeighbour : Obligations.HelloMakesRefreshesOrLosesTheNeighbour := by
  refine ⟨fun s d deg dest src sender full us ps waits valid probing good named => ?_,
    fun s d deg dest src sender full us waits => ⟨fun bad => ?_, fun good up => ⟨fun lost => ?_,
      fun nbr degree heard ps named => ?_⟩⟩⟩
  · have run := exec_hello waits
    rw [State.takeHello_probing good probing, State.bringUp_eq (s.popPeer d) d valid named] at run
    refine ⟨_, run, ?_, fun e other => ?_, ?_, ?_, fun q other => ?_, ?_, ?_⟩
    · rw [State.report_degree]
      exact State.degree_onDegree_same _ _ _
    · rw [State.report_degree]
      exact (State.degree_onDegree_other _ _ other).trans (State.degree_onDegree_other _ _ other)
    · unfold sentOn
      rw [State.report_port]
      exact sentOn_emit (s.popPeer d) _ _
    · rw [State.report_port]
      exact samePortButOut_sends (s.popPeer d) (portOf d) (portOf d) _
    · rw [State.report_port]
      exact State.port_onPort_other _ _ other
    · refine State.report_ring_congr ?_ _
      rfl
    · rw [State.report_eq]
      rfl
  · rw [exec_hello waits, State.takeHello_discards bad]
  · have run := exec_hello waits
    rw [State.takeHello_up good up, if_pos (or_assoc.2 lost)] at run
    have degree := s.popPeer_degree d
    have ⟨enters, queue⟩ := State.enterRecovery_enters (s.popPeer_beside d (portOf d)) (fun _ => rfl) rfl rfl rfl
      (by rw [degree]) fun e other => State.degree_onDegree_other _ _ other
    exact ⟨_, run, enters, by rw [queue, degree]⟩
  · have run := exec_hello waits
    have stays : ¬(((s.degree d).nbrId ≠ some src ∨ (s.degree d).nbrDegree ≠ some deg) ∨
        ((s.degree d).seenUp = true ∧ sender = .probing)) := by
      rintro ((no | no) | again)
      · exact no nbr
      · exact no degree
      · exact heard again
    rw [State.takeHello_up good up, if_neg stays, State.refreshNeighbour, State.onDegree_onDegree] at run
    refine ⟨_, run, ?_, fun e other => ?_, rfl⟩
    · rw [State.degree_onDegree_same, portSet_eq named, State.popPeer_degree]
      rfl
    · exact (State.degree_onDegree_other _ _ other).trans (State.degree_onDegree_other _ _ other)

end Sys2Proof.Machine

/-! PROOFS. LINE DOWN: the degree DOWN, then the out-port events and the in-port events (R51, R96, R97, R167,
R170). -/

namespace Sys2Proof.Machine

open Sys2Proof

section
variable {s t u v : State} {i : CtxIdx} {c : Context} {d : DegreeNo} {p : PortNo} {n : NodeId} {order : Causes}

/-! ### What a further pass leaves of a teardown decided -/

theorem State.reachAll_absent (order : Causes) (gone : s.ctx i = none) : (s.reachAll order).ctx i = none := by
  obtain ⟨u, before, after⟩ := s.reachAll_split order i
  have here := before.absent gone
  rw [State.reach_absent here] at after
  exact after.absent here

theorem State.reachAll_torn (order : Causes) (held : s.ctx i = some c) (torn : c.tornDown = true) :
    (s.reachAll order).ctx i = none ∨ ∃ c', (s.reachAll order).ctx i = some c' ∧ c'.tornDown = true := by
  obtain ⟨u, before, after⟩ := s.reachAll_split order i
  obtain ⟨c1, here, torn1⟩ := before.tornDown held torn
  cases ordered : order u.nodeId c1 with
  | none =>
    rw [State.reach_of_none here ordered] at after
    exact .inr (after.tornDown here torn1)
  | some o =>
    rw [State.reach_of_some here ordered] at after
    rcases State.causeReaches_dark here o with gone | ⟨c', dark, torn'⟩
    · exact .inl (after.absent gone)
    · exact .inr (after.tornDown dark torn')

/-- A first cause that decides no retreat stands through a further pass. -/
theorem State.reachAll_takesCause {cause : Cause} {way : Way} {notice : Notice} {r : Reason} {origin : NodeId}
    (order : Causes) (jump : way ≠ .retreat) (taken : takesCause s i cause way notice r origin) :
    takesCause (s.reachAll order) i cause way notice r origin := by
  unfold takesCause at *
  split at taken
  next none => rw [if_pos none]; exact State.reachAll_absent order taken
  next lit =>
    obtain ⟨c, held, decided, reason, from_⟩ := taken
    obtain ⟨⟨c', last, same⟩, -⟩ := State.reachAll_decided (order := order) held decided jump
    rw [if_neg lit]
    exact ⟨c', last, same.teardown.trans decided, same.reason.trans reason, same.origin.trans from_⟩

/-! ### The causes of a line down (R167) -/

/-- Out-port line down, and in-port line down (R167). -/
def outDownOrder (n : NodeId) : TeardownOrder := ⟨.outPortLineDown, some .lineDown, n, .none, false, true⟩

def inDownOrder (n : NodeId) : TeardownOrder := ⟨.inPortLineDown, some .lineDown, n, .abort, true, false⟩

/-- The causes of the out-port events, and of the in-port events. -/
def outDownCauses (p : PortNo) (n : NodeId) : Causes := fun _ c => if c.outPort = p then some (outDownOrder n) else none

def inDownCauses (p : PortNo) (n : NodeId) : Causes := fun _ c =>
  if ((degreeOf p).any fun d => decide (c.inPort = .degree d)) = true then some (inDownOrder n) else none

theorem outDownCauses_byPorts (p : PortNo) (n : NodeId) : (outDownCauses p n).byPorts := by
  intro _ c c' _ outPort
  rw [outDownCauses, outDownCauses, outPort]

theorem inDownCauses_byPorts (p : PortNo) (n : NodeId) : (inDownCauses p n).byPorts := by
  intro _ c c' inPort _
  rw [inDownCauses, inDownCauses, inPort]

theorem outDownCauses_own (p : PortNo) (n : NodeId) :
    ∀ m c o, outDownCauses p n m c = some o → c.outPort = p := by
  intro _ c o means
  rw [outDownCauses, Option.ite_none_right_eq_some] at means
  exact means.1

theorem outDownCauses_out (out : c.outPort = p) (n m : NodeId) : outDownCauses p n m c = some (outDownOrder n) :=
  if_pos out

theorem outDownCauses_apart (out : c.outPort ≠ p) (n m : NodeId) : outDownCauses p n m c = none := if_neg out

theorem inDownCauses_in (inPort : c.inPort = .degree d) (port : portOf d = p) (n m : NodeId) :
    inDownCauses p n m c = some (inDownOrder n) := by
  subst port
  refine if_pos ?_
  rw [degreeOf_portOf]
  exact decide_eq_true inPort

theorem inDownCauses_apart (apart : ¬c.usesPort p) (n m : NodeId) : inDownCauses p n m c = none := by
  refine if_neg fun any => apart ((c.onPort_iff p).1 ?_)
  rw [Context.onPort, any, Bool.or_true]

theorem State.causeOnOutPort_eq (s : State) (p : PortNo) (n : NodeId) :
    s.causeOnOutPort p (outDownOrder n) = s.reachAll (outDownCauses p n) := by
  have turn : (fun (s : State) (i : CtxIdx) => s.withCtx i fun c =>
      if c.outPort = p then s.causeReaches i (outDownOrder n) else s) = State.reach (outDownCauses p n) := by
    funext s i
    refine congrArg (s.withCtx i) ?_
    funext c
    rw [outDownCauses]
    by_cases out : c.outPort = p
    · rw [if_pos out, if_pos out]; rfl
    · rw [if_neg out, if_neg out]; rfl
  rw [State.causeOnOutPort, turn]
  rfl

theorem State.causeOnInPort_eq (s : State) (d : DegreeNo) (n : NodeId) :
    s.causeOnInPort d (inDownOrder n) = s.reachAll (inDownCauses (portOf d) n) := by
  have turn : (fun (s : State) (i : CtxIdx) => s.withCtx i fun c =>
      if c.inPort = .degree d then s.causeReaches i (inDownOrder n) else s) =
        State.reach (inDownCauses (portOf d) n) := by
    funext s i
    refine congrArg (s.withCtx i) ?_
    funext c
    by_cases inPort : c.inPort = .degree d
    · rw [if_pos inPort, inDownCauses_in inPort rfl]; rfl
    · rw [if_neg inPort, inDownCauses, if_neg (by rw [degreeOf_portOf]; simp [inPort])]; rfl
  rw [State.causeOnInPort, turn]
  rfl

/-! ### The line and its degree (R51, R96) -/

/-- The part with the line of port `p` down, and its degree DOWN, before the contexts go dark. -/
def State.darkened (s : State) (p : PortNo) : State :=
  let v := s.onPort p fun ps => { ps with lineIsUp := false }
  match degreeOf p with
  | some d => v.enterDown d
  | none => v

/-- The passes of a LINE DOWN: the out-port events, then the in-port events (R97). -/
def State.linePasses (v : State) (p : PortNo) (n : NodeId) : State :=
  (v.reachAll (outDownCauses p n)).reachAll (inDownCauses p n)

theorem State.lineDownOn_eq (up : (s.port p).lineIsUp = true) :
    s.lineDownOn p = (s.darkened p).linePasses p s.nodeId := by
  rw [State.lineDownOn, if_pos up]
  unfold State.darkened State.linePasses
  dsimp only
  cases degree : degreeOf p with
  | some d =>
    obtain rfl := portOf_of_degreeOf degree
    rw [← State.causeOnOutPort_eq, ← State.causeOnInPort_eq]
    rfl
  | none =>
    rw [← State.causeOnOutPort_eq]
    refine (State.reachAll_stays fun i c _ => ?_).symm
    exact if_neg (by rw [degree]; exact Bool.false_ne_true)

/-- Entry to DOWN: one degree and one record, unless it is DOWN (R51, R52). -/
theorem State.enterDown_eq (s : State) (d : DegreeNo) : s.enterDown d =
    if (s.degree d).adj = .down then s
    else (s.onDegree d fun x => { x.forgotten with adj := .down }).report
      (.adjacency d .down (s.degree d).nbrId .none) := by
  rw [State.enterDown, State.adjacencyRecord, State.degree_onDegree_same]
  rfl

theorem State.darkened_portOf (s : State) (d : DegreeNo) : s.darkened (portOf d) =
    (s.onPort (portOf d) fun ps => { ps with lineIsUp := false }).enterDown d := by
  rw [State.darkened, degreeOf_portOf]

/-- The part darkened is the part with the line down, but for a degree and a record. -/
theorem State.darkened_frame (s : State) (p : PortNo) :
    (∀ i, (s.darkened p).ctx i = s.ctx i) ∧ (s.darkened p).straps = s.straps ∧
      (∀ q, (s.darkened p).port q = (s.onPort p fun ps => { ps with lineIsUp := false }).port q) ∧
      ∀ e, p ≠ portOf e → (s.darkened p).degree e = s.degree e := by
  cases degree : degreeOf p with
  | none =>
    rw [State.darkened, degree]
    exact ⟨fun _ => rfl, rfl, fun _ => rfl, fun _ _ => rfl⟩
  | some d =>
    obtain rfl := portOf_of_degreeOf degree
    rw [State.darkened_portOf, State.enterDown_eq]
    split
    · exact ⟨fun _ => rfl, rfl, fun _ => rfl, fun _ _ => rfl⟩
    · refine ⟨fun i => State.report_ctx _ _ i, by rw [State.report_eq]; rfl, fun q => State.report_port _ _ q,
        fun e other => ?_⟩
      rw [State.report_degree, State.degree_onDegree_other _ _ fun same => other (congrArg portOf same.symm)]
      rfl

/-- The degree of the line: DOWN, its neighbour and objects kept (R51). -/
theorem State.darkened_degree (s : State) (d : DegreeNo) : (s.darkened (portOf d)).degree d =
    if (s.degree d).adj = .down then s.degree d else { (s.degree d).forgotten with adj := .down } := by
  rw [State.darkened_portOf, State.enterDown_eq, State.onPort_degree]
  split
  · rfl
  · rw [State.report_degree, State.degree_onDegree_same]
    rfl

theorem State.darkened_of_none (degree : degreeOf p = none) :
    s.darkened p = s.onPort p fun ps => { ps with lineIsUp := false } := by
  rw [State.darkened, degree]

theorem State.darkened_ring (s : State) (d : DegreeNo) : (s.darkened (portOf d)).ring =
    if (s.degree d).adj = .down then s.ring
    else (s.report (.adjacency d .down (s.degree d).nbrId .none)).ring := by
  rw [State.darkened_portOf, State.enterDown_eq, State.onPort_degree]
  split
  · rfl
  · refine State.report_ring_congr ?_ _
    rfl

/-- The part that has taken a LINE DOWN, before the contexts go dark. -/
def State.lineLost (s : State) (p : PortNo) : State := (s.popReport p).darkened p

theorem State.lineLost_port (s : State) (p : PortNo) :
    (s.lineLost p).port p = { s.port p with reports := (s.port p).reports.drop 1, lineIsUp := false } := by
  rw [State.lineLost, ((s.popReport p).darkened_frame p).2.2.1, State.port_onPort_same, State.popReport_port]

theorem State.lineLost_other {q : PortNo} (s : State) (other : q ≠ p) : (s.lineLost p).port q = s.port q := by
  rw [State.lineLost, ((s.popReport p).darkened_frame p).2.2.1, State.port_onPort_other _ _ other]
  exact State.port_onPort_other _ _ other

theorem State.lineLost_beside (s : State) (p : PortNo) : Beside p s (s.lineLost p) := by
  obtain ⟨ctx, straps, -, degree⟩ := (s.popReport p).darkened_frame p
  have same (q : PortNo) : ((s.lineLost p).port q).swapPending = (s.port q).swapPending ∧
      ((s.lineLost p).port q).out = (s.port q).out := by
    by_cases e : q = p
    · subst e; rw [State.lineLost_port]; exact ⟨rfl, rfl⟩
    · rw [State.lineLost_other _ e]; exact ⟨rfl, rfl⟩
  refine ⟨ctx, ?_, fun quiet q => (same q).1.trans (quiet q), fun q => (same q).2, fun e n apart serves => ?_⟩
  · unfold State.nodeId State.lineLost
    rw [straps]
    rfl
  · exact (State.servesDegree_congr (s := s) straps (degree e (Ne.symm apart)) n).2 serves

end

end Sys2Proof.Machine

/-! PROOFS. What the two passes of a LINE DOWN do to a context: with the port downstream, with it upstream, or
elsewhere (R97, R156, R167, R170). -/

namespace Sys2Proof.Machine

open Sys2Proof

section
variable {s t u v : State} {i : CtxIdx} {c : Context} {d : DegreeNo} {p : PortNo} {n : NodeId}

theorem State.linePasses_keeps (v : State) (p : PortNo) (n : NodeId) : Keeps v (v.linePasses p n) :=
  (State.reachAll_keeps _ v).trans (State.reachAll_keeps _ _)

theorem State.linePasses_run (v : State) (p : PortNo) (n : NodeId) : EngineRun v (v.linePasses p n) :=
  (State.reachAll_run _ v).trans (State.reachAll_run _ _)

/-- Every context on the port goes dark. -/
theorem State.linePasses_dark (beside : Beside p s v) (n : NodeId) :
    allGoDark s (v.linePasses p n) fun c => c.usesPort p := by
  intro i c held uses
  have held' := (beside.ctx i).trans held
  by_cases out : c.outPort = p
  · rcases State.reachAll_dark (outDownCauses_byPorts p n) held' (by rw [outDownCauses_out out]; rfl) with
      gone | ⟨c', dark, torn⟩
    · exact .inl (State.reachAll_absent _ gone)
    · exact State.reachAll_torn _ dark torn
  · obtain ⟨d, inPort, port⟩ := uses.resolve_left out
    cases here : (v.reachAll (outDownCauses p n)).ctx i with
    | none => exact .inl (State.reachAll_absent _ here)
    | some c1 =>
      obtain ⟨c0, held0, same⟩ := (State.reachAll_keeps (outDownCauses p n) v).contexts i c1 here
      cases held'.symm.trans held0
      have inPort1 : c1.inPort = .degree d := by
        have e := congrArg Context.inPort same; exact Eq.trans e inPort
      exact State.reachAll_dark (inDownCauses_byPorts p n) here (by rw [inDownCauses_in inPort1 port]; rfl)

/-! ### The port downstream (R167) -/

/-- The way of an out-port line down: no retreat is left. -/
theorem State.wayFor_outDown (down : (v.port p).lineIsUp = false) (out : c.outPort = p) (n : NodeId) :
    v.wayFor c (outDownOrder n) = c.lostWay := by
  unfold State.wayFor Context.lostWay
  rw [out, down]
  cases c.rangeOpen <;> rfl

theorem Context.lostWay_ne_retreat (c : Context) : c.lostWay ≠ .retreat := by
  unfold Context.lostWay
  split <;> exact nofun

/-- A context of the port takes its first cause, with no swap pending on the port. -/
theorem State.linePasses_own (beside : Beside p s v) (down : (v.port p).lineIsUp = false)
    (pending : (v.port p).swapPending = false) (held : s.ctx i = some c) (out : c.outPort = p)
    (whole : c.tornDown = false) (n : NodeId) :
    takesCause (v.linePasses p n) i .outPortLineDown c.lostWay .none .lineDown n := by
  obtain ⟨u, c1, turn⟩ := State.reachAll_turn_own (outDownCauses_own p n) pending ((beside.ctx i).trans held)
  have taken := turn.takesCause (outDownCauses_byPorts p n) (outDownCauses_out out n _) whole rfl
    (State.wayFor_outDown down out n)
  exact State.reachAll_takesCause _ c.lostWay_ne_retreat taken

/-- Its message goes upstream. -/
theorem State.linePasses_sendsUp (beside : Beside p s v) (quiet : s.noSwap) (held : s.ctx i = some c)
    (out : c.outPort = p) (whole : c.tornDown = false) (n : NodeId) {e : DegreeNo} {m : NodeId}
    (apart : portOf e ≠ p) (inPort : c.inPort = .degree e) (serves : s.servesDegree e m) :
    sentAmong s (v.linePasses p n) (portOf e) ⟨m, s.nodeId, e, c.upMessage .lineDown n⟩ := by
  obtain ⟨u, c1, turn, -⟩ :=
    State.reachAll_turn (outDownCauses p n) (beside.noSwap quiet) ((beside.ctx i).trans held)
  obtain ⟨fs, gs, sent⟩ := turn.sendsUp (outDownCauses_byPorts p n) (outDownCauses_out out n _) whole rfl rfl inPort
    (beside.serves e m apart serves)
  obtain ⟨late, more⟩ := (State.reachAll_keeps (inDownCauses p n) (v.reachAll (outDownCauses p n))).out_prefix
    (portOf e)
  rw [← beside.nodeId]
  exact beside.sentAmong ⟨fs, gs ++ late, by rw [State.linePasses, more, sent]; simp [outDownOrder]⟩

/-! ### The port upstream (R167) -/

/-- A context elsewhere downstream comes to the in-port events as it was, but for a step. -/
theorem State.outPass_apart (beside : Beside p s v) (quiet : s.noSwap) (held : s.ctx i = some c)
    (out : c.outPort ≠ p) (n : NodeId) : ∃ c1, (v.reachAll (outDownCauses p n)).ctx i = some c1 ∧
      c1.stepless = c.stepless ∧ (c.outstanding ≠ some .measure → c1.outstanding ≠ some .measure) ∧
      (v.reachAll (outDownCauses p n)).noSwap := by
  have held' := (beside.ctx i).trans held
  obtain ⟨steps, asks⟩ := State.reachAll_unmeant (outDownCauses_byPorts p n) (beside.noSwap quiet) held'
    (outDownCauses_apart out n _)
  obtain ⟨c1, here, same⟩ := Option.map_eq_some_iff.1 steps
  refine ⟨c1, here, same, fun idle measure => ?_, (State.reachAll_run _ v).noSwap (beside.noSwap quiet)⟩
  obtain ⟨c0, held0, measure0⟩ := asks c1 here measure
  cases held'.symm.trans held0
  exact idle measure0

/-- A context with the port upstream loses its input: its first cause, and its ABORT downstream. -/
theorem State.linePasses_in (beside : Beside p s v) (quiet : s.noSwap) (held : s.ctx i = some c)
    (out : c.outPort ≠ p) (inPort : c.inPort = .degree d) (port : portOf d = p) (whole : c.tornDown = false)
    (n : NodeId) :
    takesCause (v.linePasses p n) i .inPortLineDown c.lostWay .abort .lineDown n ∧
      (c.lostWay = .none → ∀ e m, c.outPort = portOf e → s.servesDegree e m →
        sentAmong s (v.linePasses p n) (portOf e) ⟨m, s.nodeId, e, .abort c.path .lineDown n⟩) ∧
      (c.rangeOpen = true → c.outstanding ≠ some .measure → ∃ c', (v.linePasses p n).ctx i = some c' ∧
        c'.teardown = some ⟨.inPortLineDown, .darkJump, .abort⟩ ∧ c'.state = .closing) := by
  obtain ⟨c1, here, same, idles, quiet1⟩ := State.outPass_apart beside quiet held out n
  obtain ⟨u, c2, turn, asks⟩ := State.reachAll_turn (inDownCauses p n) quiet1 here
  have field {α : Type} (f : Context → α) (steps : ∀ x, f x.stepless = f x) : f c1 = f c := by
    rw [← steps, same, steps]
  have inPort1 : c1.inPort = .degree d := (field Context.inPort fun _ => rfl).trans inPort
  have means := inDownCauses_in inPort1 port n (v.reachAll (outDownCauses p n)).nodeId
  have whole1 : c1.tornDown = false := (field Context.tornDown fun _ => by rfl).trans whole
  have lost : c1.lostWay = c.lostWay := field Context.lostWay fun _ => by rfl
  have way := ((v.reachAll (outDownCauses p n)).wayFor_eq_lostWay c1 (o := inDownOrder n) rfl).trans lost
  have steady := inDownCauses_byPorts p n
  refine ⟨turn.takesCause steady means whole1 rfl way, fun none e m goes serves => ?_, fun lit idle => ?_⟩
  · have keeps := State.reachAll_keeps (outDownCauses p n) v
    have serves1 := ((State.reachAll_run (outDownCauses p n) v).serves keeps.straps e m).2
      (beside.serves e m (by rw [← goes]; exact out) serves)
    have goes1 : c1.outPort = portOf e := (field Context.outPort fun _ => rfl).trans goes
    obtain ⟨fs, gs, sent⟩ := turn.sendsAbort steady means whole1 rfl rfl (way.trans none) goes1 serves1
    obtain ⟨early, first⟩ := keeps.out_prefix (portOf e)
    have node : (v.reachAll (outDownCauses p n)).nodeId = s.nodeId := by
      refine Eq.trans ?_ beside.nodeId
      unfold State.nodeId
      rw [keeps.straps]
    have path : c1.path = c.path := field Context.path fun _ => rfl
    refine beside.sentAmong ⟨early ++ fs, gs, ?_⟩
    rw [State.linePasses, sent, first, node, path]
    simp [inDownOrder]
  · have jump : c.lostWay = .darkJump := if_pos lit
    exact turn.closes steady means whole1 (way.trans jump) quiet1 (mt asks (idles idle))

/-! ### A second cause (R170) -/

/-- A retreat already decided becomes a dark jump. -/
theorem State.linePasses_turns (beside : Beside p s v) (quiet : s.noSwap) (held : s.ctx i = some c)
    (uses : c.usesPort p) (n : NodeId) {td : Teardown} (decided : c.teardown = some td)
    (retreat : td.way = .retreat) (open_ : c.state ≠ .closing) :
    ∃ c', (v.linePasses p n).ctx i = some c' ∧ c'.teardown = some { td with way := .darkJump } ∧
      c'.abortReason = c.abortReason ∧ c'.origin = c.origin ∧
      (c.outstanding ≠ some .measure → c'.state = .closing) := by
  have held' := (beside.ctx i).trans held
  have quiet0 := beside.noSwap quiet
  by_cases out : c.outPort = p
  · obtain ⟨c1, here, turned, reason, origin, closes⟩ := State.reachAll_turns (outDownCauses_byPorts p n) quiet0 held'
      (outDownCauses_out out n _) rfl decided retreat open_
    obtain ⟨⟨c2, last, cause⟩, steps⟩ := State.reachAll_decided (order := inDownCauses p n) here turned nofun
    have same := steps ((State.reachAll_run _ v).noSwap quiet0)
    rw [last, Option.map_some, Option.some.injEq] at same
    have state : c2.state = c1.state := by have e := congrArg Context.state same; exact e
    exact ⟨c2, last, cause.teardown.trans turned, cause.reason.trans reason, cause.origin.trans origin,
      fun idle => state.trans (closes idle)⟩
  · obtain ⟨d, inPort, port⟩ := uses.resolve_left out
    obtain ⟨c1, here, same, idles, quiet1⟩ := State.outPass_apart beside quiet held out n
    have cause := Context.sameCause_of_stepless same
    have inPort1 : c1.inPort = .degree d := by have e := congrArg Context.inPort same; exact Eq.trans e inPort
    have state1 : c1.state = c.state := by have e := congrArg Context.state same; exact e
    obtain ⟨c2, last, turned, reason, origin, closes⟩ := State.reachAll_turns (inDownCauses_byPorts p n) quiet1 here
      (inDownCauses_in inPort1 port n _) rfl (cause.teardown.trans decided) retreat (by rw [state1]; exact open_)
    exact ⟨c2, last, turned, reason.trans cause.reason, origin.trans cause.origin, fun idle => closes (idles idle)⟩

/-- A context elsewhere stays, but for a step. -/
theorem State.linePasses_apart (beside : Beside p s v) (quiet : s.noSwap) (held : s.ctx i = some c)
    (apart : ¬c.usesPort p) (n : NodeId) :
    ((v.linePasses p n).ctx i).map Context.stepless = some c.stepless := by
  obtain ⟨c1, here, same, -, quiet1⟩ := State.outPass_apart beside quiet held (fun out => apart (.inl out)) n
  have apart1 : ¬c1.usesPort p := by
    have inPort : c1.inPort = c.inPort := by have e := congrArg Context.inPort same; exact e
    have outPort : c1.outPort = c.outPort := by have e := congrArg Context.outPort same; exact e
    rw [Context.usesPort, inPort, outPort]
    exact apart
  rw [← same]
  exact (State.reachAll_unmeant (inDownCauses_byPorts p n) quiet1 here (inDownCauses_apart apart1 n _)).1

theorem State.linePasses_stays (apart : ∀ i c, v.ctx i = some c → ¬c.usesPort p) (n : NodeId) :
    v.linePasses p n = v := by
  have first : v.reachAll (outDownCauses p n) = v :=
    State.reachAll_stays fun i c held => outDownCauses_apart (fun out => apart i c held (.inl out)) n _
  rw [State.linePasses, first]
  exact State.reachAll_stays fun i c held => inDownCauses_apart (apart i c held) n _

end

/-- Settles O54, by what LINE DOWN makes of the line, of its degree, and of each context in the two passes. -/
theorem lineDownTakesThePortDark : Obligations.LineDownTakesThePortDark := by
  intro s p waits
  have run : exec (.lineDown p) s = .next ((s.popReport p).lineDownOn p) :=
    onReport_eq (row := lineDownRow p) (work := fun s => s.lineDownOn p) waits rfl
  have line : ((s.popReport p).port p).lineIsUp = (s.port p).lineIsUp := by rw [State.popReport_port]
  refine ⟨fun down => ?_, fun up => ?_⟩
  · rw [run, State.lineDownOn, if_neg (by rw [line, down]; exact Bool.false_ne_true)]
  have beside := s.lineLost_beside p
  have port := s.lineLost_port p
  obtain ⟨t, passes⟩ : ∃ t, (s.lineLost p).linePasses p s.nodeId = t := ⟨_, rfl⟩
  have keeps : Keeps (s.lineLost p) t := passes ▸ State.linePasses_keeps _ _ _
  have engines : EngineRun (s.lineLost p) t := passes ▸ State.linePasses_run _ _ _
  have taken : (s.popReport p).lineDownOn p = t := (State.lineDownOn_eq (line.trans up)).trans passes
  have isDown : ((s.lineLost p).port p).lineIsUp = false := by rw [port]
  have own {i : CtxIdx} {c : Context} (pending : (s.port p).swapPending = false) (held : s.ctx i = some c)
      (out : c.outPort = p) (whole : c.tornDown = false) :
      takesCause t i .outPortLineDown c.lostWay .none .lineDown s.nodeId :=
    passes ▸ State.linePasses_own beside isDown (by rw [port]; exact pending) held out whole s.nodeId
  refine ⟨t, run.trans (congrArg _ taken), ?_, ?_, fun d here => ?_, fun d other => ?_,
    passes ▸ State.linePasses_dark beside _, fun i c held out whole lit pending => ?_,
    fun i c d held inPort here out whole lit idle quiet => ?_, fun quiet i c held =>
      ⟨fun out whole => ⟨own (quiet p) held out whole, fun e m apart inPort serves => ?_⟩,
        fun d out inPort here whole => ?_, fun uses td decided retreat open_ => ?_, fun apart => ?_⟩, fun apart => ?_⟩
  · rw [(keeps.ports p).lineIsUp, isDown]
  · rw [(keeps.ports p).reports, port]
  · subst here
    have same := engines.degree d
    rw [State.lineLost, State.darkened_degree] at same
    have adj := congrArg DegreeState.adj same
    have nbr := congrArg DegreeState.nbrId same
    have objects := congrArg DegreeState.objects same
    by_cases down : (s.degree d).adj = .down
    · rw [if_pos (show ((s.popReport (portOf d)).degree d).adj = .down from down)] at adj nbr objects
      exact ⟨adj.trans down, nbr, objects, fun up => absurd down up⟩
    · rw [if_neg (show ¬((s.popReport (portOf d)).degree d).adj = .down from down)] at same adj nbr objects
      refine ⟨adj, nbr, objects, fun _ => ⟨?_, ?_, ?_, ?_, ?_⟩⟩
      · have e := congrArg DegreeState.verif same; exact e
      · have e := congrArg DegreeState.helloTimer same; exact e
      · have e := congrArg DegreeState.deadTimer same; exact e
      · have e := congrArg DegreeState.recoveryTimer same; exact e
      · have e := congrArg DegreeState.identTimer same; exact e
  · have same := engines.degree d
    rw [State.lineLost, ((s.popReport p).darkened_frame p).2.2.2 d other] at same
    exact same
  · have cause := own pending held out whole
    rw [show c.lostWay = .darkJump from if_pos lit] at cause
    exact cause
  · obtain ⟨-, -, closes⟩ := State.linePasses_in beside quiet held out inPort here.symm whole s.nodeId
    rw [passes] at closes
    exact closes lit idle
  · rw [← passes]
    exact State.linePasses_sendsUp beside quiet held out whole _ apart inPort serves
  · obtain ⟨cause, sends, -⟩ := State.linePasses_in beside quiet held out inPort here whole s.nodeId
    rw [passes] at cause sends
    exact ⟨cause, sends⟩
  · rw [← passes]
    exact State.linePasses_turns beside quiet held uses _ decided retreat open_
  · rw [← passes]
    exact State.linePasses_apart beside quiet held apart _
  · have stays : t = s.lineLost p :=
      passes ▸ State.linePasses_stays (fun i c held => apart i c ((beside.ctx i).symm.trans held)) _
    rw [stays, State.lineLost]
    cases degree : degreeOf p with
    | none => rw [State.darkened_of_none degree]; rfl
    | some d =>
      obtain rfl := portOf_of_degreeOf degree
      refine (State.darkened_ring _ d).trans ?_
      by_cases down : (s.degree d).adj = .down
      · exact (if_pos down).trans (if_pos down).symm
      · refine (if_neg down).trans (Eq.trans ?_ (if_neg down).symm)
        exact State.report_ring_congr (s := s) (t := s.popReport (portOf d)) rfl _

end Sys2Proof.Machine
